-- ==== Sys2Proof/Word.lean ====
section
/-! DEFINITION. The word types of the NK812 and the plainest operations on fixed tables of like things. -/

namespace Sys2Proof

/-- One byte of a frame (10.2). -/
abbrev Byte := BitVec 8

/-- A number of the 48-bit timeline (R50). -/
abbrev Tick := BitVec 48

/-- A travel count (R52). -/
abbrev Count := BitVec 32

/-- An insertion serial (R7) or a journal serial (R74). -/
abbrev Serial := BitVec 32

/-- The generation of an action slot (R2). -/
abbrev Gen := BitVec 8

/-- The tag of a request (R134). -/
abbrev Tag := BitVec 16

/-- The sequence number of a report (R160). -/
abbrev Seq := BitVec 16

/-- IN0 to IN7. -/
abbrev InLine := Fin 8

/-- OUT0 to OUT11. -/
abbrev OutLine := Fin 12

/-- Rules 0 to 15. -/
abbrev RuleNo := Fin 16

/-- Slots 0 to 95 (R1). -/
abbrev SlotNo := Fin 96

/-- A pin level. -/
inductive Level
  | low
  | high
  deriving DecidableEq, Repr

/-- Entry `i` of a table. -/
def getAt {α : Type} {n : Nat} (v : Vector α n) (i : Fin n) : α :=
  v[i.val]'i.isLt

/-- The table `v` with entry `i` replaced. -/
def setAt {α : Type} {n : Nat} (v : Vector α n) (i : Fin n) (x : α) : Vector α n :=
  v.set i.val x i.isLt

/-- The table whose entry `i` is `f i`. -/
def tabulate {α : Type} {n : Nat} (f : Fin n → α) : Vector α n :=
  ⟨⟨List.ofFn f⟩, by simp⟩

theorem getAt_setAt {α : Type} {n : Nat} (v : Vector α n) (i j : Fin n) (x : α) :
    getAt (setAt v i x) j = if j = i then x else getAt v j := by
  unfold getAt setAt
  rw [Vector.getElem_set]
  by_cases h : j = i
  · subst h; simp
  · have h' : ¬ i.val = j.val := fun e => h (Fin.ext e.symm)
    simp [h, h']

@[simp] theorem getAt_setAt_self {α : Type} {n : Nat} (v : Vector α n) (i : Fin n) (x : α) :
    getAt (setAt v i x) i = x := by
  simp [getAt_setAt]

@[simp] theorem getAt_setAt_ne {α : Type} {n : Nat} (v : Vector α n) (i j : Fin n) (x : α) (h : j ≠ i) :
    getAt (setAt v i x) j = getAt v j := by
  simp [getAt_setAt, h]

@[simp] theorem getAt_tabulate {α : Type} {n : Nat} (f : Fin n → α) (i : Fin n) :
    getAt (tabulate f) i = f i := by
  simp [getAt, tabulate]

/-- Two tables with the same entries are the same table. -/
theorem table_ext {α : Type} {n : Nat} {v w : Vector α n} (h : ∀ i, getAt v i = getAt w i) : v = w := by
  apply Vector.ext
  intro i hi
  exact h ⟨i, hi⟩

end Sys2Proof
end

