-- ==== Sys2Proof/Config.lean ====
section
/-! DEFINITION. What the manual fixes as capacities and codes, and the one free value of the model. -/

namespace Sys2Proof

/-- FREE VALUE (log entry 3). The manual leaves open which of several events that fall due at one tick is
taken first (R4, R68, R70, R109): the `n`-th such choice takes the event at this place, counted round the
list of the events due. No body: nothing can be proved of its values. -/
opaque Config.eventChoice : Nat → Nat

/-- Ticks in one millisecond: the tick is 20 ns (R50). -/
def Config.ticksPerMs : Nat := 50000

/-- Ticks in one second (R50). -/
def Config.ticksPerSecond : Nat := 50000000

/-- The UART gap, in milliseconds (R138). -/
def Config.gapMs : Nat := 2

/-- Capture journal records (capacity table, R74). -/
def Config.journalCap : Nat := 64

/-- Outbox entries, queued and in flight together (capacity table, R157). -/
def Config.outboxCap : Nat := 32

/-- Reports in flight (capacity table, R159). -/
def Config.flightCap : Nat := 4

/-- Requests in the inbound window (capacity table, R140). -/
def Config.windowCap : Nat := 4

/-- Entries of the recent-responses list (capacity table, R142). -/
def Config.recentCap : Nat := 4

/-- Largest fault count (R170). -/
def Config.faultCountCap : Nat := 65535

/-- Largest rule count and periods completed (R27, R88). -/
def Config.countCap : Nat := 4294967295

/-- The window of a tick comparison: 2^40 ticks on each side of now (R51). -/
def Config.tickWindow : Nat := 2 ^ 40

/-- The window of a travel count comparison (R52). -/
def Config.countWindow : Nat := 2 ^ 30

/-- The code of Faltren (10.7, GET_IDENTITY). -/
def Config.vendorCode : Nat := 0x0F2A

/-- The code of the NK812 (10.7, GET_IDENTITY). -/
def Config.partCode : Nat := 0x0812

/-- The revision letter A in ASCII (10.7, GET_IDENTITY). -/
def Config.revision : Byte := 0x41

end Sys2Proof
end

