-- ==== Sys2Proof/Syntax.lean ====
section
/-! DEFINITION. The commands of the NK812: one constructor of `Instr` per row of the table of operations and
events, with its operands. A request carries its tag and its parameter bytes as the layouts of 10.3 and 10.6
give them, not yet checked: an operand outside its set is answered by the owner block. -/

namespace Sys2Proof

/-- What brought a full reset about (R129). -/
inductive ResetCause
  | power
  | resetLine
  deriving DecidableEq, Repr

/-- One character received: its eight data bits and, on a UART link, the level at which its stop bit was
sampled (R131). A stop bit sampled LOW makes a broken byte. -/
structure RxChar where
  data : Byte
  stop : Level
  deriving DecidableEq, Repr

/-- What the host does on the link's pins (R131, R132, R138): it sends a whole character; on a UART link the start bit of
one; on an SPI link it asserts CSn, or gives one period of SCK with a level on SDI. Where that period ends a byte received
and the last byte of a frame sent, `sentFirst` says that the completion of the frame is taken before the byte (R140). -/
inductive LinkEvent
  | char (c : RxChar)
  | startBit
  | select
  | sck (sdi : Level) (sentFirst : Bool)
  deriving DecidableEq, Repr

/-- A template place of an EDIT_RULE record, as its 13 bytes give it (10.6). -/
structure RawTemplate where
  line : Byte
  offset : BitVec 32
  width : BitVec 24
  repeats : Byte
  interval : BitVec 32
  deriving DecidableEq, Repr

/-- The rule record of EDIT_RULE, as its 68 bytes give it (10.6). -/
structure RawRule where
  enabled : Byte
  matchSet : BitVec 8
  sense : Byte
  edgeKind : Byte
  gateLine : Byte
  gateLevel : Byte
  holdoff : BitVec 32
  limit : BitVec 16
  base : Byte
  templateCount : Byte
  reportFired : Byte
  reportDone : Byte
  t0 : RawTemplate
  t1 : RawTemplate
  t2 : RawTemplate
  t3 : RawTemplate
  deriving DecidableEq, Repr

/-- The request codes of 10.3. -/
inductive Code
  | ping | getIdentity | setLinkRate
  | arm | disarm | recover | getStatus | setSupervision | restart
  | schedulePulse | cancelAction | cancelLine | listSchedule | setSchedule
  | setOutput | setLevel | trainLoad | trainStart | trainStop | getOutputs
  | getTime | setTravelSource | setSync | armSync | cancelSync
  | setInput | getInputs | readJournal | setJournal
  | editRule | readRule | readRuleStats | discardStaged | resetRuleCounts | commitRules
  | setReporting | readFaults | clearFaults | setFaultMasks
  deriving DecidableEq, Repr

/-- The commands of the block. A request row is the arrival of its frame, with its checks passed, and all
that this brings about within the one event; an event row is the event. -/
inductive Instr
  /-- Power-on, or the release of RESETn, with LINKSEL sampled (R129, R130). -/
  | fullReset (cause : ResetCause) (linkSel : Level)
  | ping (tag : Tag) (data : List Byte)
  | getIdentity (tag : Tag)
  | setLinkRate (tag : Tag) (rate : BitVec 32)
  | arm (tag : Tag)
  | disarmWait (tag : Tag)
  | disarmFlush (tag : Tag)
  | recover (tag : Tag)
  | getStatus (tag : Tag)
  | setSupervision (tag : Tag) (limit : BitVec 16)
  | restartKeep (tag : Tag)
  | restartClear (tag : Tag)
  | schedulePulse (tag : Tag) (line base dueMode : Byte) (due : BitVec 48) (width : BitVec 24)
      (repeats : Byte) (interval : BitVec 32) (reportDone : Byte)
  | cancelActionAbort (tag : Tag) (slot : Byte) (gen : Gen)
  | cancelActionFinish (tag : Tag) (slot : Byte) (gen : Gen)
  | cancelLineAbort (tag : Tag) (line : Byte)
  | cancelLineFinish (tag : Tag) (line : Byte)
  | listSchedule (tag : Tag) (list start maximum : Byte)
  | setSchedule (tag : Tag) (lateTicks : BitVec 16) (lateCounts policy reserve : Byte)
  | setOutput (tag : Tag) (line mode idle safe policy : Byte)
  | setLevel (tag : Tag) (line level : Byte)
  | trainLoad (tag : Tag) (line : Byte) (period high : BitVec 24)
  | trainStart (tag : Tag) (line : Byte) (burst : BitVec 16)
  | trainStopNow (tag : Tag) (line : Byte)
  | trainStopAtPeriodEnd (tag : Tag) (line : Byte)
  | getOutputs (tag : Tag)
  | getTime (tag : Tag)
  | setTravelSource (tag : Tag) (source : Byte)
  | setSync (tag : Tag) (width : BitVec 16) (reporting : Byte)
  | armSync (tag : Tag) (preset : Tick)
  | cancelSync (tag : Tag)
  | setInput (tag : Tag) (line edgeSelect : Byte) (width : BitVec 16) (journalEnable : Byte)
  | getInputs (tag : Tag)
  | readJournal (tag : Tag) (count : Byte)
  | setJournal (tag : Tag) (watermark empty : Byte)
  | editRule (tag : Tag) (rule : Byte) (record : RawRule)
  | readRule (tag : Tag) (rule copy : Byte)
  | readRuleStats (tag : Tag) (first number : Byte)
  | discardStaged (tag : Tag)
  | resetRuleCounts (tag : Tag) (rules : BitVec 16)
  | commitRules (tag : Tag)
  | setReporting (tag : Tag) (kinds interval : BitVec 16) (maxRetries : Byte)
  | readFaults (tag : Tag)
  | clearFaults (tag : Tag) (kinds : BitVec 16)
  | setFaultMasks (tag : Tag) (fatal report : BitVec 16)
  /-- A request frame given by its payload, byte for byte: the row of requests that are answered
  BAD_LENGTH or BAD_CODE (R141, R182). -/
  | unknownRequest (tag : Tag) (payload : List Byte)
  | ack (seq : Seq)
  /-- What the host does on the link's pins, taken in order, its characters by the receive assembler (R136, R137). -/
  | badFrame (received : List LinkEvent)
  | gapTimerExpiry
  | csnDeassert
  | transmitComplete
  | retryIntervalExpiry (seq : Seq)
  | silenceTimerExpiry
  | timeListExpiry
  | trainHighTimeEnd (line : OutLine)
  | trainPeriodEnd (line : OutLine)
  /-- IN `line` is sampled at `level` (R66). -/
  | inputRawChange (line : InLine) (level : Level)
  | inputEdgeAccepted (line : InLine)
  | syncRawChange (level : Level)
  | syncEdgeAccepted
  | resetnDrivenLow
  deriving DecidableEq, Repr

end Sys2Proof
end

