-- ==== Sys2Proof/WellFormed.lean ====
section
/-! DEFINITION. Which commands can stand on the link or on the pins at all. A parameter value outside its set
is NOT ill formed: the owner block answers it (BAD_VALUE). -/

namespace Sys2Proof

/-- The largest payload of a frame (R134). -/
def maxPayload : Nat := 240

/-- A command that a frame or an event can carry: a PING payload (with its code byte) and a payload given
byte for byte fit in a frame (R134), and a reception brings something. -/
def Instr.wellFormed : Instr → Bool
  | .ping _ data => data.length + 1 ≤ maxPayload
  | .unknownRequest _ payload => payload.length ≤ maxPayload
  | .badFrame received => !received.isEmpty
  | _ => true

end Sys2Proof
end

