-- ==== Sys2Proof/Decode.lean ====
section
/-! DEFINITION. The bytes of the host link: byte order (R181), the request codes with their lengths (10.3,
R182), a request payload read as a command and written from one, the frame and its CRC (R135, 10.2). The
table of operations gives no row any bits, so `decodeTableWord` answers none. -/

namespace Sys2Proof

/-! ## Byte order (R181) -/

/-- The `n` low bytes of `v`, least significant first. -/
def leBytes : Nat → Nat → List Byte
  | 0, _ => []
  | n + 1, v => BitVec.ofNat 8 v :: leBytes n (v / 256)

/-- The number that bytes carry, least significant first. -/
def ofLeBytes : List Byte → Nat
  | [] => 0
  | b :: bs => b.toNat + 256 * ofLeBytes bs

/-- The number in the field of `width` bytes at `offset` of a payload. -/
def fieldAt (p : List Byte) (offset width : Nat) : Nat :=
  ofLeBytes ((p.drop offset).take width)

/-- The byte at `offset` of a payload. -/
def byteAt (p : List Byte) (offset : Nat) : Byte :=
  p.getD offset 0

/-! ## Request codes and lengths (10.3) -/

/-- The request code byte (10.3). -/
def Code.byte : Code → Byte
  | .ping => 0x01
  | .getIdentity => 0x02
  | .setLinkRate => 0x03
  | .arm => 0x10
  | .disarm => 0x11
  | .recover => 0x12
  | .getStatus => 0x13
  | .setSupervision => 0x14
  | .restart => 0x15
  | .schedulePulse => 0x20
  | .cancelAction => 0x21
  | .cancelLine => 0x22
  | .listSchedule => 0x23
  | .setSchedule => 0x24
  | .setOutput => 0x30
  | .setLevel => 0x31
  | .trainLoad => 0x32
  | .trainStart => 0x33
  | .trainStop => 0x34
  | .getOutputs => 0x35
  | .getTime => 0x40
  | .setTravelSource => 0x41
  | .setSync => 0x42
  | .armSync => 0x43
  | .cancelSync => 0x44
  | .setInput => 0x50
  | .getInputs => 0x51
  | .readJournal => 0x52
  | .setJournal => 0x53
  | .editRule => 0x60
  | .readRule => 0x61
  | .readRuleStats => 0x62
  | .discardStaged => 0x63
  | .resetRuleCounts => 0x64
  | .commitRules => 0x65
  | .setReporting => 0x70
  | .readFaults => 0x78
  | .clearFaults => 0x79
  | .setFaultMasks => 0x7A

/-- Every request code, in the order of 10.3. -/
def allCodes : List Code :=
  [.ping, .getIdentity, .setLinkRate, .arm, .disarm, .recover, .getStatus, .setSupervision, .restart,
   .schedulePulse, .cancelAction, .cancelLine, .listSchedule, .setSchedule,
   .setOutput, .setLevel, .trainLoad, .trainStart, .trainStop, .getOutputs,
   .getTime, .setTravelSource, .setSync, .armSync, .cancelSync,
   .setInput, .getInputs, .readJournal, .setJournal,
   .editRule, .readRule, .readRuleStats, .discardStaged, .resetRuleCounts, .commitRules,
   .setReporting, .readFaults, .clearFaults, .setFaultMasks]

/-- The request that a code byte names, if it is a request code. -/
def codeOf (b : Byte) : Option Code :=
  allCodes.find? (fun c => c.byte == b)

/-- The least and the largest payload length of a request, its code included (10.3, R182). -/
def Code.lengths : Code → Nat × Nat
  | .ping => (1, 17)
  | .getIdentity | .arm | .recover | .getStatus | .getOutputs | .getTime | .cancelSync | .getInputs
  | .discardStaged | .commitRules | .readFaults => (1, 1)
  | .disarm | .restart | .setTravelSource | .readJournal => (2, 2)
  | .setSupervision | .cancelLine | .setLevel | .trainStop | .setJournal | .readRule | .readRuleStats
  | .resetRuleCounts | .clearFaults => (3, 3)
  | .cancelAction | .listSchedule | .trainStart | .setSync => (4, 4)
  | .setLinkRate | .setFaultMasks => (5, 5)
  | .setSchedule | .setOutput | .setInput | .setReporting => (6, 6)
  | .armSync => (7, 7)
  | .trainLoad => (8, 8)
  | .schedulePulse => (19, 19)
  | .editRule => (70, 70)

/-! ## Reading a request payload (10.3, 10.6, R141, R182) -/

/-- What a request payload is, before its owner block sees it. -/
inductive RequestForm
  /-- The payload is empty, or its length is not the one its code requires: BAD_LENGTH with this echo. -/
  | badLength (echo : Byte)
  /-- The code is no request code: BAD_CODE with this echo. -/
  | badCode (echo : Byte)
  /-- A mode byte outside its set, in a request whose modes are commands of their own (DISARM, RESTART,
  CANCEL_ACTION, CANCEL_LINE, TRAIN_STOP): its owner answers BAD_VALUE. -/
  | badMode (code : Code)
  /-- A command. -/
  | command (i : Instr)
  deriving DecidableEq, Repr

/-- The template place at `offset` of an EDIT_RULE payload (10.6). -/
def readTemplate (p : List Byte) (offset : Nat) : RawTemplate where
  line := byteAt p offset
  offset := BitVec.ofNat 32 (fieldAt p (offset + 1) 4)
  width := BitVec.ofNat 24 (fieldAt p (offset + 5) 3)
  repeats := byteAt p (offset + 8)
  interval := BitVec.ofNat 32 (fieldAt p (offset + 9) 4)

/-- The rule record at `o` of an EDIT_RULE payload (10.6). -/
def readRecord (p : List Byte) (o : Nat) : RawRule where
  enabled := byteAt p o
  matchSet := byteAt p (o + 1)
  sense := byteAt p (o + 2)
  edgeKind := byteAt p (o + 3)
  gateLine := byteAt p (o + 4)
  gateLevel := byteAt p (o + 5)
  holdoff := BitVec.ofNat 32 (fieldAt p (o + 6) 4)
  limit := BitVec.ofNat 16 (fieldAt p (o + 10) 2)
  base := byteAt p (o + 12)
  templateCount := byteAt p (o + 13)
  reportFired := byteAt p (o + 14)
  reportDone := byteAt p (o + 15)
  t0 := readTemplate p (o + 16)
  t1 := readTemplate p (o + 29)
  t2 := readTemplate p (o + 42)
  t3 := readTemplate p (o + 55)

/-- A two-valued mode byte: the command of value 0, of value 1, or a mode outside the set. -/
def modeForm (c : Code) (mode : Byte) (zero one : Instr) : RequestForm :=
  if mode = 0 then .command zero else if mode = 1 then .command one else .badMode c

/-- A payload of a known code and of the right length, read as 10.3 and 10.6 lay it out. -/
def readParameters (tag : Tag) (c : Code) (p : List Byte) : RequestForm :=
  match c with
  | .ping => .command (.ping tag (p.drop 1))
  | .getIdentity => .command (.getIdentity tag)
  | .setLinkRate => .command (.setLinkRate tag (BitVec.ofNat 32 (fieldAt p 1 4)))
  | .arm => .command (.arm tag)
  | .disarm => modeForm c (byteAt p 1) (.disarmWait tag) (.disarmFlush tag)
  | .recover => .command (.recover tag)
  | .getStatus => .command (.getStatus tag)
  | .setSupervision => .command (.setSupervision tag (BitVec.ofNat 16 (fieldAt p 1 2)))
  | .restart => modeForm c (byteAt p 1) (.restartKeep tag) (.restartClear tag)
  | .schedulePulse =>
    .command (.schedulePulse tag (byteAt p 1) (byteAt p 2) (byteAt p 3) (BitVec.ofNat 48 (fieldAt p 4 6))
      (BitVec.ofNat 24 (fieldAt p 10 3)) (byteAt p 13) (BitVec.ofNat 32 (fieldAt p 14 4)) (byteAt p 18))
  | .cancelAction =>
    modeForm c (byteAt p 3) (.cancelActionAbort tag (byteAt p 1) (byteAt p 2))
      (.cancelActionFinish tag (byteAt p 1) (byteAt p 2))
  | .cancelLine =>
    modeForm c (byteAt p 2) (.cancelLineAbort tag (byteAt p 1)) (.cancelLineFinish tag (byteAt p 1))
  | .listSchedule => .command (.listSchedule tag (byteAt p 1) (byteAt p 2) (byteAt p 3))
  | .setSchedule =>
    .command (.setSchedule tag (BitVec.ofNat 16 (fieldAt p 1 2)) (byteAt p 3) (byteAt p 4) (byteAt p 5))
  | .setOutput =>
    .command (.setOutput tag (byteAt p 1) (byteAt p 2) (byteAt p 3) (byteAt p 4) (byteAt p 5))
  | .setLevel => .command (.setLevel tag (byteAt p 1) (byteAt p 2))
  | .trainLoad =>
    .command (.trainLoad tag (byteAt p 1) (BitVec.ofNat 24 (fieldAt p 2 3)) (BitVec.ofNat 24 (fieldAt p 5 3)))
  | .trainStart => .command (.trainStart tag (byteAt p 1) (BitVec.ofNat 16 (fieldAt p 2 2)))
  | .trainStop =>
    modeForm c (byteAt p 2) (.trainStopNow tag (byteAt p 1)) (.trainStopAtPeriodEnd tag (byteAt p 1))
  | .getOutputs => .command (.getOutputs tag)
  | .getTime => .command (.getTime tag)
  | .setTravelSource => .command (.setTravelSource tag (byteAt p 1))
  | .setSync => .command (.setSync tag (BitVec.ofNat 16 (fieldAt p 1 2)) (byteAt p 3))
  | .armSync => .command (.armSync tag (BitVec.ofNat 48 (fieldAt p 1 6)))
  | .cancelSync => .command (.cancelSync tag)
  | .setInput =>
    .command (.setInput tag (byteAt p 1) (byteAt p 2) (BitVec.ofNat 16 (fieldAt p 3 2)) (byteAt p 5))
  | .getInputs => .command (.getInputs tag)
  | .readJournal => .command (.readJournal tag (byteAt p 1))
  | .setJournal => .command (.setJournal tag (byteAt p 1) (byteAt p 2))
  | .editRule => .command (.editRule tag (byteAt p 1) (readRecord p 2))
  | .readRule => .command (.readRule tag (byteAt p 1) (byteAt p 2))
  | .readRuleStats => .command (.readRuleStats tag (byteAt p 1) (byteAt p 2))
  | .discardStaged => .command (.discardStaged tag)
  | .resetRuleCounts => .command (.resetRuleCounts tag (BitVec.ofNat 16 (fieldAt p 1 2)))
  | .commitRules => .command (.commitRules tag)
  | .setReporting =>
    .command (.setReporting tag (BitVec.ofNat 16 (fieldAt p 1 2)) (BitVec.ofNat 16 (fieldAt p 3 2)) (byteAt p 5))
  | .readFaults => .command (.readFaults tag)
  | .clearFaults => .command (.clearFaults tag (BitVec.ofNat 16 (fieldAt p 1 2)))
  | .setFaultMasks =>
    .command (.setFaultMasks tag (BitVec.ofNat 16 (fieldAt p 1 2)) (BitVec.ofNat 16 (fieldAt p 3 2)))

/-- A request payload: its code and its length are checked before anything else of it is read (R141, R182). -/
def decodeRequest (tag : Tag) (p : List Byte) : RequestForm :=
  match p with
  | [] => .badLength 0
  | b :: _ =>
    match codeOf b with
    | none => .badCode b
    | some c =>
      if c.lengths.1 ≤ p.length ∧ p.length ≤ c.lengths.2 then readParameters tag c p else .badLength b

/-! ## Writing a request payload (10.3, 10.6) -/

/-- The 13 bytes of a template place (10.6). -/
def RawTemplate.bytes (t : RawTemplate) : List Byte :=
  t.line :: leBytes 4 t.offset.toNat ++ leBytes 3 t.width.toNat ++ t.repeats :: leBytes 4 t.interval.toNat

/-- The 68 bytes of a rule record (10.6). -/
def RawRule.bytes (r : RawRule) : List Byte :=
  [r.enabled, r.matchSet, r.sense, r.edgeKind, r.gateLine, r.gateLevel] ++ leBytes 4 r.holdoff.toNat
    ++ leBytes 2 r.limit.toNat ++ [r.base, r.templateCount, r.reportFired, r.reportDone]
    ++ r.t0.bytes ++ r.t1.bytes ++ r.t2.bytes ++ r.t3.bytes

/-- The tag and the payload of a request command as the host sends it; none for a command that is no
request of one fixed code. -/
def encodeRequest : Instr → Option (Tag × List Byte)
  | .ping t data => some (t, Code.ping.byte :: data)
  | .getIdentity t => some (t, [Code.getIdentity.byte])
  | .setLinkRate t r => some (t, Code.setLinkRate.byte :: leBytes 4 r.toNat)
  | .arm t => some (t, [Code.arm.byte])
  | .disarmWait t => some (t, [Code.disarm.byte, 0])
  | .disarmFlush t => some (t, [Code.disarm.byte, 1])
  | .recover t => some (t, [Code.recover.byte])
  | .getStatus t => some (t, [Code.getStatus.byte])
  | .setSupervision t l => some (t, Code.setSupervision.byte :: leBytes 2 l.toNat)
  | .restartKeep t => some (t, [Code.restart.byte, 0])
  | .restartClear t => some (t, [Code.restart.byte, 1])
  | .schedulePulse t line base mode due width repeats interval done =>
    some (t, [Code.schedulePulse.byte, line, base, mode] ++ leBytes 6 due.toNat ++ leBytes 3 width.toNat
      ++ repeats :: leBytes 4 interval.toNat ++ [done])
  | .cancelActionAbort t slot gen => some (t, [Code.cancelAction.byte, slot, gen, 0])
  | .cancelActionFinish t slot gen => some (t, [Code.cancelAction.byte, slot, gen, 1])
  | .cancelLineAbort t line => some (t, [Code.cancelLine.byte, line, 0])
  | .cancelLineFinish t line => some (t, [Code.cancelLine.byte, line, 1])
  | .listSchedule t list start maximum => some (t, [Code.listSchedule.byte, list, start, maximum])
  | .setSchedule t ticks counts policy reserve =>
    some (t, Code.setSchedule.byte :: leBytes 2 ticks.toNat ++ [counts, policy, reserve])
  | .setOutput t line mode idle safe policy => some (t, [Code.setOutput.byte, line, mode, idle, safe, policy])
  | .setLevel t line level => some (t, [Code.setLevel.byte, line, level])
  | .trainLoad t line period high =>
    some (t, [Code.trainLoad.byte, line] ++ leBytes 3 period.toNat ++ leBytes 3 high.toNat)
  | .trainStart t line burst => some (t, [Code.trainStart.byte, line] ++ leBytes 2 burst.toNat)
  | .trainStopNow t line => some (t, [Code.trainStop.byte, line, 0])
  | .trainStopAtPeriodEnd t line => some (t, [Code.trainStop.byte, line, 1])
  | .getOutputs t => some (t, [Code.getOutputs.byte])
  | .getTime t => some (t, [Code.getTime.byte])
  | .setTravelSource t source => some (t, [Code.setTravelSource.byte, source])
  | .setSync t width reporting => some (t, Code.setSync.byte :: leBytes 2 width.toNat ++ [reporting])
  | .armSync t preset => some (t, Code.armSync.byte :: leBytes 6 preset.toNat)
  | .cancelSync t => some (t, [Code.cancelSync.byte])
  | .setInput t line select width enable =>
    some (t, [Code.setInput.byte, line, select] ++ leBytes 2 width.toNat ++ [enable])
  | .getInputs t => some (t, [Code.getInputs.byte])
  | .readJournal t count => some (t, [Code.readJournal.byte, count])
  | .setJournal t watermark empty => some (t, [Code.setJournal.byte, watermark, empty])
  | .editRule t rule record => some (t, [Code.editRule.byte, rule] ++ record.bytes)
  | .readRule t rule copy => some (t, [Code.readRule.byte, rule, copy])
  | .readRuleStats t first number => some (t, [Code.readRuleStats.byte, first, number])
  | .discardStaged t => some (t, [Code.discardStaged.byte])
  | .resetRuleCounts t rules => some (t, Code.resetRuleCounts.byte :: leBytes 2 rules.toNat)
  | .commitRules t => some (t, [Code.commitRules.byte])
  | .setReporting t kinds interval retries =>
    some (t, Code.setReporting.byte :: leBytes 2 kinds.toNat ++ leBytes 2 interval.toNat ++ [retries])
  | .readFaults t => some (t, [Code.readFaults.byte])
  | .clearFaults t kinds => some (t, Code.clearFaults.byte :: leBytes 2 kinds.toNat)
  | .setFaultMasks t fatal report =>
    some (t, Code.setFaultMasks.byte :: leBytes 2 fatal.toNat ++ leBytes 2 report.toNat)
  | .fullReset _ _ | .unknownRequest _ _ | .ack _ | .badFrame _ | .gapTimerExpiry | .csnDeassert
  | .transmitComplete | .retryIntervalExpiry _ | .silenceTimerExpiry | .timeListExpiry
  | .trainHighTimeEnd _ | .trainPeriodEnd _ | .inputRawChange _ _ | .inputEdgeAccepted _
  | .syncRawChange _ | .syncEdgeAccepted | .resetnDrivenLow => none

/-! ## Frames and their CRC (R134, R135, 10.2) -/

/-- The four kinds of frame. -/
inductive FrameKind
  | request
  | response
  | report
  | ack
  deriving DecidableEq, Repr

/-- The kind byte (10.2). -/
def FrameKind.byte : FrameKind → Byte
  | .request => 0x51
  | .response => 0x52
  | .report => 0x53
  | .ack => 0x54

/-- A frame without its sync byte, length and CRC, which follow from the rest. -/
structure Frame where
  kind : FrameKind
  tag : BitVec 16
  payload : List Byte
  deriving DecidableEq, Repr

/-- The sync byte (10.2). -/
def syncByte : Byte := 0xA5

/-- One bit into the CRC register (R135). -/
def crcBit (reg : BitVec 16) (bit : Bool) : BitVec 16 :=
  let shifted := reg <<< 1
  if reg.msb != bit then shifted ^^^ 0x1021 else shifted

/-- One byte into the CRC register, most significant bit first (R135). -/
def crcByte (reg : BitVec 16) (b : Byte) : BitVec 16 :=
  ([7, 6, 5, 4, 3, 2, 1, 0].map b.getLsbD).foldl crcBit reg

/-- The CRC of a run of bytes, the register starting at 0xFFFF (R135). -/
def crc16 (bs : List Byte) : BitVec 16 :=
  bs.foldl crcByte 0xFFFF

/-- The bytes the CRC covers: kind, tag or sequence, length, payload (R135). -/
def Frame.covered (f : Frame) : List Byte :=
  f.kind.byte :: leBytes 2 f.tag.toNat ++ BitVec.ofNat 8 f.payload.length :: f.payload

/-- The bytes of a frame on the link, 7 + length of them (10.2). -/
def Frame.bytes (f : Frame) : List Byte :=
  syncByte :: f.covered ++ leBytes 2 (crc16 f.covered).toNat

/-- The ten bits of a byte on a UART link: one start bit LOW, eight data bits least significant first, one
stop bit HIGH (R131). -/
def uartBits (b : Byte) : List Level :=
  let bit (x : Bool) : Level := if x then .high else .low
  .low :: ([0, 1, 2, 3, 4, 5, 6, 7].map (fun k => bit (b.getLsbD k))) ++ [.high]

/-- The eight bits of a byte on an SPI link, most significant first (R132). -/
def spiBits (b : Byte) : List Level :=
  [7, 6, 5, 4, 3, 2, 1, 0].map (fun k => if b.getLsbD k then .high else .low)

/-! ## The table of operations -/

/-- The command that a word spells by the table's bits. The table gives no row any bits (its rows have no
`fixed` and no `fields`), so no word spells a command (log entry 25). -/
def decodeTableWord (_nbits _w : Nat) : Option Instr :=
  none

end Sys2Proof
end

