-- ==== Sys2Proof/Machine/Blocks.lean ====
section
/-! DEFINITION. The state that each of the ten blocks owns, as plain data: the records and lists that the
chapters' state tables give, field by field. -/

namespace Sys2Proof.Machine

/-! ## Names with a fixed set of values (10.4) -/

/-- The run state (R116). -/
inductive RunState
  | standby | armed | draining | faulted
  deriving DecidableEq, Repr

/-- The mode of an output line (R27). -/
inductive OutMode
  | static | sequenced | train
  deriving DecidableEq, Repr

/-- What a START does on a line that has a holder (R27). -/
inductive Policy
  | refuse | retrigger | merge
  deriving DecidableEq, Repr

/-- The unit of a due and an interval. -/
inductive Base
  | time | travel
  deriving DecidableEq, Repr

/-- How a rule's match set is read (R85). -/
inductive Sense
  | positive | negative
  deriving DecidableEq, Repr

/-- The edges of an input that reach the journal and the rules (R65). -/
inductive EdgeSelect
  | none | rising | falling | both
  deriving DecidableEq, Repr

/-- The kind of an accepted edge (R67). -/
inductive EdgeKind
  | rising | falling
  deriving DecidableEq, Repr

/-- The kinds of edge a rule matches (R85). -/
inductive RuleEdge
  | rising | falling | either
  deriving DecidableEq, Repr

/-- What becomes of a late START (R14). -/
inductive LatePolicy
  | fire | skip
  deriving DecidableEq, Repr

/-- The phase of a time-list entry: a START or an END (R5). -/
inductive Phase
  | start | finish
  deriving DecidableEq, Repr

/-- The state of a rule (R88). -/
inductive RuleState
  | idle | listening | spent
  deriving DecidableEq, Repr

/-- Why a slot was freed (R13). -/
inductive Ended
  | complete | completeEarly | cancelled | flushed
  deriving DecidableEq, Repr

/-- ABORT or FINISH (R19). -/
inductive CancelMode
  | abort | finish
  deriving DecidableEq, Repr

/-- KEEP or CLEAR (R128). -/
inductive RestartMode
  | keep | clear
  deriving DecidableEq, Repr

/-- UART or SPI (R130). -/
inductive LinkType
  | uart | spi
  deriving DecidableEq, Repr

/-- The five UART rates (R148). -/
inductive LinkRate
  | b115200 | b230400 | b460800 | b921600 | b2000000
  deriving DecidableEq, Repr

/-- The twelve report kinds (R152). -/
inductive ReportKind
  | resetDone | runState | fault
  | firingDropped | collision | late | ruleSpent | syncSeen
  | fired | actionDone | journalLevel | trainDone
  deriving DecidableEq, Repr

/-- The classes of report (R152). -/
inductive ReportClass
  | a | b | c
  deriving DecidableEq, Repr

/-- The eleven fault kinds (R171). -/
inductive FaultKind
  | frameCrc | frameMalformed | inboundOverflow | ackUnknown | reportExpired | reportOverflow
  | journalLost | poolExhausted | actionLate | collision | hostSilent
  deriving DecidableEq, Repr

/-- The status of a response (R145). -/
inductive Status
  | ok | badLength | badCode | badValue | state | busy | noSlot | notFound | lineMode | lineInUse
  | invalidRule
  deriving DecidableEq, Repr

/-- The cause of a RESET_DONE report (R153). -/
inductive ResetDoneCause
  | power | resetLine | restartKeep | restartClear
  deriving DecidableEq, Repr

/-! ## Timebase (Chapter 3) -/

/-- A raw change waiting to be accepted: its tick and the new level (R55, R65). -/
structure Qualification where
  rawTick : Tick
  level : Level
  deriving DecidableEq, Repr

/-- The state of the Timebase. SYNC is armed exactly while `preset` is present (state table of Chapter 3). -/
structure Timebase where
  /-- R50 -/
  timeline : Tick
  /-- R52 -/
  travelCount : Count
  /-- R54; absent: none -/
  source : Option InLine
  /-- SYNC filter width, 0 to 1023 ticks -/
  syncWidth : Nat
  /-- SYNC reporting, on or off -/
  syncReporting : Bool
  /-- the level of the SYNC pin at the last tick sampled -/
  syncRaw : Level
  /-- the clock at the last sample of the SYNC pin that a command gave: a pin has one sample a tick (R55, R66) -/
  syncSampledAt : Option Nat
  syncFiltered : Level
  syncQual : Option Qualification
  /-- the preset; present while SYNC is armed (R58) -/
  preset : Option Tick
  /-- last SYNC timestamp (R57) -/
  lastSync : Option Tick
  deriving DecidableEq, Repr

/-! ## Input Capture Unit and Capture Journal (Chapter 4) -/

/-- The input record of one line (R65). -/
structure Input where
  edgeSelect : EdgeSelect
  /-- 0 to 1023 ticks -/
  width : Nat
  journalEnable : Bool
  raw : Level
  /-- the clock at the last sample of the pin that a command gave: a pin has one sample a tick (R66) -/
  sampledAt : Option Nat
  filtered : Level
  qual : Option Qualification
  /-- 0 to 65535, saturating -/
  glitches : Nat
  deriving DecidableEq, Repr

/-- An edge record of the journal (R74). -/
structure EdgeRecord where
  serial : Serial
  line : InLine
  kind : EdgeKind
  timestamp : Tick
  travelCount : Count
  /-- lost before; present when edges were lost since the record before -/
  lostBefore : Option Nat
  deriving DecidableEq, Repr

/-- The Capture Journal (R74). The fill is the length of `records`. -/
structure Journal where
  /-- oldest first -/
  records : List EdgeRecord
  nextSerial : Serial
  /-- 0 to 65535, saturating -/
  lostRun : Nat
  watermark : Nat
  watermarkArmed : Bool
  deriving DecidableEq, Repr

/-- The edge event of an accepted edge (R69). -/
structure EdgeEvent where
  line : InLine
  kind : EdgeKind
  timestamp : Tick
  travelCount : Count
  deriving DecidableEq, Repr

/-! ## Rule Engine (Chapter 5) -/

/-- A template (R86). -/
structure Template where
  line : OutLine
  offset : BitVec 32
  width : BitVec 24
  repeats : Nat
  interval : Option (BitVec 32)
  deriving DecidableEq, Repr

/-- A rule record (R85). The match set is the group of member bits of 10.5. -/
structure RuleRecord where
  enabled : Bool
  matchSet : BitVec 8
  sense : Sense
  edgeKind : RuleEdge
  gate : Option (InLine × Level)
  holdoff : BitVec 32
  limit : Option Nat
  base : Base
  templates : List Template
  reportFired : Bool
  reportDone : Bool
  deriving DecidableEq, Repr

/-- A rule: its two copies, its dirty flag (R87) and its per-rule state (R88). -/
structure Rule where
  active : RuleRecord
  staged : RuleRecord
  dirty : Bool
  state : RuleState
  generation : BitVec 16
  fired : Nat
  suppressed : Nat
  gated : Nat
  dropped : Nat
  lastFiring : Option Tick
  deriving DecidableEq, Repr

/-! ## Action Scheduler (Chapter 1) -/

/-- The name of an action: slot.gen (R3). -/
structure Handle where
  slot : SlotNo
  gen : Gen
  deriving DecidableEq, Repr

/-- Who created an action (R2). -/
inductive Origin
  | host (tag : Tag)
  | rule (rule : RuleNo) (generation : BitVec 16) (serial : Nat)
  deriving DecidableEq, Repr

/-- A due point: a tick or a travel count. It fixes the action's base (R2). -/
inductive Due
  | time (t : Tick)
  | travel (c : Count)
  deriving DecidableEq, Repr

/-- The record of an action (R2), less what its slot's state carries. -/
structure Action where
  origin : Origin
  line : OutLine
  due : Due
  /-- 1 to 16,777,215 ticks -/
  width : BitVec 24
  repeatsLeft : Nat
  /-- present when the action was created with repeats above 0 -/
  interval : Option (BitVec 32)
  fired : Nat
  skipped : Nat
  reportDone : Bool
  finishRequested : Bool
  deriving DecidableEq, Repr

/-- The state of a slot with the record it holds (R1, R2): the end is present only in HOLDING, and a FREE slot
has no fields. -/
inductive SlotState
  | free
  | waiting (a : Action)
  | holding (a : Action) (finish : Tick)
  deriving DecidableEq, Repr

/-- One slot of the pool (R2). -/
structure Slot where
  gen : Gen
  state : SlotState
  deriving DecidableEq, Repr

/-- An entry of the time list (R5). -/
structure TimeEntry where
  handle : Handle
  phase : Phase
  key : Tick
  serial : Serial
  deriving DecidableEq, Repr

/-- An entry of the travel list (R6). -/
structure TravelEntry where
  handle : Handle
  key : Count
  serial : Serial
  deriving DecidableEq, Repr

/-- The Action Scheduler (R1 to R7, R14, R4). -/
structure Scheduler where
  slots : Vector Slot 96
  timeList : List TimeEntry
  travelList : List TravelEntry
  /-- the insertion serial the next entry receives (R7) -/
  nextSerial : Serial
  lateTicks : Nat
  lateCounts : Nat
  latePolicy : LatePolicy
  reserve : Nat
  deriving DecidableEq, Repr

/-! ## Output Stage (Chapter 2) -/

/-- The period and the high time of a train (R27). -/
structure TrainValues where
  period : BitVec 24
  high : BitVec 24
  deriving DecidableEq, Repr

/-- The output record of one line (R27). `inHigh` is the part of the current period: its high part has not run
out yet (R37). The asserted level is the opposite of the idle level and is not held. -/
structure Output where
  mode : OutMode
  idle : Level
  safe : Level
  setLevel : Level
  policy : Policy
  /-- in order of joining (R29) -/
  holders : List Handle
  staged : Option TrainValues
  stagedPending : Bool
  applied : Option TrainValues
  running : Bool
  burst : Nat
  periodsCompleted : Nat
  periodStart : Option Tick
  stopAtEnd : Bool
  inHigh : Bool
  deriving DecidableEq, Repr

/-! ## Run Control (Chapter 6) -/

/-- Run Control. The silence timer is stopped when `silence` is absent; while running, `silence` is the clock
at its last restart (R125). -/
structure RunControl where
  state : RunState
  /-- 0 (off) or 10 to 60000 ms -/
  silenceLimit : Nat
  silence : Option Nat
  deriving DecidableEq, Repr

/-! ## Fault Table (Chapter 9) -/

/-- The detail of a counting (R171). -/
inductive FaultDetail
  | sequence (seq : Seq)
  | expired (seq : Seq) (kind : ReportKind)
  | report (kind : ReportKind)
  | input (line : InLine)
  | hostOrigin (tag : Tag)
  | ruleOrigin (rule : RuleNo)
  | handle (h : Handle)
  | output (line : OutLine)
  deriving DecidableEq, Repr

/-- A fault entry (R170). -/
structure FaultEntry where
  count : Nat
  first : Option Tick
  last : Option Tick
  detail : Option FaultDetail
  deriving DecidableEq, Repr

/-- The Fault Table. The entries stand by fault kind code, the sets as the group of member bits of 10.5. -/
structure FaultTable where
  entries : Vector FaultEntry 11
  fatal : BitVec 11
  report : BitVec 11
  deriving DecidableEq, Repr

/-! ## Report Unit (Chapter 8) -/

/-- The cause of a change of run state (R117). -/
inductive RunCause
  | request
  | drainComplete
  | fatal (kind : FaultKind)
  deriving DecidableEq, Repr

/-- The bodies of the twelve kinds of report (R153 to R155). -/
inductive ReportBody
  | resetDone (cause : ResetDoneCause)
  | runState (state : RunState) (cause : RunCause) (discarded : Nat)
  | fault (kind : FaultKind) (count : Nat) (detail : Option FaultDetail)
  | firingDropped (rule : RuleNo) (line : InLine) (timestamp : Tick) (asked free : Nat)
  | collision (line : OutLine) (refused owner : Handle)
  /-- outcome FIRED when `skipped` is absent, SKIPPED with the number skipped when it is present -/
  | late (handle : Handle) (base : Base) (lateness : Nat) (skipped : Option Nat)
  | ruleSpent (rule : RuleNo) (generation : BitVec 16)
  | syncSeen (timestamp : Tick) (interval : Option Tick) (loaded : Bool)
  | fired (rule : RuleNo) (generation : BitVec 16) (serial : Nat) (line : InLine) (timestamp : Tick)
      (handles : List Handle)
  | actionDone (handle : Handle) (origin : Origin) (fired skipped : Nat) (ended : Ended)
  | journalLevel (fill : Nat)
  | trainDone (line : OutLine) (periods : Nat)
  deriving DecidableEq, Repr

/-- Where a report stands (R151). A running retry interval holds the clock at its start and its length in ms; a
due retry holds the clock at which its interval expired (R163). -/
inductive ReportState
  | queued
  | sending
  | awaiting (since lengthMs : Nat)
  | retryDue (expiredAt : Nat)
  deriving DecidableEq, Repr

/-- A report record (R151). Kind and class follow from the body. -/
structure Report where
  body : ReportBody
  creation : Nat
  state : ReportState
  seq : Option Seq
  retryCount : Nat
  retryLimit : Option Nat
  deriving DecidableEq, Repr

/-- The Report Unit. The outbox is `queue` and `flight` together. -/
structure ReportUnit where
  /-- the queued reports in outbox order (R156) -/
  queue : List Report
  /-- the in-flight window in order of first transmission (R159) -/
  flight : List Report
  nextSeq : Seq
  nextCreation : Nat
  /-- enabled kinds, by set bit (10.5) -/
  enabled : BitVec 12
  /-- 5 to 1000 ms -/
  retryInterval : Nat
  maxRetries : Nat
  deriving DecidableEq, Repr

/-! ## Host Link (Chapter 7) -/

/-- The receive assembler with the bytes gathered so far, the sync byte left out (R136). -/
inductive Assembler
  | hunting
  | header (bytes : List Byte)
  | payload (bytes : List Byte)
  | crc (bytes : List Byte)
  deriving DecidableEq, Repr

/-- The state of a window entry whose request has been taken or replayed (R140). -/
inductive EntryState
  | answered | replayed | sending
  deriving DecidableEq, Repr

/-- What the completion of a response brings about besides its recording (R148, R128). -/
inductive AfterSent
  | nothing
  | changeRate (rate : LinkRate)
  | restarted (mode : RestartMode)
  deriving DecidableEq, Repr

/-- An entry of the inbound window (R140). `record` is no when a RESTART was taken during the transmission of
its response (R149). -/
structure WindowEntry where
  tag : Tag
  code : Option Byte
  state : EntryState
  response : List Byte
  after : AfterSent
  record : Bool
  deriving DecidableEq, Repr

/-- An entry of the recent-responses list (R142). -/
structure RecentEntry where
  tag : Tag
  code : Option Byte
  response : List Byte
  deriving DecidableEq, Repr

/-- The frame in transmission and its position (R144): on a UART link the clock at which its transmission began, from
which the position follows (R131); on an SPI link the bits of it that have been clocked out (R132). -/
structure Transmission where
  frame : Frame
  startedAt : Nat
  sent : Nat
  /-- of a report chosen while the transmitter was idle, its record before the choice: at the instant of the choice it gives
  way to a response that becomes ready (R144; log entry 30) -/
  yields : Option Report
  deriving DecidableEq, Repr

/-- The Host Link. -/
structure HostLink where
  linkType : LinkType
  rate : LinkRate
  assembler : Assembler
  /-- the clock at the last byte received inside a frame, from which the gap timer runs (R138) -/
  lastByteAt : Nat
  /-- on a UART link, the start bit of a byte has been seen and the byte has not ended: the gap timer does not run
  (R138) -/
  byteStarted : Bool
  /-- CSn is asserted (R132) -/
  csnAsserted : Bool
  /-- on an SPI link, the bits of the byte in progress that have been clocked, in either direction, 0 to 7 (R132) -/
  phase : Nat
  /-- on an SPI link, the bits of the byte in reception that have been taken from SDI (R132) -/
  sdi : Byte
  /-- in arrival order -/
  window : List WindowEntry
  /-- oldest first -/
  recent : List RecentEntry
  tx : Option Transmission
  deriving DecidableEq, Repr

end Sys2Proof.Machine
end

