-- ==== Sys2Proof/Machine/Defaults.lean ====
section
/-! DEFINITION. The value of each block's state after a full reset (the tables of R26, R49, R64, R82, R83, R115,
R129, R150, R169, R180). RESTART takes the same values where its column says so. -/

namespace Sys2Proof.Machine

/-- A FREE slot that was never allocated (R26). -/
def defaultSlot : Slot where
  gen := 0
  state := .free

/-- The Scheduler after a full reset (R26). -/
def defaultScheduler : Scheduler where
  slots := Vector.replicate 96 defaultSlot
  timeList := []
  travelList := []
  nextSerial := 0
  lateTicks := 64
  lateCounts := 0
  latePolicy := .fire
  reserve := 8

/-- An output record after a full reset (R49). -/
def defaultOutput : Output where
  mode := .static
  idle := .low
  safe := .low
  setLevel := .low
  policy := .refuse
  holders := []
  staged := none
  stagedPending := false
  applied := none
  running := false
  burst := 0
  periodsCompleted := 0
  periodStart := none
  stopAtEnd := false
  inHigh := false

/-- The Timebase at the release of RESETn, the SYNC pin at `sync` (R64). -/
def defaultTimebase (sync : Level) : Timebase where
  timeline := 0
  travelCount := 0
  source := none
  syncWidth := 0
  syncReporting := false
  syncRaw := sync
  syncSampledAt := none
  syncFiltered := sync
  syncQual := none
  preset := none
  lastSync := none

/-- An input record at the release of RESETn, the pin at `raw` (R82). -/
def defaultInput (raw : Level) : Input where
  edgeSelect := .none
  width := 0
  journalEnable := false
  raw := raw
  sampledAt := none
  filtered := raw
  qual := none
  glitches := 0

/-- The Capture Journal after a full reset (R83). -/
def defaultJournal : Journal where
  records := []
  nextSerial := 0
  lostRun := 0
  watermark := 32
  watermarkArmed := true

/-- The template of the default rule record (R115). -/
def defaultTemplate : Template where
  line := 0
  offset := 0
  width := 1
  repeats := 0
  interval := none

/-- The default rule record (R115). -/
def defaultRecord : RuleRecord where
  enabled := false
  matchSet := 1
  sense := .positive
  edgeKind := .rising
  gate := none
  holdoff := 0
  limit := none
  base := .time
  templates := [defaultTemplate]
  reportFired := false
  reportDone := false

/-- A rule after a full reset (R115). -/
def defaultRule : Rule where
  active := defaultRecord
  staged := defaultRecord
  dirty := false
  state := .idle
  generation := 0
  fired := 0
  suppressed := 0
  gated := 0
  dropped := 0
  lastFiring := none

/-- Run Control after a full reset (R129). -/
def defaultRun : RunControl where
  state := .standby
  silenceLimit := 0
  silence := none

/-- A fault entry with count 0 (R170, R180). -/
def defaultFaultEntry : FaultEntry where
  count := 0
  first := none
  last := none
  detail := none

/-- The Fault Table after a full reset: fatal set HOST_SILENT alone, report set all eleven (R180). -/
def defaultFaults : FaultTable where
  entries := Vector.replicate 11 defaultFaultEntry
  fatal := 0x400
  report := 0x7FF

/-- The Report Unit after a full reset, its outbox empty (R169). -/
def defaultReports : ReportUnit where
  queue := []
  flight := []
  nextSeq := 1
  nextCreation := 0
  enabled := 0xFFF
  retryInterval := 50
  maxRetries := 3

/-- The Host Link after a full reset, its transmitter idle (R150; `lastByteAt`, `byteStarted`,
`csnAsserted`, `phase` and `sdi`: DESIGN CHOICE, log entry 24). -/
def defaultLink (linkType : LinkType) : HostLink where
  linkType := linkType
  rate := .b115200
  assembler := .hunting
  lastByteAt := 0
  byteStarted := false
  csnAsserted := false
  phase := 0
  sdi := 0
  window := []
  recent := []
  tx := none

/-- The link that LINKSEL selects: LOW UART, HIGH SPI (R130). -/
def linkOf : Level → LinkType
  | .low => .uart
  | .high => .spi

/-- The RESET_DONE report of a power-on, at its first transmission: sequence number 1, retry limit 3 (R168,
R159). -/
def firstResetDone : Report where
  body := .resetDone .power
  creation := 0
  state := .sending
  seq := some 1
  retryCount := 0
  retryLimit := some 3

/-- Its frame: kind code 0x01, flags 0, cause POWER (10.2, 10.8). -/
def firstFrame : Frame where
  kind := .report
  tag := 1
  payload := [0x01, 0x00, 0x00]

end Sys2Proof.Machine
end

