-- ==== Sys2Proof/Machine/State.lean ====
section
/-! DEFINITION. The state of the NK812: the ten blocks' state, what holds the part in reset, the part's clock,
and the queue of commands that wait. -/

namespace Sys2Proof.Machine

/-- The whole state, plain data. -/
structure State where
  timebase : Timebase
  inputs : Vector Input 8
  journal : Journal
  rules : Vector Rule 16
  sched : Scheduler
  outputs : Vector Output 12
  run : RunControl
  link : HostLink
  reports : ReportUnit
  faults : FaultTable
  /-- RESETn is low, or the supplies are down: the part is held in reset (R129; log entry 11) -/
  held : Bool
  /-- ticks since the last full reset: the part's own clock, by which elapsed milliseconds are measured; a SYNC
  load does not move it (R50, R125, R138, R161; log entry 14) -/
  clock : Nat
  /-- the model's own: how many choices among events due at one tick were made (log entry 3) -/
  choices : Nat
  /-- the model's own: the commands that wait, first in, first out (log entry 25) -/
  pending : List Instr
  deriving DecidableEq, Repr

/-- Faults that stop the machine. There is none: the manual gives every command an effect in every state, so no
constructor is needed, and no command of this block ends a run (safe: nothing is left unmodelled behind it). -/
inductive Fault
  deriving DecidableEq, Repr

/-- Refusals. `notModelled` is raised by the dispatcher for a command that has no meaning yet, and by nothing
else; no arm raises it in this model (safe: a refused command proves nothing). -/
inductive Refusal
  | notModelled (mnemonic : String)
  deriving DecidableEq, Repr

/-- The machine right after a power-on reset on a UART link with every input pin LOW (DESIGN CHOICE, log entries
1, 2 and 24): every block at its full-reset value, and RESET_DONE, the first frame the part sends, in transmission (R129, R150,
R168). No command waits. -/
def State.reset : State where
  timebase := defaultTimebase .low
  inputs := Vector.replicate 8 (defaultInput .low)
  journal := defaultJournal
  rules := Vector.replicate 16 defaultRule
  sched := defaultScheduler
  outputs := Vector.replicate 12 defaultOutput
  run := defaultRun
  link := { defaultLink .uart with tx := some ⟨firstFrame, 0, 0, none⟩ }
  reports := { defaultReports with flight := [firstResetDone], nextSeq := 2, nextCreation := 1 }
  faults := defaultFaults
  held := false
  clock := 0
  choices := 0
  pending := []

end Sys2Proof.Machine
end

