-- ==== Sys2Proof/Machine/Ops.lean ====
section
/-! DEFINITION. The named operations over the blocks' state that the commands share: reading and replacing a
block or one of its records, the clock and the comparisons of ticks and counts, the two lists and the pool, the
holder sets and the trains. None of them creates a report or counts a fault. -/

namespace Sys2Proof.Machine

/-! ## Replacing one block's state -/

def State.withTimebase (s : State) (x : Timebase) : State := { s with timebase := x }
def State.withInputs (s : State) (x : Vector Input 8) : State := { s with inputs := x }
def State.withJournal (s : State) (x : Journal) : State := { s with journal := x }
def State.withRules (s : State) (x : Vector Rule 16) : State := { s with rules := x }
def State.withSched (s : State) (x : Scheduler) : State := { s with sched := x }
def State.withOutputs (s : State) (x : Vector Output 12) : State := { s with outputs := x }
def State.withRun (s : State) (x : RunControl) : State := { s with run := x }
def State.withLink (s : State) (x : HostLink) : State := { s with link := x }
def State.withReports (s : State) (x : ReportUnit) : State := { s with reports := x }
def State.withFaults (s : State) (x : FaultTable) : State := { s with faults := x }
def State.withClock (s : State) (x : Nat) : State := { s with clock := x }

/-! ## One record of a block -/

def State.slot (s : State) (i : SlotNo) : Slot := getAt s.sched.slots i
def State.output (s : State) (l : OutLine) : Output := getAt s.outputs l
def State.input (s : State) (l : InLine) : Input := getAt s.inputs l
def State.rule (s : State) (r : RuleNo) : Rule := getAt s.rules r

def State.putSlot (s : State) (i : SlotNo) (x : Slot) : State :=
  s.withSched { s.sched with slots := setAt s.sched.slots i x }
def State.putOutput (s : State) (l : OutLine) (x : Output) : State := s.withOutputs (setAt s.outputs l x)
def State.putInput (s : State) (l : InLine) (x : Input) : State := s.withInputs (setAt s.inputs l x)
def State.putRule (s : State) (r : RuleNo) (x : Rule) : State := s.withRules (setAt s.rules r x)

/-- Every output line, OUT0 first. -/
def allOutputs : List OutLine := List.finRange 12
/-- Every input line, IN0 first. -/
def allInputs : List InLine := List.finRange 8
/-- Every rule, 0 first. -/
def allRules : List RuleNo := List.finRange 16
/-- Every slot, 0 first. -/
def allSlots : List SlotNo := List.finRange 96

/-! ## Time (R50 to R52) -/

/-- Now: the value of the timeline (R50). -/
def State.now (s : State) : Tick := s.timebase.timeline

/-- `n` ticks pass: the timeline counts on modulo 2^48 (R50), and so does the part's own clock. -/
def elapse (n : Nat) (s : State) : State :=
  (s.withTimebase { s.timebase with timeline := s.timebase.timeline + BitVec.ofNat 48 n }).withClock (s.clock + n)

/-- A tick is ahead of now: by a distance above 0 and below 2^40 (R51). -/
def tickAhead (now d : Tick) : Bool :=
  0 < (d - now).toNat && (d - now).toNat < Config.tickWindow

/-- A tick is ahead, reached or behind, not out of range (R51). -/
def tickInWindow (now d : Tick) : Bool :=
  (d - now).toNat < Config.tickWindow || (now - d).toNat < Config.tickWindow

/-- A count is ahead of the travel count: by a distance above 0 and below 2^30 (R52). -/
def countAhead (count c : Count) : Bool :=
  0 < (c - count).toNat && (c - count).toNat < Config.countWindow

/-- A count is ahead, reached or behind, not out of range (R52). -/
def countInWindow (count c : Count) : Bool :=
  (c - count).toNat < Config.countWindow || (count - c).toNat < Config.countWindow

/-- A due point is ahead of now or of the travel count. -/
def State.dueAhead (s : State) : Due → Bool
  | .time t => tickAhead s.now t
  | .travel c => countAhead s.timebase.travelCount c

/-- The base of a due. -/
def Due.base : Due → Base
  | .time _ => .time
  | .travel _ => .travel

/-- The due one interval later, modulo 2^48 for TIME and 2^32 for TRAVEL (R11). -/
def Due.next (d : Due) (interval : BitVec 32) : Due :=
  match d with
  | .time t => .time (t + interval.setWidth 48)
  | .travel c => .travel (c + interval)

/-- A count that stops at its largest value. -/
def satInc (cap n : Nat) : Nat := if n < cap then n + 1 else n

/-! ## Levels and pins (R27, R28) -/

/-- The other level. -/
def flipLevel : Level → Level
  | .low => .high
  | .high => .low

/-- The asserted level, the opposite of the idle level (R27). -/
def Output.assertedLevel (o : Output) : Level := flipLevel o.idle

/-- The level a line shows outside FAULTED (R28). -/
def Output.modeLevel (o : Output) : Level :=
  match o.mode with
  | .static => o.setLevel
  | .sequenced => if o.holders.isEmpty then o.idle else o.assertedLevel
  | .train => if o.running && o.inHigh then o.assertedLevel else o.idle

/-- The resting level of a line (R28). -/
def Output.restingLevel (o : Output) : Level :=
  match o.mode with
  | .static => o.setLevel
  | .sequenced | .train => o.idle

/-- The level driven on a pin: LOW in reset (R49), the safe level in FAULTED (R47), else as the mode says (R28; DEDUCED,
log entry 13). -/
def State.pinLevel (s : State) (l : OutLine) : Level :=
  if s.held then .low
  else if s.run.state = .faulted then (s.output l).safe
  else (s.output l).modeLevel

/-! ## The insertion serial and the two lists (R5 to R7) -/

/-- Serial `a` is earlier than serial `b` (R7). -/
def serialEarlier (a b : Serial) : Bool := (b - a).toNat < 2 ^ 31 && a != b

/-- Entry `a` of the time list stands before entry `b`: by key, ENDs before STARTs, then by serial (R5). -/
def TimeEntry.before (a b : TimeEntry) : Bool :=
  if a.key = b.key then
    match a.phase, b.phase with
    | .finish, .start => true
    | .start, .finish => false
    | _, _ => serialEarlier a.serial b.serial
  else (b.key - a.key).toNat < 2 ^ 47

/-- Entry `a` of the travel list stands before entry `b` (R6). -/
def TravelEntry.before (a b : TravelEntry) : Bool :=
  if a.key = b.key then serialEarlier a.serial b.serial
  else (b.key - a.key).toNat < 2 ^ 31

/-- `x` filed in its place: ahead of the first entry it stands before. -/
def fileBy {α : Type} (before : α → α → Bool) (x : α) : List α → List α
  | [] => [x]
  | y :: ys => if before x y then x :: y :: ys else y :: fileBy before x ys

/-- An entry joins the time list with the next insertion serial (R5, R7). -/
def joinTime (h : Handle) (phase : Phase) (key : Tick) (s : State) : State :=
  s.withSched { s.sched with
    timeList := fileBy TimeEntry.before ⟨h, phase, key, s.sched.nextSerial⟩ s.sched.timeList
    nextSerial := s.sched.nextSerial + 1 }

/-- An entry joins the travel list with the next insertion serial (R6, R7). -/
def joinTravel (h : Handle) (key : Count) (s : State) : State :=
  s.withSched { s.sched with
    travelList := fileBy TravelEntry.before ⟨h, key, s.sched.nextSerial⟩ s.sched.travelList
    nextSerial := s.sched.nextSerial + 1 }

/-- The START entry of an action joins the list of its base (R5, R6). -/
def joinStart (h : Handle) (due : Due) (s : State) : State :=
  match due with
  | .time t => joinTime h .start t s
  | .travel c => joinTravel h c s

/-- The entry of an action leaves its list, if it still has one (R13). -/
def removeEntry (h : Handle) (s : State) : State :=
  s.withSched { s.sched with
    timeList := s.sched.timeList.filter (fun e => e.handle ≠ h)
    travelList := s.sched.travelList.filter (fun e => e.handle ≠ h) }

/-! ## The pool (R1 to R3) -/

/-- A slot holds no action. -/
def Slot.isFree (x : Slot) : Bool :=
  match x.state with
  | .free => true
  | _ => false

/-- The action a slot holds, if any. -/
def Slot.action (x : Slot) : Option Action :=
  match x.state with
  | .free => none
  | .waiting a => some a
  | .holding a _ => some a

/-- The FREE slots, lowest first. -/
def State.freeSlots (s : State) : List SlotNo := allSlots.filter (fun i => (s.slot i).isFree)

/-- The number of FREE slots. -/
def State.freeCount (s : State) : Nat := s.freeSlots.length

/-- The slot a handle names, if the handle is not stale (R3). -/
def State.live (s : State) (h : Handle) : Option Slot :=
  let x := s.slot h.slot
  if x.gen = h.gen ∧ x.isFree = false then some x else none

/-- The action of a handle while it is WAITING. -/
def State.waitingAction (s : State) (h : Handle) : Option Action :=
  let x := s.slot h.slot
  if x.gen = h.gen then
    match x.state with
    | .waiting a => some a
    | _ => none
  else none

/-- The action of a handle while it is HOLDING. -/
def State.holdingAction (s : State) (h : Handle) : Option Action :=
  let x := s.slot h.slot
  if x.gen = h.gen then
    match x.state with
    | .holding a _ => some a
    | _ => none
  else none

/-- The record of an action is replaced and its slot is WAITING. -/
def setWaiting (h : Handle) (a : Action) (s : State) : State :=
  s.putSlot h.slot { s.slot h.slot with state := .waiting a }

/-- A slot is allocated: its gen increments, and it is WAITING with the record given (R3). -/
def allocate (i : SlotNo) (a : Action) (s : State) : State :=
  s.putSlot i ⟨(s.slot i).gen + 1, .waiting a⟩

/-- The handle of the action a slot now holds. -/
def State.handleOf (s : State) (i : SlotNo) : Handle := ⟨i, (s.slot i).gen⟩

/-- The slot of a handle becomes FREE and its entry leaves its list; slot number and gen stay (R13). -/
def vacate (h : Handle) (s : State) : State :=
  removeEntry h (s.putSlot h.slot ⟨(s.slot h.slot).gen, .free⟩)

/-- Every slot is FREE with its gen kept, and both lists are empty (R25). -/
def vacateAll (s : State) : State :=
  s.withSched { s.sched with
    slots := tabulate (fun i => ⟨(s.slot i).gen, .free⟩)
    timeList := []
    travelList := [] }

/-- The actions that have an entry, the time list's first, each list in its order. -/
def State.listedHandles (s : State) : List Handle :=
  s.sched.timeList.map TimeEntry.handle ++ s.sched.travelList.map TravelEntry.handle

/-- The actions in use in the order in which they are freed together: the time list, the travel list, then any
slot in use that has no entry in either, by slot number (R25). -/
def State.freeingOrder (s : State) : List Handle :=
  let rest := (allSlots.filter (fun i => !(s.slot i).isFree)).map s.handleOf
  s.listedHandles ++ rest.filter (fun h => !s.listedHandles.contains h)

/-! ## Holder sets and trains (R29, R31, R35, R36, R47) -/

/-- The holder sets' owner of a line: the holder whose end is latest, compared modularly, the one that joined first
between equal ends (R29). -/
def laterEnd (a b : Tick) : Bool := (a - b).toNat < 2 ^ 47 && a != b

/-- The end of a HOLDING action. -/
def State.endOf (s : State) (h : Handle) : Tick :=
  match (s.slot h.slot).state with
  | .holding _ e => e
  | _ => 0

/-- The owner among holders, in order of joining (R29). -/
def State.ownerAmong (s : State) : List Handle → Option Handle
  | [] => none
  | h :: hs => some (hs.foldl (fun best x => if laterEnd (s.endOf x) (s.endOf best) then x else best) h)

/-- The owner of a line (R29). -/
def State.owner (s : State) (l : OutLine) : Option Handle := s.ownerAmong (s.output l).holders

/-- A holder leaves the holder set of a line; a handle that is not in the set leaves the line as it is (R31). -/
def release (l : OutLine) (h : Handle) (s : State) : State :=
  s.putOutput l { s.output l with holders := (s.output l).holders.filter (fun x => x ≠ h) }

/-- A train stops: running no, no period start, stop at period end no (R38, R41, R44, R47). -/
def Output.stopTrain (o : Output) : Output :=
  { o with running := false, periodStart := none, stopAtEnd := false, inHigh := false }

/-- Every holder set is emptied (R36). -/
def emptyHolders (s : State) : State :=
  s.withOutputs (tabulate (fun l => { s.output l with holders := [] }))

/-- Every holder set is emptied and every train stopped (R47). -/
def emptyHoldersStopTrains (s : State) : State :=
  s.withOutputs (tabulate (fun l => { (s.output l).stopTrain with holders := [] }))

/-- Whether any WAITING or HOLDING action targets a line (R24). -/
def State.lineTargeted (s : State) (l : OutLine) : Bool :=
  allSlots.any (fun i => match (s.slot i).action with
    | some a => a.line = l
    | none => false)

/-! ## Run Control (R116, R125) -/

/-- The part is sequencing: ARMED or DRAINING. -/
def RunState.sequencing : RunState → Bool
  | .armed | .draining => true
  | .standby | .faulted => false

/-- SYNC is armed (R58). -/
def State.syncArmed (s : State) : Bool := s.timebase.preset.isSome

/-- The silence timer starts again at elapsed 0, where it may run: in ARMED or DRAINING with a limit above 0
(R125). -/
def restartSilence (s : State) : State :=
  if s.run.state.sequencing ∧ 0 < s.run.silenceLimit then s.withRun { s.run with silence := some s.clock } else s

end Sys2Proof.Machine
end

