-- ==== Sys2Proof/Machine/Operands.lean ====
section
/-! DEFINITION. The forms of operand (10.4 to 10.6, R183, R184): a parameter byte read as a line, a level, a mode or
another enumerated value, a set or a rule record, and the same values written as bytes. A byte outside its set
reads as none. -/

namespace Sys2Proof.Machine

/-! ## Bytes read as values (10.4) -/

/-- An output line: 0 to 11. -/
def outLineOf (b : Byte) : Option OutLine :=
  if h : b.toNat < 12 then some ⟨b.toNat, h⟩ else none

/-- An input line: 0 to 7. -/
def inLineOf (b : Byte) : Option InLine :=
  if h : b.toNat < 8 then some ⟨b.toNat, h⟩ else none

/-- A rule number: 0 to 15. -/
def ruleNoOf (b : Byte) : Option RuleNo :=
  if h : b.toNat < 16 then some ⟨b.toNat, h⟩ else none

/-- A slot number: 0 to 95. -/
def slotNoOf (b : Byte) : Option SlotNo :=
  if h : b.toNat < 96 then some ⟨b.toNat, h⟩ else none

/-- A travel source: 0 to 7, or 8 for none. -/
def sourceOf (b : Byte) : Option (Option InLine) :=
  if b = 8 then some none else (inLineOf b).map some

/-- 0 LOW, 1 HIGH. -/
def levelOf (b : Byte) : Option Level :=
  if b = 0 then some .low else if b = 1 then some .high else none

/-- 0 no, 1 yes. -/
def yesNoOf (b : Byte) : Option Bool :=
  if b = 0 then some false else if b = 1 then some true else none

/-- 0 STATIC, 1 SEQUENCED, 2 TRAIN. -/
def outModeOf (b : Byte) : Option OutMode :=
  if b = 0 then some .static else if b = 1 then some .sequenced else if b = 2 then some .train else none

/-- 0 REFUSE, 1 RETRIGGER, 2 MERGE. -/
def policyOf (b : Byte) : Option Policy :=
  if b = 0 then some .refuse else if b = 1 then some .retrigger else if b = 2 then some .merge else none

/-- 0 TIME, 1 TRAVEL. -/
def baseOf (b : Byte) : Option Base :=
  if b = 0 then some .time else if b = 1 then some .travel else none

/-- 0 FIRE, 1 SKIP. -/
def latePolicyOf (b : Byte) : Option LatePolicy :=
  if b = 0 then some .fire else if b = 1 then some .skip else none

/-- 0 NONE, 1 RISING, 2 FALLING, 3 BOTH. -/
def edgeSelectOf (b : Byte) : Option EdgeSelect :=
  if b = 0 then some .none else if b = 1 then some .rising
  else if b = 2 then some .falling else if b = 3 then some .both else none

/-- 1 RISING, 2 FALLING, 3 EITHER. -/
def ruleEdgeOf (b : Byte) : Option RuleEdge :=
  if b = 1 then some .rising else if b = 2 then some .falling else if b = 3 then some .either else none

/-- 0 POSITIVE, 1 NEGATIVE. -/
def senseOf (b : Byte) : Option Sense :=
  if b = 0 then some .positive else if b = 1 then some .negative else none

/-- One of the five rates, as a number of baud (R148). -/
def linkRateOf (r : BitVec 32) : Option LinkRate :=
  if r = 115200 then some .b115200 else if r = 230400 then some .b230400
  else if r = 460800 then some .b460800 else if r = 921600 then some .b921600
  else if r = 2000000 then some .b2000000 else none

/-! ## A rule record (R90, R183, R184) -/

/-- A template place whose bytes are all 0, as a place beyond the template count must be (R183). -/
def rawTemplateZero : RawTemplate := ⟨0, 0, 0, 0, 0⟩

/-- A template of a record, by checks 7 and 8 of R90. -/
def templateOf (base : Base) (t : RawTemplate) : Option Template :=
  match outLineOf t.line with
  | none => none
  | some line =>
    if t.width = 0 then none
    else if t.repeats = 0 ∧ t.interval ≠ 0 then none
    else if t.repeats ≠ 0 ∧ t.interval = 0 then none
    else if base = .travel ∧ (2 ^ 30 ≤ t.offset.toNat ∨ 2 ^ 30 ≤ t.interval.toNat) then none
    else some ⟨line, t.offset, t.width, t.repeats.toNat, if t.repeats = 0 then none else some t.interval⟩

/-- Every one of a list of optional values, or none. -/
def allSome {α : Type} : List (Option α) → Option (List α)
  | [] => some []
  | none :: _ => none
  | some x :: xs => (allSome xs).map (x :: ·)

/-- The templates of a record: as many as its template count, 1 to 4, the places beyond it all zeros (R90 checks 6 to
8, R183). -/
def templatesOf (base : Base) (r : RawRule) : Option (List Template) :=
  let places := [r.t0, r.t1, r.t2, r.t3]
  let n := r.templateCount.toNat
  if n = 0 ∨ 4 < n then none
  else if (places.drop n).any (fun t => t ≠ rawTemplateZero) then none
  else allSome ((places.take n).map (templateOf base))

/-- The gate of a record: absent when the gate line is 0xFF, and its level byte then 0 (R90 check 4, R183, R184). The
outer none is a value outside its set. -/
def gateOf (line level : Byte) : Option (Option (InLine × Level)) :=
  if line = 0xFF then (if level = 0 then some none else none)
  else
    match inLineOf line, levelOf level with
    | some l, some v => some (some (l, v))
    | _, _ => none

/-- A POSITIVE match set holds a line; a NEGATIVE one does not hold all eight (R90 check 3). -/
def matchSetOk (sense : Sense) (set : BitVec 8) : Bool :=
  match sense with
  | .positive => set ≠ 0
  | .negative => set ≠ 0xFF

/-- The rule record that an EDIT_RULE carries, when it passes every check of R90. -/
def recordOf (r : RawRule) : Option RuleRecord :=
  match yesNoOf r.enabled, senseOf r.sense, ruleEdgeOf r.edgeKind, baseOf r.base, yesNoOf r.reportFired,
    yesNoOf r.reportDone, gateOf r.gateLine r.gateLevel with
  | some enabled, some sense, some edge, some base, some fired, some done, some gate =>
    if matchSetOk sense r.matchSet then
      match templatesOf base r with
      | none => none
      | some templates =>
        some {
          enabled := enabled
          matchSet := r.matchSet
          sense := sense
          edgeKind := edge
          gate := gate
          holdoff := r.holdoff
          limit := if r.limit = 0 then none else some r.limit.toNat
          base := base
          templates := templates
          reportFired := fired
          reportDone := done }
    else none
  | _, _, _, _, _, _, _ => none

/-! ## Values written as bytes (10.3, 10.4) -/

def levelByte : Level → Byte
  | .low => 0
  | .high => 1

def yesNoByte (b : Bool) : Byte := if b then 1 else 0

def baseByte : Base → Byte
  | .time => 0
  | .travel => 1

def senseByte : Sense → Byte
  | .positive => 0
  | .negative => 1

def edgeSelectByte : EdgeSelect → Byte
  | .none => 0
  | .rising => 1
  | .falling => 2
  | .both => 3

def edgeKindByte : EdgeKind → Byte
  | .rising => 1
  | .falling => 2

def ruleEdgeByte : RuleEdge → Byte
  | .rising => 1
  | .falling => 2
  | .either => 3

def runStateByte : RunState → Byte
  | .standby => 0
  | .armed => 1
  | .draining => 2
  | .faulted => 3

def endedByte : Ended → Byte
  | .complete => 0
  | .completeEarly => 1
  | .cancelled => 2
  | .flushed => 3

def resetDoneByte : ResetDoneCause → Byte
  | .power => 0
  | .resetLine => 1
  | .restartKeep => 2
  | .restartClear => 3

def restartModeByte : RestartMode → Byte
  | .keep => 0
  | .clear => 1

def sourceByte : Option InLine → Byte
  | some l => BitVec.ofNat 8 l.val
  | none => 8

/-- The status codes (10.3). -/
def statusByte : Status → Byte
  | .ok => 0x00
  | .badLength => 0x01
  | .badCode => 0x02
  | .badValue => 0x03
  | .state => 0x04
  | .busy => 0x05
  | .noSlot => 0x06
  | .notFound => 0x07
  | .lineMode => 0x08
  | .lineInUse => 0x09
  | .invalidRule => 0x0A

/-- The number of baud of a rate. -/
def LinkRate.baud : LinkRate → Nat
  | .b115200 => 115200
  | .b230400 => 230400
  | .b460800 => 460800
  | .b921600 => 921600
  | .b2000000 => 2000000

/-- A fault kind's code, which is also its bit in a set and its place in READ_FAULTS (10.3). -/
def FaultKind.code : FaultKind → Fin 11
  | .frameCrc => 0
  | .frameMalformed => 1
  | .inboundOverflow => 2
  | .ackUnknown => 3
  | .reportExpired => 4
  | .reportOverflow => 5
  | .journalLost => 6
  | .poolExhausted => 7
  | .actionLate => 8
  | .collision => 9
  | .hostSilent => 10

/-- The fault kinds in the order of their codes. -/
def allFaults : List FaultKind :=
  [.frameCrc, .frameMalformed, .inboundOverflow, .ackUnknown, .reportExpired, .reportOverflow,
   .journalLost, .poolExhausted, .actionLate, .collision, .hostSilent]

/-- A report kind's set bit (10.3). -/
def ReportKind.bit : ReportKind → Fin 12
  | .resetDone => 0
  | .runState => 1
  | .fault => 2
  | .firingDropped => 3
  | .collision => 4
  | .late => 5
  | .ruleSpent => 6
  | .syncSeen => 7
  | .fired => 8
  | .actionDone => 9
  | .journalLevel => 10
  | .trainDone => 11

/-- A report kind's code (10.3). -/
def ReportKind.byte : ReportKind → Byte
  | .resetDone => 0x01
  | .runState => 0x02
  | .fault => 0x03
  | .firingDropped => 0x10
  | .collision => 0x11
  | .late => 0x12
  | .ruleSpent => 0x13
  | .syncSeen => 0x14
  | .fired => 0x20
  | .actionDone => 0x21
  | .journalLevel => 0x22
  | .trainDone => 0x23

/-- The class of a report kind (R152). -/
def ReportKind.cls : ReportKind → ReportClass
  | .resetDone | .runState | .fault => .a
  | .firingDropped | .collision | .late | .ruleSpent | .syncSeen => .b
  | .fired | .actionDone | .journalLevel | .trainDone => .c

/-- The kind of a report body. -/
def ReportBody.kind : ReportBody → ReportKind
  | .resetDone _ => .resetDone
  | .runState _ _ _ => .runState
  | .fault _ _ _ => .fault
  | .firingDropped _ _ _ _ _ => .firingDropped
  | .collision _ _ _ => .collision
  | .late _ _ _ _ => .late
  | .ruleSpent _ _ => .ruleSpent
  | .syncSeen _ _ _ => .syncSeen
  | .fired _ _ _ _ _ _ => .fired
  | .actionDone _ _ _ _ _ => .actionDone
  | .journalLevel _ => .journalLevel
  | .trainDone _ _ => .trainDone

/-! ## Records written as bytes (10.3, 10.6 to 10.8) -/

/-- A tick or a distance in a 6-byte field (R181). -/
def tickBytes (t : Tick) : List Byte := leBytes 6 t.toNat

/-- A handle: slot, then gen (10.4). -/
def Handle.bytes (h : Handle) : List Byte := [BitVec.ofNat 8 h.slot.val, h.gen]

/-- A due in a 6-byte field: a tick, or a travel count in the low 4 bytes (R181). -/
def Due.bytes : Due → List Byte
  | .time t => leBytes 6 t.toNat
  | .travel c => leBytes 6 c.toNat

/-- The three detail bytes of a fault kind (10.3). -/
def detailBytes : Option FaultDetail → List Byte
  | none => [0, 0, 0]
  | some (.sequence q) => leBytes 2 q.toNat ++ [0]
  | some (.expired q k) => leBytes 2 q.toNat ++ [k.byte]
  | some (.report k) => [k.byte, 0, 0]
  | some (.input l) => [BitVec.ofNat 8 l.val, 0, 0]
  | some (.hostOrigin t) => 0 :: leBytes 2 t.toNat
  | some (.ruleOrigin r) => [1, BitVec.ofNat 8 r.val, 0]
  | some (.handle h) => h.bytes ++ [0]
  | some (.output l) => [BitVec.ofNat 8 l.val, 0, 0]

/-- The 18 bytes of a fault entry (10.7). -/
def FaultEntry.bytes (k : FaultKind) (e : FaultEntry) : List Byte :=
  BitVec.ofNat 8 k.code.val :: leBytes 2 e.count ++ tickBytes (e.first.getD 0) ++ tickBytes (e.last.getD 0)
    ++ detailBytes e.detail

/-- The 5 bytes of the origin in a LIST_SCHEDULE entry (10.7). -/
def Origin.listBytes : Origin → List Byte
  | .host t => leBytes 2 t.toNat ++ [0, 0, 0]
  | .rule r g n => BitVec.ofNat 8 r.val :: leBytes 2 g.toNat ++ leBytes 2 n

/-- Whether an origin is RULE (10.4: origin kind 0 HOST, 1 RULE). -/
def Origin.isRule : Origin → Bool
  | .host _ => false
  | .rule _ _ _ => true

/-- The origin kind and the 7 bytes of the origin in an ACTION_DONE body (10.8). -/
def Origin.doneBytes : Origin → List Byte
  | .host t => 0 :: leBytes 2 t.toNat ++ [0, 0, 0, 0, 0]
  | .rule r g n => 1 :: BitVec.ofNat 8 r.val :: leBytes 2 g.toNat ++ leBytes 4 n

/-- The 18 bytes of a journal record (10.7). -/
def EdgeRecord.bytes (r : EdgeRecord) : List Byte :=
  leBytes 4 r.serial.toNat ++ [BitVec.ofNat 8 r.line.val, edgeKindByte r.kind] ++ tickBytes r.timestamp
    ++ leBytes 4 r.travelCount.toNat ++ leBytes 2 (r.lostBefore.getD 0)

/-- The 13 bytes of a template (10.6). -/
def Template.bytes (t : Template) : List Byte :=
  BitVec.ofNat 8 t.line.val :: leBytes 4 t.offset.toNat ++ leBytes 3 t.width.toNat
    ++ BitVec.ofNat 8 t.repeats :: leBytes 4 (t.interval.getD 0).toNat

/-- The 68 bytes of a rule record, its absent template places zeros (10.6, R183). -/
def RuleRecord.bytes (r : RuleRecord) : List Byte :=
  let places := (r.templates.flatMap Template.bytes) ++ List.replicate 52 0
  [yesNoByte r.enabled, r.matchSet, senseByte r.sense, ruleEdgeByte r.edgeKind]
    ++ (match r.gate with
        | some (l, v) => [BitVec.ofNat 8 l.val, levelByte v]
        | none => [0xFF, 0])
    ++ leBytes 4 r.holdoff.toNat ++ leBytes 2 (r.limit.getD 0)
    ++ [baseByte r.base, BitVec.ofNat 8 r.templates.length, yesNoByte r.reportFired, yesNoByte r.reportDone]
    ++ places.take 52

end Sys2Proof.Machine
end

