-- ==== Sys2Proof/Machine/Flags.lean ====
section
/-! DEFINITION. The flags bytes of responses and reports (10.2, 10.7, 10.8), bit 0 first, and the bodies of reports,
which hold some of them. -/

namespace Sys2Proof.Machine

/-- A flags byte from its bits, bit 0 first; the bits not named are reserved and 0 (R183). -/
def flagsByte (bits : List Bool) : Byte :=
  BitVec.ofNat 8 (bits.foldr (fun b n => (if b then 1 else 0) + 2 * n) 0)

/-- The flags byte of a report: the retry count in bits 0 to 3, URGENT in bit 7 (10.2). -/
def reportFlags (retryCount : Nat) (urgent : Bool) : Byte :=
  BitVec.ofNat 8 (retryCount % 16 + if urgent then 128 else 0)

def levelHigh : Level → Bool
  | .low => false
  | .high => true

def outModeNumber : OutMode → Nat
  | .static => 0
  | .sequenced => 1
  | .train => 2

def policyNumber : Policy → Nat
  | .refuse => 0
  | .retrigger => 1
  | .merge => 2

/-- Mode in bits 0 and 1, policy in bits 2 and 3 (10.7, GET_OUTPUTS). -/
def modePolicyByte (o : Output) : Byte :=
  BitVec.ofNat 8 (outModeNumber o.mode + 4 * policyNumber o.policy)

/-- The flags of a GET_OUTPUTS entry (10.7). -/
def outputFlags (pin : Level) (o : Output) : Byte :=
  flagsByte [levelHigh pin, levelHigh o.idle, levelHigh o.safe, levelHigh o.setLevel, o.running, o.stopAtEnd, o.stagedPending,
    o.applied.isSome]

/-- The flags of GET_TIME (10.7). -/
def timeFlags (t : Timebase) : Byte :=
  flagsByte [t.preset.isSome, t.preset.isSome, t.lastSync.isSome, levelHigh t.syncFiltered]

/-- The flags of a GET_INPUTS entry (10.7). -/
def inputFlags (x : Input) : Byte :=
  flagsByte [x.journalEnable, levelHigh x.raw, levelHigh x.filtered, x.qual.isSome]

/-- The flags of GET_STATUS (10.7). -/
def statusFlags (s : State) : Byte :=
  flagsByte [s.syncArmed, s.run.silence.isSome]

def ruleStateNumber : RuleState → Nat
  | .idle => 0
  | .listening => 1
  | .spent => 2

/-- The flags of a READ_RULE_STATS entry: the state in bits 0 and 1, dirty in bit 2, last firing present in bit 3
(10.7). -/
def ruleFlags (r : Rule) : Byte :=
  BitVec.ofNat 8 (ruleStateNumber r.state + (if r.dirty then 4 else 0) + if r.lastFiring.isSome then 8 else 0)

/-- Byte 2 of a LIST_SCHEDULE entry: line in bits 0 to 3, phase in bit 4, base in bit 5, origin kind in bit 6
(10.7). -/
def listEntryFlags (line : OutLine) (phase : Phase) (base : Base) (origin : Origin) : Byte :=
  BitVec.ofNat 8 (line.val + (if phase = .finish then 16 else 0) + (if base = .travel then 32 else 0)
    + if origin.isRule then 64 else 0)

/-- The body of a report as 10.8 lays it out. -/
def ReportBody.bytes : ReportBody → List Byte
  | .resetDone c => [resetDoneByte c]
  | .runState st cause n =>
    runStateByte st :: (match cause with
      | .request => [0, 0xFF]
      | .drainComplete => [1, 0xFF]
      | .fatal k => [2, BitVec.ofNat 8 k.code.val]) ++ [BitVec.ofNat 8 n]
  | .fault k count d => BitVec.ofNat 8 k.code.val :: leBytes 2 count ++ detailBytes d
  | .firingDropped r l ts k free =>
    [BitVec.ofNat 8 r.val, BitVec.ofNat 8 l.val] ++ tickBytes ts ++ [BitVec.ofNat 8 k, BitVec.ofNat 8 free]
  | .collision l a b => BitVec.ofNat 8 l.val :: a.bytes ++ b.bytes
  | .late h base lateness skipped =>
    h.bytes ++ baseByte base :: leBytes 6 lateness ++ (match skipped with
      | none => [0, 0]
      | some n => [1, BitVec.ofNat 8 (n - 1)])
  | .ruleSpent r g => BitVec.ofNat 8 r.val :: leBytes 2 g.toNat
  | .syncSeen ts interval loaded =>
    tickBytes ts ++ flagsByte [interval.isSome, loaded] :: tickBytes (interval.getD 0)
  | .fired r g n l ts hs =>
    BitVec.ofNat 8 r.val :: leBytes 2 g.toNat ++ leBytes 4 n ++ BitVec.ofNat 8 l.val :: tickBytes ts
      ++ BitVec.ofNat 8 hs.length :: hs.flatMap Handle.bytes
  | .actionDone h o f k e => h.bytes ++ o.doneBytes ++ leBytes 2 f ++ leBytes 2 k ++ [endedByte e]
  | .journalLevel n => [BitVec.ofNat 8 n]
  | .trainDone l n => BitVec.ofNat 8 l.val :: leBytes 4 n

/-- The frame of a report: its sequence number, kind, flags and body (R134, R159, R163). -/
def reportFrame (r : Report) (urgent : Bool) : Frame where
  kind := .report
  tag := r.seq.getD 0
  payload := r.body.kind.byte :: reportFlags r.retryCount urgent :: r.body.bytes

end Sys2Proof.Machine
end

