-- ==== Sys2Proof/Machine/Reports.lean ====
section
/-! DEFINITION. Creating a report (R156, R157), counting a fault (R172 to R174) and entering FAULTED (R122): three
operations that can call on one another. The nesting is bounded by the manual itself (R173): it is written out
below level by level, each level named for the state it can be reached in, so that no recursion is needed. -/

namespace Sys2Proof.Machine

/-! ## Placing a report in the outbox (R156, R157) -/

/-- The class of a report. -/
def Report.cls (r : Report) : ReportClass := r.body.kind.cls

def ReportClass.rank : ReportClass → Nat
  | .a => 0
  | .b => 1
  | .c => 2

/-- Report `x` stands before `y` in the queue: by class, then by creation serial (R156). -/
def Report.before (x y : Report) : Bool :=
  if x.cls = y.cls then x.creation < y.creation else x.cls.rank < y.cls.rank

/-- The outbox count: queued and in flight together (R151). -/
def ReportUnit.outboxCount (u : ReportUnit) : Nat := u.queue.length + u.flight.length

/-- Membership in a set of report kinds. -/
def ReportUnit.enables (u : ReportUnit) (k : ReportKind) : Bool := u.enabled.getLsbD k.bit.val

/-- The first queued class C report and the queue without it: the oldest of them, as the queue stands by creation
within a class (R157). -/
def takeOldestC : List Report → Option (Report × List Report)
  | [] => none
  | r :: rs =>
    if r.cls = .c then some (r, rs)
    else (takeOldestC rs).map (fun p => (p.1, r :: p.2))

/-- A report just created (R151, R156). -/
def newReport (body : ReportBody) (creation : Nat) : Report where
  body := body
  creation := creation
  state := .queued
  seq := none
  retryCount := 0
  retryLimit := none

/-- What placing a report leaves to be counted as REPORT_OVERFLOW: nothing, or the kind evicted or dropped, and
whether the dropped report was itself a FAULT report (R157, R173). -/
inductive Overflow
  | none
  | lost (kind : ReportKind) (noFaultReport : Bool)
  deriving DecidableEq, Repr

/-- An enabled report is placed: it receives the next creation serial; it is queued when the outbox has room; else
it evicts the oldest queued class C report, or is dropped (R156, R157). A dropped report has taken its serial (DEDUCED, log
entry 17). -/
def placeReport (body : ReportBody) (u : ReportUnit) : ReportUnit × Overflow :=
  let r := newReport body u.nextCreation
  let u' := { u with nextCreation := u.nextCreation + 1 }
  if u.outboxCount < Config.outboxCap then
    ({ u' with queue := fileBy Report.before r u.queue }, .none)
  else if r.cls = .c then (u', .lost body.kind false)
  else
    match takeOldestC u.queue with
    | some (old, rest) => ({ u' with queue := fileBy Report.before r rest }, .lost old.body.kind false)
    | none => (u', .lost body.kind (body.kind = .fault))

/-! ## The entry of a counting (R172, steps 1 to 3) -/

/-- The count, the first and last ticks and the last detail after one more counting at `now`. -/
def FaultEntry.counted (e : FaultEntry) (now : Tick) (detail : Option FaultDetail) : FaultEntry where
  count := satInc Config.faultCountCap e.count
  first := if e.count = 0 then some now else e.first
  last := some now
  detail := detail

/-- The entry of a fault kind. -/
def State.faultEntry (s : State) (k : FaultKind) : FaultEntry := getAt s.faults.entries k.code

/-- Steps 1 to 3 of a counting. -/
def recordFault (k : FaultKind) (detail : Option FaultDetail) (s : State) : State :=
  s.withFaults { s.faults with
    entries := setAt s.faults.entries k.code ((s.faultEntry k).counted s.now detail) }

/-- Membership in the fatal set. -/
def State.isFatal (s : State) (k : FaultKind) : Bool := s.faults.fatal.getLsbD k.code.val

/-- Membership in the report set. -/
def State.isReported (s : State) (k : FaultKind) : Bool := s.faults.report.getLsbD k.code.val

/-! ## One level of the nesting -/

/-- A report is created (R156, R157), an overflow being counted by `overflow`. A kind not enabled is not created. -/
def createWith (overflow : ReportKind → Bool → State → State) (body : ReportBody) (s : State) : State :=
  if s.reports.enables body.kind then
    match placeReport body s.reports with
    | (u, .none) => s.withReports u
    | (u, .lost k quiet) => overflow k quiet (s.withReports u)
  else s

/-- A fault is counted, in the order of R172: the entry; a FAULT report, made by `create`, when the count went from
0 to 1, the kind is in the report set and the counting is not `quiet`; the notice of a fatal kind, which `fatal`
carries out, acted on in ARMED or DRAINING alone (R123, R174). -/
def countWith (create : ReportBody → State → State) (fatal : FaultKind → State → State) (quiet : Bool)
    (k : FaultKind) (detail : Option FaultDetail) (s : State) : State :=
  let fresh := (s.faultEntry k).count = 0
  let s1 := recordFault k detail s
  let s2 := if fresh ∧ s1.isReported k ∧ quiet = false then create (.fault k 1 detail) s1 else s1
  if s2.isFatal k ∧ s2.run.state.sequencing then fatal k s2 else s2

/-! ## Within FAULTED: the RUN_STATE report of a fatal entry and what its placing can count (R123) -/

/-- The overflow of a FAULT report for REPORT_OVERFLOW, in FAULTED: its count is above 0 already, so it is recorded
and nothing more (R173). -/
def overflowOfFaultReportFaulted (k : ReportKind) (_quiet : Bool) (s : State) : State :=
  recordFault .reportOverflow (some (.report k)) s

/-- The overflow of the RUN_STATE report of a fatal entry: counted in FAULTED, where no notice acts (R123). -/
def overflowFaulted (k : ReportKind) (quiet : Bool) (s : State) : State :=
  countWith (createWith overflowOfFaultReportFaulted) (fun _ t => t) quiet .reportOverflow (some (.report k)) s

/-! ## Fatal entry (R122) -/

/-- Steps 1 to 3 of fatal entry: FAULTED with the silence timer stopped; every slot freed without ACTION_DONE (R25);
every holder set emptied and every train stopped without TRAIN_DONE (R47). -/
def enterFaulted (s : State) : State :=
  emptyHoldersStopTrains (vacateAll (s.withRun { s.run with state := .faulted, silence := none }))

/-- Fatal entry with fault kind `k`: its four steps in order (R122). -/
def fatalEntry (k : FaultKind) (s : State) : State :=
  createWith overflowFaulted (.runState .faulted (.fatal k) (96 - s.freeCount)) (enterFaulted s)

/-! ## In any run state -/

/-- The overflow of a FAULT report for REPORT_OVERFLOW: its count is above 0 already, so no FAULT report follows; its
notice is given (R173, R174). -/
def overflowOfFaultReport (k : ReportKind) (_quiet : Bool) (s : State) : State :=
  countWith (fun _ t => t) fatalEntry true .reportOverflow (some (.report k)) s

/-- The overflow of a report: REPORT_OVERFLOW is counted with the kind lost; no FAULT report follows when the report
lost was a FAULT report that was dropped (R157, R173). -/
def countOverflow (k : ReportKind) (quiet : Bool) (s : State) : State :=
  countWith (createWith overflowOfFaultReport) fatalEntry quiet .reportOverflow (some (.report k)) s

/-- A report is created (R156, R157). -/
def createReport (body : ReportBody) (s : State) : State :=
  createWith countOverflow body s

/-- A fault is counted (R172). -/
def countFault (k : FaultKind) (detail : Option FaultDetail) (s : State) : State :=
  countWith createReport fatalEntry false k detail s

/-! ## Freeing a slot, and the drain (R13, R119) -/

/-- The notice of an empty pool: in DRAINING the run state becomes STANDBY, the silence timer stops and RUN_STATE
{STANDBY, DRAIN_COMPLETE, 0} is created (R119). -/
def poolNotice (s : State) : State :=
  if s.freeCount = 96 ∧ s.run.state = .draining then
    createReport (.runState .standby .drainComplete 0)
      (s.withRun { s.run with state := .standby, silence := none })
  else s

/-- A slot in use is freed: it becomes FREE and its entry leaves; ACTION_DONE is created when report done was yes;
then the notice of an empty pool is given (R13, R119). -/
def freeSlot (h : Handle) (ended : Ended) (s : State) : State :=
  match s.live h with
  | none => s
  | some x =>
    match x.action with
    | none => s
    | some a =>
      let s1 := vacate h s
      poolNotice (if a.reportDone then createReport (.actionDone h a.origin a.fired a.skipped ended) s1 else s1)

end Sys2Proof.Machine
end

