-- ==== Sys2Proof/Machine/Link.lean ====
section
/-! DEFINITION. The Host Link's shared operations: the transmit arbiter (R144, R159, R163), the completion of a frame
(R142, R148, R161, R168), the clocking of an SPI link (R132), the arrival of a request frame and its way into the inbound
window (R139 to R143, R149), ATTN and the pins (R130 to R133). -/

namespace Sys2Proof.Machine

/-! ## Responses -/

/-- What the owner block answers: the status, the result fields after it, and what the completion of the response
brings about (R145). -/
structure Reply where
  status : Status
  result : List Byte
  after : AfterSent
  deriving DecidableEq, Repr

/-- A response of a status alone. -/
def reply (st : Status) : Reply := ⟨st, [], .nothing⟩

/-- A response OK with its result fields. -/
def replyOk (result : List Byte) : Reply := ⟨.ok, result, .nothing⟩

/-- The payload of a response: code echo, status, result fields (10.2); an empty request is echoed as 0 (R141). -/
def responsePayload (code : Option Byte) (r : Reply) : List Byte :=
  code.getD 0 :: statusByte r.status :: r.result

/-! ## The transmit arbiter (R144) -/

/-- The oldest response that is ready, marked as in transmission (R140, R144). -/
def takeResponse : List WindowEntry → Option (WindowEntry × List WindowEntry)
  | [] => none
  | e :: es =>
    if e.state = .sending then (takeResponse es).map (fun p => (p.1, e :: p.2))
    else some (e, { e with state := .sending } :: es)

/-- The clock at which a report's retry fell due. -/
def Report.dueAt (r : Report) : Option Nat :=
  match r.state with
  | .retryDue t => some t
  | _ => none

/-- The due retry that is taken first: by the expiry of its interval, then by place in the in-flight window
(R163). -/
def firstDueRetry : List Report → Option Report
  | [] => none
  | r :: rs =>
    match r.dueAt, firstDueRetry rs with
    | none, best => best
    | some _, none => some r
    | some t, some x => if t ≤ x.dueAt.getD t then some r else some x

/-- Ticks left of a duration in milliseconds that began at `start` on the part's clock (DEDUCED, log entry 14). -/
def msLeft (clock start ms : Nat) : Nat := ms * Config.ticksPerMs - (clock - start)

/-- Ticks left of the retry interval of a report (R161). -/
def Report.intervalLeft (clock : Nat) (r : Report) : Option Nat :=
  match r.state with
  | .awaiting since ms => some (msLeft clock since ms)
  | _ => none

/-- The retry interval of a report runs out at this instant, with a retry left: its expiry makes it RETRY_DUE (R162). -/
def Report.fallsDue (clock : Nat) (r : Report) : Bool :=
  r.intervalLeft clock = some 0 && r.retryCount < r.retryLimit.getD 0

/-- The retry that the arbiter takes: the due one whose interval expired first. Of those whose intervals expire at this
very instant the oldest of the window is taken, whichever expiry has been taken first (R163). -/
def nextRetry (clock : Nat) (l : List Report) : Option Report :=
  (firstDueRetry l).map (fun r =>
    if r.dueAt = some clock then (l.find? (fun x => x.dueAt = some clock || x.fallsDue clock)).getD r else r)

/-- The reports of a window with the one of sequence number `q` replaced. -/
def replaceReport (q : Option Seq) (x : Report) (rs : List Report) : List Report :=
  rs.map (fun r => if r.seq = q then x else r)

/-- The next sequence number: 65535 is followed by 1 (R160). -/
def nextSeqAfter (q : Seq) : Seq := if q = 65535 then 1 else q + 1

/-- A frame begins its transmission; of a report, `yields` is its record before the choice. -/
def startTx (f : Frame) (yields : Option Report) (s : State) : State :=
  s.withLink { s.link with tx := some ⟨f, s.clock, 0, yields⟩ }

/-- The frame of a response (R134). -/
def responseFrame (e : WindowEntry) : Frame := ⟨.response, e.tag, e.response⟩

/-- A due retry is sent: its retry count increments and URGENT is set (R163). -/
def sendRetry (r : Report) (s : State) : State :=
  let r' := { r with retryCount := r.retryCount + 1, state := .sending }
  startTx (reportFrame r' true) (some r)
    (s.withReports { s.reports with flight := replaceReport r.seq r' s.reports.flight })

/-- A queued report is sent for the first time: it joins the in-flight window with the next sequence number and
the max retries in force as its retry limit (R159, R160). -/
def sendFirst (r : Report) (rest : List Report) (s : State) : State :=
  let r' := { r with state := .sending, seq := some s.reports.nextSeq, retryCount := 0,
                     retryLimit := some s.reports.maxRetries }
  startTx (reportFrame r' false) (some r)
    (s.withReports { s.reports with
      queue := rest
      flight := s.reports.flight ++ [r']
      nextSeq := nextSeqAfter s.reports.nextSeq })

/-- The transmit arbiter: while the transmitter is idle it takes the oldest ready response, else the due retry, else
the queue head while the in-flight window has room (R144, R159). -/
def arbitrate (s : State) : State :=
  match s.link.tx with
  | some _ => s
  | none =>
    match takeResponse s.link.window with
    | some (e, w) => startTx (responseFrame e) none (s.withLink { s.link with window := w })
    | none =>
      match nextRetry s.clock s.reports.flight with
      | some r => sendRetry r s
      | none =>
        match s.reports.queue with
        | [] => s
        | r :: rest => if s.reports.flight.length < Config.flightCap then sendFirst r rest s else s

/-- The in-flight report of a sequence number. -/
def ReportUnit.inFlight (u : ReportUnit) (q : Seq) : Option Report :=
  u.flight.find? (fun r => r.seq = some q)

/-- The frame in transmission gives way to none: it was chosen at a completion, or is the first frame after a reset, and not
on a transmitter that was idle (R144, R168; DEDUCED, log entry 30). -/
def State.firm (s : State) : State :=
  s.withLink { s.link with tx := s.link.tx.map (fun t => { t with yields := none }) }

/-- The Report Unit before the report of sequence number `q` was chosen, its record then being `r`: a first transmission stands
in the queue again, its number not given; a retry is due again. -/
def ReportUnit.unchosen (u : ReportUnit) (q : Seq) (r : Report) : ReportUnit :=
  match r.seq with
  | none => { u with
      queue := fileBy Report.before r u.queue
      flight := u.flight.filter (fun x => x.seq ≠ some q)
      nextSeq := q }
  | some _ => { u with flight := replaceReport (some q) r u.flight }

/-- The report that the idle transmitter was given at this very instant, no bit of it sent and no ACK of it taken: its
sequence number, and its record before the choice (R144). -/
def State.yielding (s : State) : Option (Seq × Report) :=
  match s.link.tx with
  | none => none
  | some t =>
    if t.startedAt = s.clock ∧ t.sent = 0 ∧ (s.reports.inFlight t.frame.tag).isSome then
      t.yields.map (fun r => (t.frame.tag, r))
    else none

/-- A response becomes ready. A report chosen at this very instant for an idle transmitter gives way to it, whichever became
ready first: it stands where it stood before it was chosen. A frame that has begun is sent whole (R144; DEDUCED, log
entry 30). -/
def giveWay (s : State) : State :=
  match s.yielding with
  | none => s
  | some (q, r) => (s.withLink { s.link with tx := none }).withReports (s.reports.unchosen q r)

/-! ## Frames dropped in reception (R136, R137) -/

/-- A frame in reception is dropped and counted, and the assembler hunts (R137). -/
def dropFrame (k : FaultKind) (s : State) : State :=
  countFault k none (s.withLink { s.link with assembler := .hunting })

/-- A frame in reception, if there is one, is dropped as FRAME_MALFORMED; a deassertion or a rate change while HUNTING is
not counted (R137, R138). -/
def breakOff (s : State) : State :=
  if s.link.assembler = .hunting then s else dropFrame .frameMalformed s

/-! ## The completion of a transmission (R142, R148, R161, R168) -/

/-- A response is recorded as the newest of the recent-responses list (R142). -/
def recordRecent (e : RecentEntry) (l : List RecentEntry) : List RecentEntry :=
  let l' := l.filter (fun x => x.tag ≠ e.tag) ++ [e]
  if Config.recentCap < l'.length then l'.drop 1 else l'

/-- The entry in transmission leaves the window, and its response is recorded when its tag is not 0 and no RESTART was
taken meanwhile (R140, R142, R149). -/
def closeEntry (e : WindowEntry) (l : HostLink) : HostLink :=
  { l with
    window := l.window.filter (fun x => x.state ≠ .sending)
    recent := if e.tag ≠ 0 ∧ e.record then recordRecent ⟨e.tag, e.code, e.response⟩ l.recent else l.recent }

/-- The UART rate changes for both directions; a frame in reception at the old rate is dropped and the
byte in progress discarded. To the rate in force
nothing changes (R148). -/
def changeRate (r : LinkRate) (s : State) : State :=
  if s.link.rate = r then s
  else
    let s1 := breakOff s
    s1.withLink { s1.link with rate := r, byteStarted := false }

/-- The cause that RESET_DONE carries after a restart (R128). -/
def restartCauseOf : RestartMode → ResetDoneCause
  | .keep => .restartKeep
  | .clear => .restartClear

/-- What the completion of a response brings about besides its recording (R148, R128, R168). -/
def afterResponse (a : AfterSent) (s : State) : State :=
  match a with
  | .nothing => s
  | .changeRate r => changeRate r s
  | .restarted m => createReport (.resetDone (restartCauseOf m)) s

/-- The transmission of a response completes. -/
def completeResponse (s : State) : State :=
  match s.link.window.find? (fun e => e.state = .sending) with
  | none => s
  | some e => afterResponse e.after (s.withLink (closeEntry e s.link))

/-- The transmission of the report frame of sequence number `q` completes: a report still in flight and SENDING becomes
AWAITING with the retry interval in force; else nothing changes (R161). -/
def completeReport (q : Seq) (s : State) : State :=
  match s.reports.inFlight q with
  | none => s
  | some r =>
    if r.state = .sending then
      s.withReports { s.reports with
        flight := replaceReport (some q) { r with state := .awaiting s.clock s.reports.retryInterval }
          s.reports.flight }
    else s

/-- The frame in transmission completes: the transmitter is idle, and the owner records the completion (R144). -/
def completeTransmission (s : State) : State :=
  match s.link.tx with
  | none => s
  | some t =>
    let s1 := s.withLink { s.link with tx := none }
    match t.frame.kind with
    | .report => completeReport t.frame.tag s1
    | _ => completeResponse s1

/-! ## The clocking of an SPI link (R132, R144) -/

/-- The bits of a frame on an SPI link, by the length of its payload (R132, 10.2). -/
def frameBits (payloadLength : Nat) : Nat := 8 * (7 + payloadLength)

/-- The last bit of the frame has been clocked out (R132). -/
def Transmission.gone (t : Transmission) : Bool := frameBits t.frame.payload.length ≤ t.sent

/-- A bit of the frame is clocked out in a period of SCK, `phase` bits into a byte. A frame that was chosen within a byte
of filler waits for its end (R132, R144). -/
def Transmission.clocked (phase : Nat) (t : Transmission) : Transmission :=
  if t.sent % 8 = phase then { t with sent := t.sent + 1 } else t

/-- The position of a frame on an SPI link after CSn deasserts: a byte cut in its middle is sent again, from its first bit
(R132). -/
def Transmission.cut (t : Transmission) : Transmission := { t with sent := t.sent / 8 * 8 }

/-- A frame whose last bit has been clocked out completes before the next period of SCK, and the arbiter chooses (R132,
R144). -/
def settle (s : State) : State :=
  match s.link.tx with
  | none => s
  | some t => if t.gone then (arbitrate (completeTransmission s)).firm else s

/-- The part's side of one period of SCK: a bit of the frame in transmission or of filler goes out, and the byte in progress
is one bit further (R132). -/
def clockOut (s : State) : State :=
  let s1 := settle s
  s1.withLink { s1.link with
    tx := s1.link.tx.map (Transmission.clocked s1.link.phase)
    phase := (s1.link.phase + 1) % 8 }

/-- So many periods of SCK. -/
def clockPeriods : Nat → State → State
  | 0, s => s
  | n + 1, s => clockPeriods n (clockOut s)

/-- The host sends so many bits, up to the end of a byte: on an SPI link it asserts CSn, and the part sends as many
meanwhile (R132); on a UART link the directions are independent (R131). -/
def broughtIn (bits : Nat) (s : State) : State :=
  match s.link.linkType with
  | .uart => s
  | .spi =>
    let s1 := clockPeriods bits (s.withLink { s.link with csnAsserted := true })
    s1.withLink { s1.link with sdi := 0 }

/-- The bytes that the assembler has gathered of a frame, its sync byte among them (R136). -/
def Assembler.gathered : Assembler → Nat
  | .hunting => 0
  | .header bs | .payload bs | .crc bs => bs.length + 1

/-- The host sends what is left of a frame, by the length of its payload: the bytes gathered and the bits of the byte in
progress are its beginning, and at least its last byte is to come (DEDUCED, log entry 6). -/
def frameBroughtIn (payloadLength : Nat) (s : State) : State :=
  broughtIn (8 * max 1 (7 + payloadLength - s.link.assembler.gathered) - s.link.phase) s

/-! ## A request frame arrives (R139 to R143, R149) -/

/-- A frame has passed the receive checks: the assembler hunts again, and a running silence timer restarts (R136,
R139, R125; DEDUCED, log entry 6). -/
def frameArrived (s : State) : State :=
  restartSilence (s.withLink { s.link with assembler := .hunting, byteStarted := false })

/-- An entry of the recent-responses list that a request repeats (R139, check 3). -/
def matchRecent (tag : Tag) (code : Option Byte) (l : List RecentEntry) : Option RecentEntry :=
  if tag = 0 ∨ code = none then none else l.find? (fun e => e.tag = tag ∧ e.code = code)

/-- A RESTART has been taken and its response has not completed (R149). -/
def HostLink.restarting (l : HostLink) : Bool :=
  l.window.any (fun e => match e.after with
    | .restarted _ => true
    | _ => false)

/-- A request is taken, and its response made, as a new entry of the window (R140, R141). No request waits once those
before it are taken, so the taking is part of the arrival (DEDUCED, log entry 5). -/
def takeRequest (tag : Tag) (code : Option Byte) (take : State → State × Reply) (s : State) : State :=
  let p := take s
  p.1.withLink { p.1.link with window := p.1.link.window ++
    [⟨tag, code, .answered, responsePayload code p.2, p.2.after, true⟩] }

/-- A request is put into the inbound window or dropped, by the checks of R139 in order; between the taking of a
RESTART and the completion of its response none is put in (R149). One that is put in has its response ready at once, and a
report chosen at the same instant gives way (R144). -/
def putRequest (tag : Tag) (code : Option Byte) (take : State → State × Reply) (s : State) : State :=
  if tag ≠ 0 ∧ s.link.window.any (fun e => e.tag = tag) then s
  else if s.link.restarting then countFault .inboundOverflow none s
  else if Config.windowCap ≤ s.link.window.length then countFault .inboundOverflow none s
  else
    match matchRecent tag code s.link.recent with
    | some e =>
      (giveWay s).withLink { (giveWay s).link with
        window := s.link.window ++ [⟨tag, code, .replayed, e.response, .nothing, true⟩] }
    | none =>
      takeRequest tag code take ((giveWay s).withLink { (giveWay s).link with
        recent := if tag = 0 then s.link.recent else s.link.recent.filter (fun e => e.tag ≠ tag) })

/-- A command that is a request frame, with a payload of `length` bytes: the host sends it, it arrives, is put into the
window and taken, and the arbiter chooses the next frame if the transmitter is idle. Held in reset, the part ignores what is
on its pins (R150; log entry 11). -/
def requestFrame (tag : Tag) (length : Nat) (code : Option Byte) (take : State → State × Reply) (s : State) :
    Host.Outcome State Fault Refusal :=
  if s.held then .next s
  else .next (arbitrate (putRequest tag code take (frameArrived (frameBroughtIn length s))))

/-- A request of a known code, whose payload has the one length that the code requires (10.3). -/
def requestOf (tag : Tag) (c : Code) (take : State → State × Reply) (s : State) :
    Host.Outcome State Fault Refusal :=
  requestFrame tag c.lengths.1 (some c.byte) take s

/-! ## The pins of the link (R130 to R133, R150) -/

/-- A frame is ready to be sent, or is in transmission (R133). -/
def State.frameReady (s : State) : Bool :=
  s.link.tx.isSome || (takeResponse s.link.window).isSome || (firstDueRetry s.reports.flight).isSome
    || (!s.reports.queue.isEmpty && s.reports.flight.length < Config.flightCap)

/-- The level of ATTN: on an SPI link HIGH while a frame is ready or in transmission (R133); LOW on a UART link
(R130) and in reset (R150). -/
def State.attn (s : State) : Level :=
  if s.held then .low
  else match s.link.linkType with
    | .uart => .low
    | .spi => if s.frameReady then .high else .low

/-- SDO is driven: on an SPI link while CSn is asserted, not in reset (R130, R132, R150). -/
def State.sdoDriven (s : State) : Bool :=
  !s.held && s.link.linkType == .spi && s.link.csnAsserted

/-- The filler byte, which the part sends on an SPI link when it has no frame to send (R132). -/
def fillerByte : Byte := 0x00

/-- The byte that the part is sending on an SPI link: a byte of the frame in transmission, or filler, with none in
transmission and to the end of a byte of filler in which a frame was chosen (R132, R144). -/
def State.sdoByte (s : State) : Byte :=
  match s.link.tx with
  | none => fillerByte
  | some t => if t.sent % 8 = s.link.phase then byteAt t.frame.bytes (t.sent / 8) else fillerByte

/-- The levels of SDO over the falling edges of SCK that are left of the byte; none while SDO is not driven (R132). -/
def State.sdoBits (s : State) : List Level :=
  if s.sdoDriven then (spiBits s.sdoByte).drop s.link.phase else []

/-- TXD rests HIGH: on an SPI link, in reset, and on a UART link between frames (R130, R131, R150). -/
def State.txdRests (s : State) : Bool :=
  s.held || s.link.linkType == .spi || s.link.tx.isNone

/-- Ticks that a frame takes on a UART link: 10 bit times a byte (R131), rounded up to a whole tick (DESIGN CHOICE,
log entry 26). -/
def uartTicks (rate : LinkRate) (f : Frame) : Nat :=
  (10 * (7 + f.payload.length) * Config.ticksPerSecond + rate.baud - 1) / rate.baud

/-- How many bit times of the frame in transmission have passed on a UART link (R131). -/
def State.txBit (s : State) (t : Transmission) : Nat :=
  (s.clock - t.startedAt) * s.link.rate.baud / Config.ticksPerSecond

/-- How many bytes of the frame in transmission have left the part (the transmitter's position, R131, R132, R144). -/
def State.txPosition (s : State) : Nat :=
  match s.link.tx with
  | none => 0
  | some t =>
    match s.link.linkType with
    | .uart => s.txBit t / 10
    | .spi => t.sent / 8

/-- The level of TXD: HIGH at rest, else the level of the bit of the frame in transmission, its bytes back to back
(R131). -/
def State.txd (s : State) : Level :=
  if s.txdRests then .high
  else match s.link.tx with
    | none => .high
    | some t => (t.frame.bytes.flatMap uartBits).getD (s.txBit t) .high

end Sys2Proof.Machine
end

