-- ==== Sys2Proof/Machine/Events.lean ====
section
/-! DEFINITION. When the part's own events fall due, on the timeline and on the part's clock, and what it is for one
of them to come about: time runs on to it, provided nothing else of the part falls due before (DESIGN CHOICE,
log entry 4). -/

namespace Sys2Proof.Machine

/-- Ticks left until the head of the time list is reached; 0 when it is reached or behind (R8). -/
def timeListDue (s : State) : Option Nat :=
  match s.sched.timeList with
  | [] => none
  | e :: _ => some (if tickAhead s.now e.key then (e.key - s.now).toNat else 0)

/-- Ticks left of a duration that began at `start` on the timeline. -/
def ticksLeft (now start : Tick) (length : Nat) : Nat := length - (now - start).toNat

/-- Ticks left of the qualification of an input (R67). -/
def edgeDue (l : InLine) (s : State) : Option Nat :=
  (s.input l).qual.map (fun q => ticksLeft s.now q.rawTick (s.input l).width)

/-- Ticks left of the SYNC qualification (R55). -/
def syncDue (s : State) : Option Nat :=
  s.timebase.syncQual.map (fun q => ticksLeft s.now q.rawTick s.timebase.syncWidth)

/-- Ticks left of the high time of a running train, while its high part is in progress and ends before the period
(R37). -/
def highDue (l : OutLine) (s : State) : Option Nat :=
  match (s.output l).running, (s.output l).periodStart, (s.output l).applied with
  | true, some start, some v =>
    if (s.output l).inHigh ∧ v.high.toNat < v.period.toNat then some (ticksLeft s.now start v.high.toNat) else none
  | _, _, _ => none

/-- Ticks left of the period of a running train (R37). -/
def periodDue (l : OutLine) (s : State) : Option Nat :=
  match (s.output l).running, (s.output l).periodStart, (s.output l).applied with
  | true, some start, some v => some (ticksLeft s.now start v.period.toNat)
  | _, _, _ => none

/-- Ticks left of a running silence timer (R125). -/
def silenceDue (s : State) : Option Nat :=
  s.run.silence.map (fun start => msLeft s.clock start s.run.silenceLimit)

/-- Ticks left of the gap timer, which runs inside a frame on a UART link, from the end of a byte to the start of the
next (R138). -/
def gapDue (s : State) : Option Nat :=
  if s.link.linkType = .uart ∧ s.link.assembler ≠ .hunting ∧ s.link.byteStarted = false then
    some (msLeft s.clock s.link.lastByteAt Config.gapMs)
  else none

/-- Ticks left of the retry interval of the in-flight report of sequence number `q` (R161). -/
def retryDue (q : Seq) (s : State) : Option Nat :=
  (s.reports.inFlight q).bind (Report.intervalLeft s.clock)

/-- Ticks left of the frame in transmission: on a UART link those of its bit times (R131; log entry 26); on an SPI link
none once its last bit has been clocked out, which the host decides (R132). -/
def transmitDue (s : State) : Option Nat :=
  match s.link.linkType, s.link.tx with
  | .uart, some t => some (uartTicks s.link.rate t.frame - (s.clock - t.startedAt))
  | .spi, some t => if t.gone then some 0 else none
  | _, none => none

/-- Ticks until a pin can be sampled: none at a tick at which it has not been sampled yet, else one, to the next tick
(R66). -/
def sampleDue (sampledAt : Option Nat) (clock : Nat) : Nat := if sampledAt = some clock then 1 else 0

/-- An event and the ticks left until it, when it is in prospect. -/
def inProspect (ticks : Option Nat) (i : Instr) : List (Nat × Instr) :=
  match ticks with
  | none => []
  | some n => [(n, i)]

/-- Every event of the part's own that time alone brings about, with the ticks left until it. -/
def agenda (s : State) : List (Nat × Instr) :=
  inProspect (timeListDue s) .timeListExpiry
    ++ inProspect (syncDue s) .syncEdgeAccepted
    ++ allInputs.flatMap (fun l => inProspect (edgeDue l s) (.inputEdgeAccepted l))
    ++ allOutputs.flatMap (fun l => inProspect (highDue l s) (.trainHighTimeEnd l)
        ++ inProspect (periodDue l s) (.trainPeriodEnd l))
    ++ inProspect (silenceDue s) .silenceTimerExpiry
    ++ inProspect (gapDue s) .gapTimerExpiry
    ++ inProspect (transmitDue s) .transmitComplete
    ++ s.reports.flight.flatMap (fun r => match r.seq with
        | none => []
        | some q => inProspect (retryDue q s) (.retryIntervalExpiry q))

/-- The events that are due at the present tick. -/
def dueNow (s : State) : List Instr :=
  ((agenda s).filter (fun p => p.1 = 0)).map Prod.snd

/-- A command that is an event of the part's own, `ticks` away: time runs on to it and it is carried out, then the
arbiter chooses. An event that is not in prospect, or before which another falls due, does not come about: nothing
changes (DESIGN CHOICE, log entry 4). Held in reset, nothing comes about (log entry 11). -/
def whenDue (ticks : Option Nat) (event : State → State) (s : State) : Host.Outcome State Fault Refusal :=
  if s.held then .next s
  else match ticks with
    | none => .next s
    | some n =>
      if (agenda s).all (fun p => n ≤ p.1) then .next (arbitrate (event (elapse n s))) else .next s

/-- The event that is posted when several are due at one tick: the manual leaves their order open, so the free value
chooses among them (log entry 3). -/
def chooseDue (choices : Nat) (due : List Instr) : List Instr :=
  (due.drop (Config.eventChoice choices % due.length)).take 1

/-- What the part does while no command waits: an event that is due now is posted as the next command; with none due,
one tick passes (DESIGN CHOICE, log entry 4). Held in reset, nothing happens (log entry 11). -/
def idle (s : State) : State :=
  if s.held then s
  else
    match dueNow s with
    | [] => elapse 1 s
    | [i] => { s with pending := [i] }
    | due => { s with pending := chooseDue s.choices due, choices := s.choices + 1 }

/-- A command that is an event from outside, or a completion on the link: it is carried out at the present tick
(DESIGN CHOICE, log entry 4). -/
def atOnce (event : State → State) (s : State) : Host.Outcome State Fault Refusal :=
  if s.held then .next s else .next (arbitrate (event s))

end Sys2Proof.Machine
end

