-- ==== Sys2Proof/Machine/Schedule.lean ====
section
/-! DEFINITION. The Action Scheduler and the Output Stage at work (Chapter 1, 1.3 to 1.5; Chapter 2, 2.2 to 2.4):
lateness, START, END, the collision policies, and the expiry of the two lists within one event. -/

namespace Sys2Proof.Machine

/-! ## Lateness (R14) -/

/-- How late a due is, when it is behind by more than the tolerance (R14); none when it is ahead or on time. A due out
of range, which no run reaches, is measured in the same way (DEDUCED, log entry 16). -/
def State.lateBy (s : State) (due : Due) : Option Nat :=
  if s.dueAhead due then none
  else match due with
    | .time t =>
      if (s.now - t).toNat ≤ s.sched.lateTicks then none else some (s.now - t).toNat
    | .travel c =>
      if (s.timebase.travelCount - c).toNat ≤ s.sched.lateCounts then none
      else some (s.timebase.travelCount - c).toNat

/-- The outcome of a run of skipped occurrences: how many were skipped, and the next due with the repeats left after
it, unless the last occurrence was skipped (R16). -/
structure SkipRun where
  skipped : Nat
  next : Option (Due × Nat)
  deriving DecidableEq, Repr

/-- The run that begins by skipping the occurrence of `due` with `left` repeats left, `n` skipped before it (R16). -/
def skipFrom (late : Due → Bool) (interval : BitVec 32) : Nat → Due → Nat → SkipRun
  | 0, _, n => ⟨n + 1, none⟩
  | left + 1, due, n =>
    if late (due.next interval) then skipFrom late interval left (due.next interval) (n + 1)
    else ⟨n + 1, some (due.next interval, left)⟩

/-! ## Proceeding after an occurrence (R11)

Each of the operations below answers the state and the handles whose START is to be tested and taken at once, ahead
of the lists: a TRAVEL START expires on joining (R9), and the next START of a holder cut by RETRIGGER is taken when
the START that cut it is complete (R12). A handle in that list whose due is ahead simply waits. -/

/-- The handle of an action that has just been filed, when it is of base TRAVEL (R9). -/
def travelUrgent (h : Handle) (due : Due) : List Handle :=
  match due with
  | .time _ => []
  | .travel _ => [h]

/-- The action of a slot, WAITING or HOLDING, proceeds after its occurrence: the next due is filed, or the slot is
freed (R11). -/
def proceed (h : Handle) (a : Action) (s : State) : State × List Handle :=
  match a.repeatsLeft with
  | left + 1 =>
    let due := a.due.next (a.interval.getD 0)
    (joinStart h due (setWaiting h { a with due := due, repeatsLeft := left } s), travelUrgent h due)
  | 0 => (freeSlot h (if a.finishRequested then .completeEarly else .complete) s, [])

/-- The END of a HOLDING action: its line is released and it proceeds (R11, R31). -/
def endAction (h : Handle) (s : State) : State × List Handle :=
  match s.holdingAction h with
  | none => (s, [])
  | some a => proceed h a (release a.line h s)

/-! ## START (R10, R30 to R34) -/

/-- The Output Stage accepts a START: the action joins the holder set, its slot is HOLDING with fired incremented
and end START tick + width, and its END entry joins the time list (R10, R30, R34). -/
def acceptStart (h : Handle) (a : Action) (tick : Tick) (s : State) : State :=
  let finish := tick + a.width.setWidth 48
  let s1 := s.putOutput a.line { s.output a.line with holders := (s.output a.line).holders ++ [h] }
  let s2 := s1.putSlot h.slot ⟨h.gen, .holding { a with fired := a.fired + 1 } finish⟩
  joinTime h .finish finish s2

/-- A fault of an action is counted after its report; not when the report's overflow has entered FAULTED and freed the
action's slot: these faults are not counted in FAULTED (R175; DEDUCED, log entry 19). -/
def countForAction (k : FaultKind) (d : FaultDetail) (h : Handle) (s : State) : State :=
  if (s.waitingAction h).isSome then countFault k (some d) s else s

/-- A START is refused under REFUSE: skipped increments, COLLISION is reported and counted, and the action proceeds
as at an END, unless FAULTED was entered and its slot freed (R32). -/
def refuseStart (h owner : Handle) (a : Action) (s : State) : State × List Handle :=
  let a1 := { a with skipped := a.skipped + 1 }
  let s1 := createReport (.collision a.line h owner) (setWaiting h a1 s)
  let s2 := countForAction .collision (.output a.line) h s1
  match s2.waitingAction h with
  | none => (s2, [])
  | some a2 => proceed h a2 s2

/-- One holder of line `l` is cut: its END entry leaves the time list, it leaves the holder set and proceeds as at an
END (R12, R33). The handle is answered with the state: its next START, if it was filed, is taken when the START that
cut it is complete. A handle that is not HOLDING only leaves the set. -/
def cutHolder (l : OutLine) (b : Handle) (s : State) : State × List Handle :=
  match s.holdingAction b with
  | none => (release l b s, [])
  | some a => ((proceed b a (release l b (removeEntry b s))).1, [b])

/-- The holders of a line are cut, one after another; under RETRIGGER there is one. -/
def cutHolders (l : OutLine) : List Handle → State → State × List Handle
  | [], s => (s, [])
  | b :: bs, s =>
    let p := cutHolder l b s
    let q := cutHolders l bs p.1
    (q.1, p.2 ++ q.2)

/-- A START reaches the Output Stage (R30, R32 to R34). -/
def startOnLine (h : Handle) (a : Action) (tick : Tick) (s : State) : State × List Handle :=
  match (s.output a.line).holders with
  | [] => (acceptStart h a tick s, [])
  | first :: others =>
    match (s.output a.line).policy with
    | .refuse => refuseStart h ((s.owner a.line).getD first) a s
    | .merge => (acceptStart h a tick s, [])
    | .retrigger =>
      let p := cutHolders a.line (first :: others) s
      match p.1.waitingAction h with
      | none => (p.1, [])
      | some a1 => (acceptStart h a1 tick p.1, p.2)

/-- A late START under FIRE: LATE is reported and ACTION_LATE counted; unless that entered FAULTED, the START is
taken now (R15). -/
def fireLate (h : Handle) (a : Action) (lateness : Nat) (s : State) : State × List Handle :=
  let s1 := createReport (.late h a.due.base lateness none) s
  let s2 := countForAction .actionLate (.handle h) h s1
  match s2.waitingAction h with
  | none => (s2, [])
  | some a1 => startOnLine h a1 s2.now s2

/-- A late START under SKIP: the run of skipped occurrences, one LATE report and one ACTION_LATE count; unless that
entered FAULTED, the next due is filed or the slot is freed (R16). -/
def skipLate (h : Handle) (a : Action) (lateness : Nat) (s : State) : State × List Handle :=
  let run := skipFrom (fun d => (s.lateBy d).isSome) (a.interval.getD 0) a.repeatsLeft a.due 0
  let a1 := { a with
    skipped := a.skipped + run.skipped
    due := (run.next.map Prod.fst).getD a.due
    repeatsLeft := (run.next.map Prod.snd).getD 0 }
  let s1 := createReport (.late h a.due.base lateness (some run.skipped)) (setWaiting h a1 s)
  let s2 := countForAction .actionLate (.handle h) h s1
  match s2.waitingAction h with
  | none => (s2, [])
  | some a2 =>
    match run.next with
    | some (due, _) => (joinStart h due s2, travelUrgent h a2.due)
    | none => (freeSlot h .complete s2, [])

/-- A START entry has expired, and has left its list: the lateness test, then the START at `tick` (R10, R14). -/
def startAction (h : Handle) (tick : Tick) (s : State) : State × List Handle :=
  match s.waitingAction h with
  | none => (s, [])
  | some a =>
    match s.lateBy a.due with
    | none => startOnLine h a tick s
    | some lateness =>
      match s.sched.latePolicy with
      | .fire => fireLate h a lateness s
      | .skip => skipLate h a lateness s

/-! ## Expiry (R8, R9) -/

/-- What makes entries expire within an event. With `whole` the time list expires as a whole: the timeline has
reached its head (R8). Else only entries that join within the event do, with those that stand before them in the list's
order. `standing` names the actions whose entry has stood in its list since before the event. `travelEdge` is the
timestamp of the travel edge when the travel count has advanced (R9). -/
structure Expiry where
  whole : Bool
  standing : List Handle
  travelEdge : Option Tick
  deriving DecidableEq, Repr

/-- The entry of this action has stood in its list since before the event. -/
def Expiry.stood (x : Expiry) (h : Handle) : Bool := x.standing.contains h

/-- The entry of this action has left its list: the next one joins within the event. -/
def Expiry.without (x : Expiry) (h : Handle) : Expiry :=
  { x with standing := x.standing.filter (fun y => y ≠ h) }

/-- The head of the time list, when it is to expire now: it is reached or behind, and so is an entry that joined within
the event, unless the whole list expires (R8). -/
def expiredTime (x : Expiry) (s : State) : Option TimeEntry :=
  match s.sched.timeList with
  | [] => none
  | e :: es =>
    if tickAhead s.now e.key then none
    else if x.whole || (e :: es).any (fun y => !tickAhead s.now y.key && !x.stood y.handle) then some e
    else none

/-- The head of the travel list, when it is not ahead of the travel count (R9). -/
def expiredTravel (s : State) : Option TravelEntry :=
  match s.sched.travelList with
  | [] => none
  | e :: _ => if countAhead s.timebase.travelCount e.key then none else some e

/-- The head of the time list leaves it. -/
def popTime (s : State) : State := s.withSched { s.sched with timeList := s.sched.timeList.tail }

/-- The head of the travel list leaves it. -/
def popTravel (s : State) : State := s.withSched { s.sched with travelList := s.sched.travelList.tail }

/-- Whether a handle's START is to be taken now: it is WAITING and its due is not ahead. -/
def State.startDue (s : State) (h : Handle) : Bool :=
  match s.waitingAction h with
  | none => false
  | some a => !s.dueAhead a.due

/-- One entry of the time list, expired, is carried out (R8, R10, R11). A TIME START tick is the tick of taking, which
is the due tick for an entry that waited for its key (R10). -/
def carryOutTime (e : TimeEntry) (s : State) : State × List Handle :=
  match e.phase with
  | .start => startAction e.handle s.now s
  | .finish => endAction e.handle s

/-- The START tick of a travel-list entry: the timestamp of the travel edge for an entry that stood in the list when
the count advanced, the tick of joining for one that joined since (R10). -/
def travelTick (x : Expiry) (edge : Tick) (e : TravelEntry) (s : State) : Tick :=
  if x.stood e.handle then edge else s.now

/-- The expiry of the lists within one event, `fuel` entries at most. First the handles whose START is to be taken at
once; then the time list (R8); then, when the travel count has advanced, the head of the travel list while it is not
ahead (R9). -/
def runLists (x : Expiry) : Nat → List Handle → State → State
  | 0, _, s => s
  | fuel + 1, h :: hs, s =>
    if s.startDue h then
      let p := startAction h s.now (removeEntry h s)
      runLists (x.without h) fuel (p.2 ++ hs) p.1
    else runLists (x.without h) fuel hs s
  | fuel + 1, [], s =>
    match expiredTime x s with
    | some e =>
      let p := carryOutTime e (popTime s)
      runLists (x.without e.handle) fuel p.2 p.1
    | none =>
      match x.travelEdge with
      | none => s
      | some edge =>
        match expiredTravel s with
        | none => s
        | some e =>
          let p := startAction e.handle (travelTick x edge e s) (popTravel s)
          runLists (x.without e.handle) fuel p.2 p.1

/-- How many STARTs and ENDs the action of a slot can still have. -/
def Slot.eventsLeft (x : Slot) : Nat :=
  match x.state with
  | .free => 0
  | .waiting a => 2 * (a.repeatsLeft + 1)
  | .holding a _ => 2 * a.repeatsLeft + 1

/-- An upper bound of the entries that one event can carry out: every START uses up an occurrence
(DEDUCED, log entry 28). -/
def State.expiryBound (s : State) : Nat :=
  3 * ((allSlots.map (fun i => (s.slot i).eventsLeft)).sum) + s.sched.timeList.length + s.sched.travelList.length

/-- The lists expire within one event (R8, R9). -/
def expireLists (x : Expiry) (urgent : List Handle) (s : State) : State :=
  runLists x (s.expiryBound + urgent.length) urgent s

/-- The time list expires at the tick at which the timeline reaches its head (R8). -/
def expireTimeList (s : State) : State := expireLists ⟨true, s.listedHandles, none⟩ [] s

/-- The travel list expires when the travel count has advanced on an edge with this timestamp (R9). -/
def expireTravelList (edge : Tick) (s : State) : State := expireLists ⟨false, s.listedHandles, some edge⟩ [] s

/-- An action just allocated joins its list, and is tested for lateness and taken as it joins (R3, R14). A slot that
fatal entry has freed meanwhile joins nothing (R108). A late entry has joined, with its insertion serial, before its
test (DEDUCED, log entry 18). -/
def joinAction (h : Handle) (s : State) : State :=
  match s.waitingAction h with
  | none => s
  | some a => expireLists ⟨false, s.listedHandles, none⟩ (travelUrgent h a.due) (joinStart h a.due s)

end Sys2Proof.Machine
end

