-- ==== Sys2Proof/Machine/Rules.lean ====
section
/-! DEFINITION. The Rule Engine evaluating an edge (Chapter 5, 5.4 and 5.5): matching, gate, holdoff, the slot request,
the firing and the limit. -/

namespace Sys2Proof.Machine

/-- A rule matches an edge by line and kind (R100). -/
def RuleRecord.matchesEdge (x : RuleRecord) (e : EdgeEvent) : Bool :=
  let named := x.matchSet.getLsbD e.line.val
  let line := match x.sense with
    | .positive => named
    | .negative => !named
  let kind := match x.edgeKind with
    | .either => true
    | .rising => e.kind = .rising
    | .falling => e.kind = .falling
  line && kind

/-- The gate of a matching rule is met (R101). -/
def State.gateMet (s : State) (x : RuleRecord) : Bool :=
  !(x.base = .travel && s.timebase.source = none) &&
  match x.gate with
  | none => true
  | some (l, v) => (s.input l).filtered = v

/-- An edge with timestamp `t` falls within the holdoff of a rule (R102). -/
def Rule.heldOff (x : Rule) (t : Tick) : Bool :=
  match x.lastFiring with
  | none => false
  | some f => (t - f).toNat < x.active.holdoff.toNat

/-- The firing serial of a rule's next firing (R105). -/
def Rule.nextFiring (x : Rule) : Nat := satInc Config.countCap x.fired

/-- The due of a template's action (R105). -/
def templateDue (base : Base) (t : Template) (e : EdgeEvent) : Due :=
  match base with
  | .time => .time (e.timestamp + t.offset.setWidth 48)
  | .travel => .travel (e.travelCount + t.offset)

/-- The action of a template (R105). -/
def templateAction (r : RuleNo) (x : Rule) (e : EdgeEvent) (t : Template) : Action where
  origin := .rule r x.generation x.nextFiring
  line := t.line
  due := templateDue x.active.base t e
  width := t.width
  repeatsLeft := t.repeats
  interval := if t.repeats = 0 then none else t.interval
  fired := 0
  skipped := 0
  reportDone := x.active.reportDone
  finishRequested := false

/-- Slots are allocated to actions, in order (R4). -/
def allocateAll : List (SlotNo × Action) → State → State
  | [], s => s
  | (i, a) :: rest, s => allocateAll rest (allocate i a s)

/-- Actions just allocated join their lists, in order (R104). -/
def joinAll : List Handle → State → State
  | [], s => s
  | h :: hs, s => joinAll hs (joinAction h s)

/-- The limit of a rule is tested after a firing (R107). -/
def testLimit (r : RuleNo) (s : State) : State :=
  if (s.rule r).active.limit = some (s.rule r).fired then
    createReport (.ruleSpent r (s.rule r).generation) (s.putRule r { s.rule r with state := .spent })
  else s

/-- A rule fires in the slots granted (R104, R106, R107). A fatal fault in a joining frees the slots of the templates
not yet filed, which then join nothing; the firing is counted and reported all the same (R108). -/
def fireRule (r : RuleNo) (slots : List SlotNo) (e : EdgeEvent) (s : State) : State :=
  let x := s.rule r
  let s1 := allocateAll (slots.zip (x.active.templates.map (templateAction r x e))) s
  let handles := slots.map s1.handleOf
  let s2 := joinAll handles s1
  let s3 := s2.putRule r { s2.rule r with fired := x.nextFiring, lastFiring := some e.timestamp }
  let s4 :=
    if x.active.reportFired then
      createReport (.fired r x.generation x.nextFiring e.line e.timestamp handles) s3
    else s3
  testLimit r s4

/-- A rule's slot request is refused: POOL_EXHAUSTED is counted, dropped increments and FIRING_DROPPED is created
(R103). -/
def dropFiring (r : RuleNo) (asked free : Nat) (e : EdgeEvent) (s : State) : State :=
  let s1 := countFault .poolExhausted (some (.ruleOrigin r)) s
  let s2 := s1.putRule r { s1.rule r with dropped := satInc Config.countCap (s1.rule r).dropped }
  createReport (.firingDropped r e.line e.timestamp asked free) s2

/-- A matching rule that passes its gate and holdoff asks for its slots; all are granted when the free slots less the
slots asked are at least the host reserve, and else none (R4, R103, R104). -/
def requestSlots (r : RuleNo) (e : EdgeEvent) (s : State) : State :=
  let k := (s.rule r).active.templates.length
  if k + s.sched.reserve ≤ s.freeCount then fireRule r (s.freeSlots.take k) e s
  else dropFiring r k s.freeCount e s

/-- One rule is examined for an edge: state, match, gate, holdoff, slot request (R99). -/
def evalRule (r : RuleNo) (e : EdgeEvent) (s : State) : State :=
  let x := s.rule r
  if x.state ≠ .listening then s
  else if x.active.matchesEdge e = false then s
  else if s.gateMet x.active = false then
    s.putRule r { x with gated := satInc Config.countCap x.gated }
  else if x.heldOff e.timestamp then
    s.putRule r { x with suppressed := satInc Config.countCap x.suppressed }
  else requestSlots r e s

/-- Rules are examined for an edge in order, while the part is ARMED (R98, R99, R108). -/
def evalRules (e : EdgeEvent) : List RuleNo → State → State
  | [], s => s
  | r :: rs, s => if s.run.state = .armed then evalRules e rs (evalRule r e s) else s

/-- An edge is evaluated against every rule, in ascending rule number (R98, R99). -/
def evaluateEdge (e : EdgeEvent) (s : State) : State :=
  evalRules e allRules s

end Sys2Proof.Machine
end

