-- ==== Sys2Proof/Machine/TimebaseCommands.lean ====
section
/-! DEFINITION. The commands of the Timebase: GET_TIME, SET_TRAVEL_SOURCE, SET_SYNC, ARM_SYNC, CANCEL_SYNC (R54, R56,
R58, R62, R63) and the events of the SYNC input (R55, R57, R60, R61). -/

namespace Sys2Proof.Machine

/-! ## Requests -/

/-- GET_TIME is taken (R63). -/
def takeGetTime (s : State) : State × Reply :=
  let t := s.timebase
  (s, replyOk (tickBytes t.timeline ++ leBytes 4 t.travelCount.toNat ++ [sourceByte t.source, timeFlags t]
    ++ tickBytes (t.preset.getD 0) ++ tickBytes (t.lastSync.getD 0)))

/-- GET_TIME (R63). -/
def execGetTime (tag : Tag) (s : State) : Host.Outcome State Fault Refusal :=
  requestOf tag .getTime takeGetTime s

/-- SET_TRAVEL_SOURCE is taken (R54). -/
def takeSetTravelSource (source : Byte) (s : State) : State × Reply :=
  match sourceOf source with
  | none => (s, reply .badValue)
  | some x =>
    if s.sched.travelList.isEmpty then
      (s.withTimebase { s.timebase with source := x }, replyOk (leBytes 4 s.timebase.travelCount.toNat))
    else (s, reply .busy)

/-- SET_TRAVEL_SOURCE (R54). -/
def execSetTravelSource (tag : Tag) (source : Byte) (s : State) : Host.Outcome State Fault Refusal :=
  requestOf tag .setTravelSource (takeSetTravelSource source) s

/-- A qualification restarted at `now` from the current raw level; none when that equals the filtered level (R56, R64,
R71, R82; with a filter width of 0 it is due at once: DEDUCED, log entry 21). -/
def requalify (raw filtered : Level) (now : Tick) : Option Qualification :=
  if raw = filtered then none else some ⟨now, raw⟩

/-- SET_SYNC is taken (R56). -/
def takeSetSync (width : BitVec 16) (reporting : Byte) (s : State) : State × Reply :=
  match yesNoOf reporting with
  | none => (s, reply .badValue)
  | some r =>
    if 1023 < width.toNat then (s, reply .badValue)
    else
      (s.withTimebase { s.timebase with
        syncWidth := width.toNat
        syncReporting := r
        syncQual := requalify s.timebase.syncRaw s.timebase.syncFiltered s.now }, replyOk [])

/-- SET_SYNC (R56). -/
def execSetSync (tag : Tag) (width : BitVec 16) (reporting : Byte) (s : State) : Host.Outcome State Fault Refusal :=
  requestOf tag .setSync (takeSetSync width reporting) s

/-- ARM_SYNC is taken (R58). -/
def takeArmSync (preset : Tick) (s : State) : State × Reply :=
  if s.run.state ≠ .standby then (s, reply .state)
  else if s.sched.timeList.isEmpty ∧ s.sched.travelList.isEmpty then
    (s.withTimebase { s.timebase with preset := some preset }, replyOk [])
  else (s, reply .busy)

/-- ARM_SYNC (R58). -/
def execArmSync (tag : Tag) (preset : Tick) (s : State) : Host.Outcome State Fault Refusal :=
  requestOf tag .armSync (takeArmSync preset) s

/-- CANCEL_SYNC is taken (R62). -/
def takeCancelSync (s : State) : State × Reply :=
  (s.withTimebase { s.timebase with preset := none }, replyOk [yesNoByte s.syncArmed])

/-- CANCEL_SYNC (R62). -/
def execCancelSync (tag : Tag) (s : State) : Host.Outcome State Fault Refusal :=
  requestOf tag .cancelSync takeCancelSync s

/-! ## The SYNC input (R55, R57, R60, R61) -/

/-- A qualification in progress moved with the timeline (R61). -/
def Qualification.moved (q : Qualification) (offset : Tick) : Qualification :=
  { q with rawTick := q.rawTick + offset }

/-- The timeline is loaded by a SYNC edge with timestamp `t` and preset `p`: the delay since the edge is kept, and what
measures time still running is moved by the load offset (R60, R61). -/
def loadTimeline (p t : Tick) (s : State) : State :=
  let offset := p - t
  let s1 := s.withTimebase { s.timebase with
    timeline := p + (s.now - t)
    preset := none
    lastSync := none
    syncQual := s.timebase.syncQual.map (fun q => q.moved offset) }
  let s2 := s1.withInputs (tabulate (fun l =>
    { s.input l with qual := (s.input l).qual.map (fun q => q.moved offset) }))
  let s3 := s2.withOutputs (tabulate (fun l =>
    { s.output l with periodStart := (s.output l).periodStart.map (fun x => x + offset) }))
  createReport (.syncSeen p none true) s3

/-- A SYNC edge with timestamp `t` while SYNC is not armed is timed against the last one (R57). -/
def timeSync (t : Tick) (s : State) : State :=
  let s1 :=
    if s.timebase.syncReporting then
      createReport (.syncSeen t (s.timebase.lastSync.map (fun x => t - x)) false) s
    else s
  s1.withTimebase { s1.timebase with lastSync := some t }

/-- A SYNC edge with timestamp `t` (R57, R60). -/
def syncEdge (t : Tick) (s : State) : State :=
  match s.timebase.preset with
  | some p => loadTimeline p t s
  | none => timeSync t s

/-- The SYNC qualification is accepted: the filtered level changes, and a rising edge is a SYNC edge (R55). -/
def acceptSync (s : State) : State :=
  match s.timebase.syncQual with
  | none => s
  | some q =>
    let s1 := s.withTimebase { s.timebase with syncFiltered := q.level, syncQual := none }
    match q.level with
    | .low => s1
    | .high => syncEdge q.rawTick s1

/-- A SYNC qualification lasts the SYNC filter width (R55). -/
def execSyncEdgeAccepted (s : State) : Host.Outcome State Fault Refusal :=
  whenDue (syncDue s) acceptSync s

/-- SYNC is sampled at `v`: a change from the filtered level begins a qualification, a return abandons it, and with a
filter width of 0 the edge is accepted at once (R55). -/
def sampleSync (v : Level) (s : State) : State :=
  let t := { s.timebase with syncRaw := v, syncSampledAt := some s.clock }
  if v = t.syncFiltered then s.withTimebase { t with syncQual := none }
  else
    match t.syncQual with
    | some _ => s.withTimebase t
    | none =>
      let s1 := s.withTimebase { t with syncQual := some ⟨s.now, v⟩ }
      if t.syncWidth = 0 then acceptSync s1 else s1

/-- SYNC is sampled at a level, once a tick (R55; DESIGN CHOICE, log entry 27). Held in reset, the pin is followed and
nothing else happens (R64). -/
def execSyncRawChange (v : Level) (s : State) : Host.Outcome State Fault Refusal :=
  if s.held then .next (s.withTimebase { s.timebase with syncRaw := v })
  else whenDue (some (sampleDue s.timebase.syncSampledAt s.clock)) (sampleSync v) s

end Sys2Proof.Machine
end

