-- ==== Sys2Proof/Machine/InputCommands.lean ====
section
/-! DEFINITION. The commands of the Input Capture Unit and the Capture Journal: SET_INPUT, GET_INPUTS, READ_JOURNAL,
SET_JOURNAL (R71, R73, R77, R80), and the events of the input filters (R66 to R70). -/

namespace Sys2Proof.Machine

/-! ## The Capture Journal (R75, R76, R79) -/

/-- An edge record made from an edge event (R75). -/
def Journal.recordOf (j : Journal) (e : EdgeEvent) : EdgeRecord where
  serial := j.nextSerial
  line := e.line
  kind := e.kind
  timestamp := e.timestamp
  travelCount := e.travelCount
  lostBefore := if j.lostRun = 0 then none else some j.lostRun

/-- An edge is stored, and the watermark tested (R75, R79). -/
def storeEdge (e : EdgeEvent) (s : State) : State :=
  let j := s.journal
  let j1 := { j with records := j.records ++ [j.recordOf e], nextSerial := j.nextSerial + 1, lostRun := 0 }
  if j1.watermarkArmed ∧ j1.records.length = j1.watermark then
    createReport (.journalLevel j1.records.length) (s.withJournal { j1 with watermarkArmed := false })
  else s.withJournal j1

/-- An edge offered to a full journal is lost (R76). -/
def loseEdge (e : EdgeEvent) (s : State) : State :=
  countFault .journalLost (some (.input e.line))
    (s.withJournal { s.journal with lostRun := satInc 65535 s.journal.lostRun })

/-- An edge is offered to the journal (R75, R76). -/
def offerEdge (e : EdgeEvent) (s : State) : State :=
  if s.journal.records.length < Config.journalCap then storeEdge e s else loseEdge e s

/-- The watermark is armed again when the fill is below it (R79). -/
def Journal.rearmed (j : Journal) : Journal :=
  { j with watermarkArmed := j.watermarkArmed || j.records.length < j.watermark }

/-! ## Accepted edges (R67, R69, R70) -/

/-- The kind of an edge whose new filtered level is `v` (R67). -/
def edgeKindOf : Level → EdgeKind
  | .high => .rising
  | .low => .falling

/-- An edge kind passes an edge select (R69). -/
def EdgeSelect.passes : EdgeSelect → EdgeKind → Bool
  | .both, _ => true
  | .rising, .rising => true
  | .falling, .falling => true
  | _, _ => false

/-- The travel count advances on a rising edge of the travel source, and the travel list expires (R52, R53). -/
def advanceTravel (l : InLine) (q : Qualification) (s : State) : State :=
  if s.timebase.source = some l ∧ q.level = .high then
    expireTravelList q.rawTick
      (s.withTimebase { s.timebase with travelCount := s.timebase.travelCount + 1 })
  else s

/-- The qualification of a line is accepted: one edge event, handed on in the order of R70. -/
def acceptEdge (l : InLine) (s : State) : State :=
  match (s.input l).qual with
  | none => s
  | some q =>
    let s1 := s.putInput l { s.input l with filtered := q.level, qual := none }
    let s2 := advanceTravel l q s1
    let e : EdgeEvent := ⟨l, edgeKindOf q.level, q.rawTick, s2.timebase.travelCount⟩
    if (s2.input l).edgeSelect.passes e.kind then
      evaluateEdge e (if (s2.input l).journalEnable then offerEdge e s2 else s2)
    else s2

/-- An input qualification lasts its filter width (R67). -/
def execInputEdgeAccepted (l : InLine) (s : State) : Host.Outcome State Fault Refusal :=
  whenDue (edgeDue l s) (acceptEdge l) s

/-- A qualification that a return of the raw level abandons counts a glitch. One that SET_INPUT or a restart began at this
very tick does not: the return was there when it was taken (R67, R72). With a filter width of 0 none is counted (R68). -/
def Input.glitchCounts (x : Input) (q : Qualification) (now : Tick) : Bool :=
  x.width ≠ 0 && q.rawTick ≠ now

/-- An input is sampled at `v`: a change from the filtered level begins a qualification, a return abandons it with a
glitch counted, and with a filter width of 0 the edge is accepted at once (R66 to R68, R72; DEDUCED, log entry 22). -/
def sampleInput (l : InLine) (v : Level) (s : State) : State :=
  let x := { s.input l with raw := v, sampledAt := some s.clock }
  if v = x.filtered then
    match x.qual with
    | none => s.putInput l x
    | some q =>
      s.putInput l { x with
        qual := none
        glitches := if x.glitchCounts q s.now then satInc 65535 x.glitches else x.glitches }
  else
    match x.qual with
    | some _ => s.putInput l x
    | none =>
      let s1 := s.putInput l { x with qual := some ⟨s.now, v⟩ }
      if x.width = 0 then acceptEdge l s1 else s1

/-- An input is sampled at a level, once a tick: at a tick at which it has been sampled already, time runs on to the next
(R66; DESIGN CHOICE, log entry 27). Held in reset, the pin is followed and nothing else happens (R82). -/
def execInputRawChange (l : InLine) (v : Level) (s : State) : Host.Outcome State Fault Refusal :=
  if s.held then .next (s.putInput l { s.input l with raw := v })
  else whenDue (some (sampleDue (s.input l).sampledAt s.clock)) (sampleInput l v) s

/-! ## SET_INPUT and GET_INPUTS (R71, R73) -/

/-- SET_INPUT is taken (R71). -/
def takeSetInput (line edgeSelect : Byte) (width : BitVec 16) (journalEnable : Byte) (s : State) : State × Reply :=
  match inLineOf line, edgeSelectOf edgeSelect, yesNoOf journalEnable with
  | some l, some select, some enable =>
    if 1023 < width.toNat then (s, reply .badValue)
    else
      (s.putInput l { s.input l with
        edgeSelect := select
        width := width.toNat
        journalEnable := enable
        qual := requalify (s.input l).raw (s.input l).filtered s.now }, replyOk [])
  | _, _, _ => (s, reply .badValue)

/-- SET_INPUT (R71). -/
def execSetInput (tag : Tag) (line edgeSelect : Byte) (width : BitVec 16) (journalEnable : Byte) (s : State) :
    Host.Outcome State Fault Refusal :=
  requestOf tag .setInput (takeSetInput line edgeSelect width journalEnable) s

/-- The 12 bytes of a GET_INPUTS entry (10.7). -/
def inputBytes (x : Input) : List Byte :=
  edgeSelectByte x.edgeSelect :: leBytes 2 x.width ++ inputFlags x
    :: tickBytes ((x.qual.map Qualification.rawTick).getD 0) ++ leBytes 2 x.glitches

/-- GET_INPUTS is taken (R73). -/
def takeGetInputs (s : State) : State × Reply :=
  (s, replyOk (allInputs.flatMap (fun l => inputBytes (s.input l))))

/-- GET_INPUTS (R73). -/
def execGetInputs (tag : Tag) (s : State) : Host.Outcome State Fault Refusal :=
  requestOf tag .getInputs takeGetInputs s

/-! ## READ_JOURNAL and SET_JOURNAL (R77, R80) -/

/-- READ_JOURNAL is taken: the oldest records are removed and returned (R77, R78). -/
def takeReadJournal (count : Byte) (s : State) : State × Reply :=
  if count.toNat < 1 ∨ 8 < count.toNat then (s, reply .badValue)
  else
    let j := s.journal
    let removed := j.records.take count.toNat
    let rest := j.records.drop count.toNat
    (s.withJournal ({ j with records := rest }).rearmed,
     replyOk ([BitVec.ofNat 8 removed.length, BitVec.ofNat 8 rest.length] ++ leBytes 4 j.nextSerial.toNat
       ++ leBytes 2 j.lostRun ++ removed.flatMap EdgeRecord.bytes))

/-- READ_JOURNAL (R77). -/
def execReadJournal (tag : Tag) (count : Byte) (s : State) : Host.Outcome State Fault Refusal :=
  requestOf tag .readJournal (takeReadJournal count) s

/-- SET_JOURNAL is taken (R80). -/
def takeSetJournal (watermark empty : Byte) (s : State) : State × Reply :=
  match yesNoOf empty with
  | none => (s, reply .badValue)
  | some emptied =>
    if watermark.toNat < 1 ∨ 64 < watermark.toNat then (s, reply .badValue)
    else
      let j := s.journal
      let rest := if emptied then [] else j.records
      (s.withJournal { j with
        records := rest
        watermark := watermark.toNat
        watermarkArmed := rest.length < watermark.toNat },
       replyOk ([BitVec.ofNat 8 (j.records.length - rest.length), BitVec.ofNat 8 rest.length]
         ++ leBytes 4 j.nextSerial.toNat ++ leBytes 2 j.lostRun))

/-- SET_JOURNAL (R80). -/
def execSetJournal (tag : Tag) (watermark empty : Byte) (s : State) : Host.Outcome State Fault Refusal :=
  requestOf tag .setJournal (takeSetJournal watermark empty) s

end Sys2Proof.Machine
end

