-- ==== Sys2Proof/Machine/LinkCommands.lean ====
section
/-! DEFINITION. The Host Link's own requests, PING, GET_IDENTITY and SET_LINK_RATE (R146 to R148), and the completion
of a frame transmission (R144). -/

namespace Sys2Proof.Machine

/-! ## Requests -/

/-- PING is taken: at most 16 bytes after its code, and the same bytes back (R146). -/
def takePing (data : List Byte) (s : State) : State × Reply :=
  if data.length ≤ 16 then (s, replyOk data) else (s, reply .badLength)

/-- PING (R146). -/
def execPing (tag : Tag) (data : List Byte) (s : State) : Host.Outcome State Fault Refusal :=
  requestFrame tag (data.length + 1) (some Code.ping.byte) (takePing data) s

/-- The result of GET_IDENTITY: codes, revision, and the capacities of slots, rules, templates, journal records, outbox
entries, reports in flight, output lines and input lines (R147, 10.7). -/
def identityBytes : List Byte :=
  leBytes 2 Config.vendorCode ++ leBytes 2 Config.partCode ++ [Config.revision]
    ++ ([96, 16, 4, Config.journalCap, Config.outboxCap, Config.flightCap, 12, 8].map (BitVec.ofNat 8))

/-- GET_IDENTITY is taken (R147). -/
def takeGetIdentity (s : State) : State × Reply := (s, replyOk identityBytes)

/-- GET_IDENTITY (R147). -/
def execGetIdentity (tag : Tag) (s : State) : Host.Outcome State Fault Refusal :=
  requestOf tag .getIdentity takeGetIdentity s

/-- SET_LINK_RATE is taken; the rate itself changes when its response completes (R148; DEDUCED, log entry 15). -/
def takeSetLinkRate (rate : BitVec 32) (s : State) : State × Reply :=
  match s.link.linkType, linkRateOf rate with
  | .uart, some r => (s, ⟨.ok, leBytes 4 rate.toNat, .changeRate r⟩)
  | _, _ => (s, reply .badValue)

/-- SET_LINK_RATE (R148). -/
def execSetLinkRate (tag : Tag) (rate : BitVec 32) (s : State) : Host.Outcome State Fault Refusal :=
  requestOf tag .setLinkRate (takeSetLinkRate rate) s

/-! ## The completion of a transmission (R144) -/

/-- A frame transmission completes, and the arbiter chooses the next frame at the completion (R144). On a UART link time runs
on to the end of its last stop bit (R131); on an SPI link its last bit has been clocked out (R132). -/
def execTransmitComplete (s : State) : Host.Outcome State Fault Refusal :=
  whenDue (transmitDue s) (fun u => (arbitrate (completeTransmission u)).firm) s

end Sys2Proof.Machine
end

