-- ==== Sys2Proof/Machine/OutputCommands.lean ====
section
/-! DEFINITION. The commands of the Output Stage: SET_OUTPUT, SET_LEVEL, the train requests, GET_OUTPUTS (R39 to R46)
and the two events of the train generator (R37, R38). -/

namespace Sys2Proof.Machine

/-! ## SET_OUTPUT and SET_LEVEL (R43 to R45) -/

/-- Some rule has an active copy that is enabled and holds a template on the line (R113). -/
def State.ruleUses (s : State) (l : OutLine) : Bool :=
  allRules.any (fun r => (s.rule r).active.enabled && (s.rule r).active.templates.any (fun t => t.line = l))

/-- The output record after a SET_OUTPUT: mode, idle level, safe level and policy are replaced together; a change of
mode leaves no train running (R44). -/
def Output.configured (o : Output) (mode : OutMode) (idle safe : Level) (policy : Policy) : Output :=
  let o' := { o with mode := mode, idle := idle, safe := safe, policy := policy }
  if o.mode = mode then o' else o'.stopTrain

/-- SET_OUTPUT is taken (R43, R44). -/
def takeSetOutput (line mode idle safe policy : Byte) (s : State) : State × Reply :=
  match outLineOf line, outModeOf mode, levelOf idle, levelOf safe, policyOf policy with
  | some l, some m, some i, some f, some p =>
    if s.lineTargeted l then (s, reply .busy)
    else if (s.output l).mode = .sequenced ∧ m ≠ .sequenced ∧ s.ruleUses l then (s, reply .lineInUse)
    else (s.putOutput l ((s.output l).configured m i f p), replyOk [])
  | _, _, _, _, _ => (s, reply .badValue)

/-- SET_OUTPUT (R43). -/
def execSetOutput (tag : Tag) (line mode idle safe policy : Byte) (s : State) : Host.Outcome State Fault Refusal :=
  requestOf tag .setOutput (takeSetOutput line mode idle safe policy) s

/-- SET_LEVEL is taken (R45). -/
def takeSetLevel (line level : Byte) (s : State) : State × Reply :=
  match outLineOf line, levelOf level with
  | some l, some v =>
    if (s.output l).mode ≠ .static then (s, reply .lineMode)
    else (s.putOutput l { s.output l with setLevel := v }, replyOk [])
  | _, _ => (s, reply .badValue)

/-- SET_LEVEL (R45). -/
def execSetLevel (tag : Tag) (line level : Byte) (s : State) : Host.Outcome State Fault Refusal :=
  requestOf tag .setLevel (takeSetLevel line level) s

/-! ## The train requests (R39 to R41) -/

/-- TRAIN_LOAD is taken (R39). -/
def takeTrainLoad (line : Byte) (period high : BitVec 24) (s : State) : State × Reply :=
  match outLineOf line with
  | none => (s, reply .badValue)
  | some l =>
    if period.toNat < 2 ∨ period.toNat < high.toNat then (s, reply .badValue)
    else if (s.output l).mode ≠ .train then (s, reply .lineMode)
    else (s.putOutput l { s.output l with staged := some ⟨period, high⟩, stagedPending := true }, replyOk [])

/-- TRAIN_LOAD (R39). -/
def execTrainLoad (tag : Tag) (line : Byte) (period high : BitVec 24) (s : State) :
    Host.Outcome State Fault Refusal :=
  requestOf tag .trainLoad (takeTrainLoad line period high) s

/-- Staged values that are pending become the applied values, and are then no longer staged (R38, R40;
DEDUCED, log entry 23). -/
def Output.applyStaged (o : Output) : Output :=
  match o.stagedPending, o.staged with
  | true, some v => { o with applied := some v, staged := none, stagedPending := false }
  | _, _ => o

/-- A period begins at `t` with the applied values: its high part is in progress unless the high time is 0 (R37). -/
def Output.beginPeriod (o : Output) (t : Tick) : Output :=
  { o with periodStart := some t, inHigh := o.applied.any (fun v => v.high ≠ 0) }

/-- A train starts at `t` with a burst (R40). -/
def Output.startTrain (o : Output) (burst : Nat) (t : Tick) : Output :=
  ({ o.applyStaged with burst := burst, periodsCompleted := 0, stopAtEnd := false, running := true }).beginPeriod t

/-- TRAIN_START is taken (R40). -/
def takeTrainStart (line : Byte) (burst : BitVec 16) (s : State) : State × Reply :=
  match outLineOf line with
  | none => (s, reply .badValue)
  | some l =>
    if s.run.state = .faulted then (s, reply .state)
    else if (s.output l).mode ≠ .train then (s, reply .lineMode)
    else if (s.output l).running then (s, reply .busy)
    else if (s.output l).stagedPending = false ∧ (s.output l).applied = none then (s, reply .state)
    else (s.putOutput l ((s.output l).startTrain burst.toNat s.now), replyOk (tickBytes s.now))

/-- TRAIN_START (R40). -/
def execTrainStart (tag : Tag) (line : Byte) (burst : BitVec 16) (s : State) : Host.Outcome State Fault Refusal :=
  requestOf tag .trainStart (takeTrainStart line burst) s

/-- TRAIN_STOP is taken, `stop` being what it does to the record of a running train (R41). -/
def takeTrainStop (stop : Output → Output) (line : Byte) (s : State) : State × Reply :=
  match outLineOf line with
  | none => (s, reply .badValue)
  | some l =>
    if (s.output l).mode ≠ .train then (s, reply .lineMode)
    else
      (if (s.output l).running then s.putOutput l (stop (s.output l)) else s,
       replyOk (yesNoByte (s.output l).running :: leBytes 4 (s.output l).periodsCompleted))

/-- TRAIN_STOP with stop mode NOW (R41). -/
def execTrainStopNow (tag : Tag) (line : Byte) (s : State) : Host.Outcome State Fault Refusal :=
  requestOf tag .trainStop (takeTrainStop Output.stopTrain line) s

/-- The train of a line is to stop at the end of its period (R41). -/
def Output.stopAtPeriodEnd (o : Output) : Output := { o with stopAtEnd := true }

/-- TRAIN_STOP with stop mode AT_PERIOD_END (R41). -/
def execTrainStopAtPeriodEnd (tag : Tag) (line : Byte) (s : State) : Host.Outcome State Fault Refusal :=
  requestOf tag .trainStop (takeTrainStop Output.stopAtPeriodEnd line) s

/-! ## GET_OUTPUTS (R46) -/

/-- The handle of an owner, its slot byte 0xFF when there is none (R184). -/
def ownerBytes : Option Handle → List Byte
  | some h => h.bytes
  | none => [0xFF, 0]

/-- The 15 bytes of a GET_OUTPUTS entry (10.7). -/
def outputBytes (l : OutLine) (s : State) : List Byte :=
  let o := s.output l
  [modePolicyByte o, outputFlags (s.pinLevel l) o, BitVec.ofNat 8 o.holders.length] ++ ownerBytes (s.owner l)
    ++ leBytes 3 ((o.applied.map (fun v => v.period.toNat)).getD 0)
    ++ leBytes 3 ((o.applied.map (fun v => v.high.toNat)).getD 0) ++ leBytes 4 o.periodsCompleted

/-- GET_OUTPUTS is taken (R46). -/
def takeGetOutputs (s : State) : State × Reply :=
  (s, replyOk (allOutputs.flatMap (fun l => outputBytes l s)))

/-- GET_OUTPUTS (R46). -/
def execGetOutputs (tag : Tag) (s : State) : Host.Outcome State Fault Refusal :=
  requestOf tag .getOutputs takeGetOutputs s

/-! ## The train generator (R37, R38) -/

/-- The high time of the current period has run out: the pin goes to the idle level (R37). -/
def endHigh (l : OutLine) (s : State) : State :=
  s.putOutput l { s.output l with inHigh := false }

/-- The high time of a running train's period runs out (R37). -/
def execTrainHighTimeEnd (l : OutLine) (s : State) : Host.Outcome State Fault Refusal :=
  whenDue (highDue l s) (endHigh l) s

/-- The period of a running train ends: periods completed increments; the train stops with TRAIN_DONE when its burst is
complete or it was to stop, and else begins a new period at this tick with any staged values applied (R38). -/
def endPeriod (l : OutLine) (s : State) : State :=
  let o := { s.output l with periodsCompleted := satInc Config.countCap (s.output l).periodsCompleted }
  if (0 < o.burst ∧ o.periodsCompleted = o.burst) ∨ o.stopAtEnd then
    createReport (.trainDone l o.periodsCompleted) (s.putOutput l o.stopTrain)
  else s.putOutput l (o.applyStaged.beginPeriod s.now)

/-- A train period ends (R38). -/
def execTrainPeriodEnd (l : OutLine) (s : State) : Host.Outcome State Fault Refusal :=
  whenDue (periodDue l s) (endPeriod l) s

end Sys2Proof.Machine
end

