-- ==== Sys2Proof/Machine/ReportCommands.lean ====
section
/-! DEFINITION. The commands of the Report Unit and the Fault Table: SET_REPORTING (R166), READ_FAULTS, CLEAR_FAULTS,
SET_FAULT_MASKS (R176 to R178), the ACK (R164) and the retry interval (R162). -/

namespace Sys2Proof.Machine

/-! ## SET_REPORTING (R166) -/

/-- A set of report kinds that SET_REPORTING may give: it holds RESET_DONE and RUN_STATE and names no kind outside the
twelve (R166, R183). -/
def kindsOk (kinds : BitVec 16) : Bool :=
  kinds.getLsbD 0 && kinds.getLsbD 1 && kinds.toNat < 2 ^ 12

/-- SET_REPORTING is taken (R166). -/
def takeSetReporting (kinds interval : BitVec 16) (maxRetries : Byte) (s : State) : State × Reply :=
  if kindsOk kinds ∧ 5 ≤ interval.toNat ∧ interval.toNat ≤ 1000 ∧ maxRetries.toNat ≤ 15 then
    (s.withReports { s.reports with
      enabled := kinds.setWidth 12
      retryInterval := interval.toNat
      maxRetries := maxRetries.toNat },
     replyOk (leBytes 2 kinds.toNat ++ leBytes 2 interval.toNat ++ [maxRetries]))
  else (s, reply .badValue)

/-- SET_REPORTING (R166). -/
def execSetReporting (tag : Tag) (kinds interval : BitVec 16) (maxRetries : Byte) (s : State) :
    Host.Outcome State Fault Refusal :=
  requestOf tag .setReporting (takeSetReporting kinds interval maxRetries) s

/-! ## The Fault Table's requests (R176 to R178) -/

/-- READ_FAULTS is taken (R176). -/
def takeReadFaults (s : State) : State × Reply :=
  (s, replyOk (leBytes 2 s.faults.fatal.toNat ++ leBytes 2 s.faults.report.toNat
    ++ allFaults.flatMap (fun k => (s.faultEntry k).bytes k)))

/-- READ_FAULTS (R176). -/
def execReadFaults (tag : Tag) (s : State) : Host.Outcome State Fault Refusal :=
  requestOf tag .readFaults takeReadFaults s

/-- A set of fault kinds names no kind outside the eleven (R183). -/
def faultSetOk (kinds : BitVec 16) : Bool := kinds.toNat < 2 ^ 11

/-- CLEAR_FAULTS is taken (R177). -/
def takeClearFaults (kinds : BitVec 16) (s : State) : State × Reply :=
  if faultSetOk kinds then
    let cleared := allFaults.filter (fun k => kinds.getLsbD k.code.val && 0 < (s.faultEntry k).count)
    (s.withFaults { s.faults with
      entries := tabulate (fun i =>
        if kinds.getLsbD i.val then defaultFaultEntry else getAt s.faults.entries i) },
     replyOk [BitVec.ofNat 8 cleared.length])
  else (s, reply .badValue)

/-- CLEAR_FAULTS (R177). -/
def execClearFaults (tag : Tag) (kinds : BitVec 16) (s : State) : Host.Outcome State Fault Refusal :=
  requestOf tag .clearFaults (takeClearFaults kinds) s

/-- SET_FAULT_MASKS is taken (R178). -/
def takeSetFaultMasks (fatal report : BitVec 16) (s : State) : State × Reply :=
  if faultSetOk fatal ∧ faultSetOk report then
    (s.withFaults { s.faults with fatal := fatal.setWidth 11, report := report.setWidth 11 },
     replyOk (leBytes 2 fatal.toNat ++ leBytes 2 report.toNat))
  else (s, reply .badValue)

/-- SET_FAULT_MASKS (R178). -/
def execSetFaultMasks (tag : Tag) (fatal report : BitVec 16) (s : State) : Host.Outcome State Fault Refusal :=
  requestOf tag .setFaultMasks (takeSetFaultMasks fatal report) s

/-! ## Acknowledgement and retry (R162, R164) -/

/-- The in-flight reports without those of sequence number `q`. -/
def ReportUnit.without (u : ReportUnit) (q : Seq) : ReportUnit :=
  { u with flight := u.flight.filter (fun r => r.seq ≠ some q) }

/-- An ACK is taken: the in-flight report with its sequence number is acknowledged, or ACK_UNKNOWN is counted
(R164). -/
def takeAck (q : Seq) (s : State) : State :=
  match s.reports.inFlight q with
  | some _ => s.withReports (s.reports.without q)
  | none => countFault .ackUnknown (some (.sequence q)) s

/-- An ACK frame arrives (R139, R164). -/
def execAck (q : Seq) (s : State) : Host.Outcome State Fault Refusal :=
  atOnce (fun t => takeAck q (frameArrived (frameBroughtIn 0 t))) s

/-- The retry interval of the in-flight report of sequence number `q` expires: it becomes RETRY_DUE, or it expires and
REPORT_EXPIRED is counted (R162). -/
def expireInterval (q : Seq) (s : State) : State :=
  match s.reports.inFlight q with
  | none => s
  | some r =>
    if r.retryCount < r.retryLimit.getD 0 then
      s.withReports { s.reports with
        flight := replaceReport (some q) { r with state := .retryDue s.clock } s.reports.flight }
    else countFault .reportExpired (some (.expired q r.body.kind)) (s.withReports (s.reports.without q))

/-- The retry interval of a report expires (R162). -/
def execRetryIntervalExpiry (q : Seq) (s : State) : Host.Outcome State Fault Refusal :=
  whenDue (retryDue q s) (expireInterval q) s

end Sys2Proof.Machine
end

