-- ==== Sys2Proof/Machine/RuleCommands.lean ====
section
/-! DEFINITION. The commands of the Rule Engine: EDIT_RULE, READ_RULE, READ_RULE_STATS, DISCARD_STAGED,
RESET_RULE_COUNTS, COMMIT_RULES (R90 to R97, R111, R112). -/

namespace Sys2Proof.Machine

/-! ## Editing and reading (R90 to R93) -/

/-- EDIT_RULE is taken (R90, R91). -/
def takeEditRule (rule : Byte) (record : RawRule) (s : State) : State × Reply :=
  match ruleNoOf rule, recordOf record with
  | some r, some x => (s.putRule r { s.rule r with staged := x, dirty := true }, replyOk [])
  | _, _ => (s, reply .badValue)

/-- EDIT_RULE (R90). -/
def execEditRule (tag : Tag) (rule : Byte) (record : RawRule) (s : State) : Host.Outcome State Fault Refusal :=
  requestOf tag .editRule (takeEditRule rule record) s

/-- READ_RULE is taken: copy 0 is ACTIVE, 1 is STAGED (R92). -/
def takeReadRule (rule copy : Byte) (s : State) : State × Reply :=
  match ruleNoOf rule, yesNoOf copy with
  | some r, some staged =>
    let x := s.rule r
    (s, replyOk (yesNoByte x.dirty :: (if staged then x.staged else x.active).bytes))
  | _, _ => (s, reply .badValue)

/-- READ_RULE (R92). -/
def execReadRule (tag : Tag) (rule copy : Byte) (s : State) : Host.Outcome State Fault Refusal :=
  requestOf tag .readRule (takeReadRule rule copy) s

/-- The 26 bytes of a READ_RULE_STATS entry (10.7). -/
def ruleStatsBytes (r : RuleNo) (x : Rule) : List Byte :=
  [BitVec.ofNat 8 r.val, ruleFlags x] ++ leBytes 2 x.generation.toNat ++ leBytes 4 x.fired ++ leBytes 4 x.suppressed
    ++ leBytes 4 x.gated ++ leBytes 4 x.dropped ++ tickBytes (x.lastFiring.getD 0)

/-- READ_RULE_STATS is taken (R111). -/
def takeReadRuleStats (first number : Byte) (s : State) : State × Reply :=
  if 15 < first.toNat ∨ number.toNat < 1 ∨ 8 < number.toNat then (s, reply .badValue)
  else
    let rules := (allRules.drop first.toNat).take number.toNat
    (s, replyOk (BitVec.ofNat 8 rules.length :: rules.flatMap (fun r => ruleStatsBytes r (s.rule r))))

/-- READ_RULE_STATS (R111). -/
def execReadRuleStats (tag : Tag) (first number : Byte) (s : State) : Host.Outcome State Fault Refusal :=
  requestOf tag .readRuleStats (takeReadRuleStats first number) s

/-- The number of dirty rules. -/
def State.dirtyCount (s : State) : Nat := (allRules.filter (fun r => (s.rule r).dirty)).length

/-- DISCARD_STAGED is taken (R93). -/
def takeDiscardStaged (s : State) : State × Reply :=
  (s.withRules (tabulate (fun r => { s.rule r with staged := (s.rule r).active, dirty := false })),
   replyOk [BitVec.ofNat 8 s.dirtyCount])

/-- DISCARD_STAGED (R93). -/
def execDiscardStaged (tag : Tag) (s : State) : Host.Outcome State Fault Refusal :=
  requestOf tag .discardStaged takeDiscardStaged s

/-! ## Counts (R112) -/

/-- A rule with its counts at 0 and no last firing. -/
def Rule.zeroed (x : Rule) : Rule :=
  { x with fired := 0, suppressed := 0, gated := 0, dropped := 0, lastFiring := none }

/-- A rule named by RESET_RULE_COUNTS: counts 0, no last firing, and LISTENING when it was SPENT (R112). -/
def Rule.countsReset (x : Rule) : Rule :=
  { x.zeroed with state := if x.state = .spent then .listening else x.state }

/-- RESET_RULE_COUNTS is taken (R112). -/
def takeResetRuleCounts (rules : BitVec 16) (s : State) : State × Reply :=
  let left := allRules.filter (fun r => rules.getLsbD r.val && (s.rule r).state = .spent)
  (s.withRules (tabulate (fun r => if rules.getLsbD r.val then (s.rule r).countsReset else s.rule r)),
   replyOk [BitVec.ofNat 8 left.length])

/-- RESET_RULE_COUNTS (R112). -/
def execResetRuleCounts (tag : Tag) (rules : BitVec 16) (s : State) : Host.Outcome State Fault Refusal :=
  requestOf tag .resetRuleCounts (takeResetRuleCounts rules) s

/-! ## COMMIT_RULES (R94, R95) -/

/-- The reason of a template's fault: 1 LINE_NOT_SEQUENCED, 2 BAD_INTERVAL (R94, 10.2); none when it passes. -/
def templateFault (base : Base) (t : Template) (s : State) : Option Byte :=
  if (s.output t.line).mode ≠ .sequenced then some 1
  else if base = .time ∧ 0 < t.repeats ∧ (t.interval.getD 0).toNat ≤ t.width.toNat then some 2
  else none

/-- The first fault of a list of templates numbered from `n`: the template number and the reason. -/
def firstFault (base : Base) (s : State) : Nat → List Template → Option (Nat × Byte)
  | _, [] => none
  | n, t :: ts =>
    match templateFault base t s with
    | some reason => some (n, reason)
    | none => firstFault base s (n + 1) ts

/-- The first fault of the dirty, enabled rules of a list: rule number, template number and reason, as the response
carries them (R94). -/
def firstInvalid (s : State) : List RuleNo → Option (List Byte)
  | [] => none
  | r :: rs =>
    let x := s.rule r
    match if x.dirty && x.staged.enabled then firstFault x.staged.base s 0 x.staged.templates else none with
    | some (n, reason) => some [BitVec.ofNat 8 r.val, BitVec.ofNat 8 n, reason]
    | none => firstInvalid s rs

/-- A rule after a commit that changes it (R95). -/
def Rule.committed (x : Rule) : Rule :=
  { x.zeroed with
    active := x.staged
    generation := x.generation + 1
    state := if x.staged.enabled then .listening else .idle
    dirty := false }

/-- COMMIT_RULES is taken: every dirty rule changes, or none (R94, R95). -/
def takeCommitRules (s : State) : State × Reply :=
  if s.run.state = .faulted then (s, reply .state)
  else
    match firstInvalid s allRules with
    | some fields => (s, ⟨.invalidRule, fields, .nothing⟩)
    | none =>
      (s.withRules (tabulate (fun r => if (s.rule r).dirty then (s.rule r).committed else s.rule r)),
       replyOk [BitVec.ofNat 8 s.dirtyCount])

/-- COMMIT_RULES (R94). -/
def execCommitRules (tag : Tag) (s : State) : Host.Outcome State Fault Refusal :=
  requestOf tag .commitRules takeCommitRules s

end Sys2Proof.Machine
end

