-- ==== Sys2Proof/Machine/RunCommands.lean ====
section
/-! DEFINITION. The commands of Run Control: ARM, DISARM, RECOVER, GET_STATUS, SET_SUPERVISION, RESTART (R118 to R128),
the silence timer (R125) and the full reset (R129). -/

namespace Sys2Proof.Machine

/-! ## Arming and disarming (R118 to R120, R124) -/

/-- A change of run state by a request, with its RUN_STATE report (R117). -/
def changeRunState (st : RunState) (silence : Option Nat) (discarded : Nat) (s : State) : State :=
  createReport (.runState st .request discarded) (s.withRun { s.run with state := st, silence := silence })

/-- Every rule's last firing becomes absent (R114). -/
def clearLastFirings (s : State) : State :=
  s.withRules (tabulate (fun r => { s.rule r with lastFiring := none }))

/-- ARM is taken (R118). -/
def takeArm (s : State) : State × Reply :=
  match s.run.state with
  | .standby =>
    if s.syncArmed then (s, reply .state)
    else
      (changeRunState .armed (if 0 < s.run.silenceLimit then some s.clock else none) 0 (clearLastFirings s),
       replyOk [runStateByte .armed])
  | .armed => (s, replyOk [runStateByte .armed])
  | .draining | .faulted => (s, reply .state)

/-- ARM (R118). -/
def execArm (tag : Tag) (s : State) : Host.Outcome State Fault Refusal :=
  requestOf tag .arm takeArm s

/-- The number of slots in use (R119). -/
def State.inUse (s : State) : Nat := 96 - s.freeCount

/-- DISARM WAIT is taken (R119). -/
def takeDisarmWait (s : State) : State × Reply :=
  match s.run.state with
  | .armed =>
    if s.inUse = 0 then (changeRunState .standby none 0 s, replyOk [runStateByte .standby, 0])
    else (changeRunState .draining s.run.silence 0 s, replyOk [runStateByte .draining, BitVec.ofNat 8 s.inUse])
  | .draining => (s, replyOk [runStateByte .draining, BitVec.ofNat 8 s.inUse])
  | .standby => (s, replyOk [runStateByte .standby, BitVec.ofNat 8 s.inUse])
  | .faulted => (s, reply .state)

/-- DISARM with mode WAIT (R119). -/
def execDisarmWait (tag : Tag) (s : State) : Host.Outcome State Fault Refusal :=
  requestOf tag .disarm takeDisarmWait s

/-- Slots are freed one after another, with ended FLUSHED (R25). -/
def flushHandles : List Handle → State → State
  | [], s => s
  | h :: hs, s => flushHandles hs (freeSlot h .flushed s)

/-- The flush: the run state becomes STANDBY first, then every slot in use is freed, the holder sets are emptied, and
RUN_STATE is created with the number freed (R120, R25, R36). -/
def flushAll (s : State) : State :=
  let s1 := s.withRun { s.run with state := .standby, silence := none }
  changeRunState .standby none s.inUse (emptyHolders (flushHandles s.freeingOrder s1))

/-- DISARM FLUSH is taken (R120). -/
def takeDisarmFlush (s : State) : State × Reply :=
  match s.run.state with
  | .armed | .draining => (flushAll s, replyOk [runStateByte .standby, BitVec.ofNat 8 s.inUse])
  | .standby => (s, replyOk [runStateByte .standby, 0])
  | .faulted => (s, reply .state)

/-- DISARM with mode FLUSH (R120). -/
def execDisarmFlush (tag : Tag) (s : State) : Host.Outcome State Fault Refusal :=
  requestOf tag .disarm takeDisarmFlush s

/-- RECOVER is taken (R124). The pins follow their modes again once the run state is STANDBY (R48). -/
def takeRecover (s : State) : State × Reply :=
  if s.run.state = .faulted then
    (changeRunState .standby s.run.silence 0 s, replyOk [runStateByte .standby])
  else (s, reply .state)

/-- RECOVER (R124). -/
def execRecover (tag : Tag) (s : State) : Host.Outcome State Fault Refusal :=
  requestOf tag .recover takeRecover s

/-! ## Status and supervision (R126, R127) -/

/-- The set of fault kinds whose count is above 0 (R127). -/
def State.faultKinds (s : State) : Nat :=
  (allFaults.map (fun k => if 0 < (s.faultEntry k).count then 2 ^ k.code.val else 0)).sum

/-- GET_STATUS is taken (R127). -/
def takeGetStatus (s : State) : State × Reply :=
  (s, replyOk ([runStateByte s.run.state, BitVec.ofNat 8 s.freeCount, BitVec.ofNat 8 s.sched.timeList.length,
      BitVec.ofNat 8 s.sched.travelList.length, BitVec.ofNat 8 s.journal.records.length,
      BitVec.ofNat 8 s.reports.outboxCount, BitVec.ofNat 8 s.reports.flight.length]
    ++ leBytes 2 s.faultKinds ++ statusFlags s :: leBytes 2 s.run.silenceLimit))

/-- GET_STATUS (R127). -/
def execGetStatus (tag : Tag) (s : State) : Host.Outcome State Fault Refusal :=
  requestOf tag .getStatus takeGetStatus s

/-- SET_SUPERVISION is taken (R126). -/
def takeSetSupervision (limit : BitVec 16) (s : State) : State × Reply :=
  let n := limit.toNat
  if (1 ≤ n ∧ n ≤ 9) ∨ 60000 < n then (s, reply .badValue)
  else
    (s.withRun { s.run with
      silenceLimit := n
      silence :=
        if s.run.state.sequencing then (if n = 0 then none else some s.clock) else s.run.silence },
     replyOk (leBytes 2 n))

/-- SET_SUPERVISION (R126). -/
def execSetSupervision (tag : Tag) (limit : BitVec 16) (s : State) : Host.Outcome State Fault Refusal :=
  requestOf tag .setSupervision (takeSetSupervision limit) s

/-! ## RESTART (R128, R149): each block's restart values -/

/-- The Scheduler (R26). -/
def restartScheduler (m : RestartMode) (s : State) : Scheduler :=
  match m with
  | .keep =>
    { s.sched with
      slots := tabulate (fun i => ⟨(s.slot i).gen, .free⟩)
      timeList := []
      travelList := []
      nextSerial := 0 }
  | .clear => defaultScheduler

/-- An output record after RESTART KEEP (R49). -/
def Output.restarted (o : Output) : Output :=
  { o.stopTrain with holders := [], burst := 0, periodsCompleted := 0 }

/-- The Output Stage (R49). -/
def restartOutputs (m : RestartMode) (s : State) : Vector Output 12 :=
  match m with
  | .keep => tabulate (fun l => (s.output l).restarted)
  | .clear => Vector.replicate 12 defaultOutput

/-- The Timebase (R64). After CLEAR the tick at which the restart values are applied is tick 0. -/
def restartTimebase (m : RestartMode) (s : State) : Timebase :=
  let t := s.timebase
  match m with
  | .keep =>
    { t with preset := none, lastSync := none, syncQual := requalify t.syncRaw t.syncFiltered s.now }
  | .clear =>
    { defaultTimebase t.syncRaw with
      syncSampledAt := t.syncSampledAt
      syncFiltered := t.syncFiltered
      syncQual := requalify t.syncRaw t.syncFiltered 0 }

/-- An input record (R82), `now` being the tick at which the restart values are applied. -/
def Input.restarted (m : RestartMode) (now : Tick) (x : Input) : Input :=
  match m with
  | .keep => { x with qual := requalify x.raw x.filtered now, glitches := 0 }
  | .clear =>
    { defaultInput x.raw with
      sampledAt := x.sampledAt
      filtered := x.filtered
      qual := requalify x.raw x.filtered now }

/-- The Capture Journal (R83). -/
def restartJournal (m : RestartMode) (s : State) : Journal :=
  match m with
  | .keep => { defaultJournal with watermark := s.journal.watermark }
  | .clear => defaultJournal

/-- The rule table (R115). -/
def restartRules (m : RestartMode) (s : State) : Vector Rule 16 :=
  match m with
  | .keep =>
    tabulate (fun r =>
      { (s.rule r).zeroed with state := if (s.rule r).active.enabled then .listening else .idle })
  | .clear => Vector.replicate 16 defaultRule

/-- Run Control (R129). -/
def restartRun (m : RestartMode) (s : State) : RunControl :=
  match m with
  | .keep => { defaultRun with silenceLimit := s.run.silenceLimit }
  | .clear => defaultRun

/-- The Report Unit (R169). -/
def restartReports (m : RestartMode) (s : State) : ReportUnit :=
  match m with
  | .keep => { s.reports with queue := [], flight := [], nextSeq := 1, nextCreation := 0 }
  | .clear => defaultReports

/-- The Fault Table (R180). -/
def restartFaults (m : RestartMode) (s : State) : FaultTable :=
  match m with
  | .keep => { s.faults with entries := Vector.replicate 11 defaultFaultEntry }
  | .clear => defaultFaults

/-- The Host Link: the list is emptied, and only a response in transmission stays in the window, to complete without
being recorded (R149). -/
def restartLink (s : State) : HostLink :=
  { s.link with
    recent := []
    window := (s.link.window.filter (fun e => e.state = .sending)).map (fun e => { e with record := false }) }

/-- Every block applies its restart values, as one event (R128, step 2). -/
def restartAll (m : RestartMode) (s : State) : State :=
  let t := restartTimebase m s
  { s with
    timebase := t
    inputs := tabulate (fun l => (s.input l).restarted m t.timeline)
    journal := restartJournal m s
    rules := restartRules m s
    sched := restartScheduler m s
    outputs := restartOutputs m s
    run := restartRun m s
    link := restartLink s
    reports := restartReports m s
    faults := restartFaults m s }

/-- RESTART is taken; RESET_DONE follows when its response completes (R128). -/
def takeRestart (m : RestartMode) (s : State) : State × Reply :=
  (restartAll m s, ⟨.ok, [restartModeByte m], .restarted m⟩)

/-- RESTART with mode KEEP (R128). -/
def execRestartKeep (tag : Tag) (s : State) : Host.Outcome State Fault Refusal :=
  requestOf tag .restart (takeRestart .keep) s

/-- RESTART with mode CLEAR (R128). -/
def execRestartClear (tag : Tag) (s : State) : Host.Outcome State Fault Refusal :=
  requestOf tag .restart (takeRestart .clear) s

/-! ## The silence timer and the full reset (R125, R129) -/

/-- The silence timer expires: it stops, and HOST_SILENT is counted (R125). -/
def expireSilence (s : State) : State :=
  countFault .hostSilent none (s.withRun { s.run with silence := none })

/-- The silence timer reaches the silence limit (R125). -/
def execSilenceTimerExpiry (s : State) : Host.Outcome State Fault Refusal :=
  whenDue (silenceDue s) expireSilence s

/-- RESETn goes low, or the supplies fall: the part is held in reset, and its transmitter sends nothing (R129, R49,
R150; DEDUCED, log entry 11). -/
def execResetnDrivenLow (s : State) : Host.Outcome State Fault Refusal :=
  .next ({ s with held := true }.withLink { s.link with tx := none })

/-- The cause that RESET_DONE carries after a full reset (R129). -/
def resetCauseOf : ResetCause → ResetDoneCause
  | .power => .power
  | .resetLine => .resetLine

/-- Every block at its full-reset values, the pins IN0 to IN7 and SYNC as they stand at the release and the link type
as LINKSEL says (R26, R49, R64, R82, R83, R115, R129, R150, R169, R180). The model's own queue and counter of choices
are kept (DESIGN CHOICE, log entry 12). -/
def resetBlocks (linkSel : Level) (s : State) : State where
  timebase := defaultTimebase s.timebase.syncRaw
  inputs := tabulate (fun l => defaultInput (s.input l).raw)
  journal := defaultJournal
  rules := Vector.replicate 16 defaultRule
  sched := defaultScheduler
  outputs := Vector.replicate 12 defaultOutput
  run := defaultRun
  link := defaultLink (linkOf linkSel)
  reports := defaultReports
  faults := defaultFaults
  held := false
  clock := 0
  choices := s.choices
  pending := s.pending

/-- A full reset at its release: every block takes its full-reset values and RESET_DONE is created, the first frame the
part sends (R129, R168). -/
def execFullReset (cause : ResetCause) (linkSel : Level) (s : State) : Host.Outcome State Fault Refusal :=
  .next (arbitrate (createReport (.resetDone (resetCauseOf cause)) (resetBlocks linkSel s))).firm

end Sys2Proof.Machine
end

