-- ==== Sys2Proof/Machine/SchedulerCommands.lean ====
section
/-! DEFINITION. The commands of the Action Scheduler: SCHEDULE_PULSE, CANCEL_ACTION, CANCEL_LINE, LIST_SCHEDULE,
SET_SCHEDULE (R17 to R23) and the expiry of the time list (R8). -/

namespace Sys2Proof.Machine

/-! ## SCHEDULE_PULSE (R17, R18) -/

/-- Check 1 of R17: FAULTED, DRAINING, or SYNC armed. -/
def State.scheduleBarred (s : State) : Bool :=
  s.run.state = .faulted || s.run.state = .draining || s.syncArmed

/-- The due resolved to an absolute due point; none when it is out of range (R18). -/
def resolveDue (base : Base) (relative : Bool) (due : BitVec 48) (s : State) : Option Due :=
  match base, relative with
  | .time, false => if tickInWindow s.now due then some (.time due) else none
  | .time, true => if due.toNat < Config.tickWindow then some (.time (s.now + due)) else none
  | .travel, false =>
    if countInWindow s.timebase.travelCount (due.setWidth 32) then some (.travel (due.setWidth 32)) else none
  | .travel, true =>
    if due.toNat < Config.countWindow then some (.travel (s.timebase.travelCount + due.setWidth 32)) else none

/-- The interval of a SCHEDULE_PULSE passes check 3 of R17. -/
def intervalOk (base : Base) (width : BitVec 24) (repeats : Byte) (interval : BitVec 32) : Bool :=
  if repeats = 0 then interval = 0
  else
    match base with
    | .time => width.toNat < interval.toNat
    | .travel => 0 < interval.toNat && interval.toNat < Config.countWindow

/-- The action of a SCHEDULE_PULSE whose values pass check 3 of R17, its due resolved (R3, R18); none for
BAD_VALUE. -/
def scheduledAction (tag : Tag) (line : OutLine) (base dueMode : Byte) (due : BitVec 48) (width : BitVec 24)
    (repeats : Byte) (interval : BitVec 32) (reportDone : Byte) (s : State) : Option Action :=
  match baseOf base, yesNoOf dueMode, yesNoOf reportDone with
  | some b, some relative, some done =>
    if width ≠ 0 ∧ intervalOk b width repeats interval ∧ ¬ (b = .travel ∧ s.timebase.source = none) then
      (resolveDue b relative due s).map (fun d => {
        origin := .host tag
        line := line
        due := d
        width := width
        repeatsLeft := repeats.toNat
        interval := if repeats = 0 then none else some interval
        fired := 0
        skipped := 0
        reportDone := done
        finishRequested := false })
    else none
  | _, _, _ => none

/-- The reserved bytes 8 and 9 of a TRAVEL due are not 0 (R183). -/
def travelDueReserved (base : Byte) (due : BitVec 48) : Bool :=
  baseOf base = some .travel && 2 ^ 32 ≤ due.toNat

/-- SCHEDULE_PULSE is taken: the checks of R17 in order, then the lowest FREE slot is allocated and its START entry
filed and tested for lateness (R18). -/
def takeSchedulePulse (tag : Tag) (line base dueMode : Byte) (due : BitVec 48) (width : BitVec 24) (repeats : Byte)
    (interval : BitVec 32) (reportDone : Byte) (s : State) : State × Reply :=
  if s.scheduleBarred then (s, reply .state)
  else
    match outLineOf line with
    | none => (s, reply .badValue)
    | some l =>
      if travelDueReserved base due then (s, reply .badValue)
      else if (s.output l).mode ≠ .sequenced then (s, reply .lineMode)
      else
        match scheduledAction tag l base dueMode due width repeats interval reportDone s with
        | none => (s, reply .badValue)
        | some a =>
          match s.freeSlots with
          | [] => (countFault .poolExhausted (some (.hostOrigin tag)) s, reply .noSlot)
          | i :: _ =>
            let s1 := allocate i a s
            (joinAction (s1.handleOf i) s1, replyOk ((s1.handleOf i).bytes ++ a.due.bytes))

/-- SCHEDULE_PULSE (R17). -/
def execSchedulePulse (tag : Tag) (line base dueMode : Byte) (due : BitVec 48) (width : BitVec 24) (repeats : Byte)
    (interval : BitVec 32) (reportDone : Byte) (s : State) : Host.Outcome State Fault Refusal :=
  requestOf tag .schedulePulse
    (takeSchedulePulse tag line base dueMode due width repeats interval reportDone) s

/-! ## CANCEL_ACTION (R19) -/

/-- The state an action is found in by a cancel: 1 WAITING, 2 HOLDING (10.7). -/
def Slot.foundByte (x : Slot) : Byte :=
  match x.state with
  | .holding _ _ => 2
  | _ => 1

/-- A cancel treats an action by its state: a WAITING action is freed CANCELLED; a HOLDING action is released and freed
CANCELLED by ABORT, and runs to its END with no repeats left under FINISH (R19, R35). -/
def cancelHandle (mode : CancelMode) (h : Handle) (s : State) : State :=
  match (s.slot h.slot).state, mode with
  | .free, _ => s
  | .waiting _, _ => freeSlot h .cancelled s
  | .holding a _, .abort => freeSlot h .cancelled (release a.line h s)
  | .holding a e, .finish =>
    s.putSlot h.slot ⟨h.gen, .holding { a with repeatsLeft := 0, finishRequested := true } e⟩

/-- CANCEL_ACTION is taken (R19). -/
def takeCancelAction (mode : CancelMode) (slot : Byte) (gen : Gen) (s : State) : State × Reply :=
  match slotNoOf slot with
  | none => (s, reply .badValue)
  | some i =>
    match s.live ⟨i, gen⟩ with
    | none => (s, reply .notFound)
    | some x => (cancelHandle mode ⟨i, gen⟩ s, replyOk [x.foundByte])

/-- CANCEL_ACTION with mode ABORT (R19). -/
def execCancelActionAbort (tag : Tag) (slot : Byte) (gen : Gen) (s : State) : Host.Outcome State Fault Refusal :=
  requestOf tag .cancelAction (takeCancelAction .abort slot gen) s

/-- CANCEL_ACTION with mode FINISH (R19). -/
def execCancelActionFinish (tag : Tag) (slot : Byte) (gen : Gen) (s : State) : Host.Outcome State Fault Refusal :=
  requestOf tag .cancelAction (takeCancelAction .finish slot gen) s

/-! ## CANCEL_LINE (R21) -/

/-- The action that a handle names, WAITING or HOLDING. -/
def State.actionOf (s : State) (h : Handle) : Option Action := (s.live h).bind Slot.action

/-- The handles of the actions of a line, the time list's first, each list in its order (R21). -/
def State.lineHandles (s : State) (l : OutLine) : List Handle :=
  s.listedHandles.filter (fun h => (s.actionOf h).any (fun a => a.line = l))

/-- The actions of handles read beforehand are cancelled one after another, and those treated are counted. An action
that fatal entry has freed meanwhile is not treated (R122; DEDUCED, log entry 20). -/
def cancelHandles (mode : CancelMode) : List Handle → State → State × Nat
  | [], s => (s, 0)
  | h :: hs, s =>
    match s.live h with
    | none => cancelHandles mode hs s
    | some _ =>
      let p := cancelHandles mode hs (cancelHandle mode h s)
      (p.1, p.2 + 1)

/-- CANCEL_LINE is taken (R21). -/
def takeCancelLine (mode : CancelMode) (line : Byte) (s : State) : State × Reply :=
  match outLineOf line with
  | none => (s, reply .badValue)
  | some l =>
    let p := cancelHandles mode (s.lineHandles l) s
    (p.1, replyOk [BitVec.ofNat 8 p.2])

/-- CANCEL_LINE with mode ABORT (R21). -/
def execCancelLineAbort (tag : Tag) (line : Byte) (s : State) : Host.Outcome State Fault Refusal :=
  requestOf tag .cancelLine (takeCancelLine .abort line) s

/-- CANCEL_LINE with mode FINISH (R21). -/
def execCancelLineFinish (tag : Tag) (line : Byte) (s : State) : Host.Outcome State Fault Refusal :=
  requestOf tag .cancelLine (takeCancelLine .finish line) s

/-! ## LIST_SCHEDULE (R22) -/

/-- The 19 bytes of a LIST_SCHEDULE entry (10.7). -/
def entryBytes (h : Handle) (phase : Phase) (key : List Byte) (serial : Serial) (s : State) : List Byte :=
  match (s.slot h.slot).action with
  | none => []
  | some a =>
    h.bytes ++ listEntryFlags a.line phase a.due.base a.origin :: key ++ leBytes 4 serial.toNat
      ++ BitVec.ofNat 8 a.repeatsLeft :: a.origin.listBytes

/-- The entries of a list from its head on, each as its 19 bytes. -/
def State.listed (s : State) (list : Base) : List (List Byte) :=
  match list with
  | .time => s.sched.timeList.map (fun e => entryBytes e.handle e.phase (tickBytes e.key) e.serial s)
  | .travel => s.sched.travelList.map (fun e => entryBytes e.handle .start (leBytes 6 e.key.toNat) e.serial s)

/-- LIST_SCHEDULE is taken (R22). -/
def takeListSchedule (list start maximum : Byte) (s : State) : State × Reply :=
  match baseOf list with
  | none => (s, reply .badValue)
  | some b =>
    if maximum.toNat < 1 ∨ 12 < maximum.toNat then (s, reply .badValue)
    else
      let all := s.listed b
      let page := (all.drop start.toNat).take maximum.toNat
      (s, replyOk (BitVec.ofNat 8 all.length :: BitVec.ofNat 8 page.length :: page.flatten))

/-- LIST_SCHEDULE (R22). -/
def execListSchedule (tag : Tag) (list start maximum : Byte) (s : State) : Host.Outcome State Fault Refusal :=
  requestOf tag .listSchedule (takeListSchedule list start maximum) s

/-! ## SET_SCHEDULE (R23) -/

/-- SET_SCHEDULE is taken: all four settings are replaced, or none (R23). -/
def takeSetSchedule (lateTicks : BitVec 16) (lateCounts policy reserve : Byte) (s : State) : State × Reply :=
  match latePolicyOf policy with
  | none => (s, reply .badValue)
  | some p =>
    if 32 < reserve.toNat then (s, reply .badValue)
    else
      (s.withSched { s.sched with
        lateTicks := lateTicks.toNat
        lateCounts := lateCounts.toNat
        latePolicy := p
        reserve := reserve.toNat }, replyOk [])

/-- SET_SCHEDULE (R23). -/
def execSetSchedule (tag : Tag) (lateTicks : BitVec 16) (lateCounts policy reserve : Byte) (s : State) :
    Host.Outcome State Fault Refusal :=
  requestOf tag .setSchedule (takeSetSchedule lateTicks lateCounts policy reserve) s

/-! ## TIME_LIST_EXPIRY (R8) -/

/-- The timeline reaches the key of the time list's head, and the list expires (R8). -/
def execTimeListExpiry (s : State) : Host.Outcome State Fault Refusal :=
  whenDue (timeListDue s) expireTimeList s

end Sys2Proof.Machine
end

