-- ==== Sys2Proof/Machine/Receive.lean ====
section
/-! DEFINITION. The receive side of the Host Link: a request payload dispatched to its owner block (R141), the receive
assembler taking characters one by one (R136, R137), the gap timer and CSn (R138). -/

namespace Sys2Proof.Machine

/-! ## Dispatch of a payload (R141, R182) -/

/-- A request read from a payload is handed to its owner block. No other command is read from a payload. -/
def takeCommand (i : Instr) : State → State × Reply :=
  match i with
  | .ping _ data => takePing data
  | .getIdentity _ => takeGetIdentity
  | .setLinkRate _ rate => takeSetLinkRate rate
  | .arm _ => takeArm
  | .disarmWait _ => takeDisarmWait
  | .disarmFlush _ => takeDisarmFlush
  | .recover _ => takeRecover
  | .getStatus _ => takeGetStatus
  | .setSupervision _ limit => takeSetSupervision limit
  | .restartKeep _ => takeRestart .keep
  | .restartClear _ => takeRestart .clear
  | .schedulePulse tag line base mode due width repeats interval done =>
    takeSchedulePulse tag line base mode due width repeats interval done
  | .cancelActionAbort _ slot gen => takeCancelAction .abort slot gen
  | .cancelActionFinish _ slot gen => takeCancelAction .finish slot gen
  | .cancelLineAbort _ line => takeCancelLine .abort line
  | .cancelLineFinish _ line => takeCancelLine .finish line
  | .listSchedule _ list start maximum => takeListSchedule list start maximum
  | .setSchedule _ ticks counts policy reserve => takeSetSchedule ticks counts policy reserve
  | .setOutput _ line mode idle safe policy => takeSetOutput line mode idle safe policy
  | .setLevel _ line level => takeSetLevel line level
  | .trainLoad _ line period high => takeTrainLoad line period high
  | .trainStart _ line burst => takeTrainStart line burst
  | .trainStopNow _ line => takeTrainStop Output.stopTrain line
  | .trainStopAtPeriodEnd _ line => takeTrainStop Output.stopAtPeriodEnd line
  | .getOutputs _ => takeGetOutputs
  | .getTime _ => takeGetTime
  | .setTravelSource _ source => takeSetTravelSource source
  | .setSync _ width reporting => takeSetSync width reporting
  | .armSync _ preset => takeArmSync preset
  | .cancelSync _ => takeCancelSync
  | .setInput _ line select width enable => takeSetInput line select width enable
  | .getInputs _ => takeGetInputs
  | .readJournal _ count => takeReadJournal count
  | .setJournal _ watermark empty => takeSetJournal watermark empty
  | .editRule _ rule record => takeEditRule rule record
  | .readRule _ rule copy => takeReadRule rule copy
  | .readRuleStats _ first number => takeReadRuleStats first number
  | .discardStaged _ => takeDiscardStaged
  | .resetRuleCounts _ rules => takeResetRuleCounts rules
  | .commitRules _ => takeCommitRules
  | .setReporting _ kinds interval retries => takeSetReporting kinds interval retries
  | .readFaults _ => takeReadFaults
  | .clearFaults _ kinds => takeClearFaults kinds
  | .setFaultMasks _ fatal report => takeSetFaultMasks fatal report
  | .fullReset _ _ | .unknownRequest _ _ | .ack _ | .badFrame _ | .gapTimerExpiry | .csnDeassert
  | .transmitComplete | .retryIntervalExpiry _ | .silenceTimerExpiry | .timeListExpiry | .trainHighTimeEnd _
  | .trainPeriodEnd _ | .inputRawChange _ _ | .inputEdgeAccepted _ | .syncRawChange _ | .syncEdgeAccepted
  | .resetnDrivenLow => fun s => (s, reply .badCode)

/-- A request payload is taken: BAD_LENGTH or BAD_CODE from the Host Link itself, else its owner's answer (R141). -/
def takePayload (tag : Tag) (payload : List Byte) (s : State) : State × Reply :=
  match decodeRequest tag payload with
  | .badLength _ => (s, reply .badLength)
  | .badCode _ => (s, reply .badCode)
  | .badMode _ => (s, reply .badValue)
  | .command i => takeCommand i s

/-- A request frame given by its payload: answered BAD_LENGTH or BAD_CODE without dispatch, unless its code and length
are right after all (R141; DEDUCED, log entry 7). -/
def execUnknownRequest (tag : Tag) (payload : List Byte) (s : State) : Host.Outcome State Fault Refusal :=
  requestFrame tag payload.length payload.head? (takePayload tag payload) s

/-! ## The receive assembler (R136, R137) -/

/-- A character is a broken byte: its stop bit was sampled LOW, on a UART link (R131). -/
def State.broken (s : State) (c : RxChar) : Bool :=
  s.link.linkType = .uart && c.stop = .low

/-- The assembler goes on with the bytes gathered. -/
def gather (a : Assembler) (s : State) : State := s.withLink { s.link with assembler := a }

/-- A frame has arrived, its header, payload and CRC in `bytes`: it is handed on (R139). -/
def handOn (bytes : List Byte) (s : State) : State :=
  let tag := BitVec.ofNat 16 (fieldAt bytes 1 2)
  let payload := (bytes.drop 4).take (byteAt bytes 3).toNat
  if byteAt bytes 0 = FrameKind.ack.byte then takeAck tag (frameArrived s)
  else putRequest tag payload.head? (takePayload tag payload) (frameArrived s)

/-- A header byte has been gathered: the kind and the length are checked when they are received (R136, R137). -/
def gatherHeader (bytes : List Byte) (s : State) : State :=
  let kind := byteAt bytes 0
  let length := (byteAt bytes 3).toNat
  if kind ≠ FrameKind.request.byte ∧ kind ≠ FrameKind.ack.byte then dropFrame .frameMalformed s
  else if bytes.length < 4 then gather (.header bytes) s
  else if maxPayload < length ∨ (kind = FrameKind.ack.byte ∧ length ≠ 0) then dropFrame .frameMalformed s
  else gather (if length = 0 then .crc bytes else .payload bytes) s

/-- A payload byte has been gathered (R136). -/
def gatherPayload (bytes : List Byte) (s : State) : State :=
  gather (if bytes.length < 4 + (byteAt bytes 3).toNat then .payload bytes else .crc bytes) s

/-- A CRC byte has been gathered: after the second the frame is checked (R136, R137). -/
def gatherCrc (bytes : List Byte) (s : State) : State :=
  let n := 4 + (byteAt bytes 3).toNat
  if bytes.length < n + 2 then gather (.crc bytes) s
  else if (crc16 (bytes.take n)).toNat = ofLeBytes (bytes.drop n) then handOn bytes s
  else dropFrame .frameCrc s

/-- A character has been received (R136). Inside a frame the gap timer runs from its end (R138). -/
def receiveChar (c : RxChar) (s : State) : State :=
  let s1 := s.withLink { s.link with lastByteAt := s.clock, byteStarted := false }
  match s.link.assembler with
  | .hunting => if s.broken c = false ∧ c.data = syncByte then gather (.header []) s1 else s1
  | .header bs => if s.broken c then dropFrame .frameMalformed s1 else gatherHeader (bs ++ [c.data]) s1
  | .payload bs => if s.broken c then dropFrame .frameMalformed s1 else gatherPayload (bs ++ [c.data]) s1
  | .crc bs => if s.broken c then dropFrame .frameMalformed s1 else gatherCrc (bs ++ [c.data]) s1

/-- The byte in reception on an SPI link with one more bit taken from SDI, most significant bit first (R132). -/
def HostLink.shiftedIn (l : HostLink) (v : Level) : Byte := l.sdi <<< 1 ||| (if v = .high then 1 else 0)

/-- One period of SCK with CSn asserted: a bit goes out and a bit is taken from SDI; with the eighth a byte is received.
Where it is also the last bit of a frame, the frame completes before that byte is received, or after it (R132, R140). -/
def clockPeriod (v : Level) (sentFirst : Bool) (s : State) : State :=
  let s1 := clockOut s
  let byte := s1.link.shiftedIn v
  if s1.link.phase = 0 then
    let s2 := s1.withLink { s1.link with sdi := 0 }
    receiveChar ⟨byte, .high⟩ (if sentFirst then settle s2 else s2)
  else s1.withLink { s1.link with sdi := byte }

/-- What the host does on the pins is taken: a character, the bits of the byte in progress being its first; on a UART link
the start bit of one; on an SPI link the assertion of CSn, or a period of SCK, which counts only with CSn asserted. The pins
of the other link are ignored (R130, R132, R138; DEDUCED, log entries 6 and 10). -/
def receiveEvent (x : LinkEvent) (s : State) : State :=
  match x with
  | .char c => receiveChar c (broughtIn (8 - s.link.phase) s)
  | .startBit => s.withLink { s.link with byteStarted := s.link.byteStarted || s.link.linkType == .uart }
  | .select => s.withLink { s.link with csnAsserted := s.link.csnAsserted || s.link.linkType == .spi }
  | .sck v sentFirst =>
    if s.link.linkType = .spi ∧ s.link.csnAsserted then clockPeriod v sentFirst s else s

/-- What arrives is taken one after another, each an event of its own, the arbiter choosing after each (DESIGN CHOICE,
log entry 8). -/
def receiveAll : List LinkEvent → State → State
  | [], s => s
  | x :: xs, s => receiveAll xs (arbitrate (receiveEvent x s))

/-- Characters arrive, a frame among them failing its checks or not yet whole (R137). Held in reset, the part ignores
them (R150). -/
def execBadFrame (received : List LinkEvent) (s : State) : Host.Outcome State Fault Refusal :=
  if s.held then .next s else .next (receiveAll received s)

/-! ## The gap timer and CSn (R138) -/

/-- 2 ms pass inside a frame on a UART link (R138). -/
def execGapTimerExpiry (s : State) : Host.Outcome State Fault Refusal :=
  whenDue (gapDue s) (dropFrame .frameMalformed) s

/-- CSn is deasserted: on an SPI link the bits of a byte in reception are discarded, a frame in reception is dropped, and the
frame in transmission goes back to its last byte boundary; on a UART link the pin is ignored (R130, R132, R138). -/
def deassertCsn (s : State) : State :=
  match s.link.linkType with
  | .uart => s
  | .spi => breakOff (s.withLink { s.link with
      csnAsserted := false
      phase := 0
      sdi := 0
      tx := s.link.tx.map Transmission.cut })

/-- CSn deasserts (R132, R138). -/
def execCsnDeassert (s : State) : Host.Outcome State Fault Refusal :=
  atOnce deassertCsn s

end Sys2Proof.Machine
end

