-- ==== Sys2Proof/Machine/Dispatch.lean ====
section
/-! DEFINITION. The one dispatcher: one arm per command, each a direct call of the command's meaning. -/

namespace Sys2Proof.Machine

def exec (i : Instr) (s : State) : Host.Outcome State Fault Refusal :=
  match i with
  | .fullReset cause linkSel => Sys2Proof.Machine.execFullReset cause linkSel s
  | .ping tag data => Sys2Proof.Machine.execPing tag data s
  | .getIdentity tag => Sys2Proof.Machine.execGetIdentity tag s
  | .setLinkRate tag rate => Sys2Proof.Machine.execSetLinkRate tag rate s
  | .arm tag => Sys2Proof.Machine.execArm tag s
  | .disarmWait tag => Sys2Proof.Machine.execDisarmWait tag s
  | .disarmFlush tag => Sys2Proof.Machine.execDisarmFlush tag s
  | .recover tag => Sys2Proof.Machine.execRecover tag s
  | .getStatus tag => Sys2Proof.Machine.execGetStatus tag s
  | .setSupervision tag limit => Sys2Proof.Machine.execSetSupervision tag limit s
  | .restartKeep tag => Sys2Proof.Machine.execRestartKeep tag s
  | .restartClear tag => Sys2Proof.Machine.execRestartClear tag s
  | .schedulePulse tag line base dueMode due width repeats interval reportDone => Sys2Proof.Machine.execSchedulePulse tag line base dueMode due width repeats interval reportDone s
  | .cancelActionAbort tag slot gen => Sys2Proof.Machine.execCancelActionAbort tag slot gen s
  | .cancelActionFinish tag slot gen => Sys2Proof.Machine.execCancelActionFinish tag slot gen s
  | .cancelLineAbort tag line => Sys2Proof.Machine.execCancelLineAbort tag line s
  | .cancelLineFinish tag line => Sys2Proof.Machine.execCancelLineFinish tag line s
  | .listSchedule tag list start maximum => Sys2Proof.Machine.execListSchedule tag list start maximum s
  | .setSchedule tag lateTicks lateCounts policy reserve => Sys2Proof.Machine.execSetSchedule tag lateTicks lateCounts policy reserve s
  | .setOutput tag line mode idle safe policy => Sys2Proof.Machine.execSetOutput tag line mode idle safe policy s
  | .setLevel tag line level => Sys2Proof.Machine.execSetLevel tag line level s
  | .trainLoad tag line period high => Sys2Proof.Machine.execTrainLoad tag line period high s
  | .trainStart tag line burst => Sys2Proof.Machine.execTrainStart tag line burst s
  | .trainStopNow tag line => Sys2Proof.Machine.execTrainStopNow tag line s
  | .trainStopAtPeriodEnd tag line => Sys2Proof.Machine.execTrainStopAtPeriodEnd tag line s
  | .getOutputs tag => Sys2Proof.Machine.execGetOutputs tag s
  | .getTime tag => Sys2Proof.Machine.execGetTime tag s
  | .setTravelSource tag source => Sys2Proof.Machine.execSetTravelSource tag source s
  | .setSync tag width reporting => Sys2Proof.Machine.execSetSync tag width reporting s
  | .armSync tag preset => Sys2Proof.Machine.execArmSync tag preset s
  | .cancelSync tag => Sys2Proof.Machine.execCancelSync tag s
  | .setInput tag line edgeSelect width journalEnable => Sys2Proof.Machine.execSetInput tag line edgeSelect width journalEnable s
  | .getInputs tag => Sys2Proof.Machine.execGetInputs tag s
  | .readJournal tag count => Sys2Proof.Machine.execReadJournal tag count s
  | .setJournal tag watermark empty => Sys2Proof.Machine.execSetJournal tag watermark empty s
  | .editRule tag rule record => Sys2Proof.Machine.execEditRule tag rule record s
  | .readRule tag rule copy => Sys2Proof.Machine.execReadRule tag rule copy s
  | .readRuleStats tag first number => Sys2Proof.Machine.execReadRuleStats tag first number s
  | .discardStaged tag => Sys2Proof.Machine.execDiscardStaged tag s
  | .resetRuleCounts tag rules => Sys2Proof.Machine.execResetRuleCounts tag rules s
  | .commitRules tag => Sys2Proof.Machine.execCommitRules tag s
  | .setReporting tag kinds interval maxRetries => Sys2Proof.Machine.execSetReporting tag kinds interval maxRetries s
  | .readFaults tag => Sys2Proof.Machine.execReadFaults tag s
  | .clearFaults tag kinds => Sys2Proof.Machine.execClearFaults tag kinds s
  | .setFaultMasks tag fatal report => Sys2Proof.Machine.execSetFaultMasks tag fatal report s
  | .unknownRequest tag payload => Sys2Proof.Machine.execUnknownRequest tag payload s
  | .ack seq => Sys2Proof.Machine.execAck seq s
  | .badFrame received => Sys2Proof.Machine.execBadFrame received s
  | .gapTimerExpiry => Sys2Proof.Machine.execGapTimerExpiry s
  | .csnDeassert => Sys2Proof.Machine.execCsnDeassert s
  | .transmitComplete => Sys2Proof.Machine.execTransmitComplete s
  | .retryIntervalExpiry seq => Sys2Proof.Machine.execRetryIntervalExpiry seq s
  | .silenceTimerExpiry => Sys2Proof.Machine.execSilenceTimerExpiry s
  | .timeListExpiry => Sys2Proof.Machine.execTimeListExpiry s
  | .trainHighTimeEnd l => Sys2Proof.Machine.execTrainHighTimeEnd l s
  | .trainPeriodEnd l => Sys2Proof.Machine.execTrainPeriodEnd l s
  | .inputRawChange l level => Sys2Proof.Machine.execInputRawChange l level s
  | .inputEdgeAccepted l => Sys2Proof.Machine.execInputEdgeAccepted l s
  | .syncRawChange level => Sys2Proof.Machine.execSyncRawChange level s
  | .syncEdgeAccepted => Sys2Proof.Machine.execSyncEdgeAccepted s
  | .resetnDrivenLow => Sys2Proof.Machine.execResetnDrivenLow s

end Sys2Proof.Machine
end

