-- ==== Sys2Proof/Safety.lean ====
section
/-! DEFINITION. The terms in which claims are stated: what an event may touch, when a request is admitted and answered,
and the invariants. No run of this machine stops: `Fault` is empty and no arm refuses. -/

namespace Sys2Proof.Machine

/-! ## What an event touches -/

/-- `t` is `s` in everything but the schedule, the outputs, the run control, the reports and the faults. -/
def OnlyWork (s t : State) : Prop :=
  t = { s with sched := t.sched, outputs := t.outputs, run := t.run, reports := t.reports, faults := t.faults }

/-- `t` is `s` in everything but the Host Link and the reports: what the transmit arbiter may touch. -/
def OnlySends (s t : State) : Prop :=
  t = { s with link := t.link, reports := t.reports }

/-- `t` is `s` in everything but the Host Link, the schedule, the outputs, the run control, the reports and the faults: what
the completion of a frame may touch. -/
def LinkWork (s t : State) : Prop :=
  t = { s with link := t.link, sched := t.sched, outputs := t.outputs, run := t.run, reports := t.reports, faults := t.faults }

/-- `t` is `s` in everything but the Host Link. -/
def SameButLink (s t : State) : Prop :=
  t = { s with link := t.link }

/-! ## Frames from the host (R131, R132) -/

/-- The length of the payload of the frame that a command is: of a request that of its payload, of an ACK 0. -/
def frameLength (i : Instr) : Nat :=
  match i with
  | .unknownRequest _ p => p.length
  | _ => match encodeRequest i with
    | some (_, p) => p.length
    | none => 0

/-- The part as it stands when the last bit of the frame that is the command `i` has come in. On a UART link that is the part
as it stands; on an SPI link the part has sent a bit for each bit of the frame (R131, R132). -/
def State.atLastBit (i : Instr) (s : State) : State := frameBroughtIn (frameLength i) s

/-- The command `i`, a frame from the host that no response answers, completes in `t`, its last bit finding the part in `s`:
on a UART link, from `s`; on an SPI link, from every state in which the bits of the frame bring the part to `s`. -/
def Arrives (i : Instr) (s t : State) : Prop :=
  (s.link.linkType = .uart → exec i s = .next t) ∧ ∀ s0 : State, s0.atLastBit i = s → exec i s0 = .next t

/-- The command `i`, a request that a response answers at once, completes in `t`, its last bit finding the part in `s`, in
which no report was chosen at this very instant that gives way to the response; and so it does where its last bit finds the
part in `s` but for such a choice: the report chosen stands in `s` as it did before (R144). -/
def Completes (i : Instr) (s t : State) : Prop :=
  (s.link.linkType = .uart → giveWay s = s → exec i s = .next t)
    ∧ ∀ s0 : State, giveWay (s0.atLastBit i) = s → exec i s0 = .next t

/-! ## Requests (R139 to R142, R149) -/

/-- A request of this tag and code is admitted as a new entry: the part is not in reset, no entry of the window has the
tag, no RESTART awaits its response, the window has room, and no stored response matches (R139, R149). -/
def State.admits (s : State) (tag : Tag) (code : Option Byte) : Bool :=
  !s.held && (tag = 0 || s.link.window.all (fun e => e.tag ≠ tag)) && !s.link.restarting
    && s.link.window.length < Config.windowCap && (matchRecent tag code s.link.recent).isNone

/-- The state in which the owner block takes an admitted request: the frame has been heard, and a stored response of the
same tag has left the list (R139, checks 4 and 5). -/
def taking (tag : Tag) (s : State) : State :=
  (frameArrived s).withLink { (frameArrived s).link with
    recent := if tag = 0 then s.link.recent else s.link.recent.filter (fun e => e.tag ≠ tag) }

/-- An entry of the window apart from whether its response has been chosen for transmission. -/
def WindowEntry.content (e : WindowEntry) : WindowEntry := { e with state := .answered }

/-- The entry of the window that an answered request leaves: its tag, its code, the response payload and what its
completion brings about (R140). -/
def answeredEntry (tag : Tag) (code : Option Byte) (payload : List Byte) (after : AfterSent) : WindowEntry :=
  ⟨tag, code, .answered, payload, after, true⟩

/-- From `s` to `t` an admitted request was answered: the window holds one more entry, the newest, with the request's tag
and code and the response payload; a frame in transmission goes on, and an idle transmitter begins the oldest response
that is ready; the list has lost an entry with this tag; the assembler hunts, no byte being under way; link type, rate, the
end of the last byte and the pins of an SPI link are as they were (R139 to R141, R144). That the request is taken within its
arrival, that a whole frame arrives at one instant, and that the frame on an SPI link tells of CSn are the model's choices
(log entries 5, 6 and 10). -/
structure Answered (tag : Tag) (code : Option Byte) (payload : List Byte) (after : AfterSent) (s t : State) : Prop where
  window : t.link.window.map WindowEntry.content =
    s.link.window.map WindowEntry.content ++ [answeredEntry tag code payload after]
  goesOn : s.link.tx.isSome → t.link.tx = s.link.tx
  begins : s.link.tx = none → t.link.tx.map Transmission.frame =
    (takeResponse (s.link.window ++ [answeredEntry tag code payload after])).map (fun p => responseFrame p.1)
  busy : t.link.tx.isSome
  recent : t.link.recent = if tag = 0 then s.link.recent else s.link.recent.filter (fun e => e.tag ≠ tag)
  assembler : t.link.assembler = .hunting
  csn : t.link.csnAsserted = s.link.csnAsserted
  phase : t.link.phase = s.link.phase
  sdi : t.link.sdi = s.link.sdi
  linkType : t.link.linkType = s.link.linkType
  rate : t.link.rate = s.link.rate
  lastByteAt : t.link.lastByteAt = s.link.lastByteAt
  byteStarted : t.link.byteStarted = false

/-- The command `i`, a request of this tag and code whose last bit finds the part in `s`, completes: it is answered with this
payload, and in all but the Host Link the next state is `u`. -/
def Answers (i : Instr) (tag : Tag) (code : Option Byte) (payload : List Byte) (after : AfterSent) (s u : State) : Prop :=
  ∃ t, Completes i s t ∧ Answered tag code payload after s t ∧ SameButLink u t

/-! ## Invariants -/

/-- A fault entry within its bounds: the count at most 65535, and the first and last ticks present exactly when it is
above 0 (R170). -/
def FaultEntry.ok (e : FaultEntry) : Bool :=
  e.count ≤ Config.faultCountCap && (e.first.isSome == decide (0 < e.count)) && (e.last.isSome == decide (0 < e.count))

/-- Every capacity of the manual's table is kept, the recent list holds distinct tags other than 0, and each fault entry
is within its bounds (R74, R140, R142, R157, R170). -/
structure Capacities (s : State) : Prop where
  window : s.link.window.length ≤ Config.windowCap
  recent : s.link.recent.length ≤ Config.recentCap
  recentTags : (s.link.recent.map RecentEntry.tag).Nodup
  recentNonzero : ∀ e ∈ s.link.recent, e.tag ≠ 0
  outbox : s.reports.outboxCount ≤ Config.outboxCap
  flight : s.reports.flight.length ≤ Config.flightCap
  journal : s.journal.records.length ≤ Config.journalCap
  faults : ∀ k, (s.faultEntry k).ok = true

/-- SYNC is armed only in STANDBY and with both lists empty (R59). -/
def SyncArmedAtRest (s : State) : Prop :=
  s.syncArmed = true → s.run.state = .standby ∧ s.sched.timeList = [] ∧ s.sched.travelList = []

/-- In FAULTED every slot is FREE, both lists and every holder set are empty, and no train runs (R25, R47). -/
def FaultedAtRest (s : State) : Prop :=
  s.run.state = .faulted →
    (∀ i, (s.slot i).isFree = true) ∧ s.sched.timeList = [] ∧ s.sched.travelList = []
      ∧ ∀ l, (s.output l).holders = [] ∧ (s.output l).running = false

/-- The two lists and the pool agree: every handle has at most one entry; a START entry of the time list names a WAITING
action whose due is its key, an END entry a HOLDING action whose end is its key, an entry of the travel list a WAITING
action whose due is its key; and every action of the pool has an entry (R5, R6). -/
structure ListsAgree (s : State) : Prop where
  once : (s.sched.timeList.map TimeEntry.handle ++ s.sched.travelList.map TravelEntry.handle).Nodup
  start : ∀ e ∈ s.sched.timeList, e.phase = .start → ∃ a, s.waitingAction e.handle = some a ∧ a.due = .time e.key
  finish : ∀ e ∈ s.sched.timeList, e.phase = .finish →
    ∃ a, s.slot e.handle.slot = ⟨e.handle.gen, .holding a e.key⟩
  travel : ∀ e ∈ s.sched.travelList, ∃ a, s.waitingAction e.handle = some a ∧ a.due = .travel e.key
  listed : ∀ i, (s.slot i).isFree = false →
    s.handleOf i ∈ s.sched.timeList.map TimeEntry.handle ++ s.sched.travelList.map TravelEntry.handle

/-- A rule that is not dirty has a staged copy equal to its active copy (R87). -/
def CleanCopies (s : State) : Prop :=
  ∀ r, (s.rule r).dirty = false → (s.rule r).staged = (s.rule r).active

/-- The holder sets agree with the pool: each line's set holds, each once, exactly the HOLDING actions of that line, and
at most one of them unless the line's policy is MERGE (R29). -/
structure HoldersAgree (s : State) : Prop where
  once : ∀ l, (s.output l).holders.Nodup
  holding : ∀ l h, h ∈ (s.output l).holders ↔ ∃ a, s.holdingAction h = some a ∧ a.line = l
  single : ∀ l, (s.output l).policy ≠ .merge → (s.output l).holders.length ≤ 1

/-- Every line in use is SEQUENCED: the line of every action of the pool, and the line of every template of a rule whose
active copy is enabled; and a rule is IDLE exactly when its active copy is disabled (R29, R88, R95). -/
structure LinesInUse (s : State) : Prop where
  actions : ∀ i a, (s.slot i).action = some a → (s.output a.line).mode = .sequenced
  templates : ∀ r, (s.rule r).active.enabled = true →
    ∀ t ∈ (s.rule r).active.templates, (s.output t.line).mode = .sequenced
  idle : ∀ r, (s.rule r).state = .idle ↔ (s.rule r).active.enabled = false

/-- The queue stands by class and, within a class, by creation, and every report of it was created before the next one
(R156). -/
structure QueueOrdered (u : ReportUnit) : Prop where
  inOrder : u.queue.Pairwise (fun x y => x.before y = true)
  created : ∀ r ∈ u.queue, r.creation < u.nextCreation

/-- A report in transmission that may give way, and would stand in the queue again, has its one place in the queue's order: it
was created before the next one, and no report of its class that is queued has its creation serial (R144, R156). -/
def YieldsInOrder (s : State) : Prop :=
  ∀ t r x, s.link.tx = some t → t.yields = some r → r.seq = none → s.reports.inFlight t.frame.tag = some x →
    r.creation < s.reports.nextCreation ∧ ∀ y ∈ s.reports.queue, y.cls = r.cls → y.creation ≠ r.creation

/-! ## The order of the lists (R5 to R7) -/

/-- Two entries of the time list stand in order by key, an END before a START at equal keys (R5). -/
def TimeEntry.inOrder (a b : TimeEntry) : Prop :=
  if a.key = b.key then a.phase = .finish ∨ b.phase = .start else (b.key - a.key).toNat < 2 ^ 47

/-- Two entries of the travel list stand in order by key (R6). -/
def TravelEntry.inOrder (a b : TravelEntry) : Prop := a.key = b.key ∨ (b.key - a.key).toNat < 2 ^ 31

/-- Both lists stand in the order of their keys, every key held is less than 2^40 ticks, or 2^30 counts, ahead (R5, R6);
with it the bounds that keep it so: an END lies at most a width ahead, a qualification is no older than its filter width,
an action has at most 255 repeats left, and a HOLDING action of base TIME has not fallen far behind its cadence. -/
structure ListsOrdered (s : State) : Prop where
  time : s.sched.timeList.Pairwise TimeEntry.inOrder
  travel : s.sched.travelList.Pairwise TravelEntry.inOrder
  keys : ∀ e ∈ s.sched.timeList, (e.key - s.now).toNat < 2 ^ 40
  ends : ∀ e ∈ s.sched.timeList, e.phase = .finish → (e.key - s.now).toNat < 2 ^ 24
  counts : ∀ e ∈ s.sched.travelList, countAhead s.timebase.travelCount e.key = true
  widths : ∀ l, (s.input l).width ≤ 1023
  qualified : ∀ l q, (s.input l).qual = some q → (s.now - q.rawTick).toNat ≤ (s.input l).width
  repeats : ∀ i a, (s.slot i).action = some a → a.repeatsLeft ≤ 255
  templates : ∀ r, ∀ t ∈ (s.rule r).active.templates ++ (s.rule r).staged.templates, t.repeats ≤ 255
  lag : ∀ i g a finish due, s.slot i = ⟨g, .holding a finish⟩ → a.due = .time due →
    (finish - due).toNat + a.repeatsLeft * 2 ^ 25 ≤ 2 ^ 41

/-- At equal keys, and equal phase, the entries of a list stand by insertion serial (R5, R6). -/
structure SerialsInOrder (s : State) : Prop where
  time : s.sched.timeList.Pairwise
    (fun a b => a.key = b.key → a.phase = b.phase → serialEarlier a.serial b.serial = true)
  travel : s.sched.travelList.Pairwise (fun a b => a.key = b.key → serialEarlier a.serial b.serial = true)

/-- No entry of the lists has stood while nearly 2^31 others joined, the span of the comparison of serials (R7). -/
structure SerialsRecent (s : State) : Prop where
  time : ∀ e ∈ s.sched.timeList,
    0 < (s.sched.nextSerial - e.serial).toNat ∧ (s.sched.nextSerial - e.serial).toNat ≤ 2 ^ 31 - 2 ^ 22
  travel : ∀ e ∈ s.sched.travelList,
    0 < (s.sched.nextSerial - e.serial).toNat ∧ (s.sched.nextSerial - e.serial).toNat ≤ 2 ^ 31 - 2 ^ 22

/-! ## Values after a full reset and RESTART CLEAR (R26, R49, R83, R115, R129, R169, R180) -/

/-- Scheduler, Output Stage, journal, rules, Run Control, Fault Table and the Report Unit's settings hold the values that
the manual's tables give for a full reset and for RESTART CLEAR. -/
structure ResetValues (t : State) : Prop where
  slots : ∀ i, t.slot i = ⟨0, .free⟩
  lists : t.sched.timeList = [] ∧ t.sched.travelList = [] ∧ t.sched.nextSerial = 0
  settings : t.sched.lateTicks = 64 ∧ t.sched.lateCounts = 0 ∧ t.sched.latePolicy = .fire ∧ t.sched.reserve = 8
  outputs : ∀ l, t.output l = ⟨.static, .low, .low, .low, .refuse, [], none, false, none, false, 0, 0, none, false, false⟩
  journal : t.journal = ⟨[], 0, 0, 32, true⟩
  rules : ∀ r, t.rule r =
    ⟨⟨false, 1, .positive, .rising, none, 0, none, .time, [⟨0, 0, 1, 0, none⟩], false, false⟩,
      ⟨false, 1, .positive, .rising, none, 0, none, .time, [⟨0, 0, 1, 0, none⟩], false, false⟩,
      false, .idle, 0, 0, 0, 0, 0, none⟩
  run : t.run = ⟨.standby, 0, none⟩
  faults : ∀ k, t.faultEntry k = ⟨0, none, none, none⟩
  sets : (∀ k, t.isFatal k = true ↔ k = .hostSilent) ∧ ∀ k, t.isReported k = true
  reporting : t.reports.queue = [] ∧ t.reports.retryInterval = 50 ∧ t.reports.maxRetries = 3
  enabled : ∀ k, t.reports.enables k = true

/-! ## Reports with room in the outbox -/

/-- The Report Unit after a report is created with room in the outbox: an enabled report is filed, a kind that is not
enabled leaves it as it is (R156). -/
def ReportUnit.filed (u : ReportUnit) (b : ReportBody) : ReportUnit :=
  if u.enables b.kind then
    { u with queue := fileBy Report.before (newReport b u.nextCreation) u.queue, nextCreation := u.nextCreation + 1 }
  else u

/-- The state after a report is created with room in the outbox. -/
def State.filing (s : State) (b : ReportBody) : State := s.withReports (s.reports.filed b)

/-- The Report Unit after the ACTION_DONE reports of actions of `s` freed one after another are created with room in the
outbox, for those that want one (R13). -/
def ReportUnit.dones (s : State) (e : Ended) (hs : List Handle) (u : ReportUnit) : ReportUnit :=
  hs.foldl (fun v h => match s.actionOf h with
    | some a => if a.reportDone then v.filed (.actionDone h a.origin a.fired a.skipped e) else v
    | none => v) u

/-- Those of a list of actions that want an ACTION_DONE report. -/
def State.wanting (s : State) (hs : List Handle) : List Handle :=
  hs.filter (fun h => (s.actionOf h).any Action.reportDone)

/-- The outbox has room for `n` more reports (R157). -/
def State.hasRoom (s : State) (n : Nat) : Prop := s.reports.outboxCount + n ≤ Config.outboxCap

/-! ## Reception and transmission -/

/-- A character has just been received: the gap timer runs from it (R138). -/
def State.heard (s : State) : State :=
  s.withLink { s.link with lastByteAt := s.clock, byteStarted := false }

/-- The part when so many more bytes have come in, before it acts on them: on an SPI link it has sent as many (R132). -/
def State.past (s : State) (bytes : Nat) : State := broughtIn (8 * bytes) s

/-- On an SPI link, a byte is to begin and the frame in transmission, if there is one, does not complete within so many
bytes (R132). -/
def State.undisturbed (s : State) (bytes : Nat) : Prop :=
  s.link.linkType = .spi → s.link.phase = 0 ∧ ∀ t, s.link.tx = some t → t.sent + 8 * bytes ≤ 8 * (7 + t.frame.payload.length)

/-- Characters as they are received with their stop bits sampled HIGH. -/
def soundly (bytes : List Byte) : List LinkEvent := bytes.map (fun b => .char ⟨b, .high⟩)

/-- The frame in transmission has left the part: the transmitter is idle (R144). -/
def State.sent (s : State) : State := s.withLink { s.link with tx := none }

/-! ## SCHEDULE_PULSE (R17, R18) -/

/-- The base, due mode and due of a SCHEDULE_PULSE resolve to the due point `d`, which is ahead (R17 check 3, R18). -/
def State.resolvesAhead (s : State) (base mode : Byte) (due : BitVec 48) : Due → Prop
  | .time t => base = 0 ∧ ((mode = 0 ∧ t = due ∧ tickAhead s.now t = true)
      ∨ (mode = 1 ∧ 0 < due.toNat ∧ due.toNat < 2 ^ 40 ∧ t = s.now + due))
  | .travel c => base = 1 ∧ s.timebase.source ≠ none
      ∧ ((mode = 0 ∧ due.toNat < 2 ^ 32 ∧ c = due.setWidth 32 ∧ countAhead s.timebase.travelCount c = true)
        ∨ (mode = 1 ∧ 0 < due.toNat ∧ due.toNat < 2 ^ 30 ∧ c = s.timebase.travelCount + due.setWidth 32))

/-- The due point is reached or behind, not out of range (R51, R52). -/
def State.reached (s : State) : Due → Prop
  | .time t => (s.now - t).toNat < 2 ^ 40
  | .travel c => (s.timebase.travelCount - c).toNat < 2 ^ 30

/-- The base, due mode and due of a SCHEDULE_PULSE resolve to the due point `d`, which is reached or behind (R17 check 3,
R18). -/
def State.resolvesReached (s : State) (base mode : Byte) (due : BitVec 48) (d : Due) : Prop :=
  s.reached d ∧ match d with
  | .time t => base = 0 ∧ ((mode = 0 ∧ t = due) ∨ (mode = 1 ∧ due = 0 ∧ t = s.now))
  | .travel c => base = 1 ∧ s.timebase.source ≠ none ∧ due.toNat < 2 ^ 32
      ∧ ((mode = 0 ∧ c = due.setWidth 32) ∨ (mode = 1 ∧ due = 0 ∧ c = s.timebase.travelCount))

/-- The base, due mode and due of a SCHEDULE_PULSE name no due point in range (R18). -/
def State.outOfRange (s : State) (base mode : Byte) (due : BitVec 48) : Prop :=
  (base = 0 ∧ mode = 0 ∧ 2 ^ 40 ≤ (due - s.now).toNat ∧ 2 ^ 40 ≤ (s.now - due).toNat)
  ∨ (base = 0 ∧ mode = 1 ∧ 2 ^ 40 ≤ due.toNat)
  ∨ (base = 1 ∧ mode = 0 ∧ 2 ^ 30 ≤ (due.setWidth 32 - s.timebase.travelCount).toNat
    ∧ 2 ^ 30 ≤ (s.timebase.travelCount - due.setWidth 32).toNat)
  ∨ (base = 1 ∧ mode = 1 ∧ 2 ^ 30 ≤ due.toNat)

/-- The interval of a pulse does not fit its base (R17 check 3). -/
def intervalMisfits (base : Byte) (width : BitVec 24) (repeats : Byte) (interval : BitVec 32) : Prop :=
  (repeats = 0 ∧ interval ≠ 0)
  ∨ (repeats ≠ 0 ∧ (interval = 0 ∨ (base = 0 ∧ interval.toNat ≤ width.toNat) ∨ (base = 1 ∧ 2 ^ 30 ≤ interval.toNat)))

/-- The interval of a pulse fits its base: 0 with no repeats; else above the width for TIME, 1 to 2^30 − 1 for TRAVEL
(R17 check 3). -/
def intervalFits (d : Due) (width : BitVec 24) (repeats : Byte) (interval : BitVec 32) : Prop :=
  (repeats = 0 ∧ interval = 0) ∨ (repeats ≠ 0 ∧ match d with
    | .time _ => width.toNat < interval.toNat
    | .travel _ => 0 < interval.toNat ∧ interval.toNat < 2 ^ 30)

/-- The line of the action a slot holds. -/
def Slot.targets (x : Slot) (l : OutLine) : Bool := x.action.any (fun a => a.line = l)

/-! ## The rule records that EDIT_RULE takes (R90, R183, R184) -/

/-- A template place passes checks 7 and 8 of R90. -/
def templatePasses (base : Byte) (t : RawTemplate) : Prop :=
  t.line.toNat ≤ 11 ∧ t.width ≠ 0 ∧ (t.repeats = 0 → t.interval = 0) ∧ (t.repeats ≠ 0 → t.interval ≠ 0)
    ∧ (base = 1 → t.offset.toNat < 2 ^ 30 ∧ t.interval.toNat < 2 ^ 30)

/-- A record passes checks 2 to 8 of R90, its reserved bytes 0: values in their sets, a match set that can match and can
miss, a gate line of 0xFF with level 0 for no gate, one to four templates, and the places beyond them all zeros. -/
structure RecordPasses (r : RawRule) : Prop where
  flags : r.enabled.toNat ≤ 1 ∧ r.sense.toNat ≤ 1 ∧ r.base.toNat ≤ 1 ∧ r.reportFired.toNat ≤ 1 ∧ r.reportDone.toNat ≤ 1
  edge : 1 ≤ r.edgeKind.toNat ∧ r.edgeKind.toNat ≤ 3
  lines : (r.sense = 0 → r.matchSet ≠ 0) ∧ (r.sense = 1 → r.matchSet ≠ 0xFF)
  gate : (r.gateLine = 0xFF ∧ r.gateLevel = 0) ∨ (r.gateLine.toNat ≤ 7 ∧ r.gateLevel.toNat ≤ 1)
  count : 1 ≤ r.templateCount.toNat ∧ r.templateCount.toNat ≤ 4
  templates : ∀ p ∈ [(0, r.t0), (1, r.t1), (2, r.t2), (3, r.t3)],
    if p.1 < r.templateCount.toNat then templatePasses r.base p.2 else p.2 = ⟨0, 0, 0, 0, 0⟩

/-! ## Accepted edges (R69, R70) -/

/-- An accepted edge of a line, of a kind, with a timestamp, is handed on from `u`, in which the travel count stands as the
edge leaves it, to `w`: an edge that is not selected goes no further; a selected one is offered to the journal when the
line's journal enable is set, and then evaluated against the rules. It is stored with the next serial and the run of edges
lost before it, and JOURNAL_LEVEL is created at an armed watermark; by a full journal it is lost and counted (R70, R75, R76,
R79). -/
structure EdgeHandedOn (l : InLine) (kind : EdgeKind) (ts : Tick) (selected : Prop) (u w : State) : Prop where
  unselected : ¬ selected → w = u
  unjournalled : selected → (u.input l).journalEnable = false → w = evaluateEdge ⟨l, kind, ts, u.timebase.travelCount⟩ u
  stored : selected → (u.input l).journalEnable = true → u.journal.records.length < 64 →
    u.journal.watermarkArmed = false ∨ u.journal.records.length + 1 ≠ u.journal.watermark →
    w = evaluateEdge ⟨l, kind, ts, u.timebase.travelCount⟩ (u.withJournal { u.journal with
      records := u.journal.records ++ [⟨u.journal.nextSerial, l, kind, ts, u.timebase.travelCount,
        if u.journal.lostRun = 0 then none else some u.journal.lostRun⟩]
      nextSerial := u.journal.nextSerial + 1
      lostRun := 0 })
  watermark : selected → (u.input l).journalEnable = true → u.journal.records.length < 64 →
    u.journal.watermarkArmed = true → u.journal.records.length + 1 = u.journal.watermark →
    w = evaluateEdge ⟨l, kind, ts, u.timebase.travelCount⟩ (createReport (.journalLevel u.journal.watermark)
      (u.withJournal { u.journal with
        records := u.journal.records ++ [⟨u.journal.nextSerial, l, kind, ts, u.timebase.travelCount,
          if u.journal.lostRun = 0 then none else some u.journal.lostRun⟩]
        nextSerial := u.journal.nextSerial + 1
        lostRun := 0
        watermarkArmed := false }))
  lost : selected → (u.input l).journalEnable = true → 64 ≤ u.journal.records.length →
    w = evaluateEdge ⟨l, kind, ts, u.timebase.travelCount⟩ (countFault .journalLost (some (.input l))
      (u.withJournal { u.journal with
        lostRun := if u.journal.lostRun < 65535 then u.journal.lostRun + 1 else u.journal.lostRun }))

/-! ## Time -/

/-- Nothing of the time list is due: every key is ahead of now (R8). -/
def State.timeListAhead (s : State) : Prop :=
  ∀ e ∈ s.sched.timeList, tickAhead s.now e.key = true

/-- Nothing of the part's own falls due within the next `n` ticks. -/
def State.quietFor (s : State) (n : Nat) : Prop :=
  ∀ p ∈ agenda s, n ≤ p.1

end Sys2Proof.Machine
end

