-- ==== Sys2Proof/Certificates/Slice0/Obligations.lean ====
section
/-! DEFINITION. The statements for the provers: what the machine does with each family of commands, what its shared
operations do, and the invariants that every step keeps. `restartSilence s` in them is `s` with a running silence timer
started again: every frame that passes the receive checks does that (R125). In a statement about a request or an ACK, `s` is
the part as it stands when the last bit of the frame has come in: on a UART link that is the part as the command finds it; on
an SPI link the part has sent a bit for each bit of the frame before (`State.atLastBit`, R131, R132). Where a request is
answered, a report chosen at that very instant for an idle transmitter has given way and stands in `s` as before
(`giveWay`, R144). -/

open Sys2Proof Sys2Proof.Machine

/-! ## The machine as a whole -/

/-- A step takes the command at the front of the queue and carries it out on the state with the queue's rest. -/
def Obligations.StepTakesFrontCommand : Prop :=
  ∀ (c : Instr) (rest : List Instr) (s : State), s.pending = c :: rest → step s = exec c { s with pending := rest }

/-- On an empty queue, with nothing due, one tick passes; one event that is due is posted as the next command; of several
that are due one is posted. Held in reset nothing happens. (Log entries 3 and 4: the model's choice.) -/
def Obligations.IdleStep : Prop :=
  ∀ s : State, s.pending = [] →
    (s.held = true → step s = .next s)
    ∧ (s.held = false → dueNow s = [] →
        step s = .next { s with timebase := { s.timebase with timeline := s.timebase.timeline + 1 }, clock := s.clock + 1 })
    ∧ (∀ i, s.held = false → dueNow s = [i] → step s = .next { s with pending := [i] })
    ∧ (s.held = false → 2 ≤ (dueNow s).length →
        ∃ i ∈ dueNow s, step s = .next { s with pending := [i], choices := s.choices + 1 })

/-- Every command completes in every state, and leaves the queue and the count of choices alone. The part is held in
reset after RESETN_DRIVEN_LOW, is not after FULL_RESET, and every other command leaves that as it is; while it is held,
the commands other than those two and the raw changes of pins change nothing. (What a held part sees is the model's choice,
log entry 11; so is that FULL_RESET leaves the queue and the count of choices alone, log entry 12.) -/
def Obligations.EveryCommandCompletes : Prop :=
  ∀ (i : Instr) (s : State), ∃ t, exec i s = .next t ∧ t.pending = s.pending ∧ t.choices = s.choices
    ∧ (t.held = match i with
        | .fullReset _ _ => false
        | .resetnDrivenLow => true
        | _ => s.held)
    ∧ (s.held = true → match i with
        | .fullReset _ _ => True
        | .resetnDrivenLow => True
        | .inputRawChange l v => t = s.putInput l { s.input l with raw := v }
        | .syncRawChange v => t = s.withTimebase { s.timebase with syncRaw := v }
        | _ => t = s)

/-! ## Decoding of requests and of frames -/

/-- A request payload written from a command is read back as that command. PING carries at most 16 bytes (R146). -/
def Obligations.DecodeReadsWhatEncodeWrites : Prop :=
  ∀ (i : Instr) (tag : Tag) (p : List Byte), encodeRequest i = some (tag, p) →
    (∀ t d, i = .ping t d → d.length ≤ 16) → decodeRequest tag p = .command i

/-- The characters of a whole, sound request frame, received one by one while the assembler hunts and the arbiter has
nothing to choose, come to the command that the frame carries: its CRC, header and payload pass every receive check. (That
the BAD_FRAME row takes any run of characters at one instant, a sound frame among them, is the model's choice, log
entry 8.) On an SPI link that holds where a byte is to begin and no transmission completes within the frame. -/
def Obligations.RequestFrameRunsItsCommand : Prop :=
  ∀ (i : Instr) (tag : Tag) (p : List Byte) (s : State), encodeRequest i = some (tag, p) →
    (∀ t d, i = .ping t d → d.length ≤ 16) →
    s.held = false → s.link.assembler = .hunting → arbitrate s = s → s.undisturbed (7 + p.length) →
    exec (.badFrame (soundly (Frame.bytes ⟨.request, tag, p⟩))) s = exec i s.heard

/-! ## Invariants -/

/-- Every step keeps the capacities of the window, the recent-responses list, the outbox, the in-flight window and the
journal, and the bounds of the fault entries; and every step keeps the queue of reports standing by class and, within a
class, by creation serial, with a report in transmission that may give way still to have its one place in that order. -/
def Obligations.CapacitiesKept : Prop :=
  (∀ s t : State, Capacities s → step s = .next t → Capacities t)
    ∧ ∀ s t : State, QueueOrdered s.reports → YieldsInOrder s → step s = .next t →
      QueueOrdered t.reports ∧ YieldsInOrder t

/-- Every step keeps SYNC armed only in STANDBY with both lists empty. -/
def Obligations.SyncArmedAtRestKept : Prop :=
  ∀ s t : State, SyncArmedAtRest s → step s = .next t → SyncArmedAtRest t

/-- Every step keeps FAULTED at rest: every slot FREE, both lists and every holder set empty, no train running. -/
def Obligations.FaultedAtRestKept : Prop :=
  ∀ s t : State, FaultedAtRest s → step s = .next t → FaultedAtRest t

/-- Every step keeps the agreement of the two lists with the pool. From a state whose lists, pool and holder sets agree, every
step keeps both lists in the order of their keys, ENDs before STARTs at equal keys, every key less than 2^40 ticks or 2^30
counts ahead; and, no entry having stood while nearly 2^31 others joined and the command at the front being no run of more
than one character or event of the link, in the order of insertion serials at equal keys and equal phase. (That a BAD_FRAME
takes a run of any length, on an SPI link with the completions in it, is the model's choice, log entry 8.) -/
def Obligations.ListsAgreeKept : Prop :=
  (∀ s t : State, ListsAgree s → step s = .next t → ListsAgree t)
    ∧ ∀ s t : State, ListsAgree s → HoldersAgree s → SyncArmedAtRest s → ListsOrdered s → step s = .next t →
      ListsOrdered t ∧ (SerialsRecent s → SerialsInOrder s →
        (∀ received rest, s.pending = .badFrame received :: rest → received.length ≤ 1) → SerialsInOrder t)

/-- Every step keeps the staged copy of a rule that is not dirty equal to its active copy. -/
def Obligations.CleanCopiesKept : Prop :=
  ∀ s t : State, CleanCopies s → step s = .next t → CleanCopies t

/-- Every step keeps the agreement of the holder sets with the pool. Where they agree, a SEQUENCED line outside reset and
FAULTED shows its asserted level exactly when some HOLDING action is on it, and its idle level otherwise. -/
def Obligations.HoldersAgreeKept : Prop :=
  (∀ s t : State, HoldersAgree s → step s = .next t → HoldersAgree t)
    ∧ ∀ (s : State) (l : OutLine), HoldersAgree s → s.held = false → s.run.state ≠ .faulted →
      (s.output l).mode = .sequenced →
      ((∃ h a, s.holdingAction h = some a ∧ a.line = l) → s.pinLevel l = flipLevel (s.output l).idle)
      ∧ ((∀ h a, s.holdingAction h = some a → a.line ≠ l) → s.pinLevel l = (s.output l).idle)

/-- Every step keeps the lines in use SEQUENCED and the IDLE rules those whose active copy is disabled. -/
def Obligations.LinesInUseKept : Prop :=
  ∀ s t : State, LinesInUse s → step s = .next t → LinesInUse t

/-- The state after reset meets every invariant. -/
def Obligations.ResetMeetsInvariants : Prop :=
  Capacities State.reset ∧ SyncArmedAtRest State.reset ∧ FaultedAtRest State.reset ∧ ListsAgree State.reset
    ∧ CleanCopies State.reset ∧ HoldersAgree State.reset ∧ LinesInUse State.reset ∧ QueueOrdered State.reset.reports
    ∧ YieldsInOrder State.reset
    ∧ ListsOrdered State.reset ∧ SerialsInOrder State.reset ∧ SerialsRecent State.reset

/-! ## Reports and faults -/

/-- A report created with room in the outbox: a kind that is not enabled changes nothing; an enabled one joins the queue
with the next creation serial, and the queue stays in its order. Nothing else changes. -/
def Obligations.ReportCreated : Prop :=
  ∀ (b : ReportBody) (s : State), s.hasRoom 1 →
    (s.reports.enables b.kind = false → createReport b s = s)
    ∧ (s.reports.enables b.kind = true → ∃ q,
        createReport b s = s.withReports { s.reports with queue := q, nextCreation := s.reports.nextCreation + 1 }
        ∧ q.Perm (newReport b s.reports.nextCreation :: s.reports.queue)
        ∧ (QueueOrdered s.reports → QueueOrdered (createReport b s).reports))
    ∧ createReport b s = s.filing b

/-- A report created with the outbox full, REPORT_OVERFLOW having been counted before and no fatal entry following: a
class C report is dropped; a class A or B report evicts the oldest queued class C report, or is dropped when none is
queued; and REPORT_OVERFLOW is counted with the kind that was lost. Nothing else changes. (That a dropped report has taken a creation
serial is the model's reading, log entry 17.) -/
def Obligations.ReportOverflow : Prop :=
  ∀ (b : ReportBody) (s : State), s.reports.enables b.kind = true → Config.outboxCap ≤ s.reports.outboxCount →
    0 < (s.faultEntry .reportOverflow).count → (s.run.state.sequencing = false ∨ s.isFatal .reportOverflow = false) →
    (b.kind.cls = .c → createReport b s = recordFault .reportOverflow (some (.report b.kind))
        (s.withReports { s.reports with nextCreation := s.reports.nextCreation + 1 }))
    ∧ (b.kind.cls ≠ .c → (∀ r ∈ s.reports.queue, r.cls ≠ .c) →
        createReport b s = recordFault .reportOverflow (some (.report b.kind))
          (s.withReports { s.reports with nextCreation := s.reports.nextCreation + 1 }))
    ∧ (∀ pre old post, b.kind.cls ≠ .c → s.reports.queue = pre ++ old :: post → (∀ r ∈ pre, r.cls ≠ .c) →
        old.cls = .c → createReport b s = recordFault .reportOverflow (some (.report old.body.kind))
          (s.withReports { s.reports with
            queue := fileBy Report.before (newReport b s.reports.nextCreation) (pre ++ post)
            nextCreation := s.reports.nextCreation + 1 }))

/-- A fault counted with room in the outbox and no fatal entry following: the count increments up to 65535, the first tick
is set at the first counting, the last tick and the detail at each; every other entry stays; a FAULT report is filed when
the count went from 0 to 1 and the kind is in the report set. Nothing else changes. -/
def Obligations.FaultCounted : Prop :=
  ∀ (k : FaultKind) (d : Option FaultDetail) (s : State), s.hasRoom 1 →
    (s.run.state.sequencing = false ∨ s.isFatal k = false) →
    ((countFault k d s).faultEntry k =
        ⟨if (s.faultEntry k).count < 65535 then (s.faultEntry k).count + 1 else (s.faultEntry k).count,
          if (s.faultEntry k).count = 0 then some s.now else (s.faultEntry k).first, some s.now, d⟩)
    ∧ (∀ j, j ≠ k → (countFault k d s).faultEntry j = s.faultEntry j)
    ∧ (countFault k d s).faults.fatal = s.faults.fatal ∧ (countFault k d s).faults.report = s.faults.report
    ∧ countFault k d s = { s with
        faults := (countFault k d s).faults
        reports := if (s.faultEntry k).count = 0 ∧ s.isReported k = true then s.reports.filed (.fault k 1 d)
          else s.reports }

/-! ## Slots and pulses -/

/-- A slot in use is freed with room in the outbox: it becomes FREE with its gen kept and its entry leaves its list;
ACTION_DONE is created when the action wants it; and when that leaves every slot FREE in DRAINING, the run state becomes
STANDBY, the silence timer stops, and RUN_STATE is created after it. A slot that is not in use changes nothing. -/
def Obligations.FreeingASlot : Prop :=
  ∀ (h : Handle) (e : Ended) (a : Action) (s : State), s.hasRoom 2 →
    ((s.slot h.slot).isFree = true ∨ (s.slot h.slot).gen ≠ h.gen → freeSlot h e s = s)
    ∧ (s.actionOf h = some a →
        let done := if a.reportDone then s.reports.filed (.actionDone h a.origin a.fired a.skipped e) else s.reports
        let gone : Scheduler := { s.sched with
          slots := setAt s.sched.slots h.slot ⟨h.gen, .free⟩
          timeList := s.sched.timeList.filter (fun x => x.handle ≠ h)
          travelList := s.sched.travelList.filter (fun x => x.handle ≠ h) }
        ((s.run.state ≠ .draining ∨ ∃ j, j ≠ h.slot ∧ (s.slot j).isFree = false) →
          freeSlot h e s = { s with sched := gone, reports := done })
        ∧ (s.run.state = .draining → (∀ j, j ≠ h.slot → (s.slot j).isFree = true) →
          freeSlot h e s = { s with
            sched := gone
            run := { s.run with state := .standby, silence := none }
            reports := done.filed (.runState .standby .drainComplete 0) }))

/-- A START reaches a line that has holders. Under MERGE it joins them, however many there are. Under REFUSE, COLLISION having
been counted before and not being fatal, it is skipped: COLLISION is reported and counted; with no occurrence left and no
report wanted its slot is freed, and with occurrences left the next one, an interval after this due, joins its list. Under
RETRIGGER the one holder is cut: with no occurrence left and no report wanted it is freed, and with occurrences left its next
one, an interval after its due, joins its list; and the START is accepted. The handles answered are those whose START is
tested next: a TRAVEL one that has just joined, and the holder that was cut. -/
def Obligations.StartMeetsHolder : Prop :=
  ∀ (h : Handle) (a : Sys2Proof.Machine.Action) (tick : Tick) (s : State), s.hasRoom 1 → s.run.state ≠ .draining →
    s.slot h.slot = ⟨h.gen, .waiting a⟩ →
    ((s.output a.line).holders ≠ [] → (s.output a.line).policy = .merge →
      startOnLine h a tick s = (acceptStart h a tick s, []))
    ∧ (∀ b, (s.output a.line).holders = [b] → (s.output a.line).policy = .refuse →
        0 < (s.faultEntry .collision).count → s.isFatal .collision = false →
        let u := recordFault .collision (some (.output a.line)) (s.filing (.collision a.line h b))
        (a.repeatsLeft = 0 → a.reportDone = false → startOnLine h a tick s = (vacate h u, []))
        ∧ (∀ (n : Nat) (interval : BitVec 32), a.repeatsLeft = n + 1 → a.interval = some interval →
          (∀ t, a.due = .time t → startOnLine h a tick s =
            (joinTime h .start (t + interval.setWidth 48) (u.putSlot h.slot ⟨h.gen, .waiting { a with
              skipped := a.skipped + 1, due := .time (t + interval.setWidth 48), repeatsLeft := n }⟩), []))
          ∧ (∀ c, a.due = .travel c → startOnLine h a tick s =
            (joinTravel h (c + interval) (u.putSlot h.slot ⟨h.gen, .waiting { a with
              skipped := a.skipped + 1, due := .travel (c + interval), repeatsLeft := n }⟩), [h]))))
    ∧ (∀ (b : Handle) (x : Sys2Proof.Machine.Action) (finish : Tick), h.slot ≠ b.slot →
        (s.output a.line).holders = [b] → s.slot b.slot = ⟨b.gen, .holding x finish⟩ →
        (s.output a.line).policy = .retrigger →
        (x.repeatsLeft = 0 → x.reportDone = false →
          startOnLine h a tick s = (acceptStart h a tick (vacate b (release a.line b s)), [b]))
        ∧ (∀ (n : Nat) (interval : BitVec 32), x.repeatsLeft = n + 1 → x.interval = some interval →
          let cut := release a.line b (removeEntry b s)
          (∀ t, x.due = .time t → startOnLine h a tick s = (acceptStart h a tick
            (joinTime b .start (t + interval.setWidth 48) (cut.putSlot b.slot ⟨b.gen, .waiting { x with
              due := .time (t + interval.setWidth 48), repeatsLeft := n }⟩)), [b]))
          ∧ (∀ c, x.due = .travel c → startOnLine h a tick s = (acceptStart h a tick
            (joinTravel b (c + interval) (cut.putSlot b.slot ⟨b.gen, .waiting { x with
              due := .travel (c + interval), repeatsLeft := n }⟩)), [b]))))

/-- The lateness test. A due that is ahead waits; one that is reached, or behind by no more than late_ticks or late_counts, is
on time; one behind by more is late by that distance. A START on time reaches the Output Stage. A late START, ACTION_LATE
having been counted before and not being fatal: under FIRE it is reported with its lateness, counted, and taken now on its
idle line; under SKIP the occurrences left that are late too are skipped with it in one run, reported once with their number
and counted once: with every one of them late, and no report wanted, its slot is freed; with `n + 1` left of which the first
`m` are late, and the next is not, that one is filed in the list of its base, the handle of a TRAVEL one being answered for its
START to be tested next. An action that joins its list, nothing else being due: it waits there when its due is ahead; when its
due is reached or behind it is started, or skipped, at this tick in the same ways, and its entry, which has taken an insertion
serial (log entry 18), is gone. -/
def Obligations.LateStart : Prop :=
  let later (a : Sys2Proof.Machine.Action) (j : Nat) : Due := match a.due with
    | .time t => .time (t + BitVec.ofNat 48 j * (a.interval.getD 0).setWidth 48)
    | .travel c => .travel (c + BitVec.ofNat 32 j * a.interval.getD 0)
  (∀ (s : State) (t : Tick),
      (tickAhead s.now t = true → s.lateBy (.time t) = none)
      ∧ ((s.now - t).toNat < 2 ^ 40 → (s.now - t).toNat ≤ s.sched.lateTicks → s.lateBy (.time t) = none)
      ∧ ((s.now - t).toNat < 2 ^ 40 → s.sched.lateTicks < (s.now - t).toNat →
        s.lateBy (.time t) = some (s.now - t).toNat))
  ∧ (∀ (s : State) (c : Count),
      (countAhead s.timebase.travelCount c = true → s.lateBy (.travel c) = none)
      ∧ ((s.timebase.travelCount - c).toNat < 2 ^ 30 → (s.timebase.travelCount - c).toNat ≤ s.sched.lateCounts →
        s.lateBy (.travel c) = none)
      ∧ ((s.timebase.travelCount - c).toNat < 2 ^ 30 → s.sched.lateCounts < (s.timebase.travelCount - c).toNat →
        s.lateBy (.travel c) = some (s.timebase.travelCount - c).toNat))
  ∧ (∀ (h : Handle) (a : Sys2Proof.Machine.Action) (tick : Tick) (s : State), s.slot h.slot = ⟨h.gen, .waiting a⟩ →
      s.lateBy a.due = none → startAction h tick s = startOnLine h a tick s)
  ∧ (∀ (h : Handle) (a : Sys2Proof.Machine.Action) (lateness : Nat) (tick : Tick) (s : State), s.hasRoom 1 →
      s.run.state ≠ .draining → s.slot h.slot = ⟨h.gen, .waiting a⟩ → s.lateBy a.due = some lateness →
      0 < (s.faultEntry .actionLate).count → s.isFatal .actionLate = false →
      (s.sched.latePolicy = .fire → (s.output a.line).holders = [] →
        startAction h tick s = (acceptStart h a s.now (recordFault .actionLate (some (.handle h))
          (s.filing (.late h a.due.base lateness none))), []))
      ∧ (s.sched.latePolicy = .skip → a.reportDone = false →
          (∀ j, 0 < j → j ≤ a.repeatsLeft → (s.lateBy (later a j)).isSome) →
          startAction h tick s = (vacate h (recordFault .actionLate (some (.handle h))
            (s.filing (.late h a.due.base lateness (some (a.repeatsLeft + 1))))), []))
      ∧ (∀ m n : Nat, s.sched.latePolicy = .skip → a.repeatsLeft = n + 1 → m ≤ n →
          (∀ j, 0 < j → j ≤ m → (s.lateBy (later a j)).isSome) → s.lateBy (later a (m + 1)) = none →
          let u := recordFault .actionLate (some (.handle h)) ((setWaiting h { a with
            skipped := a.skipped + (m + 1), due := later a (m + 1), repeatsLeft := n - m } s).filing
              (.late h a.due.base lateness (some (m + 1))))
          startAction h tick s = match later a (m + 1) with
            | .time t => (joinTime h .start t u, [])
            | .travel c => (joinTravel h c u, [h])))
  ∧ ∀ (h : Handle) (a : Sys2Proof.Machine.Action) (s : State), s.slot h.slot = ⟨h.gen, .waiting a⟩ → a.width ≠ 0 →
      s.timeListAhead → h ∉ s.listedHandles →
      let joined := s.withSched { s.sched with nextSerial := s.sched.nextSerial + 1 }
      (∀ t, a.due = .time t → tickAhead s.now t = true → joinAction h s = joinTime h .start t s)
      ∧ (∀ c, a.due = .travel c → countAhead s.timebase.travelCount c = true → joinAction h s = joinTravel h c s)
      ∧ (s.reached a.due → s.lateBy a.due = none → (s.output a.line).holders = [] →
        joinAction h s = acceptStart h a s.now joined)
      ∧ (∀ lateness, s.reached a.due → s.lateBy a.due = some lateness → s.hasRoom 1 → s.run.state ≠ .draining →
        0 < (s.faultEntry .actionLate).count → s.isFatal .actionLate = false →
        (s.sched.latePolicy = .fire → (s.output a.line).holders = [] →
          joinAction h s = acceptStart h a s.now (recordFault .actionLate (some (.handle h))
            (joined.filing (.late h a.due.base lateness none))))
        ∧ (s.sched.latePolicy = .skip → a.reportDone = false →
          (∀ j, 0 < j → j ≤ a.repeatsLeft → (s.lateBy (later a j)).isSome) →
          joinAction h s = vacate h (recordFault .actionLate (some (.handle h))
            (joined.filing (.late h a.due.base lateness (some (a.repeatsLeft + 1))))))
        ∧ (∀ m n : Nat, s.sched.latePolicy = .skip → a.repeatsLeft = n + 1 → m ≤ n →
          (∀ j, 0 < j → j ≤ m → (s.lateBy (later a j)).isSome) → s.dueAhead (later a (m + 1)) = true →
          let u := recordFault .actionLate (some (.handle h)) ((setWaiting h { a with
            skipped := a.skipped + (m + 1), due := later a (m + 1), repeatsLeft := n - m } joined).filing
              (.late h a.due.base lateness (some (m + 1))))
          joinAction h s = match later a (m + 1) with
            | .time t => joinTime h .start t u
            | .travel c => joinTravel h c u))

/-! ## The Host Link at work -/

/-- A request that is not put into the window as a new entry. Its tag, not 0, is in the window: it is dropped and nothing is
counted. Else the window is full, or a RESTART awaits its response: it is dropped and INBOUND_OVERFLOW is counted. Else a
stored response has its tag, not 0, and its code: that response joins the window to be sent again, and the request is not
taken. In each case the frame has been heard, and the arbiter chooses if the transmitter is idle. -/
def Obligations.RequestsNotAdmitted : Prop :=
  ∀ (i : Instr) (tag : Tag) (p : List Byte) (s : State), encodeRequest i = some (tag, p) → s.held = false →
    (tag ≠ 0 → (∃ e ∈ s.link.window, e.tag = tag) → Arrives i s (arbitrate (frameArrived s)))
    ∧ ((tag = 0 ∨ ∀ e ∈ s.link.window, e.tag ≠ tag) → (s.link.restarting = true ∨ 4 ≤ s.link.window.length) →
        Arrives i s (arbitrate (countFault .inboundOverflow none (frameArrived s))))
    ∧ (∀ pre e post, tag ≠ 0 → (∀ e ∈ s.link.window, e.tag ≠ tag) → s.link.restarting = false →
        s.link.window.length < 4 → s.link.recent = pre ++ e :: post → (∀ x ∈ pre, x.tag ≠ tag) → e.tag = tag →
        e.code = p.head? →
        Completes i s (arbitrate ((frameArrived s).withLink { (frameArrived s).link with
          window := s.link.window ++ [⟨tag, p.head?, .replayed, e.response, .nothing, true⟩] })))

/-- The transmit arbiter. A busy transmitter is left alone. An idle one takes the oldest response that is ready; else the
due retry whose interval expired first, with its retry count up by one and URGENT set, of those that expire at one instant
the oldest of the in-flight window, whichever expiry has come about before; else the head of the queue while
fewer than four reports are in flight, with the next sequence number and the max retries in force; else nothing. A response and
a report that become ready at one instant, the transmitter idle: what a request that enters the window comes to is the same
where the report is chosen just before it, and stands again where it stood, and where it is not. A frame that was chosen at a
completion, or before this instant, or of which a bit has gone, does not give way. A report's frame carries its sequence
number, its kind, the retry count in bits 0 to 3 of the flags and URGENT in bit 7, and the body of its kind, field by field.
(That what a report gives way to finds the report where it stood is the model's reading, log entry 30.) -/
def Obligations.ArbiterOrder : Prop :=
  (∀ s : State,
    (s.link.tx.isSome → arbitrate s = s)
    ∧ (∀ pre e post, s.link.tx = none → s.link.window = pre ++ e :: post → (∀ x ∈ pre, x.state = .sending) →
        e.state ≠ .sending → arbitrate s = s.withLink { s.link with
          window := pre ++ { e with state := .sending } :: post
          tx := some ⟨⟨.response, e.tag, e.response⟩, s.clock, 0, none⟩ })
    ∧ (∀ pre r post n, s.link.tx = none → (∀ e ∈ s.link.window, e.state = .sending) →
        s.reports.flight = pre ++ r :: post →
        ((r.state = .retryDue n
            ∧ (n = s.clock → ∀ x ∈ pre, ∀ since ms limit, x.state = .awaiting since ms → x.retryLimit = some limit →
              s.clock - since < ms * 50000 ∨ limit ≤ x.retryCount))
          ∨ (n = s.clock ∧ (∃ since ms limit, r.state = .awaiting since ms ∧ r.retryLimit = some limit
              ∧ ms * 50000 ≤ s.clock - since ∧ r.retryCount < limit)
            ∧ (∃ y ∈ post, y.state = .retryDue s.clock)
            ∧ ∀ x ∈ pre, ∀ since ms limit, x.state = .awaiting since ms → x.retryLimit = some limit →
              s.clock - since < ms * 50000 ∨ limit ≤ x.retryCount)) →
        (∀ x ∈ pre, ∀ m, x.state = .retryDue m → n < m) → (∀ x ∈ post, ∀ m, x.state = .retryDue m → n ≤ m) →
        arbitrate s = { s with
          link := { s.link with
            tx := some ⟨reportFrame { r with retryCount := r.retryCount + 1, state := .sending } true, s.clock, 0, some r⟩ }
          reports := { s.reports with flight := s.reports.flight.map (fun x =>
            if x.seq = r.seq then { r with retryCount := r.retryCount + 1, state := .sending } else x) } })
    ∧ (∀ r rest, s.link.tx = none → (∀ e ∈ s.link.window, e.state = .sending) →
        (∀ x ∈ s.reports.flight, ∀ m, x.state ≠ .retryDue m) → s.reports.queue = r :: rest →
        s.reports.flight.length < 4 →
        let sent : Report := { r with
          state := .sending, seq := some s.reports.nextSeq, retryCount := 0, retryLimit := some s.reports.maxRetries }
        arbitrate s = { s with
          link := { s.link with tx := some ⟨reportFrame sent false, s.clock, 0, some r⟩ }
          reports := { s.reports with
            queue := rest
            flight := s.reports.flight ++ [sent]
            nextSeq := if s.reports.nextSeq = 65535 then 1 else s.reports.nextSeq + 1 } })
    ∧ (s.link.tx = none → (∀ e ∈ s.link.window, e.state = .sending) →
        (∀ x ∈ s.reports.flight, ∀ m, x.state ≠ .retryDue m) → s.reports.queue = [] ∨ 4 ≤ s.reports.flight.length →
        arbitrate s = s)
    ∧ (s.link.tx = none → (∀ e ∈ s.link.window, e.state = .sending) → QueueOrdered s.reports →
        (s.reports.flight.map Report.seq).Nodup → (∀ x ∈ s.reports.flight, x.seq ≠ none ∧ x.seq ≠ some s.reports.nextSeq) →
        (∀ r ∈ s.reports.queue, r.seq = none) →
        giveWay (arbitrate s) = s
        ∧ ∀ (i : Instr) (tag : Tag) (p : List Byte) (s0 s1 : State), encodeRequest i = some (tag, p) → s.held = false →
          (tag = 0 ∨ ∀ e ∈ s.link.window, e.tag ≠ tag) → s.link.restarting = false → s.link.window.length < 4 →
          s0.atLastBit i = s → s1.atLastBit i = arbitrate s → exec i s1 = exec i s0)
    ∧ (∀ t, s.link.tx = some t → t.yields = none ∨ t.startedAt ≠ s.clock ∨ t.sent ≠ 0 → giveWay s = s))
  ∧ ∀ (r : Report) (q : Seq) (urgent : Bool), r.seq = some q → r.retryCount ≤ 15 →
    let number (n : Nat) : Byte := BitVec.ofNat 8 n
    let handle (h : Handle) : List Byte := [number h.slot.val, h.gen]
    let faultCode (k : FaultKind) : Byte := match k with
      | .frameCrc => 0 | .frameMalformed => 1 | .inboundOverflow => 2 | .ackUnknown => 3 | .reportExpired => 4
      | .reportOverflow => 5 | .journalLost => 6 | .poolExhausted => 7 | .actionLate => 8 | .collision => 9
      | .hostSilent => 10
    let kindCode (k : ReportKind) : Byte := match k with
      | .resetDone => 0x01 | .runState => 0x02 | .fault => 0x03 | .firingDropped => 0x10 | .collision => 0x11
      | .late => 0x12 | .ruleSpent => 0x13 | .syncSeen => 0x14 | .fired => 0x20 | .actionDone => 0x21
      | .journalLevel => 0x22 | .trainDone => 0x23
    reportFrame r urgent = ⟨.report, q, kindCode r.body.kind :: number (r.retryCount + if urgent then 128 else 0)
      :: match r.body with
        | .resetDone cause => [match cause with
            | .power => 0
            | .resetLine => 1
            | .restartKeep => 2
            | .restartClear => 3]
        | .runState state cause discarded => (match state with
            | .standby => 0
            | .armed => 1
            | .draining => 2
            | .faulted => 3)
          :: (match cause with
            | .request => [0, 0xFF]
            | .drainComplete => [1, 0xFF]
            | .fatal k => [2, faultCode k]) ++ [number discarded]
        | .fault k count detail => faultCode k :: leBytes 2 count ++ match detail with
            | none => [0, 0, 0]
            | some (.sequence n) => leBytes 2 n.toNat ++ [0]
            | some (.expired n x) => leBytes 2 n.toNat ++ [kindCode x]
            | some (.report x) => [kindCode x, 0, 0]
            | some (.input l) => [number l.val, 0, 0]
            | some (.hostOrigin tag) => 0 :: leBytes 2 tag.toNat
            | some (.ruleOrigin n) => [1, number n.val, 0]
            | some (.handle h) => handle h ++ [0]
            | some (.output l) => [number l.val, 0, 0]
        | .firingDropped rule line timestamp asked free =>
          [number rule.val, number line.val] ++ leBytes 6 timestamp.toNat ++ [number asked, number free]
        | .collision line refused owner => number line.val :: handle refused ++ handle owner
        | .late h base lateness skipped => handle h ++ [if base = .time then 0 else 1] ++ leBytes 6 lateness
          ++ match skipped with
            | none => [0, 0]
            | some n => [1, number (n - 1)]
        | .ruleSpent rule generation => number rule.val :: leBytes 2 generation.toNat
        | .syncSeen timestamp interval loaded => leBytes 6 timestamp.toNat
          ++ [(if interval.isSome then 1 else 0) + if loaded then 2 else 0]
          ++ match interval with
            | none => [0, 0, 0, 0, 0, 0]
            | some n => leBytes 6 n.toNat
        | .fired rule generation serial line timestamp handles => [number rule.val] ++ leBytes 2 generation.toNat
          ++ leBytes 4 serial ++ [number line.val] ++ leBytes 6 timestamp.toNat ++ [number handles.length]
          ++ handles.flatMap handle
        | .actionDone h origin fired skipped ended => handle h ++ (match origin with
            | .host tag => [0] ++ leBytes 2 tag.toNat ++ [0, 0, 0, 0, 0]
            | .rule n generation serial => [1, number n.val] ++ leBytes 2 generation.toNat ++ leBytes 4 serial)
          ++ leBytes 2 fired ++ leBytes 2 skipped ++ [match ended with
            | .complete => 0
            | .completeEarly => 1
            | .cancelled => 2
            | .flushed => 3]
        | .journalLevel fill => [number fill]
        | .trainDone line periods => number line.val :: leBytes 4 periods⟩

/-! ## Requests of the Host Link -/

/-- PING is answered OK with the 0 to 16 bytes it carried, and BAD_LENGTH with more; it acts on no state. -/
def Obligations.PingEchoes : Prop :=
  ∀ (s : State) (tag : Tag) (data : List Byte), s.admits tag (some 0x01) = true →
    (data.length ≤ 16 →
      Answers (.ping tag data) tag (some 0x01) (0x01 :: 0x00 :: data) .nothing s (restartSilence s))
    ∧ (16 < data.length → Answers (.ping tag data) tag (some 0x01) [0x01, 0x01] .nothing s (restartSilence s))

/-- GET_IDENTITY is answered with vendor code 0x0F2A, part code 0x0812, revision A, 96 slots, 16 rules, 4 templates, 64
journal records, 32 outbox entries, 4 in flight, 12 outputs and 8 inputs, in every state. -/
def Obligations.GetIdentityAnswers : Prop :=
  ∀ (s : State) (tag : Tag), s.admits tag (some 0x02) = true →
    Answers (.getIdentity tag) tag (some 0x02)
      [0x02, 0x00, 0x2A, 0x0F, 0x12, 0x08, 0x41, 96, 16, 4, 64, 32, 4, 12, 8] .nothing s (restartSilence s)

/-- SET_LINK_RATE on a UART link with one of the five rates is answered OK with the rate, which changes when that response
completes; with another rate, or on an SPI link, it is answered BAD_VALUE. The rate in force does not change yet. -/
def Obligations.SetLinkRateAnswers : Prop :=
  ∀ (s : State) (tag : Tag) (rate : BitVec 32), s.admits tag (some 0x03) = true →
    (∀ r : LinkRate, s.link.linkType = .uart → rate.toNat = r.baud →
      Answers (.setLinkRate tag rate) tag (some 0x03) (0x03 :: 0x00 :: leBytes 4 rate.toNat) (.changeRate r) s
        (restartSilence s))
    ∧ ((s.link.linkType = .spi ∨ ∀ r : LinkRate, rate.toNat ≠ r.baud) →
      Answers (.setLinkRate tag rate) tag (some 0x03) [0x03, 0x03] .nothing s (restartSilence s))

/-- A request given by its payload: an empty one is answered BAD_LENGTH with echo 0, one of no request code BAD_CODE, one
of a wrong length BAD_LENGTH, each with nothing changed; DISARM, RESTART, CANCEL_ACTION, CANCEL_LINE and TRAIN_STOP with a
mode byte outside the two are answered BAD_VALUE with nothing changed; one that is the payload of a command is that command.
(That this row also stands for the payloads of the last two kinds is the model's reading, log entry 7.) -/
def Obligations.UnknownRequestAnswers : Prop :=
  ∀ (s : State) (tag : Tag),
    (s.admits tag none = true →
      Answers (.unknownRequest tag []) tag none [0x00, 0x01] .nothing s (restartSilence s))
    ∧ (∀ (b : Byte) (rest : List Byte), s.admits tag (some b) = true → (∀ c : Code, c.byte ≠ b) →
      Answers (.unknownRequest tag (b :: rest)) tag (some b) [b, 0x02] .nothing s (restartSilence s))
    ∧ (∀ (c : Code) (rest : List Byte), s.admits tag (some c.byte) = true →
      rest.length + 1 < c.lengths.1 ∨ c.lengths.2 < rest.length + 1 →
      Answers (.unknownRequest tag (c.byte :: rest)) tag (some c.byte) [c.byte, 0x01] .nothing s (restartSilence s))
    ∧ (∀ (m x : Byte) (gen : Gen), 1 < m.toNat →
      ∀ p ∈ [[0x11, m], [0x15, m], [0x21, x, gen, m], [0x22, x, m], [0x34, x, m]], ∀ b, p.head? = some b →
        s.admits tag (some b) = true →
        Answers (.unknownRequest tag p) tag (some b) [b, 0x03] .nothing s (restartSilence s))
    ∧ (∀ (i : Instr) (p : List Byte), encodeRequest i = some (tag, p) → (∀ t d, i = .ping t d → d.length ≤ 16) →
      exec (.unknownRequest tag p) s = exec i s)

/-! ## Run Control -/

/-- ARM and DISARM WAIT, with room for the RUN_STATE report. ARM in STANDBY with SYNC not armed: the part is ARMED, every
rule's last firing is absent, the silence timer starts when there is a limit, RUN_STATE is filed. DISARM WAIT in ARMED: the
part goes to DRAINING, or to STANDBY with the silence timer stopped when no slot is in use, and RUN_STATE is filed. In the
other run states they change nothing, and are answered OK or STATE as their tables say. -/
def Obligations.ArmAndDisarmWait : Prop :=
  ∀ (s : State) (tag : Tag),
    (s.admits tag (some 0x10) = true →
      (s.run.state = .standby → s.syncArmed = false → s.hasRoom 1 →
        Answers (.arm tag) tag (some 0x10) [0x10, 0x00, 1] .nothing s { s with
          rules := tabulate (fun r => { s.rule r with lastFiring := none })
          run := ⟨.armed, s.run.silenceLimit, if 0 < s.run.silenceLimit then some s.clock else none⟩
          reports := s.reports.filed (.runState .armed .request 0) })
      ∧ (s.run.state = .armed →
        Answers (.arm tag) tag (some 0x10) [0x10, 0x00, 1] .nothing s (restartSilence s))
      ∧ (s.run.state = .draining ∨ s.run.state = .faulted ∨ (s.run.state = .standby ∧ s.syncArmed = true) →
        Answers (.arm tag) tag (some 0x10) [0x10, 0x04] .nothing s (restartSilence s)))
    ∧ (s.admits tag (some 0x11) = true →
      (s.run.state = .armed → s.freeCount = 96 → s.hasRoom 1 →
        Answers (.disarmWait tag) tag (some 0x11) [0x11, 0x00, 0, 0] .nothing s { s with
          run := ⟨.standby, s.run.silenceLimit, none⟩
          reports := s.reports.filed (.runState .standby .request 0) })
      ∧ (s.run.state = .armed → s.freeCount < 96 → s.hasRoom 1 →
        Answers (.disarmWait tag) tag (some 0x11) [0x11, 0x00, 2, BitVec.ofNat 8 (96 - s.freeCount)] .nothing s { s with
          run := { (restartSilence s).run with state := .draining }
          reports := s.reports.filed (.runState .draining .request 0) })
      ∧ (s.run.state = .draining →
        Answers (.disarmWait tag) tag (some 0x11) [0x11, 0x00, 2, BitVec.ofNat 8 (96 - s.freeCount)] .nothing s
          (restartSilence s))
      ∧ (s.run.state = .standby →
        Answers (.disarmWait tag) tag (some 0x11) [0x11, 0x00, 0, BitVec.ofNat 8 (96 - s.freeCount)] .nothing s s)
      ∧ (s.run.state = .faulted → Answers (.disarmWait tag) tag (some 0x11) [0x11, 0x04] .nothing s s))

/-- DISARM FLUSH in ARMED or DRAINING, the lists agreeing with the pool: the part is in STANDBY with the silence timer
stopped, every slot is FREE with its gen kept, both lists and every holder set are empty, and the answer holds the number
freed. Insertion serial, tolerances, late policy, host reserve, trains, the other fields of every output record, the fatal and
the report set and the silence limit stay; beyond these only reports are created, and with them REPORT_OVERFLOW may be
counted. With room for them, the reports are ACTION_DONE for each action that wants it, in the order of the lists, the time
list first, then RUN_STATE; and no fault is counted. In STANDBY it changes nothing; in FAULTED it is refused STATE. -/
def Obligations.DisarmFlush : Prop :=
  ∀ (s : State) (tag : Tag), s.admits tag (some 0x11) = true →
    (s.run.state = .armed ∨ s.run.state = .draining → ListsAgree s → ∃ t,
      Completes (.disarmFlush tag) s t
      ∧ Answered tag (some 0x11) [0x11, 0x00, 0, BitVec.ofNat 8 (96 - s.freeCount)] .nothing s t
      ∧ t.run = ⟨.standby, s.run.silenceLimit, none⟩
      ∧ t.sched = { s.sched with
          slots := tabulate (fun i => ⟨(s.slot i).gen, .free⟩), timeList := [], travelList := [] }
      ∧ (∀ l, t.output l = { s.output l with holders := [] })
      ∧ t.faults.fatal = s.faults.fatal ∧ t.faults.report = s.faults.report
      ∧ (∀ k, k ≠ .reportOverflow → t.faultEntry k = s.faultEntry k)
      ∧ OnlyWork s { t with link := s.link }
      ∧ (s.hasRoom ((s.wanting s.listedHandles).length + 1) →
          t.reports = (s.reports.dones s .flushed s.listedHandles).filed (.runState .standby .request (96 - s.freeCount))
          ∧ t.faults = s.faults))
    ∧ (s.run.state = .standby → Answers (.disarmFlush tag) tag (some 0x11) [0x11, 0x00, 0, 0] .nothing s s)
    ∧ (s.run.state = .faulted → Answers (.disarmFlush tag) tag (some 0x11) [0x11, 0x04] .nothing s s)

/-- RECOVER in FAULTED: the part is in STANDBY, RUN_STATE is filed, nothing else changes, the Fault Table among it; and
every pin is at its resting level. In every other run state it is refused STATE. -/
def Obligations.RecoverReturnsToStandby : Prop :=
  ∀ (s : State) (tag : Tag), s.admits tag (some 0x12) = true →
    (s.run.state = .faulted → s.hasRoom 1 →
      Answers (.recover tag) tag (some 0x12) [0x12, 0x00, 0] .nothing s { s with
        run := { s.run with state := .standby }
        reports := s.reports.filed (.runState .standby .request 0) })
    ∧ (s.run.state = .faulted → FaultedAtRest s → s.hasRoom 1 → ∃ t, Completes (.recover tag) s t
        ∧ ∀ l, t.pinLevel l = match (s.output l).mode with
          | .static => (s.output l).setLevel
          | _ => (s.output l).idle)
    ∧ (s.run.state ≠ .faulted → Answers (.recover tag) tag (some 0x12) [0x12, 0x04] .nothing s (restartSilence s))

/-- GET_STATUS is answered with the run state, the FREE slots, the entries of both lists, the journal fill, the outbox and
in-flight counts, the set of fault kinds counted, SYNC armed, silence timer running, and the silence limit. -/
def Obligations.GetStatusReads : Prop :=
  ∀ (s : State) (tag : Tag) (kinds : BitVec 16), s.admits tag (some 0x13) = true → kinds.toNat < 2 ^ 11 →
    (∀ k : FaultKind, kinds.getLsbD k.code.val = decide (0 < (s.faultEntry k).count)) →
    Answers (.getStatus tag) tag (some 0x13)
      ([0x13, 0x00, runStateByte s.run.state, BitVec.ofNat 8 s.freeCount, BitVec.ofNat 8 s.sched.timeList.length,
        BitVec.ofNat 8 s.sched.travelList.length, BitVec.ofNat 8 s.journal.records.length,
        BitVec.ofNat 8 (s.reports.queue.length + s.reports.flight.length), BitVec.ofNat 8 s.reports.flight.length]
        ++ leBytes 2 kinds.toNat ++ [(if s.syncArmed then 1 else 0)
          + (if (restartSilence s).run.silence.isSome then 2 else 0)] ++ leBytes 2 s.run.silenceLimit)
      .nothing s (restartSilence s)

/-- RESTART, in every run state: every block takes its restart values within the event, KEEP with its settings kept and
CLEAR with all of them at their full-reset values; the timeline and what time it measures go on under KEEP and start at 0
under CLEAR. Of the window only a response in transmission stays, not to be recorded, with the RESTART's own response
behind it, at whose completion RESET_DONE is due; the list of stored responses is empty; link type and rate stay. (That a
qualification restarted with a filter width of 0, as it always is under CLEAR, is left in progress and due at once is the
model's reading, log entry 21.) -/
def Obligations.RestartBothModes : Prop :=
  ∀ (s : State) (tag : Tag), s.admits tag (some 0x15) = true →
    (∃ t, Completes (.restartKeep tag) s t
      ∧ t.run = ⟨.standby, s.run.silenceLimit, none⟩
      ∧ t.sched = { s.sched with
          slots := tabulate (fun i => ⟨(s.slot i).gen, .free⟩), timeList := [], travelList := [], nextSerial := 0 }
      ∧ (∀ l, t.output l = { s.output l with
          holders := [], running := false, burst := 0, periodsCompleted := 0, periodStart := none, stopAtEnd := false,
          inHigh := false })
      ∧ t.timebase = { s.timebase with
          preset := none, lastSync := none
          syncQual := if s.timebase.syncRaw = s.timebase.syncFiltered then none else some ⟨s.now, s.timebase.syncRaw⟩ }
      ∧ (∀ l, t.input l = { s.input l with
          qual := if (s.input l).raw = (s.input l).filtered then none else some ⟨s.now, (s.input l).raw⟩, glitches := 0 })
      ∧ t.journal = ⟨[], 0, 0, s.journal.watermark, true⟩
      ∧ (∀ r, t.rule r = { s.rule r with
          state := if (s.rule r).active.enabled then .listening else .idle
          fired := 0, suppressed := 0, gated := 0, dropped := 0, lastFiring := none })
      ∧ t.reports = { s.reports with queue := [], flight := [], nextSeq := 1, nextCreation := 0 }
      ∧ t.faults.fatal = s.faults.fatal ∧ t.faults.report = s.faults.report
      ∧ (∀ k, t.faultEntry k = ⟨0, none, none, none⟩)
      ∧ t.link.recent = [] ∧ t.link.linkType = s.link.linkType ∧ t.link.rate = s.link.rate
      ∧ t.link.window.map WindowEntry.content =
          ((s.link.window.filter (fun e => e.state = .sending)).map (fun e => { e.content with record := false }))
            ++ [answeredEntry tag (some 0x15) [0x15, 0x00, 0] (.restarted .keep)]
      ∧ (s.link.tx.isSome → t.link.tx = s.link.tx)
      ∧ (s.link.tx = none → t.link.tx = some ⟨⟨.response, tag, [0x15, 0x00, 0]⟩, s.clock, 0, none⟩)
      ∧ t.clock = s.clock ∧ t.held = s.held)
    ∧ (∃ t, Completes (.restartClear tag) s t
      ∧ ResetValues t ∧ t.reports.flight = [] ∧ t.reports.nextSeq = 1 ∧ t.reports.nextCreation = 0
      ∧ t.timebase = ⟨0, 0, none, 0, false, s.timebase.syncRaw, s.timebase.syncSampledAt, s.timebase.syncFiltered,
          if s.timebase.syncRaw = s.timebase.syncFiltered then none else some ⟨0, s.timebase.syncRaw⟩, none, none⟩
      ∧ (∀ l, t.input l = ⟨.none, 0, false, (s.input l).raw, (s.input l).sampledAt, (s.input l).filtered,
          if (s.input l).raw = (s.input l).filtered then none else some ⟨0, (s.input l).raw⟩, 0⟩)
      ∧ t.link.recent = [] ∧ t.link.linkType = s.link.linkType ∧ t.link.rate = s.link.rate
      ∧ t.link.window.map WindowEntry.content =
          ((s.link.window.filter (fun e => e.state = .sending)).map (fun e => { e.content with record := false }))
            ++ [answeredEntry tag (some 0x15) [0x15, 0x00, 1] (.restarted .clear)]
      ∧ (s.link.tx.isSome → t.link.tx = s.link.tx)
      ∧ (s.link.tx = none → t.link.tx = some ⟨⟨.response, tag, [0x15, 0x00, 1]⟩, s.clock, 0, none⟩)
      ∧ t.clock = s.clock ∧ t.held = s.held)

/-! ## Requests of the Action Scheduler -/

/-- SCHEDULE_PULSE in STANDBY or ARMED with SYNC not armed and its values good: the lowest FREE slot takes the action with its
gen incremented, and the answer is OK with the handle and the due. Its due ahead and nothing of the time list being due, its
START entry joins the list of its base with the next insertion serial. Its due reached or behind, it joins and is tested for
lateness at this tick, as LateStart says of an action that joins. Nothing else changes. -/
def Obligations.SchedulePulseFiled : Prop :=
  ∀ (s : State) (tag : Tag) (l : OutLine) (base mode : Byte) (due : BitVec 48) (width : BitVec 24) (repeats : Byte)
    (interval : BitVec 32) (done : Byte) (wanted : Bool) (d : Due) (i : SlotNo),
    s.admits tag (some 0x20) = true → s.run.state = .standby ∨ s.run.state = .armed → s.syncArmed = false →
    (s.output l).mode = .sequenced → width ≠ 0 → intervalFits d width repeats interval →
    (done = 0 ∧ wanted = false ∨ done = 1 ∧ wanted = true) →
    (s.slot i).isFree = true → (∀ j, j < i → (s.slot j).isFree = false) →
    let gen := (s.slot i).gen + 1
    let a : Sys2Proof.Machine.Action := ⟨.host tag, l, d, width, repeats.toNat,
      if repeats = 0 then none else some interval, 0, 0, wanted, false⟩
    let c : Instr := .schedulePulse tag (BitVec.ofNat 8 l.val) base mode due width repeats interval done
    let answer : List Byte := [0x20, 0x00, BitVec.ofNat 8 i.val, gen] ++ (match d with
        | .time t => leBytes 6 t.toNat
        | .travel c => leBytes 6 c.toNat)
    (s.resolvesAhead base mode due d → s.timeListAhead →
      Answers c tag (some 0x20) answer .nothing s { restartSilence s with sched := { s.sched with
        slots := setAt s.sched.slots i ⟨gen, .waiting a⟩
        timeList := match d with
          | .time t => fileBy TimeEntry.before ⟨⟨i, gen⟩, .start, t, s.sched.nextSerial⟩ s.sched.timeList
          | .travel _ => s.sched.timeList
        travelList := match d with
          | .time _ => s.sched.travelList
          | .travel c => fileBy TravelEntry.before ⟨⟨i, gen⟩, c, s.sched.nextSerial⟩ s.sched.travelList
        nextSerial := s.sched.nextSerial + 1 } })
    ∧ (s.resolvesReached base mode due d →
      Answers c tag (some 0x20) answer .nothing s
        (joinAction ⟨i, gen⟩ ((restartSilence s).putSlot i ⟨gen, .waiting a⟩)))

/-- SCHEDULE_PULSE refused, the first failure being the answer: STATE in FAULTED, in DRAINING or while SYNC is armed; then
BAD_VALUE for a line above 11, or reserved bytes of a TRAVEL due that are not 0; LINE_MODE for a line that is not SEQUENCED;
BAD_VALUE for a base, due mode or report done above 1, a width of 0, an interval that does not fit, TRAVEL with no travel
source, or a due out of range; and with every value good and no FREE slot NO_SLOT, with POOL_EXHAUSTED counted. Otherwise
nothing changes. -/
def Obligations.SchedulePulseRefused : Prop :=
  ∀ (s : State) (tag : Tag) (line base mode : Byte) (due : BitVec 48) (width : BitVec 24) (repeats : Byte)
    (interval : BitVec 32) (done : Byte), s.admits tag (some 0x20) = true →
    let c : Instr := .schedulePulse tag line base mode due width repeats interval done
    (s.run.state = .faulted ∨ s.run.state = .draining ∨ s.syncArmed = true →
      Answers c tag (some 0x20) [0x20, 0x04] .nothing s (restartSilence s))
    ∧ (s.run.state = .standby ∨ s.run.state = .armed → s.syncArmed = false →
      (11 < line.toNat ∨ (base = 1 ∧ 2 ^ 32 ≤ due.toNat) →
        Answers c tag (some 0x20) [0x20, 0x03] .nothing s (restartSilence s))
      ∧ (∀ l : OutLine, line.toNat = l.val → ¬ (base = 1 ∧ 2 ^ 32 ≤ due.toNat) →
        ((s.output l).mode ≠ .sequenced → Answers c tag (some 0x20) [0x20, 0x08] .nothing s (restartSilence s))
        ∧ ((s.output l).mode = .sequenced →
          1 < base.toNat ∨ 1 < mode.toNat ∨ 1 < done.toNat ∨ width = 0 ∨ intervalMisfits base width repeats interval
            ∨ (base = 1 ∧ s.timebase.source = none) ∨ s.outOfRange base mode due →
          Answers c tag (some 0x20) [0x20, 0x03] .nothing s (restartSilence s))
        ∧ (∀ d, (s.output l).mode = .sequenced → width ≠ 0 → intervalFits d width repeats interval →
          s.resolvesAhead base mode due d ∨ s.resolvesReached base mode due d → done = 0 ∨ done = 1 →
          (∀ j, (s.slot j).isFree = false) →
          Answers c tag (some 0x20) [0x20, 0x06] .nothing s
            (countFault .poolExhausted (some (.hostOrigin tag)) (restartSilence s)))))

/-- CANCEL_ACTION in both modes: BAD_VALUE for a slot above 95; NOT_FOUND for a stale handle or a FREE slot; a WAITING
action is freed CANCELLED; a HOLDING one is released and freed CANCELLED by ABORT, and only gives up its repeats under
FINISH. The answer names the state it was found in, 1 WAITING or 2 HOLDING. -/
def Obligations.CancelActionBothModes : Prop :=
  ∀ (s : State) (tag : Tag) (slot : Byte) (gen : Gen), s.admits tag (some 0x21) = true →
    (95 < slot.toNat →
      Answers (.cancelActionAbort tag slot gen) tag (some 0x21) [0x21, 0x03] .nothing s (restartSilence s)
      ∧ Answers (.cancelActionFinish tag slot gen) tag (some 0x21) [0x21, 0x03] .nothing s (restartSilence s))
    ∧ (∀ i : SlotNo, slot.toNat = i.val →
      ((s.slot i).gen ≠ gen ∨ (s.slot i).isFree = true →
        Answers (.cancelActionAbort tag slot gen) tag (some 0x21) [0x21, 0x07] .nothing s (restartSilence s)
        ∧ Answers (.cancelActionFinish tag slot gen) tag (some 0x21) [0x21, 0x07] .nothing s (restartSilence s))
      ∧ (∀ a, s.slot i = ⟨gen, .waiting a⟩ →
        Answers (.cancelActionAbort tag slot gen) tag (some 0x21) [0x21, 0x00, 1] .nothing s
          (freeSlot ⟨i, gen⟩ .cancelled (restartSilence s))
        ∧ Answers (.cancelActionFinish tag slot gen) tag (some 0x21) [0x21, 0x00, 1] .nothing s
          (freeSlot ⟨i, gen⟩ .cancelled (restartSilence s)))
      ∧ (∀ a finish, s.slot i = ⟨gen, .holding a finish⟩ →
        Answers (.cancelActionAbort tag slot gen) tag (some 0x21) [0x21, 0x00, 2] .nothing s
          (freeSlot ⟨i, gen⟩ .cancelled (release a.line ⟨i, gen⟩ (restartSilence s)))
        ∧ Answers (.cancelActionFinish tag slot gen) tag (some 0x21) [0x21, 0x00, 2] .nothing s
          ((restartSilence s).putSlot i ⟨gen, .holding { a with repeatsLeft := 0, finishRequested := true } finish⟩)))

/-- CANCEL_LINE in both modes, the lists agreeing with the pool and no fatal entry following: BAD_VALUE for a line above
11; else the answer holds the number of actions of the line. ABORT frees them all, takes their entries out of the lists and
the HOLDING ones out of the line's holder set; FINISH frees the WAITING ones with their entries and leaves the HOLDING ones
their present occurrence, with no repeats left. Slots of other lines, the other entries of both lists, the insertion serial
and the settings, every other output record and every other field of the line's own stay. Beyond these only reports are
created, and with them REPORT_OVERFLOW may be counted: with room for them, ACTION_DONE for each freed action that wants it, in
the order of the lists, the time list first, and no fault is counted. Outside DRAINING, and while a slot stays in use, the run
state stays; in DRAINING, with none left in use, it becomes STANDBY, with its RUN_STATE report last. -/
def Obligations.CancelLineBothModes : Prop :=
  ∀ (s : State) (tag : Tag) (line : Byte), s.admits tag (some 0x22) = true →
    (11 < line.toNat →
      Answers (.cancelLineAbort tag line) tag (some 0x22) [0x22, 0x03] .nothing s (restartSilence s)
      ∧ Answers (.cancelLineFinish tag line) tag (some 0x22) [0x22, 0x03] .nothing s (restartSilence s))
    ∧ (∀ l : OutLine, line.toNat = l.val → ListsAgree s →
      s.run.state.sequencing = false ∨ s.isFatal .reportOverflow = false →
      let n := BitVec.ofNat 8 (allSlots.filter (fun i => (s.slot i).targets l)).length
      let finished (x : Slot) : Slot := ⟨x.gen, match x.state with
        | .holding a e => .holding { a with repeatsLeft := 0, finishRequested := true } e
        | _ => .free⟩
      let told (freed : List Handle) (t : State) : Prop :=
        t.faults.fatal = s.faults.fatal ∧ t.faults.report = s.faults.report
        ∧ (∀ k, k ≠ .reportOverflow → t.faultEntry k = s.faultEntry k)
        ∧ (s.run.state ≠ .draining ∨ (∃ i, (t.slot i).isFree = false) → t.run = (restartSilence s).run
          ∧ (s.hasRoom (s.wanting freed).length →
            t.reports = s.reports.dones s .cancelled freed ∧ t.faults = s.faults))
        ∧ (s.run.state = .draining → freed ≠ [] → (∀ i, (t.slot i).isFree = true) →
          t.run = ⟨.standby, s.run.silenceLimit, none⟩
          ∧ (s.hasRoom ((s.wanting freed).length + 1) →
            t.reports = (s.reports.dones s .cancelled freed).filed (.runState .standby .drainComplete 0)
            ∧ t.faults = s.faults))
      (∃ t, Completes (.cancelLineAbort tag line) s t
        ∧ Answered tag (some 0x22) [0x22, 0x00, n] .nothing s t
        ∧ (let gone (h : Handle) : Bool := (s.actionOf h).any (fun a => a.line = l)
          t.sched = { s.sched with
            slots := tabulate (fun i => if (s.slot i).targets l then ⟨(s.slot i).gen, .free⟩ else s.slot i)
            timeList := s.sched.timeList.filter (fun e => !gone e.handle)
            travelList := s.sched.travelList.filter (fun e => !gone e.handle) }
          ∧ told (s.listedHandles.filter gone) t)
        ∧ t.output l = { s.output l with
            holders := (s.output l).holders.filter (fun h => !(s.holdingAction h).any (fun a => a.line = l)) }
        ∧ (∀ m, m ≠ l → t.output m = s.output m) ∧ OnlyWork s { t with link := s.link })
      ∧ (∃ t, Completes (.cancelLineFinish tag line) s t
        ∧ Answered tag (some 0x22) [0x22, 0x00, n] .nothing s t
        ∧ (let gone (h : Handle) : Bool := (s.waitingAction h).any (fun a => a.line = l)
          t.sched = { s.sched with
            slots := tabulate (fun i => if (s.slot i).targets l then finished (s.slot i) else (s.slot i))
            timeList := s.sched.timeList.filter (fun e => !gone e.handle)
            travelList := s.sched.travelList.filter (fun e => !gone e.handle) }
          ∧ told (s.listedHandles.filter gone) t)
        ∧ t.outputs = s.outputs ∧ OnlyWork s { t with link := s.link }))

/-- The readings that answer with a list, each changing nothing, their records byte for byte: LIST_SCHEDULE the entries of a
list from a position on, GET_OUTPUTS the twelve output records, GET_INPUTS the eight input records, READ_RULE_STATS up to
eight rules, and GET_TIME the Timebase. The owner in an output record is the holder whose end is latest, the one that joined
first of equal ends. LIST_SCHEDULE and READ_RULE_STATS with a value outside its range are answered BAD_VALUE. -/
def Obligations.ListingsRead : Prop :=
  ∀ (s : State) (tag : Tag),
    let bit (b : Bool) (n : Nat) : Nat := if b then n else 0
    let high (v : Level) : Bool := v = .high
    let handle (h : Handle) : List Byte := [BitVec.ofNat 8 h.slot.val, h.gen]
    let listed (h : Handle) (phase : Phase) (key : List Byte) (serial : Serial) : List Byte :=
      match (s.slot h.slot).action with
      | none => []
      | some a => handle h
        ++ [BitVec.ofNat 8 (a.line.val + bit (phase = .finish) 16
            + (match a.due with
              | .time _ => 0
              | .travel _ => 32)
            + match a.origin with
              | .host _ => 0
              | .rule _ _ _ => 64)]
        ++ key ++ leBytes 4 serial.toNat ++ [BitVec.ofNat 8 a.repeatsLeft]
        ++ match a.origin with
          | .host t => leBytes 2 t.toNat ++ [0, 0, 0]
          | .rule r g n => BitVec.ofNat 8 r.val :: leBytes 2 g.toNat ++ leBytes 2 n
    let entries (b : Base) : List (List Byte) := match b with
      | .time => s.sched.timeList.map (fun e => listed e.handle e.phase (leBytes 6 e.key.toNat) e.serial)
      | .travel => s.sched.travelList.map (fun e => listed e.handle .start (leBytes 4 e.key.toNat ++ [0, 0]) e.serial)
    let output (l : OutLine) : List Byte :=
      let o := s.output l
      [BitVec.ofNat 8 ((match o.mode with
          | .static => 0
          | .sequenced => 1
          | .train => 2) + match o.policy with
          | .refuse => 0
          | .retrigger => 4
          | .merge => 8),
        BitVec.ofNat 8 (bit (high (s.pinLevel l)) 1 + bit (high o.idle) 2 + bit (high o.safe) 4 + bit (high o.setLevel) 8
          + bit o.running 16 + bit o.stopAtEnd 32 + bit o.stagedPending 64 + bit o.applied.isSome 128),
        BitVec.ofNat 8 o.holders.length]
      ++ (match s.owner l with
          | some h => handle h
          | none => [0xFF, 0])
      ++ (match o.applied with
          | some v => leBytes 3 v.period.toNat ++ leBytes 3 v.high.toNat
          | none => [0, 0, 0, 0, 0, 0])
      ++ leBytes 4 o.periodsCompleted
    let input (l : InLine) : List Byte :=
      let x := s.input l
      (match x.edgeSelect with
        | .none => 0
        | .rising => 1
        | .falling => 2
        | .both => 3) :: leBytes 2 x.width
        ++ [BitVec.ofNat 8 (bit x.journalEnable 1 + bit (high x.raw) 2 + bit (high x.filtered) 4 + bit x.qual.isSome 8)]
        ++ (match x.qual with
          | some q => leBytes 6 q.rawTick.toNat
          | none => [0, 0, 0, 0, 0, 0])
        ++ leBytes 2 x.glitches
    let stats (r : RuleNo) : List Byte :=
      let x := s.rule r
      [BitVec.ofNat 8 r.val, BitVec.ofNat 8 ((match x.state with
          | .idle => 0
          | .listening => 1
          | .spent => 2) + bit x.dirty 4 + bit x.lastFiring.isSome 8)]
        ++ leBytes 2 x.generation.toNat ++ leBytes 4 x.fired ++ leBytes 4 x.suppressed ++ leBytes 4 x.gated
        ++ leBytes 4 x.dropped
        ++ match x.lastFiring with
          | some t => leBytes 6 t.toNat
          | none => [0, 0, 0, 0, 0, 0]
    (∀ (list start maximum : Byte) (b : Base), s.admits tag (some 0x23) = true →
      (1 < list.toNat ∨ maximum.toNat < 1 ∨ 12 < maximum.toNat →
        Answers (.listSchedule tag list start maximum) tag (some 0x23) [0x23, 0x03] .nothing s (restartSilence s))
      ∧ ((b = .time ∧ list = 0) ∨ (b = .travel ∧ list = 1) → 1 ≤ maximum.toNat → maximum.toNat ≤ 12 →
        Answers (.listSchedule tag list start maximum) tag (some 0x23)
          ([0x23, 0x00, BitVec.ofNat 8 (entries b).length,
            BitVec.ofNat 8 (min maximum.toNat ((entries b).length - start.toNat))]
            ++ (((entries b).drop start.toNat).take maximum.toNat).flatten) .nothing s (restartSilence s)))
    ∧ (s.admits tag (some 0x35) = true →
      Answers (.getOutputs tag) tag (some 0x35)
        (0x35 :: 0x00 :: [0, 1, 2, 3, 4, 5, 6, 7, 8, 9, 10, 11].flatMap output) .nothing s (restartSilence s))
    ∧ (∀ l, (s.output l).holders = [] → s.owner l = none)
    ∧ (∀ l pre h post, (s.output l).holders = pre ++ h :: post →
      (∀ x ∈ pre, s.endOf h ≠ s.endOf x ∧ (s.endOf h - s.endOf x).toNat < 2 ^ 47) →
      (∀ x ∈ post, s.endOf x = s.endOf h ∨ 2 ^ 47 ≤ (s.endOf x - s.endOf h).toNat) → s.owner l = some h)
    ∧ (s.admits tag (some 0x51) = true →
      Answers (.getInputs tag) tag (some 0x51) (0x51 :: 0x00 :: [0, 1, 2, 3, 4, 5, 6, 7].flatMap input) .nothing s
        (restartSilence s))
    ∧ (∀ (first number : Byte), s.admits tag (some 0x62) = true →
      (15 < first.toNat ∨ number.toNat < 1 ∨ 8 < number.toNat →
        Answers (.readRuleStats tag first number) tag (some 0x62) [0x62, 0x03] .nothing s (restartSilence s))
      ∧ (first.toNat ≤ 15 → 1 ≤ number.toNat → number.toNat ≤ 8 →
        Answers (.readRuleStats tag first number) tag (some 0x62)
          ([0x62, 0x00, BitVec.ofNat 8 (min number.toNat (16 - first.toNat))]
            ++ (([0, 1, 2, 3, 4, 5, 6, 7, 8, 9, 10, 11, 12, 13, 14, 15].drop first.toNat).take number.toNat).flatMap stats)
          .nothing s (restartSilence s)))
    ∧ (s.admits tag (some 0x40) = true →
      Answers (.getTime tag) tag (some 0x40)
        ([0x40, 0x00] ++ leBytes 6 s.now.toNat ++ leBytes 4 s.timebase.travelCount.toNat
          ++ [match s.timebase.source with
              | some l => BitVec.ofNat 8 l.val
              | none => 8,
            BitVec.ofNat 8 (bit s.syncArmed 3 + bit s.timebase.lastSync.isSome 4 + bit (high s.timebase.syncFiltered) 8)]
          ++ leBytes 6 ((s.timebase.preset.getD 0).toNat) ++ leBytes 6 ((s.timebase.lastSync.getD 0).toNat))
        .nothing s (restartSilence s))

/-! ## Requests of the Output Stage -/

/-- SET_OUTPUT and SET_LEVEL. SET_OUTPUT is refused BAD_VALUE for a line above 11, a mode or policy above 2 or a level above
1, BUSY while an action targets the line,
LINE_IN_USE when it would take the line out of SEQUENCED while an enabled rule uses it; else mode, levels and policy are
replaced together, and a change of mode leaves no train running. SET_LEVEL is refused BAD_VALUE for a line above 11 or a
level above 1, LINE_MODE on a line that is not STATIC; else the set level is replaced, and shows on the pin at once outside FAULTED, where the pin stays at its safe
level. -/
def Obligations.SetOutputAndSetLevel : Prop :=
  ∀ (s : State) (tag : Tag) (line : Byte) (mode : OutMode) (idle safe level : Level) (policy : Policy),
    let m := BitVec.ofNat 8 (outModeNumber mode)
    let p := BitVec.ofNat 8 (policyNumber policy)
    let c : Instr := .setOutput tag line m (levelByte idle) (levelByte safe) p
    (∀ m' i' s' p' level' : Byte,
      (s.admits tag (some 0x30) = true → 2 < m'.toNat ∨ 1 < i'.toNat ∨ 1 < s'.toNat ∨ 2 < p'.toNat →
        Answers (.setOutput tag line m' i' s' p') tag (some 0x30) [0x30, 0x03] .nothing s (restartSilence s))
      ∧ (s.admits tag (some 0x31) = true → 1 < level'.toNat →
        Answers (.setLevel tag line level') tag (some 0x31) [0x31, 0x03] .nothing s (restartSilence s)))
    ∧ (s.admits tag (some 0x30) = true →
      (11 < line.toNat → Answers c tag (some 0x30) [0x30, 0x03] .nothing s (restartSilence s))
      ∧ (∀ l : OutLine, line.toNat = l.val →
        ((∃ i, (s.slot i).targets l = true) → Answers c tag (some 0x30) [0x30, 0x05] .nothing s (restartSilence s))
        ∧ ((∀ i, (s.slot i).targets l = false) → (s.output l).mode = .sequenced → mode ≠ .sequenced →
          (∃ r, (s.rule r).active.enabled = true ∧ ∃ t ∈ (s.rule r).active.templates, t.line = l) →
          Answers c tag (some 0x30) [0x30, 0x09] .nothing s (restartSilence s))
        ∧ ((∀ i, (s.slot i).targets l = false) →
          ((s.output l).mode = .sequenced → mode = .sequenced
            ∨ ∀ r, (s.rule r).active.enabled = true → ∀ t ∈ (s.rule r).active.templates, t.line ≠ l) →
          Answers c tag (some 0x30) [0x30, 0x00] .nothing s ((restartSilence s).putOutput l
            (if (s.output l).mode = mode then
              { s.output l with mode := mode, idle := idle, safe := safe, policy := policy }
            else { s.output l with
              mode := mode, idle := idle, safe := safe, policy := policy
              running := false, periodStart := none, stopAtEnd := false, inHigh := false })))))
    ∧ (s.admits tag (some 0x31) = true →
      (11 < line.toNat →
        Answers (.setLevel tag line (levelByte level)) tag (some 0x31) [0x31, 0x03] .nothing s (restartSilence s))
      ∧ (∀ l : OutLine, line.toNat = l.val →
        ((s.output l).mode ≠ .static →
          Answers (.setLevel tag line (levelByte level)) tag (some 0x31) [0x31, 0x08] .nothing s (restartSilence s))
        ∧ ((s.output l).mode = .static →
          Answers (.setLevel tag line (levelByte level)) tag (some 0x31) [0x31, 0x00] .nothing s
            ((restartSilence s).putOutput l { s.output l with setLevel := level })
          ∧ ∃ t, Completes (.setLevel tag line (levelByte level)) s t
            ∧ t.pinLevel l = if s.run.state = .faulted then (s.output l).safe else level)))

/-- The train requests. TRAIN_LOAD is refused BAD_VALUE for a line above 11, a period below 2 or a high time above it, then
LINE_MODE; else the values are staged and pending. TRAIN_START is refused BAD_VALUE for a line above 11, then STATE in
FAULTED, LINE_MODE, BUSY while a train runs, STATE with neither staged nor applied values; else staged values are applied,
a period starts now with the pin asserted unless the high time is 0, and the answer is the start tick. TRAIN_STOP is refused
BAD_VALUE, then LINE_MODE; else the answer says whether a train was running and the periods completed: NOW stops a running
train at once, with the pin at its idle level, AT_PERIOD_END lets its period end, with the pin as it was; with none running
nothing changes. (That staged values become absent when they
are applied is the model's reading, log entry 23.) -/
def Obligations.TrainRequests : Prop :=
  (∀ (s : State) (tag : Tag) (line : Byte) (period high : BitVec 24) (burst : BitVec 16),
      (s.admits tag (some 0x32) = true →
        (11 < line.toNat ∨ period.toNat < 2 ∨ period.toNat < high.toNat →
          Answers (.trainLoad tag line period high) tag (some 0x32) [0x32, 0x03] .nothing s (restartSilence s))
        ∧ (∀ l : OutLine, line.toNat = l.val → 2 ≤ period.toNat → high.toNat ≤ period.toNat →
          ((s.output l).mode ≠ .train →
            Answers (.trainLoad tag line period high) tag (some 0x32) [0x32, 0x08] .nothing s (restartSilence s))
          ∧ ((s.output l).mode = .train →
            Answers (.trainLoad tag line period high) tag (some 0x32) [0x32, 0x00] .nothing s ((restartSilence s).putOutput l
              { s.output l with staged := some ⟨period, high⟩, stagedPending := true }))))
      ∧ (s.admits tag (some 0x33) = true →
        (11 < line.toNat → Answers (.trainStart tag line burst) tag (some 0x33) [0x33, 0x03] .nothing s (restartSilence s))
        ∧ (∀ l : OutLine, line.toNat = l.val →
          (s.run.state = .faulted →
            Answers (.trainStart tag line burst) tag (some 0x33) [0x33, 0x04] .nothing s (restartSilence s))
          ∧ (s.run.state ≠ .faulted → (s.output l).mode ≠ .train →
            Answers (.trainStart tag line burst) tag (some 0x33) [0x33, 0x08] .nothing s (restartSilence s))
          ∧ (s.run.state ≠ .faulted → (s.output l).mode = .train → (s.output l).running = true →
            Answers (.trainStart tag line burst) tag (some 0x33) [0x33, 0x05] .nothing s (restartSilence s))
          ∧ (s.run.state ≠ .faulted → (s.output l).mode = .train → (s.output l).running = false →
            (s.output l).stagedPending = false → (s.output l).applied = none →
            Answers (.trainStart tag line burst) tag (some 0x33) [0x33, 0x04] .nothing s (restartSilence s))
          ∧ (∀ v : TrainValues, s.run.state ≠ .faulted → (s.output l).mode = .train → (s.output l).running = false →
            ((s.output l).stagedPending = true ∧ (s.output l).staged = some v
              ∨ (s.output l).stagedPending = false ∧ (s.output l).staged = none ∧ (s.output l).applied = some v) →
            Answers (.trainStart tag line burst) tag (some 0x33) (0x33 :: 0x00 :: leBytes 6 s.now.toNat) .nothing s
              ((restartSilence s).putOutput l { s.output l with
                staged := none, stagedPending := false, applied := some v, running := true, burst := burst.toNat
                periodsCompleted := 0, periodStart := some s.now, stopAtEnd := false, inHigh := decide (v.high ≠ 0) })
            ∧ ∃ t, Completes (.trainStart tag line burst) s t
              ∧ t.pinLevel l = if v.high = 0 then (s.output l).idle else flipLevel (s.output l).idle))))
  ∧ ∀ (s : State) (tag : Tag) (line : Byte), s.admits tag (some 0x34) = true →
      (11 < line.toNat →
        Answers (.trainStopNow tag line) tag (some 0x34) [0x34, 0x03] .nothing s (restartSilence s)
        ∧ Answers (.trainStopAtPeriodEnd tag line) tag (some 0x34) [0x34, 0x03] .nothing s (restartSilence s))
      ∧ (∀ l : OutLine, line.toNat = l.val →
        ((s.output l).mode ≠ .train →
          Answers (.trainStopNow tag line) tag (some 0x34) [0x34, 0x08] .nothing s (restartSilence s)
          ∧ Answers (.trainStopAtPeriodEnd tag line) tag (some 0x34) [0x34, 0x08] .nothing s (restartSilence s))
        ∧ ((s.output l).mode = .train → (s.output l).running = false →
          Answers (.trainStopNow tag line) tag (some 0x34) ([0x34, 0x00, 0] ++ leBytes 4 (s.output l).periodsCompleted)
            .nothing s (restartSilence s)
          ∧ Answers (.trainStopAtPeriodEnd tag line) tag (some 0x34)
            ([0x34, 0x00, 0] ++ leBytes 4 (s.output l).periodsCompleted) .nothing s (restartSilence s))
        ∧ ((s.output l).mode = .train → (s.output l).running = true →
          Answers (.trainStopNow tag line) tag (some 0x34) ([0x34, 0x00, 1] ++ leBytes 4 (s.output l).periodsCompleted)
            .nothing s ((restartSilence s).putOutput l { s.output l with
              running := false, periodStart := none, stopAtEnd := false, inHigh := false })
          ∧ Answers (.trainStopAtPeriodEnd tag line) tag (some 0x34)
            ([0x34, 0x00, 1] ++ leBytes 4 (s.output l).periodsCompleted) .nothing s
            ((restartSilence s).putOutput l { s.output l with stopAtEnd := true })
          ∧ (s.run.state ≠ .faulted → ∃ t, Completes (.trainStopNow tag line) s t ∧ t.pinLevel l = (s.output l).idle)
          ∧ ∃ t, Completes (.trainStopAtPeriodEnd tag line) s t ∧ t.pinLevel l = s.pinLevel l))

/-! ## Requests of the Timebase -/

/-- SET_TRAVEL_SOURCE, SET_SYNC, ARM_SYNC and CANCEL_SYNC. The source is replaced while the travel list is empty, with the
count kept and answered; else BUSY. SET_SYNC replaces width and reporting and restarts a qualification from the raw level.
ARM_SYNC sets the preset in STANDBY with both lists empty; else STATE, then BUSY. CANCEL_SYNC makes the preset absent and
answers whether SYNC was armed. Values outside their sets are answered BAD_VALUE with nothing changed. (That SET_SYNC with a
width of 0 leaves a qualification in progress, due at once, is the model's reading, log entry 21.) -/
def Obligations.TimebaseRequests : Prop :=
  ∀ (s : State) (tag : Tag),
    (∀ source : Byte, s.admits tag (some 0x41) = true →
      (8 < source.toNat → Answers (.setTravelSource tag source) tag (some 0x41) [0x41, 0x03] .nothing s (restartSilence s))
      ∧ (source.toNat ≤ 8 → s.sched.travelList ≠ [] →
        Answers (.setTravelSource tag source) tag (some 0x41) [0x41, 0x05] .nothing s (restartSilence s))
      ∧ (∀ x : Option InLine, source = sourceByte x → s.sched.travelList = [] →
        Answers (.setTravelSource tag source) tag (some 0x41)
          (0x41 :: 0x00 :: leBytes 4 s.timebase.travelCount.toNat) .nothing s
          { restartSilence s with timebase := { s.timebase with source := x } }))
    ∧ (∀ (width : BitVec 16) (reporting : Byte), s.admits tag (some 0x42) = true →
      (1023 < width.toNat ∨ 1 < reporting.toNat →
        Answers (.setSync tag width reporting) tag (some 0x42) [0x42, 0x03] .nothing s (restartSilence s))
      ∧ (width.toNat ≤ 1023 → reporting.toNat ≤ 1 →
        Answers (.setSync tag width reporting) tag (some 0x42) [0x42, 0x00] .nothing s
          { restartSilence s with timebase := { s.timebase with
              syncWidth := width.toNat
              syncReporting := decide (reporting = 1)
              syncQual := if s.timebase.syncRaw = s.timebase.syncFiltered then none
                else some ⟨s.now, s.timebase.syncRaw⟩ } }))
    ∧ (∀ preset : Tick, s.admits tag (some 0x43) = true →
      (s.run.state ≠ .standby → Answers (.armSync tag preset) tag (some 0x43) [0x43, 0x04] .nothing s (restartSilence s))
      ∧ (s.run.state = .standby → s.sched.timeList ≠ [] ∨ s.sched.travelList ≠ [] →
        Answers (.armSync tag preset) tag (some 0x43) [0x43, 0x05] .nothing s s)
      ∧ (s.run.state = .standby → s.sched.timeList = [] → s.sched.travelList = [] →
        Answers (.armSync tag preset) tag (some 0x43) [0x43, 0x00] .nothing s
          { s with timebase := { s.timebase with preset := some preset } }))
    ∧ (s.admits tag (some 0x44) = true →
      Answers (.cancelSync tag) tag (some 0x44) [0x44, 0x00, if s.timebase.preset.isSome then 1 else 0] .nothing s
        { restartSilence s with timebase := { s.timebase with preset := none } })

/-! ## Requests of the Input Capture Unit and the Capture Journal -/

/-- SET_INPUT replaces the three settings of a line together and restarts its qualification from the raw level; a line above
7, an edge select above 3, a width above 1023 or a journal enable above 1 is answered BAD_VALUE with nothing changed.
READ_JOURNAL with 1 to 8 removes the oldest records and answers them, 18 bytes each, with the number left, the next serial and
the lost run; it arms the watermark when the fill falls below it. SET_JOURNAL with a watermark of 1 to 64 replaces it, empties the journal
when asked to, and arms the watermark exactly when the fill is below it. Values outside these are answered BAD_VALUE with
nothing changed. (That SET_INPUT with a width of 0 leaves a qualification in progress, due at once, is the model's reading,
log entry 21.) -/
def Obligations.InputAndJournalRequests : Prop :=
  (∀ (s : State) (tag : Tag) (line select : Byte) (width : BitVec 16) (enable : Byte), s.admits tag (some 0x50) = true →
      (7 < line.toNat ∨ 3 < select.toNat ∨ 1023 < width.toNat ∨ 1 < enable.toNat →
        Answers (.setInput tag line select width enable) tag (some 0x50) [0x50, 0x03] .nothing s (restartSilence s))
      ∧ (∀ (l : InLine) (e : EdgeSelect), line.toNat = l.val → select = edgeSelectByte e → width.toNat ≤ 1023 →
        enable.toNat ≤ 1 →
        Answers (.setInput tag line select width enable) tag (some 0x50) [0x50, 0x00] .nothing s
          ((restartSilence s).putInput l { s.input l with
            edgeSelect := e
            width := width.toNat
            journalEnable := decide (enable = 1)
            qual := if (s.input l).raw = (s.input l).filtered then none else some ⟨s.now, (s.input l).raw⟩ })))
  ∧ ∀ (s : State) (tag : Tag),
      (∀ count : Byte, s.admits tag (some 0x52) = true →
        (count.toNat < 1 ∨ 8 < count.toNat →
          Answers (.readJournal tag count) tag (some 0x52) [0x52, 0x03] .nothing s (restartSilence s))
        ∧ (1 ≤ count.toNat → count.toNat ≤ 8 →
          let removed := s.journal.records.take count.toNat
          let rest := s.journal.records.drop count.toNat
          Answers (.readJournal tag count) tag (some 0x52)
            ([0x52, 0x00, BitVec.ofNat 8 removed.length, BitVec.ofNat 8 rest.length]
              ++ leBytes 4 s.journal.nextSerial.toNat ++ leBytes 2 s.journal.lostRun ++ removed.flatMap (fun x =>
                leBytes 4 x.serial.toNat ++ [BitVec.ofNat 8 x.line.val, if x.kind = .rising then 1 else 2]
                  ++ leBytes 6 x.timestamp.toNat ++ leBytes 4 x.travelCount.toNat ++ match x.lostBefore with
                    | none => [0, 0]
                    | some n => leBytes 2 n))
            .nothing s { restartSilence s with journal := { s.journal with
              records := rest
              watermarkArmed := s.journal.watermarkArmed || decide (rest.length < s.journal.watermark) } }))
      ∧ (∀ watermark empty : Byte, s.admits tag (some 0x53) = true →
        (watermark.toNat < 1 ∨ 64 < watermark.toNat ∨ 1 < empty.toNat →
          Answers (.setJournal tag watermark empty) tag (some 0x53) [0x53, 0x03] .nothing s (restartSilence s))
        ∧ (1 ≤ watermark.toNat → watermark.toNat ≤ 64 → empty.toNat ≤ 1 →
          let rest := if empty = 1 then [] else s.journal.records
          Answers (.setJournal tag watermark empty) tag (some 0x53)
            ([0x53, 0x00, BitVec.ofNat 8 (s.journal.records.length - rest.length), BitVec.ofNat 8 rest.length]
              ++ leBytes 4 s.journal.nextSerial.toNat ++ leBytes 2 s.journal.lostRun)
            .nothing s { restartSilence s with journal := { s.journal with
              records := rest
              watermark := watermark.toNat
              watermarkArmed := decide (rest.length < watermark.toNat) } }))

/-! ## Requests of the Rule Engine -/

/-- A record passes exactly when its values are in their sets, a POSITIVE match set is not empty and a NEGATIVE one not all
eight lines, a gate names a line and a level, one to four templates each pass their own checks, and what is reserved is 0.
EDIT_RULE with a record that passes replaces the staged copy of the rule and sets its dirty flag, and nothing
else; a rule above 15 or a record that fails is answered BAD_VALUE. DISCARD_STAGED makes every staged copy equal to the
active one and clears every dirty flag. RESET_RULE_COUNTS zeroes the counts and the last firing of the rules of its set and
takes the SPENT ones to LISTENING. -/
def Obligations.RuleTableRequests : Prop :=
  ∀ (s : State) (tag : Tag),
    (∀ raw : RawRule, (∃ x, recordOf raw = some x) ↔ RecordPasses raw)
    ∧ (∀ (rule : Byte) (raw : RawRule), s.admits tag (some 0x60) = true →
      (15 < rule.toNat ∨ ¬ RecordPasses raw →
        Answers (.editRule tag rule raw) tag (some 0x60) [0x60, 0x03] .nothing s (restartSilence s))
      ∧ (∀ (r : RuleNo) (x : RuleRecord), rule.toNat = r.val → recordOf raw = some x →
        Answers (.editRule tag rule raw) tag (some 0x60) [0x60, 0x00] .nothing s
          ((restartSilence s).putRule r { s.rule r with staged := x, dirty := true })))
    ∧ (s.admits tag (some 0x63) = true →
      Answers (.discardStaged tag) tag (some 0x63)
        [0x63, 0x00, BitVec.ofNat 8 (allRules.filter (fun r => (s.rule r).dirty)).length] .nothing s
        { restartSilence s with
          rules := tabulate (fun r => { s.rule r with staged := (s.rule r).active, dirty := false }) })
    ∧ (∀ set : BitVec 16, s.admits tag (some 0x64) = true →
      Answers (.resetRuleCounts tag set) tag (some 0x64)
        [0x64, 0x00, BitVec.ofNat 8 (allRules.filter (fun r => set.getLsbD r.val && (s.rule r).state = .spent)).length]
        .nothing s { restartSilence s with rules := tabulate (fun r =>
          if set.getLsbD r.val then { s.rule r with
            fired := 0, suppressed := 0, gated := 0, dropped := 0, lastFiring := none
            state := if (s.rule r).state = .spent then .listening else (s.rule r).state }
          else s.rule r) })

/-- The record that READ_RULE returns for a staged copy is, byte for byte, the record that EDIT_RULE gave, for every record
that passes the checks of EDIT_RULE. -/
def Obligations.EditReadsBack : Prop :=
  ∀ (raw : RawRule) (x : RuleRecord), recordOf raw = some x → x.bytes = raw.bytes

/-- READ_RULE with a rule of 0 to 15 and copy 0 ACTIVE or 1 STAGED answers OK, the dirty flag and the record named, in every
run state; other values are answered BAD_VALUE; it changes nothing. Of a rule that is not dirty, both copies read the same
wherever the clean copies agree. -/
def Obligations.ReadRule : Prop :=
  ∀ (s : State) (tag : Tag) (rule copy : Byte), s.admits tag (some 0x61) = true →
    (15 < rule.toNat ∨ 1 < copy.toNat →
      Answers (.readRule tag rule copy) tag (some 0x61) [0x61, 0x03] .nothing s (restartSilence s))
    ∧ (∀ r : RuleNo, rule.toNat = r.val →
      (copy = 0 → Answers (.readRule tag rule copy) tag (some 0x61)
        (0x61 :: 0x00 :: (if (s.rule r).dirty then 1 else 0) :: (s.rule r).active.bytes) .nothing s (restartSilence s))
      ∧ (copy = 1 → Answers (.readRule tag rule copy) tag (some 0x61)
        (0x61 :: 0x00 :: (if (s.rule r).dirty then 1 else 0) :: (s.rule r).staged.bytes) .nothing s (restartSilence s))
      ∧ (CleanCopies s → (s.rule r).dirty = false → copy.toNat ≤ 1 → Answers (.readRule tag rule copy) tag (some 0x61)
        (0x61 :: 0x00 :: 0 :: (s.rule r).active.bytes) .nothing s (restartSilence s)))

/-- COMMIT_RULES is refused STATE in FAULTED. Else, when every template of every dirty, enabled staged copy is on a
SEQUENCED line and, of base TIME with repeats, has an interval above its width, every dirty rule takes its staged copy with
its counts zeroed and its generation incremented; when one is not, the first rule, template and reason are answered
INVALID_RULE and nothing changes. -/
def Obligations.CommitRules : Prop :=
  ∀ (s : State) (tag : Tag), s.admits tag (some 0x65) = true →
    let lineBad (t : Template) : Prop := (s.output t.line).mode ≠ .sequenced
    let intervalBad (x : RuleRecord) (t : Template) : Prop :=
      x.base = .time ∧ 0 < t.repeats ∧ (t.interval.getD 0).toNat ≤ t.width.toNat
    (s.run.state = .faulted → Answers (.commitRules tag) tag (some 0x65) [0x65, 0x04] .nothing s s)
    ∧ (s.run.state ≠ .faulted →
      (∀ r, (s.rule r).dirty = true → (s.rule r).staged.enabled = true → ∀ t ∈ (s.rule r).staged.templates,
        ¬ lineBad t ∧ ¬ intervalBad (s.rule r).staged t) →
      Answers (.commitRules tag) tag (some 0x65)
        [0x65, 0x00, BitVec.ofNat 8 (allRules.filter (fun r => (s.rule r).dirty)).length] .nothing s
        { restartSilence s with rules := tabulate (fun r => if (s.rule r).dirty then { s.rule r with
            active := (s.rule r).staged
            dirty := false
            state := if (s.rule r).staged.enabled then .listening else .idle
            generation := (s.rule r).generation + 1
            fired := 0, suppressed := 0, gated := 0, dropped := 0, lastFiring := none }
          else s.rule r) })
    ∧ (∀ (r : RuleNo) (pre : List Template) (t : Template) (post : List Template), s.run.state ≠ .faulted →
      (∀ q, q < r → (s.rule q).dirty = true → (s.rule q).staged.enabled = true → ∀ t ∈ (s.rule q).staged.templates,
        ¬ lineBad t ∧ ¬ intervalBad (s.rule q).staged t) →
      (s.rule r).dirty = true → (s.rule r).staged.enabled = true → (s.rule r).staged.templates = pre ++ t :: post →
      (∀ t ∈ pre, ¬ lineBad t ∧ ¬ intervalBad (s.rule r).staged t) →
      (lineBad t → Answers (.commitRules tag) tag (some 0x65)
        [0x65, 0x0A, BitVec.ofNat 8 r.val, BitVec.ofNat 8 pre.length, 1] .nothing s (restartSilence s))
      ∧ (¬ lineBad t → intervalBad (s.rule r).staged t → Answers (.commitRules tag) tag (some 0x65)
        [0x65, 0x0A, BitVec.ofNat 8 r.val, BitVec.ofNat 8 pre.length, 2] .nothing s (restartSilence s)))

/-! ## Requests that replace settings -/

/-- SET_SUPERVISION, SET_SCHEDULE and SET_REPORTING, each replacing its settings together, or none of them with BAD_VALUE.
A silence limit of 1 to 9 or above 60000 is out of range; in ARMED and DRAINING a limit of 0 stops the timer and another
starts it again, in STANDBY and FAULTED the timer is left as it is. A late policy above 1 or a reserve above 32 is out of
range. The enabled kinds must hold RESET_DONE and RUN_STATE and none outside the twelve, with an interval of 5 to 1000 and
0 to 15 retries; reports already made keep their own limits. -/
def Obligations.SettingRequests : Prop :=
  ∀ (s : State) (tag : Tag),
    (∀ limit : BitVec 16, s.admits tag (some 0x14) = true →
      ((1 ≤ limit.toNat ∧ limit.toNat ≤ 9) ∨ 60000 < limit.toNat →
        Answers (.setSupervision tag limit) tag (some 0x14) [0x14, 0x03] .nothing s (restartSilence s))
      ∧ (limit.toNat = 0 ∨ (10 ≤ limit.toNat ∧ limit.toNat ≤ 60000) →
        Answers (.setSupervision tag limit) tag (some 0x14) (0x14 :: 0x00 :: leBytes 2 limit.toNat) .nothing s { s with
          run := ⟨s.run.state, limit.toNat,
            if s.run.state = .armed ∨ s.run.state = .draining then (if limit.toNat = 0 then none else some s.clock)
            else s.run.silence⟩ }))
    ∧ (∀ (ticks : BitVec 16) (counts policy reserve : Byte), s.admits tag (some 0x24) = true →
      (1 < policy.toNat ∨ 32 < reserve.toNat →
        Answers (.setSchedule tag ticks counts policy reserve) tag (some 0x24) [0x24, 0x03] .nothing s (restartSilence s))
      ∧ (policy.toNat ≤ 1 → reserve.toNat ≤ 32 →
        Answers (.setSchedule tag ticks counts policy reserve) tag (some 0x24) [0x24, 0x00] .nothing s
          { restartSilence s with sched := { s.sched with
              lateTicks := ticks.toNat
              lateCounts := counts.toNat
              latePolicy := if policy = 0 then .fire else .skip
              reserve := reserve.toNat } }))
    ∧ (∀ (kinds interval : BitVec 16) (retries : Byte), s.admits tag (some 0x70) = true →
      let good := kinds.getLsbD 0 = true ∧ kinds.getLsbD 1 = true ∧ kinds.toNat < 2 ^ 12 ∧ 5 ≤ interval.toNat
        ∧ interval.toNat ≤ 1000 ∧ retries.toNat ≤ 15
      (¬ good →
        Answers (.setReporting tag kinds interval retries) tag (some 0x70) [0x70, 0x03] .nothing s (restartSilence s))
      ∧ (good → Answers (.setReporting tag kinds interval retries) tag (some 0x70)
        (0x70 :: 0x00 :: leBytes 2 kinds.toNat ++ leBytes 2 interval.toNat ++ [retries]) .nothing s
        { restartSilence s with reports := { s.reports with
            enabled := kinds.setWidth 12
            retryInterval := interval.toNat
            maxRetries := retries.toNat } }))

/-! ## Requests of the Fault Table -/

/-- READ_FAULTS answers OK, the fatal set, the report set and all eleven entries in the order of their codes, each with its
count, its ticks and its detail (18 bytes, absent ones 0), read together; it changes nothing, in every run state. -/
def Obligations.ReadFaults : Prop :=
  ∀ (s : State) (tag : Tag), s.admits tag (some 0x78) = true →
    Answers (.readFaults tag) tag (some 0x78)
      (0x78 :: 0x00 :: leBytes 2 s.faults.fatal.toNat ++ leBytes 2 s.faults.report.toNat
        ++ [FaultKind.frameCrc, .frameMalformed, .inboundOverflow, .ackUnknown, .reportExpired, .reportOverflow,
            .journalLost, .poolExhausted, .actionLate, .collision, .hostSilent].flatMap (fun k =>
          BitVec.ofNat 8 k.code.val :: leBytes 2 (s.faultEntry k).count
            ++ leBytes 6 ((s.faultEntry k).first.getD 0).toNat ++ leBytes 6 ((s.faultEntry k).last.getD 0).toNat
            ++ detailBytes (s.faultEntry k).detail))
      .nothing s (restartSilence s)

/-- CLEAR_FAULTS with a set that names a kind outside the eleven is answered BAD_VALUE and no entry changes. Else every
entry of the set is zeroed, its ticks and detail absent, the others stay, and the answer is OK with the number of kinds of
the set whose count was above 0. The empty set changes nothing. -/
def Obligations.ClearFaults : Prop :=
  ∀ (s : State) (tag : Tag) (set : BitVec 16), s.admits tag (some 0x79) = true →
    (2 ^ 11 ≤ set.toNat →
      Answers (.clearFaults tag set) tag (some 0x79) [0x79, 0x03] .nothing s (restartSilence s))
    ∧ (set = 0 → Answers (.clearFaults tag set) tag (some 0x79) [0x79, 0x00, 0] .nothing s (restartSilence s))
    ∧ (set.toNat < 2 ^ 11 → ∃ t, Completes (.clearFaults tag set) s t
      ∧ Answered tag (some 0x79) [0x79, 0x00, BitVec.ofNat 8 ([FaultKind.frameCrc, .frameMalformed, .inboundOverflow,
          .ackUnknown, .reportExpired, .reportOverflow, .journalLost, .poolExhausted, .actionLate, .collision,
          .hostSilent].filter (fun k => set.getLsbD k.code.val && 0 < (s.faultEntry k).count)).length] .nothing s t
      ∧ SameButLink { restartSilence s with faults := t.faults } t
      ∧ t.faults.fatal = s.faults.fatal ∧ t.faults.report = s.faults.report
      ∧ (∀ k : FaultKind, set.getLsbD k.code.val = true → t.faultEntry k = ⟨0, none, none, none⟩)
      ∧ (∀ k : FaultKind, set.getLsbD k.code.val = false → t.faultEntry k = s.faultEntry k))

/-- SET_FAULT_MASKS with a set that names a kind outside the eleven is answered BAD_VALUE and neither set changes. Else both
sets are replaced together and answered, whatever they hold, in every run state. -/
def Obligations.SetFaultMasks : Prop :=
  ∀ (s : State) (tag : Tag) (fatal report : BitVec 16), s.admits tag (some 0x7A) = true →
    (2 ^ 11 ≤ fatal.toNat ∨ 2 ^ 11 ≤ report.toNat →
      Answers (.setFaultMasks tag fatal report) tag (some 0x7A) [0x7A, 0x03] .nothing s (restartSilence s))
    ∧ (fatal.toNat < 2 ^ 11 → report.toNat < 2 ^ 11 →
      Answers (.setFaultMasks tag fatal report) tag (some 0x7A)
        (0x7A :: 0x00 :: leBytes 2 fatal.toNat ++ leBytes 2 report.toNat) .nothing s
        { restartSilence s with faults := { s.faults with
            fatal := fatal.setWidth 11
            report := report.setWidth 11 } })

/-! ## Events of the link

Each of the events below is carried out and the arbiter then chooses. For an event that time alone brings about, the
premise `s.quietFor n` says that nothing else of the part's own falls due before it; that the command lets the time run on
to the event is the model's choice (log entry 4). -/

/-- An ACK of an in-flight report takes it out of the outbox; an ACK of no in-flight report counts ACK_UNKNOWN; in both cases
the frame has been heard. A retry interval that expires makes its report RETRY_DUE while retries are left; else the report
leaves the outbox and REPORT_EXPIRED is counted with its sequence number and kind. -/
def Obligations.AckAndRetry : Prop :=
  ∀ (s : State) (q : Seq), s.held = false →
    ((∀ x ∈ s.reports.flight, x.seq ≠ some q) →
      Arrives (.ack q) s (arbitrate (countFault .ackUnknown (some (.sequence q)) (frameArrived s))))
    ∧ ∀ (pre : List Report) (r : Report) (post : List Report), s.reports.flight = pre ++ r :: post → r.seq = some q →
      (∀ x ∈ pre ++ post, x.seq ≠ some q) →
      Arrives (.ack q) s (arbitrate ((frameArrived s).withReports { s.reports with flight := pre ++ post }))
      ∧ ∀ since ms n limit : Nat, r.state = .awaiting since ms → n = ms * 50000 - (s.clock - since) → s.quietFor n →
        r.retryLimit = some limit →
        (r.retryCount < limit →
          exec (.retryIntervalExpiry q) s = .next (arbitrate ((elapse n s).withReports { s.reports with
            flight := pre ++ { r with state := .retryDue (s.clock + n) } :: post })))
        ∧ (limit ≤ r.retryCount →
          exec (.retryIntervalExpiry q) s = .next (arbitrate (countFault .reportExpired (some (.expired q r.body.kind))
            ((elapse n s).withReports { s.reports with flight := pre ++ post }))))

/-- What breaks a frame off, the arbiter having nothing to choose. While HUNTING, characters that are broken or not the sync
byte change nothing but the last character heard. A frame is dropped as FRAME_MALFORMED for a kind other than REQUEST and
ACK, a length above 240, an ACK with a length, and a broken byte; as FRAME_CRC when its CRC differs. After a drop the
assembler hunts, and nothing of the frame is handed on. On an SPI link the part sends a byte for each byte that comes in
(`State.past`); there the clauses hold where a byte is to begin and no transmission completes within the bytes. (That the row
takes a run of characters at one instant, noise and beginnings of frames among them, is the model's choice, log entry 8.) -/
def Obligations.FramesDropped : Prop :=
  ∀ s : State, s.held = false → arbitrate s = s →
    (s.link.assembler = .hunting →
      (∀ cs : List RxChar, cs ≠ [] → (∀ c ∈ cs, c.data ≠ 0xA5 ∨ (s.link.linkType = .uart ∧ c.stop = .low)) →
        s.undisturbed cs.length → exec (.badFrame (cs.map .char)) s = .next (s.past cs.length).heard)
      ∧ (∀ k : Byte, k ≠ 0x51 → k ≠ 0x54 → s.undisturbed 2 →
        exec (.badFrame (soundly [0xA5, k])) s = .next (arbitrate (countFault .frameMalformed none (s.past 2).heard)))
      ∧ (∀ k t0 t1 n : Byte, (k = 0x51 ∧ 240 < n.toNat) ∨ (k = 0x54 ∧ n ≠ 0) → s.undisturbed 5 →
        exec (.badFrame (soundly [0xA5, k, t0, t1, n])) s
          = .next (arbitrate (countFault .frameMalformed none (s.past 5).heard)))
      ∧ (∀ (tag : Tag) (p : List Byte) (c0 c1 : Byte), p.length ≤ 240 →
        [c0, c1] ≠ leBytes 2 (crc16 (Frame.covered ⟨.request, tag, p⟩)).toNat → s.undisturbed (7 + p.length) →
        exec (.badFrame (soundly (0xA5 :: Frame.covered ⟨.request, tag, p⟩ ++ [c0, c1]))) s
          = .next (arbitrate (countFault .frameCrc none (s.past (7 + p.length)).heard))))
    ∧ (∀ b : Byte, s.link.assembler ≠ .hunting → s.link.linkType = .uart →
      exec (.badFrame [.char ⟨b, .low⟩]) s = .next (arbitrate (countFault .frameMalformed none
        (s.heard.withLink { s.heard.link with assembler := .hunting }))))

/-- The gap timer on a UART link, CSn and SCK on an SPI link, and what the transmitting pins show. Inside a frame, 2 ms after
the end of the last byte with no start bit since, or at the deassertion, the frame is dropped as FRAME_MALFORMED and the
assembler hunts. Outside a frame, within a byte, and on the other link, no frame is dropped. With CSn asserted a period of SCK
takes a bit from SDI and sends one: of the frame in transmission when it is in step with the byte in progress, else of filler,
to the end of which a frame chosen within it waits. Eight bits make a byte received. With the last bit of its last byte a
frame has gone: its completion is due, before the next period in any case; a byte that ends with that bit is received before
the completion or after it. A deassertion discards the bits of a byte in reception and leaves the transmission at the byte
boundary: a byte cut in its middle is sent again from its first bit. While CSn is asserted SDO shows what is left of the byte,
bit 7 first, 0x00 with no frame to send; while it is not, SDO is not driven and SCK does nothing. TXD shows the frame's bytes
back to back, a start bit LOW, eight data bits from bit 0 on, and a stop bit HIGH, each a bit time long, and rests HIGH. (That
start bits, the assertion of CSn and the periods of SCK come with the row of received characters, is the model's choice, log
entries 8, 9 and 10.) -/
def Obligations.FramesBrokenOff : Prop :=
  ∀ s : State, s.held = false →
    (∀ n, s.link.linkType = .uart → s.link.assembler ≠ .hunting → s.link.byteStarted = false →
      n = 100000 - (s.clock - s.link.lastByteAt) → s.quietFor n →
      exec .gapTimerExpiry s = .next (arbitrate (countFault .frameMalformed none
        ((elapse n s).withLink { s.link with assembler := .hunting }))))
    ∧ (s.link.linkType = .spi ∨ s.link.assembler = .hunting ∨ s.link.byteStarted = true →
      exec .gapTimerExpiry s = .next s)
    ∧ (s.link.linkType = .uart → exec (.badFrame [.startBit]) s
      = .next (arbitrate (s.withLink { s.link with byteStarted := true })))
    ∧ (s.link.linkType = .spi → exec (.badFrame [.select]) s
      = .next (arbitrate (s.withLink { s.link with csnAsserted := true })))
    ∧ (∀ v first, s.link.linkType = .uart ∨ s.link.csnAsserted = false →
      exec (.badFrame [.sck v first]) s = .next (arbitrate s))
    ∧ (∀ (v : Level) (first : Bool), s.link.linkType = .spi → s.link.csnAsserted = true →
      let byte : Byte := s.link.sdi <<< 1 ||| (if v = .high then 1 else 0)
      (s.link.tx = none → arbitrate s = s →
        (s.link.phase < 7 → exec (.badFrame [.sck v first]) s
          = .next (s.withLink { s.link with phase := s.link.phase + 1, sdi := byte }))
        ∧ (s.link.phase = 7 → exec (.badFrame [.sck v first]) s
          = .next (arbitrate (receiveChar ⟨byte, .high⟩ (s.withLink { s.link with phase := 0, sdi := 0 })))))
      ∧ ∀ t, s.link.tx = some t →
        let next := { t with sent := if t.sent % 8 = s.link.phase then t.sent + 1 else t.sent }
        let w := s.withLink { s.link with tx := some next, phase := 0, sdi := 0 }
        (t.sent < 8 * (7 + t.frame.payload.length) →
          (s.link.phase < 7 → exec (.badFrame [.sck v first]) s = .next (s.withLink { s.link with
            tx := some next, phase := s.link.phase + 1, sdi := byte }))
          ∧ (s.link.phase = 7 → next.sent < 8 * (7 + t.frame.payload.length) ∨ first = false →
            exec (.badFrame [.sck v first]) s = .next (arbitrate (receiveChar ⟨byte, .high⟩ w)))
          ∧ (s.link.phase = 7 → 8 * (7 + t.frame.payload.length) ≤ next.sent → first = true →
            ∃ u, exec .transmitComplete w = .next u
              ∧ exec (.badFrame [.sck v first]) s = .next (arbitrate (receiveChar ⟨byte, .high⟩ u))))
        ∧ (8 * (7 + t.frame.payload.length) ≤ t.sent → ∃ u, exec .transmitComplete s = .next u
          ∧ exec (.badFrame [.sck v first]) s = exec (.badFrame [.sck v first]) u))
    ∧ (∀ b : Byte, s.link.linkType = .spi → s.link.csnAsserted = true → arbitrate s = s → s.undisturbed 1 →
      exec (.badFrame [.char ⟨b, .high⟩]) s
        = exec (.badFrame ([7, 6, 5, 4, 3, 2, 1, 0].map (fun i => .sck (if b.getLsbD i then .high else .low) false))) s)
    ∧ (s.link.linkType = .uart → exec .csnDeassert s = .next (arbitrate s))
    ∧ (s.link.linkType = .spi →
      let left := s.link.tx.map (fun t => { t with sent := t.sent / 8 * 8 })
      (s.link.assembler = .hunting → exec .csnDeassert s = .next (arbitrate (s.withLink { s.link with
        csnAsserted := false, phase := 0, sdi := 0, tx := left })))
      ∧ (s.link.assembler ≠ .hunting → exec .csnDeassert s
        = .next (arbitrate (countFault .frameMalformed none (s.withLink { s.link with
          csnAsserted := false, phase := 0, sdi := 0, tx := left, assembler := .hunting })))))
    ∧ (s.link.linkType = .uart ∨ s.link.csnAsserted = false → s.sdoDriven = false ∧ s.sdoBits = [])
    ∧ (s.link.linkType = .spi → s.link.csnAsserted = true → s.sdoDriven = true
      ∧ (s.link.tx = none ∨ (∃ t, s.link.tx = some t ∧ t.sent % 8 ≠ s.link.phase) →
        s.sdoBits = List.replicate (8 - s.link.phase) .low)
      ∧ (∀ t b i j, s.link.tx = some t → t.sent = 8 * i + j → j = s.link.phase → j < 8 → t.frame.bytes[i]? = some b →
        s.sdoBits = ([7, 6, 5, 4, 3, 2, 1, 0].drop j).map (fun i => if b.getLsbD i then Level.high else .low)))
    ∧ (s.link.linkType = .spi ∨ s.link.tx = none → s.txd = .high)
    ∧ (∀ t b i j, s.link.linkType = .uart → s.link.tx = some t → t.frame.bytes[i]? = some b → j < 10 →
      (s.clock - t.startedAt) * s.link.rate.baud / 50000000 = 10 * i + j →
      s.txd = if j = 0 then .low else if j = 9 then .high else if b.getLsbD (j - 1) then .high else .low)

/-- A transmission completes: on a UART link when its last stop bit ends, ten bit times a byte after its beginning; on an SPI
link at once when the host has clocked its last bit out, and not before. A response leaves the window and, with a tag other than 0 and no RESTART
taken meanwhile, becomes the newest of the stored responses, in place of one with its tag and with the oldest of five leaving;
then the UART rate changes, a frame in reception being dropped, or RESET_DONE is created, as that response was to bring about.
A report in flight begins its retry interval; one that has left starts nothing. Then the arbiter chooses, and what it chooses at
a completion does not give way (log entry 30, the model's reading). (That the command lets the time run on to the
end of the stop bit, and changes nothing where no end is in prospect, is the model's choice, log entry 4; that the rates are compared at the completion, log entry 15; the whole tick that the end falls to, log entry 26.) -/
def Obligations.TransmissionCompletes : Prop :=
  ∀ (s : State) (t : Transmission) (n : Nat), s.held = false → s.link.tx = some t →
    (s.link.linkType = .spi → t.sent < 8 * (7 + t.frame.payload.length) → exec .transmitComplete s = .next s)
    ∧ (s.link.linkType = .spi ∧ n = 0 ∧ 8 * (7 + t.frame.payload.length) ≤ t.sent
      ∨ s.link.linkType = .uart ∧ s.quietFor n ∧ n =
        (10 * (7 + t.frame.payload.length) * 50000000 + s.link.rate.baud - 1) / s.link.rate.baud
          - (s.clock - t.startedAt) →
    (∀ pre e post, t.frame.kind = .response → s.link.window = pre ++ e :: post → e.state = .sending →
      (∀ x ∈ pre ++ post, x.state ≠ .sending) →
      let kept := s.link.recent.filter (fun x => x.tag ≠ e.tag)
      let u := (elapse n s).withLink { s.sent.link with
        window := pre ++ post
        recent := if e.tag ≠ 0 ∧ e.record = true then
            (if kept.length < 4 then kept else kept.drop 1) ++ [⟨e.tag, e.code, e.response⟩]
          else s.link.recent }
      (e.after = .nothing ∨ e.after = .changeRate s.link.rate → exec .transmitComplete s = .next (arbitrate u).firm)
      ∧ (∀ r, e.after = .changeRate r → r ≠ s.link.rate → s.link.assembler = .hunting →
        exec .transmitComplete s = .next (arbitrate (u.withLink { u.link with rate := r, byteStarted := false })).firm)
      ∧ (∀ r, e.after = .changeRate r → r ≠ s.link.rate → s.link.assembler ≠ .hunting → ∃ v,
        exec .transmitComplete s = .next (arbitrate v).firm
        ∧ v.link = { u.link with assembler := .hunting, rate := r, byteStarted := false }
        ∧ SameButLink (countFault .frameMalformed none (u.withLink { u.link with assembler := .hunting })) v)
      ∧ (e.after = .restarted .keep →
        exec .transmitComplete s = .next (arbitrate (createReport (.resetDone .restartKeep) u)).firm)
      ∧ (e.after = .restarted .clear →
        exec .transmitComplete s = .next (arbitrate (createReport (.resetDone .restartClear) u)).firm))
    ∧ (t.frame.kind = .report →
      (∀ pre r post, s.reports.flight = pre ++ r :: post → r.seq = some t.frame.tag →
        (∀ x ∈ pre ++ post, x.seq ≠ some t.frame.tag) → r.state = .sending →
        exec .transmitComplete s = .next (arbitrate ((elapse n s.sent).withReports { s.reports with
          flight := pre ++ { r with state := .awaiting (s.clock + n) s.reports.retryInterval } :: post })).firm)
      ∧ ((∀ x ∈ s.reports.flight, x.seq ≠ some t.frame.tag) →
        exec .transmitComplete s = .next (arbitrate (elapse n s.sent)).firm)))

/-! ## Silence and fatal entry -/

/-- The silence timer expires: it stops and HOST_SILENT is counted. A counting of a fatal kind in ARMED or DRAINING, with
room for its reports: the entry is counted, the FAULT report if one is due comes first, the run state is FAULTED with the
silence timer stopped, every slot is FREE with its gen kept, both lists and every holder set are empty, every train is
stopped, every pin shows its safe level, and RUN_STATE names the kind and the number freed. Nothing else changes. (That the command
lets the time run on to the expiry is the model's choice, log entry 4.) -/
def Obligations.SilenceAndFatalEntry : Prop :=
  (∀ (s : State) (start n : Nat), s.held = false → s.run.silence = some start →
    n = s.run.silenceLimit * 50000 - (s.clock - start) → s.quietFor n →
    exec .silenceTimerExpiry s = .next (arbitrate (countFault .hostSilent none
      ((elapse n s).withRun { s.run with silence := none }))))
  ∧ ∀ (k : FaultKind) (d : Option FaultDetail) (s : State), s.hasRoom 2 → s.isFatal k = true →
    s.run.state = .armed ∨ s.run.state = .draining →
    let told := if (s.faultEntry k).count = 0 ∧ s.isReported k = true then s.reports.filed (.fault k 1 d) else s.reports
    countFault k d s = { s with
      faults := (recordFault k d s).faults
      run := { s.run with state := .faulted, silence := none }
      sched := { s.sched with
        slots := tabulate (fun i => ⟨(s.slot i).gen, .free⟩), timeList := [], travelList := [] }
      outputs := tabulate (fun l => { s.output l with
        running := false, periodStart := none, stopAtEnd := false, inHigh := false, holders := [] })
      reports := told.filed (.runState .faulted (.fatal k) (96 - s.freeCount)) }
    ∧ ∀ l, s.held = false → (countFault k d s).pinLevel l = (s.output l).safe

/-! ## The time list, the trains and the inputs -/

/-- The head of the time list is reached, now or as time runs on to it, the rest being ahead. A START of a WAITING action on its idle line: the action is
HOLDING, one more occurrence fired, its line's only holder, its END filed its width later. The END of a last occurrence:
the line is released and the slot freed COMPLETE, or COMPLETE_EARLY after a FINISH. The END of an earlier one whose next
due is ahead: the line is released, and the action is WAITING with its next START filed. -/
def Obligations.TimeListExpires : Prop :=
  ∀ (s : State) (e : TimeEntry) (rest : List TimeEntry) (n : Nat), s.held = false → s.sched.timeList = e :: rest →
    e.key = s.now ∨ tickAhead s.now e.key = true → (∀ y ∈ rest, tickAhead e.key y.key = true) → n = (e.key - s.now).toNat → s.quietFor n →
    let u := (elapse n s).withSched { s.sched with timeList := rest }
    (∀ a : Sys2Proof.Machine.Action, e.phase = .start → s.slot e.handle.slot = ⟨e.handle.gen, .waiting a⟩ →
      a.due = .time e.key → a.width ≠ 0 → (s.output a.line).holders = [] →
      exec .timeListExpiry s = .next (arbitrate ((u.putOutput a.line { s.output a.line with holders := [e.handle] }).withSched
        { s.sched with
          slots := setAt s.sched.slots e.handle.slot
            ⟨e.handle.gen, .holding { a with fired := a.fired + 1 } (e.key + a.width.setWidth 48)⟩
          timeList := fileBy TimeEntry.before
            ⟨e.handle, .finish, e.key + a.width.setWidth 48, s.sched.nextSerial⟩ rest
          nextSerial := s.sched.nextSerial + 1 })))
    ∧ (∀ (a : Sys2Proof.Machine.Action) (finish : Tick), e.phase = .finish →
      s.slot e.handle.slot = ⟨e.handle.gen, .holding a finish⟩ →
      let o := { s.output a.line with holders := (s.output a.line).holders.filter (fun h => h ≠ e.handle) }
      (a.repeatsLeft = 0 → exec .timeListExpiry s = .next (arbitrate
        (freeSlot e.handle (if a.finishRequested then .completeEarly else .complete) (u.putOutput a.line o))))
      ∧ (∀ (m : Nat) (interval : BitVec 32) (t : Tick), a.repeatsLeft = m + 1 → a.interval = some interval →
        a.due = .time t → tickAhead e.key (t + interval.setWidth 48) = true →
        exec .timeListExpiry s = .next (arbitrate ((u.putOutput a.line o).withSched { s.sched with
          slots := setAt s.sched.slots e.handle.slot
            ⟨e.handle.gen, .waiting { a with due := .time (t + interval.setWidth 48), repeatsLeft := m }⟩
          timeList := fileBy TimeEntry.before
            ⟨e.handle, .start, t + interval.setWidth 48, s.sched.nextSerial⟩ rest
          nextSerial := s.sched.nextSerial + 1 })))
      ∧ (∀ (m : Nat) (interval : BitVec 32) (c : Count), a.repeatsLeft = m + 1 → a.interval = some interval →
        a.due = .travel c → countAhead s.timebase.travelCount (c + interval) = true →
        exec .timeListExpiry s = .next (arbitrate ((u.putOutput a.line o).withSched { s.sched with
          slots := setAt s.sched.slots e.handle.slot
            ⟨e.handle.gen, .waiting { a with due := .travel (c + interval), repeatsLeft := m }⟩
          timeList := rest
          travelList := fileBy TravelEntry.before ⟨e.handle, c + interval, s.sched.nextSerial⟩ s.sched.travelList
          nextSerial := s.sched.nextSerial + 1 }))))

/-- The events of a running train. A running TRAIN line outside reset and FAULTED shows its asserted level in the high part of
a period and its idle level in the rest; with no train running it shows the idle level. Its high time runs out: the pin goes to
the idle level for the rest of the period. A period ends: it is counted; the train stops, the pin at its idle level, with
TRAIN_DONE when its burst is complete or it was to stop; else the next period begins at this tick, with the staged values when
some are pending, the pin at its asserted level unless the high time is 0. (That staged values become absent when they are
applied is the model's reading, log entry 23.) -/
def Obligations.TrainEvents : Prop :=
  (∀ (s : State) (l : OutLine), s.held = false → s.run.state ≠ .faulted → (s.output l).mode = .train →
    ((s.output l).running = true → (s.output l).inHigh = true → s.pinLevel l = flipLevel (s.output l).idle)
    ∧ ((s.output l).running = false ∨ (s.output l).inHigh = false → s.pinLevel l = (s.output l).idle))
  ∧ ∀ (s : State) (l : OutLine) (start : Tick) (v : TrainValues) (n : Nat), s.held = false →
    (s.output l).running = true → (s.output l).periodStart = some start → (s.output l).applied = some v → s.quietFor n →
    let seen (t : State) (level : Level) : Prop :=
      (s.output l).mode = .train → s.run.state ≠ .faulted → t.pinLevel l = level
    ((s.output l).inHigh = true → v.high.toNat < v.period.toNat → n = v.high.toNat - (s.now - start).toNat → ∃ t,
      t = arbitrate ((elapse n s).putOutput l { s.output l with inHigh := false })
      ∧ exec (.trainHighTimeEnd l) s = .next t ∧ seen t (s.output l).idle)
    ∧ (n = v.period.toNat - (s.now - start).toNat →
      let done := if (s.output l).periodsCompleted < 4294967295 then (s.output l).periodsCompleted + 1
        else (s.output l).periodsCompleted
      let ends := (0 < (s.output l).burst ∧ done = (s.output l).burst) ∨ (s.output l).stopAtEnd = true
      (ends → ∃ t, t = arbitrate (createReport (.trainDone l done) ((elapse n s).putOutput l { s.output l with
          periodsCompleted := done, running := false, periodStart := none, stopAtEnd := false, inHigh := false }))
        ∧ exec (.trainPeriodEnd l) s = .next t ∧ (s.hasRoom 1 → seen t (s.output l).idle))
      ∧ (¬ ends → (s.output l).stagedPending = false → ∃ t, t = arbitrate ((elapse n s).putOutput l { s.output l with
          periodsCompleted := done, periodStart := some (elapse n s).now, inHigh := decide (v.high ≠ 0) })
        ∧ exec (.trainPeriodEnd l) s = .next t
        ∧ seen t (if v.high = 0 then (s.output l).idle else flipLevel (s.output l).idle))
      ∧ (∀ w, ¬ ends → (s.output l).stagedPending = true → (s.output l).staged = some w → ∃ t,
        t = arbitrate ((elapse n s).putOutput l { s.output l with
          periodsCompleted := done, periodStart := some (elapse n s).now, inHigh := decide (w.high ≠ 0)
          applied := some w, staged := none, stagedPending := false })
        ∧ exec (.trainPeriodEnd l) s = .next t
        ∧ seen t (if w.high = 0 then (s.output l).idle else flipLevel (s.output l).idle)))

/-- A pin that has not been sampled at this tick is sampled at a level. A change from the filtered level begins a
qualification at this tick when none is present; with a width of 0 the edge is accepted at once, whatever the line's settings.
A return abandons the qualification: a glitch is counted up to 65535 on IN0 to IN7, but none with a width of 0, none for a
qualification that SET_INPUT or a restart began at this very tick, and nothing on SYNC. A level already seen changes nothing
but the raw level. A pin that has been sampled at this tick is sampled at the next, unless something of the part's own falls
due before: a level that differs from one tick's sample to the next is seen, one within a tick is not. (That a second raw
change of a tick is taken as the next tick's sample is the model's choice, log entry 27; what restarts a qualification with
width 0, log entry 21; the glitch of a width of 0, log entry 22.) -/
def Obligations.RawChanges : Prop :=
  ∀ (s : State) (v : Level), s.held = false →
    (∀ l : InLine,
      (s.input l).sampledAt ≠ some s.clock →
      let x := { s.input l with raw := v, sampledAt := some s.clock }
      (v ≠ x.filtered → x.qual = none → 0 < x.width →
        exec (.inputRawChange l v) s = .next (arbitrate (s.putInput l { x with qual := some ⟨s.now, v⟩ })))
      ∧ (v ≠ x.filtered → x.qual = none → x.width = 0 →
        exec (.inputRawChange l v) s = exec (.inputEdgeAccepted l) (s.putInput l { x with qual := some ⟨s.now, v⟩ })
        ∧ (x.edgeSelect = .none → s.timebase.source ≠ some l →
          exec (.inputRawChange l v) s = .next (arbitrate (s.putInput l { x with filtered := v }))))
      ∧ (v ≠ x.filtered → x.qual ≠ none → exec (.inputRawChange l v) s = .next (arbitrate (s.putInput l x)))
      ∧ (∀ q, v = x.filtered → x.qual = some q →
        (0 < x.width → q.rawTick ≠ s.now →
          exec (.inputRawChange l v) s = .next (arbitrate (s.putInput l { x with
            qual := none, glitches := if x.glitches < 65535 then x.glitches + 1 else x.glitches })))
        ∧ (x.width = 0 ∨ q.rawTick = s.now →
          exec (.inputRawChange l v) s = .next (arbitrate (s.putInput l { x with qual := none }))))
      ∧ (v = x.filtered → x.qual = none → exec (.inputRawChange l v) s = .next (arbitrate (s.putInput l x))))
    ∧ (∀ l : InLine, (s.input l).sampledAt = some s.clock →
      (s.quietFor 1 → exec (.inputRawChange l v) s = exec (.inputRawChange l v) (elapse 1 s))
      ∧ (¬ s.quietFor 1 → exec (.inputRawChange l v) s = .next s))
    ∧ (s.timebase.syncSampledAt ≠ some s.clock →
      let x := { s.timebase with syncRaw := v, syncSampledAt := some s.clock }
      (v ≠ x.syncFiltered → x.syncQual = none → 0 < x.syncWidth →
        exec (.syncRawChange v) s = .next (arbitrate (s.withTimebase { x with syncQual := some ⟨s.now, v⟩ })))
      ∧ (v ≠ x.syncFiltered → x.syncQual = none → x.syncWidth = 0 →
        exec (.syncRawChange v) s = exec .syncEdgeAccepted (s.withTimebase { x with syncQual := some ⟨s.now, v⟩ })
        ∧ (v = .low → exec (.syncRawChange v) s = .next (arbitrate (s.withTimebase { x with syncFiltered := v }))))
      ∧ (v ≠ x.syncFiltered → x.syncQual ≠ none →
        exec (.syncRawChange v) s = .next (arbitrate (s.withTimebase x)))
      ∧ (v = x.syncFiltered → exec (.syncRawChange v) s = .next (arbitrate (s.withTimebase { x with syncQual := none }))))
    ∧ (s.timebase.syncSampledAt = some s.clock →
      (s.quietFor 1 → exec (.syncRawChange v) s = exec (.syncRawChange v) (elapse 1 s))
      ∧ (¬ s.quietFor 1 → exec (.syncRawChange v) s = .next s))

/-- An input edge is accepted, its width elapsed, in any run state: the filtered level changes. Off the travel source, or
falling, it is then handed on: not selected, it goes no further; selected, it is offered to the journal if the line's journal
enable is set, and evaluated against the rules. A rising edge of the travel source, nothing of the time list being due, first
advances the travel count, and a START due at the new count on its idle line is taken, its START tick the edge's timestamp,
before the edge, which carries the new count, is handed on in the same way. -/
def Obligations.EdgesAccepted : Prop :=
  ∀ (s : State) (l : InLine) (q : Qualification) (n : Nat), s.held = false →
    (s.input l).qual = some q → n = (s.input l).width - (s.now - q.rawTick).toNat → s.quietFor n →
    let kind := if q.level = .high then EdgeKind.rising else .falling
    let selected := (s.input l).edgeSelect = .both ∨ ((s.input l).edgeSelect = .rising ∧ kind = .rising)
      ∨ ((s.input l).edgeSelect = .falling ∧ kind = .falling)
    let u := (elapse n s).putInput l { s.input l with filtered := q.level, qual := none }
    let counted := u.withTimebase { u.timebase with travelCount := s.timebase.travelCount + 1 }
    (s.timebase.source ≠ some l ∨ q.level = .low →
      ∃ w, EdgeHandedOn l kind q.rawTick selected u w ∧ exec (.inputEdgeAccepted l) s = .next (arbitrate w))
    ∧ (s.timebase.source = some l → q.level = .high → u.timeListAhead →
      ((∀ e ∈ s.sched.travelList, countAhead (s.timebase.travelCount + 1) e.key = true) →
        ∃ w, EdgeHandedOn l kind q.rawTick selected counted w
          ∧ exec (.inputEdgeAccepted l) s = .next (arbitrate w))
      ∧ (∀ (e : TravelEntry) (rest : List TravelEntry) (a : Sys2Proof.Machine.Action), s.sched.travelList = e :: rest →
        e.key = s.timebase.travelCount + 1 → (∀ y ∈ rest, countAhead e.key y.key = true) →
        s.slot e.handle.slot = ⟨e.handle.gen, .waiting a⟩ →
        a.due = .travel e.key → (s.output a.line).holders = [] →
        tickAhead u.now (q.rawTick + a.width.setWidth 48) = true →
        ∃ w, EdgeHandedOn l kind q.rawTick selected ((counted.putOutput a.line
            { s.output a.line with holders := [e.handle] }).withSched { s.sched with
              slots := setAt s.sched.slots e.handle.slot
                ⟨e.handle.gen, .holding { a with fired := a.fired + 1 } (q.rawTick + a.width.setWidth 48)⟩
              timeList := fileBy TimeEntry.before
                ⟨e.handle, .finish, q.rawTick + a.width.setWidth 48, s.sched.nextSerial⟩ s.sched.timeList
              travelList := rest
              nextSerial := s.sched.nextSerial + 1 }) w
          ∧ exec (.inputEdgeAccepted l) s = .next (arbitrate w)))

/-- A SYNC edge is accepted, its width elapsed. A falling edge changes the filtered level alone. A rising edge that finds SYNC
not armed is timed: SYNC_SEEN with the interval since the last one when reporting is on, and its timestamp is kept. A rising
edge that finds SYNC armed loads the timeline so that its timestamp becomes the preset: qualifications in progress and
period starts move by the same offset, SYNC is disarmed, no last timestamp is left, and a loaded SYNC_SEEN is created. -/
def Obligations.SyncEdgesAccepted : Prop :=
  ∀ (s : State) (q : Qualification) (n : Nat), s.held = false → s.timebase.syncQual = some q →
    n = s.timebase.syncWidth - (s.now - q.rawTick).toNat → s.quietFor n →
    let u := (elapse n s).withTimebase { (elapse n s).timebase with syncFiltered := q.level, syncQual := none }
    (q.level = .low → exec .syncEdgeAccepted s = .next (arbitrate u))
    ∧ (q.level = .high → s.timebase.preset = none →
      (s.timebase.syncReporting = false → exec .syncEdgeAccepted s
        = .next (arbitrate (u.withTimebase { u.timebase with lastSync := some q.rawTick })))
      ∧ (s.timebase.syncReporting = true → exec .syncEdgeAccepted s
        = .next (arbitrate ((createReport (.syncSeen q.rawTick (s.timebase.lastSync.map (fun t => q.rawTick - t)) false)
          u).withTimebase { u.timebase with lastSync := some q.rawTick }))))
    ∧ (∀ p, q.level = .high → s.timebase.preset = some p → exec .syncEdgeAccepted s
      = .next (arbitrate (createReport (.syncSeen p none true) { u with
        timebase := { u.timebase with timeline := p + (u.now - q.rawTick), preset := none, lastSync := none }
        inputs := tabulate (fun l => { s.input l with
          qual := (s.input l).qual.map (fun x => { x with rawTick := x.rawTick + (p - q.rawTick) }) })
        outputs := tabulate (fun l => { s.output l with
          periodStart := (s.output l).periodStart.map (fun x => x + (p - q.rawTick)) }) })))

/-! ## The rules -/

/-- A rule examined for an edge. Outside ARMED no rule is evaluated; one that is not LISTENING, or does not match by line and
kind, is passed over. A matching one is counted in exactly one count: gated when its gate is not met or, of base TRAVEL, no
travel source is selected; suppressed within its holdoff; dropped when its slots would cut into the host reserve; else
fired, SPENT at its limit. The counts stop at 4294967295, and no other rule changes. An edge is evaluated by examining the
rules 0 to 15 in ascending number, each while the part is ARMED. -/
def Obligations.RuleCountsEdgeOnce : Prop :=
  (∀ (e : EdgeEvent) (s : State), s.run.state ≠ .armed → evaluateEdge e s = s)
  ∧ (∀ (e : EdgeEvent) (s : State), evaluateEdge e s = [(0 : RuleNo), 1, 2, 3, 4, 5, 6, 7, 8, 9, 10, 11, 12, 13, 14, 15].foldl
      (fun u r => if u.run.state = .armed then evalRule r e u else u) s)
  ∧ ∀ (r : RuleNo) (e : EdgeEvent) (s : State),
    let x := s.rule r
    let more (n : Nat) : Nat := if n < 4294967295 then n + 1 else n
    let isMatch := (x.active.matchSet.getLsbD e.line.val = decide (x.active.sense = .positive))
      ∧ (x.active.edgeKind = .either ∨ (x.active.edgeKind = .rising ∧ e.kind = .rising)
        ∨ (x.active.edgeKind = .falling ∧ e.kind = .falling))
    let open_ := ¬ (x.active.base = .travel ∧ s.timebase.source = none)
      ∧ ∀ l v, x.active.gate = some (l, v) → (s.input l).filtered = v
    let heldOff := ∃ t, x.lastFiring = some t ∧ (e.timestamp - t).toNat < x.active.holdoff.toNat
    let asked := x.active.templates.length
    (x.state ≠ .listening ∨ ¬ isMatch → evalRule r e s = s)
    ∧ (x.state = .listening → isMatch → ¬ open_ → evalRule r e s = s.putRule r { x with gated := more x.gated })
    ∧ (x.state = .listening → isMatch → open_ → heldOff →
      evalRule r e s = s.putRule r { x with suppressed := more x.suppressed })
    ∧ (x.state = .listening → isMatch → open_ → ¬ heldOff → s.freeCount < asked + s.sched.reserve →
      (evalRule r e s).rule r = { x with dropped := more x.dropped }
      ∧ ∃ t, evalRule r e s = createReport (.firingDropped r e.line e.timestamp asked s.freeCount)
          (t.putRule r { x with dropped := more x.dropped })
        ∧ t = countFault .poolExhausted (some (.ruleOrigin r)) s)
    ∧ (x.state = .listening → isMatch → open_ → ¬ heldOff → asked + s.sched.reserve ≤ s.freeCount →
      (evalRule r e s).rule r = { x with
        fired := more x.fired
        lastFiring := some e.timestamp
        state := if x.active.limit = some (more x.fired) then .spent else .listening })
    ∧ ∀ j, j ≠ r → (evalRule r e s).rule j = s.rule j

/-- A LISTENING rule with one to four templates fires on an edge it matches, its gate and holdoff passed and its slots free: the
lowest FREE slots take its actions in template order, their gens incremented, the origin of each naming the rule, its
generation and the firing serial, its due the edge's timestamp or travel count plus the offset; each then joins its list in
that order, to wait there, or to be taken or skipped when its due is reached or behind, as LateStart says; then the rule's
fired count and last firing are set, FIRED with the handles is created when wanted, and a rule at its limit is SPENT with
RULE_SPENT. With one template of base TIME whose due is ahead, no limit and nothing of the time list due, nothing else
changes. -/
def Obligations.RuleFires : Prop :=
  (∀ (s : State) (r : RuleNo) (e : EdgeEvent) (slots : List SlotNo),
    let x := s.rule r
    let serial := if x.fired < 4294967295 then x.fired + 1 else x.fired
    let action (t : Template) : Sys2Proof.Machine.Action := ⟨.rule r x.generation serial, t.line,
      match x.active.base with
        | .time => .time (e.timestamp + t.offset.setWidth 48)
        | .travel => .travel (e.travelCount + t.offset),
      t.width, t.repeats, if t.repeats = 0 then none else t.interval, 0, 0, x.active.reportDone, false⟩
    let handles : List Handle := slots.map (fun i => ⟨i, (s.slot i).gen + 1⟩)
    x.state = .listening → x.active.matchesEdge e = true → s.gateMet x.active = true → x.heldOff e.timestamp = false →
    x.active.templates.length + s.sched.reserve ≤ s.freeCount → slots.length = x.active.templates.length →
    slots.Pairwise (fun i j => i < j) → (∀ i ∈ slots, (s.slot i).isFree = true) →
    (∀ i ∈ slots, ∀ j, j < i → (s.slot j).isFree = true → j ∈ slots) →
    let granted := (slots.zip x.active.templates).foldl
      (fun u p => u.putSlot p.1 ⟨(s.slot p.1).gen + 1, .waiting (action p.2)⟩) s
    let joined := handles.foldl (fun u h => joinAction h u) granted
    let counted := joined.putRule r { joined.rule r with fired := serial, lastFiring := some e.timestamp }
    let told := if x.active.reportFired then
        createReport (.fired r x.generation serial e.line e.timestamp handles) counted
      else counted
    evalRule r e s = if x.active.limit = some serial then
        createReport (.ruleSpent r x.generation) (told.putRule r { told.rule r with state := .spent })
      else told)
  ∧ ∀ (s : State) (r : RuleNo) (e : EdgeEvent) (t : Template) (i : SlotNo),
    let x := s.rule r
    let gen := (s.slot i).gen + 1
    let serial := if x.fired < 4294967295 then x.fired + 1 else x.fired
    let due := e.timestamp + t.offset.setWidth 48
    x.state = .listening → x.active.matchesEdge e = true → s.gateMet x.active = true → x.heldOff e.timestamp = false →
    x.active.templates = [t] → x.active.base = .time → x.active.limit = none → tickAhead s.now due = true →
    1 + s.sched.reserve ≤ s.freeCount → (s.slot i).isFree = true → (∀ j, j < i → (s.slot j).isFree = false) →
    s.timeListAhead →
    let a : Sys2Proof.Machine.Action := ⟨.rule r x.generation serial, t.line, .time due, t.width, t.repeats,
      if t.repeats = 0 then none else t.interval, 0, 0, x.active.reportDone, false⟩
    let fired : State := { s.putRule r { x with fired := serial, lastFiring := some e.timestamp } with
      sched := { s.sched with
        slots := setAt s.sched.slots i ⟨gen, .waiting a⟩
        timeList := fileBy TimeEntry.before ⟨⟨i, gen⟩, .start, due, s.sched.nextSerial⟩ s.sched.timeList
        nextSerial := s.sched.nextSerial + 1 } }
    evalRule r e s = if x.active.reportFired then
        createReport (.fired r x.generation serial e.line e.timestamp [⟨i, gen⟩]) fired
      else fired

/-! ## Resets -/

/-- FULL_RESET: every block is at its full-reset values, with the raw levels of IN0 to IN7 and SYNC as they stand and as the
filtered levels, the link type as LINKSEL says at 115200, and RESET_DONE with its cause the one report in flight, in
transmission with sequence number 1. RESETN_DRIVEN_LOW: the part is held and sends nothing, every output pin is LOW, ATTN is
LOW, TXD rests HIGH and SDO is not driven. (That RESETN_DRIVEN_LOW leaves every block's state as it was is the model's choice,
log entry 11; the values of the link fields and of the marks of the last samples that are the model's own, log entry 24; the
raw levels and LINKSEL in `State.reset`, log entries 1 and 2.) -/
def Obligations.Resets : Prop :=
  (∀ (cause : ResetCause) (sel : Level) (s : State), ∃ t, exec (.fullReset cause sel) s = .next t
    ∧ ResetValues t
    ∧ t.timebase = ⟨0, 0, none, 0, false, s.timebase.syncRaw, none, s.timebase.syncRaw, none, none, none⟩
    ∧ (∀ l, t.input l = ⟨.none, 0, false, (s.input l).raw, none, (s.input l).raw, none, 0⟩)
    ∧ t.link = ⟨if sel = .low then .uart else .spi, .b115200, .hunting, 0, false, false, 0, 0, [], [],
        some ⟨⟨.report, 1, [0x01, 0x00, if cause = .power then 0 else 1]⟩, 0, 0, none⟩⟩
    ∧ t.reports.flight = [⟨.resetDone (if cause = .power then .power else .resetLine), 0, .sending, some 1, 0, some 3⟩]
    ∧ t.reports.nextSeq = 2 ∧ t.reports.nextCreation = 1
    ∧ t.held = false ∧ t.clock = 0 ∧ (∀ l, t.pinLevel l = .low))
  ∧ ∀ s : State, ∃ t, exec .resetnDrivenLow s = .next t
    ∧ t = { s with held := true, link := { s.link with tx := none } }
    ∧ (∀ l, t.pinLevel l = .low) ∧ t.attn = .low ∧ t.txdRests = true ∧ t.txd = .high ∧ t.sdoDriven = false
end

