-- ==== Sys2Proof/Laws/State.lean ====
section
/-! SUPPORT. One lemma per field of State for each setter of Machine/Ops.lean, and per record for each replacement of one
record: what a later proof cites instead of unfolding an update. -/

namespace Sys2Proof.Machine

/-! ### withTimebase -/

@[simp] theorem State.withTimebase_timebase (s : State) (x : Timebase) : (s.withTimebase x).timebase = x := rfl
@[simp] theorem State.withTimebase_inputs (s : State) (x : Timebase) : (s.withTimebase x).inputs = s.inputs := rfl
@[simp] theorem State.withTimebase_journal (s : State) (x : Timebase) : (s.withTimebase x).journal = s.journal := rfl
@[simp] theorem State.withTimebase_rules (s : State) (x : Timebase) : (s.withTimebase x).rules = s.rules := rfl
@[simp] theorem State.withTimebase_sched (s : State) (x : Timebase) : (s.withTimebase x).sched = s.sched := rfl
@[simp] theorem State.withTimebase_outputs (s : State) (x : Timebase) : (s.withTimebase x).outputs = s.outputs := rfl
@[simp] theorem State.withTimebase_run (s : State) (x : Timebase) : (s.withTimebase x).run = s.run := rfl
@[simp] theorem State.withTimebase_link (s : State) (x : Timebase) : (s.withTimebase x).link = s.link := rfl
@[simp] theorem State.withTimebase_reports (s : State) (x : Timebase) : (s.withTimebase x).reports = s.reports := rfl
@[simp] theorem State.withTimebase_faults (s : State) (x : Timebase) : (s.withTimebase x).faults = s.faults := rfl
@[simp] theorem State.withTimebase_held (s : State) (x : Timebase) : (s.withTimebase x).held = s.held := rfl
@[simp] theorem State.withTimebase_clock (s : State) (x : Timebase) : (s.withTimebase x).clock = s.clock := rfl
@[simp] theorem State.withTimebase_choices (s : State) (x : Timebase) : (s.withTimebase x).choices = s.choices := rfl
@[simp] theorem State.withTimebase_pending (s : State) (x : Timebase) : (s.withTimebase x).pending = s.pending := rfl

/-! ### withInputs -/

@[simp] theorem State.withInputs_timebase (s : State) (x : Vector Input 8) : (s.withInputs x).timebase = s.timebase := rfl
@[simp] theorem State.withInputs_inputs (s : State) (x : Vector Input 8) : (s.withInputs x).inputs = x := rfl
@[simp] theorem State.withInputs_journal (s : State) (x : Vector Input 8) : (s.withInputs x).journal = s.journal := rfl
@[simp] theorem State.withInputs_rules (s : State) (x : Vector Input 8) : (s.withInputs x).rules = s.rules := rfl
@[simp] theorem State.withInputs_sched (s : State) (x : Vector Input 8) : (s.withInputs x).sched = s.sched := rfl
@[simp] theorem State.withInputs_outputs (s : State) (x : Vector Input 8) : (s.withInputs x).outputs = s.outputs := rfl
@[simp] theorem State.withInputs_run (s : State) (x : Vector Input 8) : (s.withInputs x).run = s.run := rfl
@[simp] theorem State.withInputs_link (s : State) (x : Vector Input 8) : (s.withInputs x).link = s.link := rfl
@[simp] theorem State.withInputs_reports (s : State) (x : Vector Input 8) : (s.withInputs x).reports = s.reports := rfl
@[simp] theorem State.withInputs_faults (s : State) (x : Vector Input 8) : (s.withInputs x).faults = s.faults := rfl
@[simp] theorem State.withInputs_held (s : State) (x : Vector Input 8) : (s.withInputs x).held = s.held := rfl
@[simp] theorem State.withInputs_clock (s : State) (x : Vector Input 8) : (s.withInputs x).clock = s.clock := rfl
@[simp] theorem State.withInputs_choices (s : State) (x : Vector Input 8) : (s.withInputs x).choices = s.choices := rfl
@[simp] theorem State.withInputs_pending (s : State) (x : Vector Input 8) : (s.withInputs x).pending = s.pending := rfl

/-! ### withJournal -/

@[simp] theorem State.withJournal_timebase (s : State) (x : Journal) : (s.withJournal x).timebase = s.timebase := rfl
@[simp] theorem State.withJournal_inputs (s : State) (x : Journal) : (s.withJournal x).inputs = s.inputs := rfl
@[simp] theorem State.withJournal_journal (s : State) (x : Journal) : (s.withJournal x).journal = x := rfl
@[simp] theorem State.withJournal_rules (s : State) (x : Journal) : (s.withJournal x).rules = s.rules := rfl
@[simp] theorem State.withJournal_sched (s : State) (x : Journal) : (s.withJournal x).sched = s.sched := rfl
@[simp] theorem State.withJournal_outputs (s : State) (x : Journal) : (s.withJournal x).outputs = s.outputs := rfl
@[simp] theorem State.withJournal_run (s : State) (x : Journal) : (s.withJournal x).run = s.run := rfl
@[simp] theorem State.withJournal_link (s : State) (x : Journal) : (s.withJournal x).link = s.link := rfl
@[simp] theorem State.withJournal_reports (s : State) (x : Journal) : (s.withJournal x).reports = s.reports := rfl
@[simp] theorem State.withJournal_faults (s : State) (x : Journal) : (s.withJournal x).faults = s.faults := rfl
@[simp] theorem State.withJournal_held (s : State) (x : Journal) : (s.withJournal x).held = s.held := rfl
@[simp] theorem State.withJournal_clock (s : State) (x : Journal) : (s.withJournal x).clock = s.clock := rfl
@[simp] theorem State.withJournal_choices (s : State) (x : Journal) : (s.withJournal x).choices = s.choices := rfl
@[simp] theorem State.withJournal_pending (s : State) (x : Journal) : (s.withJournal x).pending = s.pending := rfl

/-! ### withRules -/

@[simp] theorem State.withRules_timebase (s : State) (x : Vector Rule 16) : (s.withRules x).timebase = s.timebase := rfl
@[simp] theorem State.withRules_inputs (s : State) (x : Vector Rule 16) : (s.withRules x).inputs = s.inputs := rfl
@[simp] theorem State.withRules_journal (s : State) (x : Vector Rule 16) : (s.withRules x).journal = s.journal := rfl
@[simp] theorem State.withRules_rules (s : State) (x : Vector Rule 16) : (s.withRules x).rules = x := rfl
@[simp] theorem State.withRules_sched (s : State) (x : Vector Rule 16) : (s.withRules x).sched = s.sched := rfl
@[simp] theorem State.withRules_outputs (s : State) (x : Vector Rule 16) : (s.withRules x).outputs = s.outputs := rfl
@[simp] theorem State.withRules_run (s : State) (x : Vector Rule 16) : (s.withRules x).run = s.run := rfl
@[simp] theorem State.withRules_link (s : State) (x : Vector Rule 16) : (s.withRules x).link = s.link := rfl
@[simp] theorem State.withRules_reports (s : State) (x : Vector Rule 16) : (s.withRules x).reports = s.reports := rfl
@[simp] theorem State.withRules_faults (s : State) (x : Vector Rule 16) : (s.withRules x).faults = s.faults := rfl
@[simp] theorem State.withRules_held (s : State) (x : Vector Rule 16) : (s.withRules x).held = s.held := rfl
@[simp] theorem State.withRules_clock (s : State) (x : Vector Rule 16) : (s.withRules x).clock = s.clock := rfl
@[simp] theorem State.withRules_choices (s : State) (x : Vector Rule 16) : (s.withRules x).choices = s.choices := rfl
@[simp] theorem State.withRules_pending (s : State) (x : Vector Rule 16) : (s.withRules x).pending = s.pending := rfl

/-! ### withSched -/

@[simp] theorem State.withSched_timebase (s : State) (x : Scheduler) : (s.withSched x).timebase = s.timebase := rfl
@[simp] theorem State.withSched_inputs (s : State) (x : Scheduler) : (s.withSched x).inputs = s.inputs := rfl
@[simp] theorem State.withSched_journal (s : State) (x : Scheduler) : (s.withSched x).journal = s.journal := rfl
@[simp] theorem State.withSched_rules (s : State) (x : Scheduler) : (s.withSched x).rules = s.rules := rfl
@[simp] theorem State.withSched_sched (s : State) (x : Scheduler) : (s.withSched x).sched = x := rfl
@[simp] theorem State.withSched_outputs (s : State) (x : Scheduler) : (s.withSched x).outputs = s.outputs := rfl
@[simp] theorem State.withSched_run (s : State) (x : Scheduler) : (s.withSched x).run = s.run := rfl
@[simp] theorem State.withSched_link (s : State) (x : Scheduler) : (s.withSched x).link = s.link := rfl
@[simp] theorem State.withSched_reports (s : State) (x : Scheduler) : (s.withSched x).reports = s.reports := rfl
@[simp] theorem State.withSched_faults (s : State) (x : Scheduler) : (s.withSched x).faults = s.faults := rfl
@[simp] theorem State.withSched_held (s : State) (x : Scheduler) : (s.withSched x).held = s.held := rfl
@[simp] theorem State.withSched_clock (s : State) (x : Scheduler) : (s.withSched x).clock = s.clock := rfl
@[simp] theorem State.withSched_choices (s : State) (x : Scheduler) : (s.withSched x).choices = s.choices := rfl
@[simp] theorem State.withSched_pending (s : State) (x : Scheduler) : (s.withSched x).pending = s.pending := rfl

/-! ### withOutputs -/

@[simp] theorem State.withOutputs_timebase (s : State) (x : Vector Output 12) : (s.withOutputs x).timebase = s.timebase := rfl
@[simp] theorem State.withOutputs_inputs (s : State) (x : Vector Output 12) : (s.withOutputs x).inputs = s.inputs := rfl
@[simp] theorem State.withOutputs_journal (s : State) (x : Vector Output 12) : (s.withOutputs x).journal = s.journal := rfl
@[simp] theorem State.withOutputs_rules (s : State) (x : Vector Output 12) : (s.withOutputs x).rules = s.rules := rfl
@[simp] theorem State.withOutputs_sched (s : State) (x : Vector Output 12) : (s.withOutputs x).sched = s.sched := rfl
@[simp] theorem State.withOutputs_outputs (s : State) (x : Vector Output 12) : (s.withOutputs x).outputs = x := rfl
@[simp] theorem State.withOutputs_run (s : State) (x : Vector Output 12) : (s.withOutputs x).run = s.run := rfl
@[simp] theorem State.withOutputs_link (s : State) (x : Vector Output 12) : (s.withOutputs x).link = s.link := rfl
@[simp] theorem State.withOutputs_reports (s : State) (x : Vector Output 12) : (s.withOutputs x).reports = s.reports := rfl
@[simp] theorem State.withOutputs_faults (s : State) (x : Vector Output 12) : (s.withOutputs x).faults = s.faults := rfl
@[simp] theorem State.withOutputs_held (s : State) (x : Vector Output 12) : (s.withOutputs x).held = s.held := rfl
@[simp] theorem State.withOutputs_clock (s : State) (x : Vector Output 12) : (s.withOutputs x).clock = s.clock := rfl
@[simp] theorem State.withOutputs_choices (s : State) (x : Vector Output 12) : (s.withOutputs x).choices = s.choices := rfl
@[simp] theorem State.withOutputs_pending (s : State) (x : Vector Output 12) : (s.withOutputs x).pending = s.pending := rfl

/-! ### withRun -/

@[simp] theorem State.withRun_timebase (s : State) (x : RunControl) : (s.withRun x).timebase = s.timebase := rfl
@[simp] theorem State.withRun_inputs (s : State) (x : RunControl) : (s.withRun x).inputs = s.inputs := rfl
@[simp] theorem State.withRun_journal (s : State) (x : RunControl) : (s.withRun x).journal = s.journal := rfl
@[simp] theorem State.withRun_rules (s : State) (x : RunControl) : (s.withRun x).rules = s.rules := rfl
@[simp] theorem State.withRun_sched (s : State) (x : RunControl) : (s.withRun x).sched = s.sched := rfl
@[simp] theorem State.withRun_outputs (s : State) (x : RunControl) : (s.withRun x).outputs = s.outputs := rfl
@[simp] theorem State.withRun_run (s : State) (x : RunControl) : (s.withRun x).run = x := rfl
@[simp] theorem State.withRun_link (s : State) (x : RunControl) : (s.withRun x).link = s.link := rfl
@[simp] theorem State.withRun_reports (s : State) (x : RunControl) : (s.withRun x).reports = s.reports := rfl
@[simp] theorem State.withRun_faults (s : State) (x : RunControl) : (s.withRun x).faults = s.faults := rfl
@[simp] theorem State.withRun_held (s : State) (x : RunControl) : (s.withRun x).held = s.held := rfl
@[simp] theorem State.withRun_clock (s : State) (x : RunControl) : (s.withRun x).clock = s.clock := rfl
@[simp] theorem State.withRun_choices (s : State) (x : RunControl) : (s.withRun x).choices = s.choices := rfl
@[simp] theorem State.withRun_pending (s : State) (x : RunControl) : (s.withRun x).pending = s.pending := rfl

/-! ### withLink -/

@[simp] theorem State.withLink_timebase (s : State) (x : HostLink) : (s.withLink x).timebase = s.timebase := rfl
@[simp] theorem State.withLink_inputs (s : State) (x : HostLink) : (s.withLink x).inputs = s.inputs := rfl
@[simp] theorem State.withLink_journal (s : State) (x : HostLink) : (s.withLink x).journal = s.journal := rfl
@[simp] theorem State.withLink_rules (s : State) (x : HostLink) : (s.withLink x).rules = s.rules := rfl
@[simp] theorem State.withLink_sched (s : State) (x : HostLink) : (s.withLink x).sched = s.sched := rfl
@[simp] theorem State.withLink_outputs (s : State) (x : HostLink) : (s.withLink x).outputs = s.outputs := rfl
@[simp] theorem State.withLink_run (s : State) (x : HostLink) : (s.withLink x).run = s.run := rfl
@[simp] theorem State.withLink_link (s : State) (x : HostLink) : (s.withLink x).link = x := rfl
@[simp] theorem State.withLink_reports (s : State) (x : HostLink) : (s.withLink x).reports = s.reports := rfl
@[simp] theorem State.withLink_faults (s : State) (x : HostLink) : (s.withLink x).faults = s.faults := rfl
@[simp] theorem State.withLink_held (s : State) (x : HostLink) : (s.withLink x).held = s.held := rfl
@[simp] theorem State.withLink_clock (s : State) (x : HostLink) : (s.withLink x).clock = s.clock := rfl
@[simp] theorem State.withLink_choices (s : State) (x : HostLink) : (s.withLink x).choices = s.choices := rfl
@[simp] theorem State.withLink_pending (s : State) (x : HostLink) : (s.withLink x).pending = s.pending := rfl

/-! ### withReports -/

@[simp] theorem State.withReports_timebase (s : State) (x : ReportUnit) : (s.withReports x).timebase = s.timebase := rfl
@[simp] theorem State.withReports_inputs (s : State) (x : ReportUnit) : (s.withReports x).inputs = s.inputs := rfl
@[simp] theorem State.withReports_journal (s : State) (x : ReportUnit) : (s.withReports x).journal = s.journal := rfl
@[simp] theorem State.withReports_rules (s : State) (x : ReportUnit) : (s.withReports x).rules = s.rules := rfl
@[simp] theorem State.withReports_sched (s : State) (x : ReportUnit) : (s.withReports x).sched = s.sched := rfl
@[simp] theorem State.withReports_outputs (s : State) (x : ReportUnit) : (s.withReports x).outputs = s.outputs := rfl
@[simp] theorem State.withReports_run (s : State) (x : ReportUnit) : (s.withReports x).run = s.run := rfl
@[simp] theorem State.withReports_link (s : State) (x : ReportUnit) : (s.withReports x).link = s.link := rfl
@[simp] theorem State.withReports_reports (s : State) (x : ReportUnit) : (s.withReports x).reports = x := rfl
@[simp] theorem State.withReports_faults (s : State) (x : ReportUnit) : (s.withReports x).faults = s.faults := rfl
@[simp] theorem State.withReports_held (s : State) (x : ReportUnit) : (s.withReports x).held = s.held := rfl
@[simp] theorem State.withReports_clock (s : State) (x : ReportUnit) : (s.withReports x).clock = s.clock := rfl
@[simp] theorem State.withReports_choices (s : State) (x : ReportUnit) : (s.withReports x).choices = s.choices := rfl
@[simp] theorem State.withReports_pending (s : State) (x : ReportUnit) : (s.withReports x).pending = s.pending := rfl

/-! ### withFaults -/

@[simp] theorem State.withFaults_timebase (s : State) (x : FaultTable) : (s.withFaults x).timebase = s.timebase := rfl
@[simp] theorem State.withFaults_inputs (s : State) (x : FaultTable) : (s.withFaults x).inputs = s.inputs := rfl
@[simp] theorem State.withFaults_journal (s : State) (x : FaultTable) : (s.withFaults x).journal = s.journal := rfl
@[simp] theorem State.withFaults_rules (s : State) (x : FaultTable) : (s.withFaults x).rules = s.rules := rfl
@[simp] theorem State.withFaults_sched (s : State) (x : FaultTable) : (s.withFaults x).sched = s.sched := rfl
@[simp] theorem State.withFaults_outputs (s : State) (x : FaultTable) : (s.withFaults x).outputs = s.outputs := rfl
@[simp] theorem State.withFaults_run (s : State) (x : FaultTable) : (s.withFaults x).run = s.run := rfl
@[simp] theorem State.withFaults_link (s : State) (x : FaultTable) : (s.withFaults x).link = s.link := rfl
@[simp] theorem State.withFaults_reports (s : State) (x : FaultTable) : (s.withFaults x).reports = s.reports := rfl
@[simp] theorem State.withFaults_faults (s : State) (x : FaultTable) : (s.withFaults x).faults = x := rfl
@[simp] theorem State.withFaults_held (s : State) (x : FaultTable) : (s.withFaults x).held = s.held := rfl
@[simp] theorem State.withFaults_clock (s : State) (x : FaultTable) : (s.withFaults x).clock = s.clock := rfl
@[simp] theorem State.withFaults_choices (s : State) (x : FaultTable) : (s.withFaults x).choices = s.choices := rfl
@[simp] theorem State.withFaults_pending (s : State) (x : FaultTable) : (s.withFaults x).pending = s.pending := rfl

/-! ### withClock -/

@[simp] theorem State.withClock_timebase (s : State) (x : Nat) : (s.withClock x).timebase = s.timebase := rfl
@[simp] theorem State.withClock_inputs (s : State) (x : Nat) : (s.withClock x).inputs = s.inputs := rfl
@[simp] theorem State.withClock_journal (s : State) (x : Nat) : (s.withClock x).journal = s.journal := rfl
@[simp] theorem State.withClock_rules (s : State) (x : Nat) : (s.withClock x).rules = s.rules := rfl
@[simp] theorem State.withClock_sched (s : State) (x : Nat) : (s.withClock x).sched = s.sched := rfl
@[simp] theorem State.withClock_outputs (s : State) (x : Nat) : (s.withClock x).outputs = s.outputs := rfl
@[simp] theorem State.withClock_run (s : State) (x : Nat) : (s.withClock x).run = s.run := rfl
@[simp] theorem State.withClock_link (s : State) (x : Nat) : (s.withClock x).link = s.link := rfl
@[simp] theorem State.withClock_reports (s : State) (x : Nat) : (s.withClock x).reports = s.reports := rfl
@[simp] theorem State.withClock_faults (s : State) (x : Nat) : (s.withClock x).faults = s.faults := rfl
@[simp] theorem State.withClock_held (s : State) (x : Nat) : (s.withClock x).held = s.held := rfl
@[simp] theorem State.withClock_clock (s : State) (x : Nat) : (s.withClock x).clock = x := rfl
@[simp] theorem State.withClock_choices (s : State) (x : Nat) : (s.withClock x).choices = s.choices := rfl
@[simp] theorem State.withClock_pending (s : State) (x : Nat) : (s.withClock x).pending = s.pending := rfl

/-! ### putSlot -/

@[simp] theorem State.putSlot_timebase (s : State) (i : SlotNo) (x : Slot) : (s.putSlot i x).timebase = s.timebase := rfl
@[simp] theorem State.putSlot_inputs (s : State) (i : SlotNo) (x : Slot) : (s.putSlot i x).inputs = s.inputs := rfl
@[simp] theorem State.putSlot_journal (s : State) (i : SlotNo) (x : Slot) : (s.putSlot i x).journal = s.journal := rfl
@[simp] theorem State.putSlot_rules (s : State) (i : SlotNo) (x : Slot) : (s.putSlot i x).rules = s.rules := rfl
@[simp] theorem State.putSlot_outputs (s : State) (i : SlotNo) (x : Slot) : (s.putSlot i x).outputs = s.outputs := rfl
@[simp] theorem State.putSlot_run (s : State) (i : SlotNo) (x : Slot) : (s.putSlot i x).run = s.run := rfl
@[simp] theorem State.putSlot_link (s : State) (i : SlotNo) (x : Slot) : (s.putSlot i x).link = s.link := rfl
@[simp] theorem State.putSlot_reports (s : State) (i : SlotNo) (x : Slot) : (s.putSlot i x).reports = s.reports := rfl
@[simp] theorem State.putSlot_faults (s : State) (i : SlotNo) (x : Slot) : (s.putSlot i x).faults = s.faults := rfl
@[simp] theorem State.putSlot_held (s : State) (i : SlotNo) (x : Slot) : (s.putSlot i x).held = s.held := rfl
@[simp] theorem State.putSlot_clock (s : State) (i : SlotNo) (x : Slot) : (s.putSlot i x).clock = s.clock := rfl
@[simp] theorem State.putSlot_choices (s : State) (i : SlotNo) (x : Slot) : (s.putSlot i x).choices = s.choices := rfl
@[simp] theorem State.putSlot_pending (s : State) (i : SlotNo) (x : Slot) : (s.putSlot i x).pending = s.pending := rfl

@[simp] theorem State.slot_putSlot_self (s : State) (i : SlotNo) (x : Slot) : (s.putSlot i x).slot i = x := by
  simp [State.slot, State.putSlot]

@[simp] theorem State.slot_putSlot_ne (s : State) (i j : SlotNo) (x : Slot) (h : j ≠ i) :
    (s.putSlot i x).slot j = s.slot j := by
  simp [State.slot, State.putSlot, h]

@[simp] theorem State.output_putSlot (s : State) (i : SlotNo) (x : Slot) (j : OutLine) :
    (s.putSlot i x).output j = s.output j := rfl
@[simp] theorem State.input_putSlot (s : State) (i : SlotNo) (x : Slot) (j : InLine) :
    (s.putSlot i x).input j = s.input j := rfl
@[simp] theorem State.rule_putSlot (s : State) (i : SlotNo) (x : Slot) (j : RuleNo) :
    (s.putSlot i x).rule j = s.rule j := rfl
@[simp] theorem State.slot_withTimebase (s : State) (x : Timebase) (j : SlotNo) : (s.withTimebase x).slot j = s.slot j := rfl
@[simp] theorem State.slot_withInputs (s : State) (x : Vector Input 8) (j : SlotNo) : (s.withInputs x).slot j = s.slot j := rfl
@[simp] theorem State.slot_withJournal (s : State) (x : Journal) (j : SlotNo) : (s.withJournal x).slot j = s.slot j := rfl
@[simp] theorem State.slot_withRules (s : State) (x : Vector Rule 16) (j : SlotNo) : (s.withRules x).slot j = s.slot j := rfl
@[simp] theorem State.slot_withOutputs (s : State) (x : Vector Output 12) (j : SlotNo) : (s.withOutputs x).slot j = s.slot j := rfl
@[simp] theorem State.slot_withRun (s : State) (x : RunControl) (j : SlotNo) : (s.withRun x).slot j = s.slot j := rfl
@[simp] theorem State.slot_withLink (s : State) (x : HostLink) (j : SlotNo) : (s.withLink x).slot j = s.slot j := rfl
@[simp] theorem State.slot_withReports (s : State) (x : ReportUnit) (j : SlotNo) : (s.withReports x).slot j = s.slot j := rfl
@[simp] theorem State.slot_withFaults (s : State) (x : FaultTable) (j : SlotNo) : (s.withFaults x).slot j = s.slot j := rfl
@[simp] theorem State.slot_withClock (s : State) (x : Nat) (j : SlotNo) : (s.withClock x).slot j = s.slot j := rfl

/-! ### putOutput -/

@[simp] theorem State.putOutput_timebase (s : State) (i : OutLine) (x : Output) : (s.putOutput i x).timebase = s.timebase := rfl
@[simp] theorem State.putOutput_inputs (s : State) (i : OutLine) (x : Output) : (s.putOutput i x).inputs = s.inputs := rfl
@[simp] theorem State.putOutput_journal (s : State) (i : OutLine) (x : Output) : (s.putOutput i x).journal = s.journal := rfl
@[simp] theorem State.putOutput_rules (s : State) (i : OutLine) (x : Output) : (s.putOutput i x).rules = s.rules := rfl
@[simp] theorem State.putOutput_sched (s : State) (i : OutLine) (x : Output) : (s.putOutput i x).sched = s.sched := rfl
@[simp] theorem State.putOutput_run (s : State) (i : OutLine) (x : Output) : (s.putOutput i x).run = s.run := rfl
@[simp] theorem State.putOutput_link (s : State) (i : OutLine) (x : Output) : (s.putOutput i x).link = s.link := rfl
@[simp] theorem State.putOutput_reports (s : State) (i : OutLine) (x : Output) : (s.putOutput i x).reports = s.reports := rfl
@[simp] theorem State.putOutput_faults (s : State) (i : OutLine) (x : Output) : (s.putOutput i x).faults = s.faults := rfl
@[simp] theorem State.putOutput_held (s : State) (i : OutLine) (x : Output) : (s.putOutput i x).held = s.held := rfl
@[simp] theorem State.putOutput_clock (s : State) (i : OutLine) (x : Output) : (s.putOutput i x).clock = s.clock := rfl
@[simp] theorem State.putOutput_choices (s : State) (i : OutLine) (x : Output) : (s.putOutput i x).choices = s.choices := rfl
@[simp] theorem State.putOutput_pending (s : State) (i : OutLine) (x : Output) : (s.putOutput i x).pending = s.pending := rfl

@[simp] theorem State.output_putOutput_self (s : State) (i : OutLine) (x : Output) : (s.putOutput i x).output i = x := by
  simp [State.output, State.putOutput]

@[simp] theorem State.output_putOutput_ne (s : State) (i j : OutLine) (x : Output) (h : j ≠ i) :
    (s.putOutput i x).output j = s.output j := by
  simp [State.output, State.putOutput, h]

@[simp] theorem State.slot_putOutput (s : State) (i : OutLine) (x : Output) (j : SlotNo) :
    (s.putOutput i x).slot j = s.slot j := rfl
@[simp] theorem State.input_putOutput (s : State) (i : OutLine) (x : Output) (j : InLine) :
    (s.putOutput i x).input j = s.input j := rfl
@[simp] theorem State.rule_putOutput (s : State) (i : OutLine) (x : Output) (j : RuleNo) :
    (s.putOutput i x).rule j = s.rule j := rfl
@[simp] theorem State.output_withTimebase (s : State) (x : Timebase) (j : OutLine) : (s.withTimebase x).output j = s.output j := rfl
@[simp] theorem State.output_withInputs (s : State) (x : Vector Input 8) (j : OutLine) : (s.withInputs x).output j = s.output j := rfl
@[simp] theorem State.output_withJournal (s : State) (x : Journal) (j : OutLine) : (s.withJournal x).output j = s.output j := rfl
@[simp] theorem State.output_withRules (s : State) (x : Vector Rule 16) (j : OutLine) : (s.withRules x).output j = s.output j := rfl
@[simp] theorem State.output_withSched (s : State) (x : Scheduler) (j : OutLine) : (s.withSched x).output j = s.output j := rfl
@[simp] theorem State.output_withRun (s : State) (x : RunControl) (j : OutLine) : (s.withRun x).output j = s.output j := rfl
@[simp] theorem State.output_withLink (s : State) (x : HostLink) (j : OutLine) : (s.withLink x).output j = s.output j := rfl
@[simp] theorem State.output_withReports (s : State) (x : ReportUnit) (j : OutLine) : (s.withReports x).output j = s.output j := rfl
@[simp] theorem State.output_withFaults (s : State) (x : FaultTable) (j : OutLine) : (s.withFaults x).output j = s.output j := rfl
@[simp] theorem State.output_withClock (s : State) (x : Nat) (j : OutLine) : (s.withClock x).output j = s.output j := rfl

/-! ### putInput -/

@[simp] theorem State.putInput_timebase (s : State) (i : InLine) (x : Input) : (s.putInput i x).timebase = s.timebase := rfl
@[simp] theorem State.putInput_journal (s : State) (i : InLine) (x : Input) : (s.putInput i x).journal = s.journal := rfl
@[simp] theorem State.putInput_rules (s : State) (i : InLine) (x : Input) : (s.putInput i x).rules = s.rules := rfl
@[simp] theorem State.putInput_sched (s : State) (i : InLine) (x : Input) : (s.putInput i x).sched = s.sched := rfl
@[simp] theorem State.putInput_outputs (s : State) (i : InLine) (x : Input) : (s.putInput i x).outputs = s.outputs := rfl
@[simp] theorem State.putInput_run (s : State) (i : InLine) (x : Input) : (s.putInput i x).run = s.run := rfl
@[simp] theorem State.putInput_link (s : State) (i : InLine) (x : Input) : (s.putInput i x).link = s.link := rfl
@[simp] theorem State.putInput_reports (s : State) (i : InLine) (x : Input) : (s.putInput i x).reports = s.reports := rfl
@[simp] theorem State.putInput_faults (s : State) (i : InLine) (x : Input) : (s.putInput i x).faults = s.faults := rfl
@[simp] theorem State.putInput_held (s : State) (i : InLine) (x : Input) : (s.putInput i x).held = s.held := rfl
@[simp] theorem State.putInput_clock (s : State) (i : InLine) (x : Input) : (s.putInput i x).clock = s.clock := rfl
@[simp] theorem State.putInput_choices (s : State) (i : InLine) (x : Input) : (s.putInput i x).choices = s.choices := rfl
@[simp] theorem State.putInput_pending (s : State) (i : InLine) (x : Input) : (s.putInput i x).pending = s.pending := rfl

@[simp] theorem State.input_putInput_self (s : State) (i : InLine) (x : Input) : (s.putInput i x).input i = x := by
  simp [State.input, State.putInput]

@[simp] theorem State.input_putInput_ne (s : State) (i j : InLine) (x : Input) (h : j ≠ i) :
    (s.putInput i x).input j = s.input j := by
  simp [State.input, State.putInput, h]

@[simp] theorem State.slot_putInput (s : State) (i : InLine) (x : Input) (j : SlotNo) :
    (s.putInput i x).slot j = s.slot j := rfl
@[simp] theorem State.output_putInput (s : State) (i : InLine) (x : Input) (j : OutLine) :
    (s.putInput i x).output j = s.output j := rfl
@[simp] theorem State.rule_putInput (s : State) (i : InLine) (x : Input) (j : RuleNo) :
    (s.putInput i x).rule j = s.rule j := rfl
@[simp] theorem State.input_withTimebase (s : State) (x : Timebase) (j : InLine) : (s.withTimebase x).input j = s.input j := rfl
@[simp] theorem State.input_withJournal (s : State) (x : Journal) (j : InLine) : (s.withJournal x).input j = s.input j := rfl
@[simp] theorem State.input_withRules (s : State) (x : Vector Rule 16) (j : InLine) : (s.withRules x).input j = s.input j := rfl
@[simp] theorem State.input_withSched (s : State) (x : Scheduler) (j : InLine) : (s.withSched x).input j = s.input j := rfl
@[simp] theorem State.input_withOutputs (s : State) (x : Vector Output 12) (j : InLine) : (s.withOutputs x).input j = s.input j := rfl
@[simp] theorem State.input_withRun (s : State) (x : RunControl) (j : InLine) : (s.withRun x).input j = s.input j := rfl
@[simp] theorem State.input_withLink (s : State) (x : HostLink) (j : InLine) : (s.withLink x).input j = s.input j := rfl
@[simp] theorem State.input_withReports (s : State) (x : ReportUnit) (j : InLine) : (s.withReports x).input j = s.input j := rfl
@[simp] theorem State.input_withFaults (s : State) (x : FaultTable) (j : InLine) : (s.withFaults x).input j = s.input j := rfl
@[simp] theorem State.input_withClock (s : State) (x : Nat) (j : InLine) : (s.withClock x).input j = s.input j := rfl

/-! ### putRule -/

@[simp] theorem State.putRule_timebase (s : State) (i : RuleNo) (x : Rule) : (s.putRule i x).timebase = s.timebase := rfl
@[simp] theorem State.putRule_inputs (s : State) (i : RuleNo) (x : Rule) : (s.putRule i x).inputs = s.inputs := rfl
@[simp] theorem State.putRule_journal (s : State) (i : RuleNo) (x : Rule) : (s.putRule i x).journal = s.journal := rfl
@[simp] theorem State.putRule_sched (s : State) (i : RuleNo) (x : Rule) : (s.putRule i x).sched = s.sched := rfl
@[simp] theorem State.putRule_outputs (s : State) (i : RuleNo) (x : Rule) : (s.putRule i x).outputs = s.outputs := rfl
@[simp] theorem State.putRule_run (s : State) (i : RuleNo) (x : Rule) : (s.putRule i x).run = s.run := rfl
@[simp] theorem State.putRule_link (s : State) (i : RuleNo) (x : Rule) : (s.putRule i x).link = s.link := rfl
@[simp] theorem State.putRule_reports (s : State) (i : RuleNo) (x : Rule) : (s.putRule i x).reports = s.reports := rfl
@[simp] theorem State.putRule_faults (s : State) (i : RuleNo) (x : Rule) : (s.putRule i x).faults = s.faults := rfl
@[simp] theorem State.putRule_held (s : State) (i : RuleNo) (x : Rule) : (s.putRule i x).held = s.held := rfl
@[simp] theorem State.putRule_clock (s : State) (i : RuleNo) (x : Rule) : (s.putRule i x).clock = s.clock := rfl
@[simp] theorem State.putRule_choices (s : State) (i : RuleNo) (x : Rule) : (s.putRule i x).choices = s.choices := rfl
@[simp] theorem State.putRule_pending (s : State) (i : RuleNo) (x : Rule) : (s.putRule i x).pending = s.pending := rfl

@[simp] theorem State.rule_putRule_self (s : State) (i : RuleNo) (x : Rule) : (s.putRule i x).rule i = x := by
  simp [State.rule, State.putRule]

@[simp] theorem State.rule_putRule_ne (s : State) (i j : RuleNo) (x : Rule) (h : j ≠ i) :
    (s.putRule i x).rule j = s.rule j := by
  simp [State.rule, State.putRule, h]

@[simp] theorem State.slot_putRule (s : State) (i : RuleNo) (x : Rule) (j : SlotNo) :
    (s.putRule i x).slot j = s.slot j := rfl
@[simp] theorem State.output_putRule (s : State) (i : RuleNo) (x : Rule) (j : OutLine) :
    (s.putRule i x).output j = s.output j := rfl
@[simp] theorem State.input_putRule (s : State) (i : RuleNo) (x : Rule) (j : InLine) :
    (s.putRule i x).input j = s.input j := rfl
@[simp] theorem State.rule_withTimebase (s : State) (x : Timebase) (j : RuleNo) : (s.withTimebase x).rule j = s.rule j := rfl
@[simp] theorem State.rule_withInputs (s : State) (x : Vector Input 8) (j : RuleNo) : (s.withInputs x).rule j = s.rule j := rfl
@[simp] theorem State.rule_withJournal (s : State) (x : Journal) (j : RuleNo) : (s.withJournal x).rule j = s.rule j := rfl
@[simp] theorem State.rule_withSched (s : State) (x : Scheduler) (j : RuleNo) : (s.withSched x).rule j = s.rule j := rfl
@[simp] theorem State.rule_withOutputs (s : State) (x : Vector Output 12) (j : RuleNo) : (s.withOutputs x).rule j = s.rule j := rfl
@[simp] theorem State.rule_withRun (s : State) (x : RunControl) (j : RuleNo) : (s.withRun x).rule j = s.rule j := rfl
@[simp] theorem State.rule_withLink (s : State) (x : HostLink) (j : RuleNo) : (s.withLink x).rule j = s.rule j := rfl
@[simp] theorem State.rule_withReports (s : State) (x : ReportUnit) (j : RuleNo) : (s.withReports x).rule j = s.rule j := rfl
@[simp] theorem State.rule_withFaults (s : State) (x : FaultTable) (j : RuleNo) : (s.withFaults x).rule j = s.rule j := rfl
@[simp] theorem State.rule_withClock (s : State) (x : Nat) (j : RuleNo) : (s.withClock x).rule j = s.rule j := rfl

/-! ### Whole tables -/

@[simp] theorem State.output_withOutputs_tabulate (s : State) (f : OutLine → Output) (l : OutLine) :
    (s.withOutputs (tabulate f)).output l = f l := by
  simp [State.output]

@[simp] theorem State.input_withInputs_tabulate (s : State) (f : InLine → Input) (l : InLine) :
    (s.withInputs (tabulate f)).input l = f l := by
  simp [State.input]

@[simp] theorem State.rule_withRules_tabulate (s : State) (f : RuleNo → Rule) (r : RuleNo) :
    (s.withRules (tabulate f)).rule r = f r := by
  simp [State.rule]

/-! ### The passing of time -/

@[simp] theorem elapse_timebase (n : Nat) (s : State) :
    (elapse n s).timebase = { s.timebase with timeline := s.timebase.timeline + BitVec.ofNat 48 n } := rfl
@[simp] theorem elapse_inputs (n : Nat) (s : State) : (elapse n s).inputs = s.inputs := rfl
@[simp] theorem elapse_journal (n : Nat) (s : State) : (elapse n s).journal = s.journal := rfl
@[simp] theorem elapse_rules (n : Nat) (s : State) : (elapse n s).rules = s.rules := rfl
@[simp] theorem elapse_sched (n : Nat) (s : State) : (elapse n s).sched = s.sched := rfl
@[simp] theorem elapse_outputs (n : Nat) (s : State) : (elapse n s).outputs = s.outputs := rfl
@[simp] theorem elapse_run (n : Nat) (s : State) : (elapse n s).run = s.run := rfl
@[simp] theorem elapse_link (n : Nat) (s : State) : (elapse n s).link = s.link := rfl
@[simp] theorem elapse_reports (n : Nat) (s : State) : (elapse n s).reports = s.reports := rfl
@[simp] theorem elapse_faults (n : Nat) (s : State) : (elapse n s).faults = s.faults := rfl
@[simp] theorem elapse_held (n : Nat) (s : State) : (elapse n s).held = s.held := rfl
@[simp] theorem elapse_clock (n : Nat) (s : State) : (elapse n s).clock = s.clock + n := rfl
@[simp] theorem elapse_choices (n : Nat) (s : State) : (elapse n s).choices = s.choices := rfl
@[simp] theorem elapse_pending (n : Nat) (s : State) : (elapse n s).pending = s.pending := rfl

/-- No time passing is no change. -/
@[simp] theorem elapse_zero (s : State) : elapse 0 s = s := by
  simp [elapse, State.withTimebase, State.withClock]

end Sys2Proof.Machine
end

