-- ==== Sys2Proof/Laws/Frame.lean ====
section
/-! SUPPORT. Once for each shared operation, what it can touch: creating reports, counting faults, freeing slots,
carrying out the lists, and the transmit arbiter. -/

namespace Sys2Proof.Machine

/-! ## The two relations -/

theorem OnlyWork.refl (s : State) : OnlyWork s s := rfl

theorem OnlyWork.trans {s t u : State} (h : OnlyWork s t) (k : OnlyWork t u) : OnlyWork s u := by
  unfold OnlyWork at *
  rw [h] at k
  exact k

theorem OnlyWork.ofSched {s t : State} (x : Scheduler) (h : OnlyWork s t) : OnlyWork s (t.withSched x) :=
  h.trans rfl

theorem OnlyWork.ofOutputs {s t : State} (x : Vector Output 12) (h : OnlyWork s t) : OnlyWork s (t.withOutputs x) :=
  h.trans rfl

theorem OnlyWork.ofRun {s t : State} (x : RunControl) (h : OnlyWork s t) : OnlyWork s (t.withRun x) :=
  h.trans rfl

theorem OnlyWork.ofReports {s t : State} (x : ReportUnit) (h : OnlyWork s t) : OnlyWork s (t.withReports x) :=
  h.trans rfl

theorem OnlyWork.ofFaults {s t : State} (x : FaultTable) (h : OnlyWork s t) : OnlyWork s (t.withFaults x) :=
  h.trans rfl

theorem OnlyWork.timebase {s t : State} (h : OnlyWork s t) : t.timebase = s.timebase := by rw [h]
theorem OnlyWork.inputs {s t : State} (h : OnlyWork s t) : t.inputs = s.inputs := by rw [h]
theorem OnlyWork.journal {s t : State} (h : OnlyWork s t) : t.journal = s.journal := by rw [h]
theorem OnlyWork.rules {s t : State} (h : OnlyWork s t) : t.rules = s.rules := by rw [h]
theorem OnlyWork.link {s t : State} (h : OnlyWork s t) : t.link = s.link := by rw [h]
theorem OnlyWork.held {s t : State} (h : OnlyWork s t) : t.held = s.held := by rw [h]
theorem OnlyWork.clock {s t : State} (h : OnlyWork s t) : t.clock = s.clock := by rw [h]
theorem OnlyWork.choices {s t : State} (h : OnlyWork s t) : t.choices = s.choices := by rw [h]
theorem OnlyWork.pending {s t : State} (h : OnlyWork s t) : t.pending = s.pending := by rw [h]

theorem OnlySends.refl (s : State) : OnlySends s s := rfl

theorem OnlySends.trans {s t u : State} (h : OnlySends s t) (k : OnlySends t u) : OnlySends s u := by
  unfold OnlySends at *
  rw [h] at k
  exact k

/-! ## Reports and faults -/

theorem createWith_onlyWork {f : ReportKind → Bool → State → State} (hf : ∀ k q s, OnlyWork s (f k q s))
    (b : ReportBody) (s : State) : OnlyWork s (createWith f b s) := by
  unfold createWith
  split
  · split
    · exact rfl
    · exact (OnlyWork.refl s).ofReports _ |>.trans (hf _ _ _)
  · exact rfl

theorem countWith_onlyWork {c : ReportBody → State → State} {f : FaultKind → State → State}
    (hc : ∀ b s, OnlyWork s (c b s)) (hf : ∀ k s, OnlyWork s (f k s))
    (q : Bool) (k : FaultKind) (d : Option FaultDetail) (s : State) : OnlyWork s (countWith c f q k d s) := by
  have h1 : OnlyWork s (recordFault k d s) := rfl
  unfold countWith
  dsimp only
  split <;> split
  · exact (h1.trans (hc _ _)).trans (hf _ _)
  · exact h1.trans (hc _ _)
  · exact h1.trans (hf _ _)
  · exact h1

theorem recordFault_onlyWork (k : FaultKind) (d : Option FaultDetail) (s : State) :
    OnlyWork s (recordFault k d s) := rfl

theorem overflowOfFaultReportFaulted_onlyWork (k : ReportKind) (q : Bool) (s : State) :
    OnlyWork s (overflowOfFaultReportFaulted k q s) := rfl

theorem overflowFaulted_onlyWork (k : ReportKind) (q : Bool) (s : State) : OnlyWork s (overflowFaulted k q s) :=
  countWith_onlyWork (createWith_onlyWork overflowOfFaultReportFaulted_onlyWork) (fun _ t => OnlyWork.refl t) _ _ _ _

theorem fatalEntry_onlyWork (k : FaultKind) (s : State) : OnlyWork s (fatalEntry k s) :=
  OnlyWork.trans (t := enterFaulted s) rfl (createWith_onlyWork overflowFaulted_onlyWork _ _)

theorem overflowOfFaultReport_onlyWork (k : ReportKind) (q : Bool) (s : State) :
    OnlyWork s (overflowOfFaultReport k q s) :=
  countWith_onlyWork (fun _ t => OnlyWork.refl t) fatalEntry_onlyWork _ _ _ _

theorem countOverflow_onlyWork (k : ReportKind) (q : Bool) (s : State) : OnlyWork s (countOverflow k q s) :=
  countWith_onlyWork (createWith_onlyWork overflowOfFaultReport_onlyWork) fatalEntry_onlyWork _ _ _ _

/-- Creating a report touches nothing outside the schedule, the outputs, the run control, the reports and the faults. -/
theorem createReport_onlyWork (b : ReportBody) (s : State) : OnlyWork s (createReport b s) :=
  createWith_onlyWork countOverflow_onlyWork b s

/-- Counting a fault touches nothing outside the same five. -/
theorem countFault_onlyWork (k : FaultKind) (d : Option FaultDetail) (s : State) : OnlyWork s (countFault k d s) :=
  countWith_onlyWork createReport_onlyWork fatalEntry_onlyWork _ _ _ _

theorem poolNotice_onlyWork (s : State) : OnlyWork s (poolNotice s) := by
  unfold poolNotice
  split
  · exact OnlyWork.trans (t := s.withRun _) rfl (createReport_onlyWork _ _)
  · exact rfl

/-- Freeing a slot touches nothing outside the same five. -/
theorem freeSlot_onlyWork (h : Handle) (e : Ended) (s : State) : OnlyWork s (freeSlot h e s) := by
  unfold freeSlot
  split
  · exact rfl
  · split
    · exact rfl
    · have hv : OnlyWork s (vacate h s) := rfl
      dsimp only
      refine OnlyWork.trans ?_ (poolNotice_onlyWork _)
      split
      · exact hv.trans (createReport_onlyWork _ _)
      · exact hv

/-! ## The schedule at work -/

theorem joinStart_onlyWork (h : Handle) (d : Due) (s : State) : OnlyWork s (joinStart h d s) := by
  cases d <;> rfl

theorem proceed_onlyWork (h : Handle) (a : Action) (s : State) : OnlyWork s (proceed h a s).1 := by
  unfold proceed
  split
  · exact OnlyWork.trans (t := setWaiting h _ s) rfl (joinStart_onlyWork _ _ _)
  · exact freeSlot_onlyWork _ _ _

theorem endAction_onlyWork (h : Handle) (s : State) : OnlyWork s (endAction h s).1 := by
  unfold endAction
  split
  · exact rfl
  · exact OnlyWork.trans (t := release _ h s) rfl (proceed_onlyWork _ _ _)

theorem countForAction_onlyWork (k : FaultKind) (d : FaultDetail) (h : Handle) (s : State) :
    OnlyWork s (countForAction k d h s) := by
  unfold countForAction
  split
  · exact countFault_onlyWork _ _ _
  · exact rfl

theorem refuseStart_onlyWork (h o : Handle) (a : Action) (s : State) : OnlyWork s (refuseStart h o a s).1 := by
  have h1 : OnlyWork s (setWaiting h { a with skipped := a.skipped + 1 } s) := rfl
  have h2 := h1.trans (createReport_onlyWork (.collision a.line h o) _)
  have h3 := h2.trans (countForAction_onlyWork .collision (.output a.line) h _)
  unfold refuseStart
  dsimp only
  split
  · exact h3
  · exact h3.trans (proceed_onlyWork _ _ _)

theorem cutHolder_onlyWork (l : OutLine) (b : Handle) (s : State) : OnlyWork s (cutHolder l b s).1 := by
  unfold cutHolder
  split
  · exact rfl
  · exact OnlyWork.trans (t := release l b (removeEntry b s)) rfl (proceed_onlyWork _ _ _)

theorem cutHolders_onlyWork (l : OutLine) (bs : List Handle) (s : State) : OnlyWork s (cutHolders l bs s).1 := by
  induction bs generalizing s with
  | nil => exact rfl
  | cons b bs ih => exact (cutHolder_onlyWork l b s).trans (ih _)

theorem startOnLine_onlyWork (h : Handle) (a : Action) (t : Tick) (s : State) :
    OnlyWork s (startOnLine h a t s).1 := by
  unfold startOnLine
  split
  · exact rfl
  · split
    · exact refuseStart_onlyWork _ _ _ _
    · exact rfl
    · dsimp only
      split
      · exact cutHolders_onlyWork _ _ _
      · exact (cutHolders_onlyWork _ _ _).trans rfl

theorem fireLate_onlyWork (h : Handle) (a : Action) (n : Nat) (s : State) : OnlyWork s (fireLate h a n s).1 := by
  have h1 := createReport_onlyWork (.late h a.due.base n none) s
  have h2 := h1.trans (countForAction_onlyWork .actionLate (.handle h) h _)
  unfold fireLate
  dsimp only
  split
  · exact h2
  · exact h2.trans (startOnLine_onlyWork _ _ _ _)

theorem skipLate_onlyWork (h : Handle) (a : Action) (n : Nat) (s : State) : OnlyWork s (skipLate h a n s).1 := by
  unfold skipLate
  dsimp only
  have h2 : ∀ b x, OnlyWork s (countForAction .actionLate (.handle h) h (createReport b (setWaiting h x s))) :=
    fun b x => (OnlyWork.trans (t := setWaiting h x s) rfl (createReport_onlyWork _ _)).trans
      (countForAction_onlyWork _ _ _ _)
  split
  · exact h2 _ _
  · split
    · exact (h2 _ _).trans (joinStart_onlyWork _ _ _)
    · exact (h2 _ _).trans (freeSlot_onlyWork _ _ _)

theorem startAction_onlyWork (h : Handle) (t : Tick) (s : State) : OnlyWork s (startAction h t s).1 := by
  unfold startAction
  split
  · exact rfl
  · split
    · exact startOnLine_onlyWork _ _ _ _
    · split
      · exact fireLate_onlyWork _ _ _ _
      · exact skipLate_onlyWork _ _ _ _

theorem carryOutTime_onlyWork (e : TimeEntry) (s : State) : OnlyWork s (carryOutTime e s).1 := by
  unfold carryOutTime
  split
  · exact startAction_onlyWork _ _ _
  · exact endAction_onlyWork _ _

/-- The expiry of the lists touches nothing outside the same five. -/
theorem runLists_onlyWork (x : Expiry) (n : Nat) (hs : List Handle) (s : State) : OnlyWork s (runLists x n hs s) := by
  induction n generalizing x hs s with
  | zero => exact rfl
  | succ n ih =>
    cases hs with
    | cons h hs =>
      unfold runLists
      split
      · exact (OnlyWork.trans (t := removeEntry h s) rfl (startAction_onlyWork _ _ _)).trans (ih _ _ _)
      · exact ih _ _ _
    | nil =>
      unfold runLists
      split
      · exact (OnlyWork.trans (t := popTime s) rfl (carryOutTime_onlyWork _ _)).trans (ih _ _ _)
      · split
        · exact rfl
        · split
          · exact rfl
          · exact (OnlyWork.trans (t := popTravel s) rfl (startAction_onlyWork _ _ _)).trans (ih _ _ _)

theorem expireLists_onlyWork (x : Expiry) (hs : List Handle) (s : State) : OnlyWork s (expireLists x hs s) :=
  runLists_onlyWork _ _ _ _

theorem joinAction_onlyWork (h : Handle) (s : State) : OnlyWork s (joinAction h s) := by
  unfold joinAction
  split
  · exact rfl
  · exact (joinStart_onlyWork _ _ _).trans (expireLists_onlyWork _ _ _)

theorem cancelHandle_onlyWork (m : CancelMode) (h : Handle) (s : State) : OnlyWork s (cancelHandle m h s) := by
  unfold cancelHandle
  split
  · exact rfl
  · exact freeSlot_onlyWork _ _ _
  · exact OnlyWork.trans (t := release _ h s) rfl (freeSlot_onlyWork _ _ _)
  · exact rfl

theorem cancelHandles_onlyWork (m : CancelMode) (hs : List Handle) (s : State) :
    OnlyWork s (cancelHandles m hs s).1 := by
  induction hs generalizing s with
  | nil => exact rfl
  | cons h hs ih =>
    unfold cancelHandles
    split
    · exact ih _
    · exact (cancelHandle_onlyWork _ _ _).trans (ih _)

theorem flushHandles_onlyWork (hs : List Handle) (s : State) : OnlyWork s (flushHandles hs s) := by
  induction hs generalizing s with
  | nil => exact rfl
  | cons h hs ih => exact (freeSlot_onlyWork _ _ _).trans (ih _)

/-! ## The transmit arbiter -/

/-- The arbiter touches nothing but the Host Link and the reports. -/
theorem arbitrate_onlySends (s : State) : OnlySends s (arbitrate s) := by
  unfold arbitrate
  split
  · exact rfl
  · split
    · exact rfl
    · split
      · exact rfl
      · split
        · exact rfl
        · split <;> exact rfl

@[simp] theorem arbitrate_timebase (s : State) : (arbitrate s).timebase = s.timebase := by rw [arbitrate_onlySends s]
@[simp] theorem arbitrate_inputs (s : State) : (arbitrate s).inputs = s.inputs := by rw [arbitrate_onlySends s]
@[simp] theorem arbitrate_journal (s : State) : (arbitrate s).journal = s.journal := by rw [arbitrate_onlySends s]
@[simp] theorem arbitrate_rules (s : State) : (arbitrate s).rules = s.rules := by rw [arbitrate_onlySends s]
@[simp] theorem arbitrate_sched (s : State) : (arbitrate s).sched = s.sched := by rw [arbitrate_onlySends s]
@[simp] theorem arbitrate_outputs (s : State) : (arbitrate s).outputs = s.outputs := by rw [arbitrate_onlySends s]
@[simp] theorem arbitrate_run (s : State) : (arbitrate s).run = s.run := by rw [arbitrate_onlySends s]
@[simp] theorem arbitrate_faults (s : State) : (arbitrate s).faults = s.faults := by rw [arbitrate_onlySends s]
@[simp] theorem arbitrate_held (s : State) : (arbitrate s).held = s.held := by rw [arbitrate_onlySends s]
@[simp] theorem arbitrate_clock (s : State) : (arbitrate s).clock = s.clock := by rw [arbitrate_onlySends s]
@[simp] theorem arbitrate_choices (s : State) : (arbitrate s).choices = s.choices := by rw [arbitrate_onlySends s]
@[simp] theorem arbitrate_pending (s : State) : (arbitrate s).pending = s.pending := by rw [arbitrate_onlySends s]

/-- A report that gives way touches nothing but the transmitter and the reports. -/
theorem giveWay_onlySends (s : State) : OnlySends s (giveWay s) := by
  unfold giveWay
  split <;> exact rfl

@[simp] theorem giveWay_timebase (s : State) : (giveWay s).timebase = s.timebase := by rw [giveWay_onlySends s]
@[simp] theorem giveWay_inputs (s : State) : (giveWay s).inputs = s.inputs := by rw [giveWay_onlySends s]
@[simp] theorem giveWay_journal (s : State) : (giveWay s).journal = s.journal := by rw [giveWay_onlySends s]
@[simp] theorem giveWay_rules (s : State) : (giveWay s).rules = s.rules := by rw [giveWay_onlySends s]
@[simp] theorem giveWay_sched (s : State) : (giveWay s).sched = s.sched := by rw [giveWay_onlySends s]
@[simp] theorem giveWay_outputs (s : State) : (giveWay s).outputs = s.outputs := by rw [giveWay_onlySends s]
@[simp] theorem giveWay_run (s : State) : (giveWay s).run = s.run := by rw [giveWay_onlySends s]
@[simp] theorem giveWay_faults (s : State) : (giveWay s).faults = s.faults := by rw [giveWay_onlySends s]
@[simp] theorem giveWay_held (s : State) : (giveWay s).held = s.held := by rw [giveWay_onlySends s]
@[simp] theorem giveWay_clock (s : State) : (giveWay s).clock = s.clock := by rw [giveWay_onlySends s]
@[simp] theorem giveWay_choices (s : State) : (giveWay s).choices = s.choices := by rw [giveWay_onlySends s]
@[simp] theorem giveWay_pending (s : State) : (giveWay s).pending = s.pending := by rw [giveWay_onlySends s]

/-- Of the Host Link, a report that gives way touches the transmitter alone. -/
theorem giveWay_link (s : State) : (giveWay s).link = { s.link with tx := (giveWay s).link.tx } := by
  unfold giveWay
  split <;> exact rfl

@[simp] theorem giveWay_linkType (s : State) : (giveWay s).link.linkType = s.link.linkType := by rw [giveWay_link s]
@[simp] theorem giveWay_rate (s : State) : (giveWay s).link.rate = s.link.rate := by rw [giveWay_link s]
@[simp] theorem giveWay_assembler (s : State) : (giveWay s).link.assembler = s.link.assembler := by rw [giveWay_link s]
@[simp] theorem giveWay_lastByteAt (s : State) : (giveWay s).link.lastByteAt = s.link.lastByteAt := by rw [giveWay_link s]
@[simp] theorem giveWay_byteStarted (s : State) : (giveWay s).link.byteStarted = s.link.byteStarted := by rw [giveWay_link s]
@[simp] theorem giveWay_csnAsserted (s : State) : (giveWay s).link.csnAsserted = s.link.csnAsserted := by rw [giveWay_link s]
@[simp] theorem giveWay_phase (s : State) : (giveWay s).link.phase = s.link.phase := by rw [giveWay_link s]
@[simp] theorem giveWay_sdi (s : State) : (giveWay s).link.sdi = s.link.sdi := by rw [giveWay_link s]
@[simp] theorem giveWay_window (s : State) : (giveWay s).link.window = s.link.window := by rw [giveWay_link s]
@[simp] theorem giveWay_recent (s : State) : (giveWay s).link.recent = s.link.recent := by rw [giveWay_link s]

/-- Which report gives way: the one of the frame that an idle transmitter was given at this clock, no bit of it sent, while it
is in flight. -/
theorem yielding_eq_some {s : State} {q : Seq} {r : Report} :
    s.yielding = some (q, r) ↔ ∃ t, s.link.tx = some t ∧ t.frame.tag = q ∧ t.yields = some r ∧ t.startedAt = s.clock
      ∧ t.sent = 0 ∧ (s.reports.inFlight q).isSome := by
  unfold State.yielding
  cases h : s.link.tx with
  | none => simp
  | some t =>
    dsimp only
    constructor
    · split
      · rename_i hc
        intro hy
        obtain ⟨r', hr, he⟩ := Option.map_eq_some_iff.mp hy
        obtain ⟨rfl, rfl⟩ := Prod.mk.inj he
        exact ⟨t, rfl, rfl, hr, hc.1, hc.2.1, hc.2.2⟩
      · simp
    · rintro ⟨t', ht, rfl, hr, h1, h2, h3⟩
      obtain rfl := Option.some.inj ht
      rw [if_pos ⟨h1, h2, h3⟩, hr]
      rfl

/-- A report gives way: the transmitter is idle, and the report stands where it stood. -/
theorem giveWay_yielding {s : State} {q : Seq} {r : Report} (h : s.yielding = some (q, r)) :
    giveWay s = (s.withLink { s.link with tx := none }).withReports (s.reports.unchosen q r) := by
  simp [giveWay, h]

/-- With none in prospect to give way, nothing does. -/
theorem giveWay_none {s : State} (h : s.yielding = none) : giveWay s = s := by
  simp [giveWay, h]

/-- A first transmission that gives way stands in the queue again. -/
theorem unchosen_first (u : ReportUnit) (q : Seq) {r : Report} (h : r.seq = none) : u.unchosen q r = { u with
    queue := fileBy Report.before r u.queue, flight := u.flight.filter (fun x => x.seq ≠ some q), nextSeq := q } := by
  unfold ReportUnit.unchosen
  rw [h]

/-- A retry that gives way is due again. -/
theorem unchosen_retry (u : ReportUnit) (q : Seq) {r : Report} {n : Seq} (h : r.seq = some n) :
    u.unchosen q r = { u with flight := replaceReport (some q) r u.flight } := by
  unfold ReportUnit.unchosen
  rw [h]

/-- With the transmitter idle no report gives way. -/
theorem giveWay_idle {s : State} (h : s.link.tx = none) : giveWay s = s := by
  simp [giveWay, State.yielding, h]

/-- A frame that was not chosen for an idle transmitter, or that began before this instant, or of which a bit has gone, does
not give way. -/
theorem giveWay_begun {s : State} {t : Transmission} (h : s.link.tx = some t)
    (hb : t.yields = none ∨ t.startedAt ≠ s.clock ∨ t.sent ≠ 0) : giveWay s = s := by
  have hy : s.yielding = none := by
    unfold State.yielding
    rw [h]
    rcases hb with hb | hb | hb <;> simp [hb]
  unfold giveWay
  rw [hy]

/-- What a report gives way to finds nothing else to give way. -/
@[simp] theorem giveWay_giveWay (s : State) : giveWay (giveWay s) = giveWay s := by
  cases h : s.yielding with
  | none => simp [giveWay, h]
  | some p => exact giveWay_idle (by simp [giveWay, h])

/-! ## A frame that does not give way -/

@[simp] theorem firm_timebase (s : State) : s.firm.timebase = s.timebase := rfl
@[simp] theorem firm_inputs (s : State) : s.firm.inputs = s.inputs := rfl
@[simp] theorem firm_journal (s : State) : s.firm.journal = s.journal := rfl
@[simp] theorem firm_rules (s : State) : s.firm.rules = s.rules := rfl
@[simp] theorem firm_sched (s : State) : s.firm.sched = s.sched := rfl
@[simp] theorem firm_outputs (s : State) : s.firm.outputs = s.outputs := rfl
@[simp] theorem firm_run (s : State) : s.firm.run = s.run := rfl
@[simp] theorem firm_reports (s : State) : s.firm.reports = s.reports := rfl
@[simp] theorem firm_faults (s : State) : s.firm.faults = s.faults := rfl
@[simp] theorem firm_held (s : State) : s.firm.held = s.held := rfl
@[simp] theorem firm_clock (s : State) : s.firm.clock = s.clock := rfl
@[simp] theorem firm_choices (s : State) : s.firm.choices = s.choices := rfl
@[simp] theorem firm_pending (s : State) : s.firm.pending = s.pending := rfl
@[simp] theorem firm_linkType (s : State) : s.firm.link.linkType = s.link.linkType := rfl
@[simp] theorem firm_rate (s : State) : s.firm.link.rate = s.link.rate := rfl
@[simp] theorem firm_assembler (s : State) : s.firm.link.assembler = s.link.assembler := rfl
@[simp] theorem firm_lastByteAt (s : State) : s.firm.link.lastByteAt = s.link.lastByteAt := rfl
@[simp] theorem firm_byteStarted (s : State) : s.firm.link.byteStarted = s.link.byteStarted := rfl
@[simp] theorem firm_csnAsserted (s : State) : s.firm.link.csnAsserted = s.link.csnAsserted := rfl
@[simp] theorem firm_phase (s : State) : s.firm.link.phase = s.link.phase := rfl
@[simp] theorem firm_sdi (s : State) : s.firm.link.sdi = s.link.sdi := rfl
@[simp] theorem firm_window (s : State) : s.firm.link.window = s.link.window := rfl
@[simp] theorem firm_recent (s : State) : s.firm.link.recent = s.link.recent := rfl
@[simp] theorem firm_tx (s : State) : s.firm.link.tx = s.link.tx.map (fun t => { t with yields := none }) := rfl

/-- A frame chosen at a completion, or first after a reset, does not give way. -/
@[simp] theorem giveWay_firm (s : State) : giveWay s.firm = s.firm := by
  cases h : s.link.tx with
  | none => exact giveWay_idle (by simp [h])
  | some t => exact giveWay_begun (t := { t with yields := none }) (by simp [h]) (.inl rfl)

/-! ## The completion of a frame and the clocking of an SPI link -/

theorem LinkWork.refl (s : State) : LinkWork s s := rfl

theorem LinkWork.trans {s t u : State} (h : LinkWork s t) (k : LinkWork t u) : LinkWork s u := by
  unfold LinkWork at *
  rw [h] at k
  exact k

theorem LinkWork.ofLink {s t : State} (x : HostLink) (h : LinkWork s t) : LinkWork s (t.withLink x) := h.trans rfl

theorem LinkWork.ofWork {s t : State} (h : OnlyWork s t) : LinkWork s t := by
  unfold OnlyWork at h
  unfold LinkWork
  rw [h]

theorem LinkWork.ofSends {s t : State} (h : OnlySends s t) : LinkWork s t := by
  unfold OnlySends at h
  unfold LinkWork
  rw [h]

theorem LinkWork.held {s t : State} (h : LinkWork s t) : t.held = s.held := by rw [h]
theorem LinkWork.clock {s t : State} (h : LinkWork s t) : t.clock = s.clock := by rw [h]
theorem LinkWork.choices {s t : State} (h : LinkWork s t) : t.choices = s.choices := by rw [h]
theorem LinkWork.pending {s t : State} (h : LinkWork s t) : t.pending = s.pending := by rw [h]
theorem LinkWork.timebase {s t : State} (h : LinkWork s t) : t.timebase = s.timebase := by rw [h]
theorem LinkWork.inputs {s t : State} (h : LinkWork s t) : t.inputs = s.inputs := by rw [h]
theorem LinkWork.journal {s t : State} (h : LinkWork s t) : t.journal = s.journal := by rw [h]
theorem LinkWork.rules {s t : State} (h : LinkWork s t) : t.rules = s.rules := by rw [h]

theorem breakOff_linkWork (s : State) : LinkWork s (breakOff s) := by
  unfold breakOff dropFrame
  split
  · rfl
  · exact ((LinkWork.refl s).ofLink _).trans (.ofWork (countFault_onlyWork _ _ _))

theorem afterResponse_linkWork (a : AfterSent) (s : State) : LinkWork s (afterResponse a s) := by
  unfold afterResponse
  split
  · rfl
  · unfold changeRate
    split
    · rfl
    · exact (breakOff_linkWork s).ofLink _
  · exact .ofWork (createReport_onlyWork _ _)

theorem completeReport_linkWork (q : Seq) (s : State) : LinkWork s (completeReport q s) := by
  unfold completeReport
  split
  · rfl
  · split <;> rfl

theorem completeResponse_linkWork (s : State) : LinkWork s (completeResponse s) := by
  unfold completeResponse
  split
  · rfl
  · exact ((LinkWork.refl _).ofLink _).trans (afterResponse_linkWork _ _)

theorem completeTransmission_linkWork (s : State) : LinkWork s (completeTransmission s) := by
  unfold completeTransmission
  split
  · rfl
  · refine ((LinkWork.refl s).ofLink { s.link with tx := none }).trans ?_
    dsimp only
    split
    · exact completeReport_linkWork _ _
    · exact completeResponse_linkWork _

theorem settle_linkWork (s : State) : LinkWork s (settle s) := by
  unfold settle
  split
  · rfl
  · split
    · exact ((completeTransmission_linkWork s).trans (.ofSends (arbitrate_onlySends _))).ofLink _
    · rfl

theorem clockPeriods_linkWork (n : Nat) (s : State) : LinkWork s (clockPeriods n s) := by
  induction n generalizing s with
  | zero => rfl
  | succ n ih => exact ((settle_linkWork s).ofLink _).trans (ih (clockOut s))

/-- What a frame that comes in touches before it arrives: on an SPI link, what the completions within it touch. -/
theorem broughtIn_linkWork (n : Nat) (s : State) : LinkWork s (broughtIn n s) := by
  unfold broughtIn
  split
  · rfl
  · exact (((LinkWork.refl s).ofLink _).trans (clockPeriods_linkWork n _)).ofLink _

@[simp] theorem frameBroughtIn_held (n : Nat) (s : State) : (frameBroughtIn n s).held = s.held :=
  (broughtIn_linkWork _ s).held

end Sys2Proof.Machine
end

