-- ==== Sys2Proof/Laws/Request.lean ====
section
/-! SUPPORT. What the arrival of an admitted request comes to: the owner block takes it, its response joins the window,
and the arbiter chooses a response if the transmitter is idle. -/

namespace Sys2Proof.Machine

/-! ## The frame comes in (R131, R132) -/

/-- On a UART link a frame that comes in leaves the part as it is. -/
theorem frameBroughtIn_uart (n : Nat) {s : State} (h : s.link.linkType = .uart) : frameBroughtIn n s = s := by
  unfold frameBroughtIn broughtIn
  rw [h]

/-- A command that is a frame completes when it does so from every state in which its bits bring the part to `s`. -/
theorem arrives_of {i : Instr} {s t : State}
    (h : ∀ s0, frameBroughtIn (frameLength i) s0 = s → exec i s0 = .next t) : Arrives i s t :=
  ⟨fun hu => h s (frameBroughtIn_uart _ hu), h⟩

/-- A request that is answered completes when it does so from every state that its bits, and a report that gives way, bring to
`s`. -/
theorem completes_of {i : Instr} {s t : State}
    (h : ∀ s0, giveWay (frameBroughtIn (frameLength i) s0) = s → exec i s0 = .next t) : Completes i s t :=
  ⟨fun hu hs => h s (by rw [frameBroughtIn_uart _ hu, hs]), h⟩

/-! ## A request arrives (R139 to R141) -/

/-- A frame that arrives changes the Host Link and the silence timer alone. -/
theorem frameArrived_eq (s : State) :
    frameArrived s = (restartSilence s).withLink { s.link with
      assembler := .hunting
      byteStarted := false } := by
  unfold frameArrived restartSilence
  split <;> split <;> first | rfl | (exfalso; simp_all)

/-- The silence timer's restart touches the run control alone. -/
theorem restartSilence_eq (s : State) : restartSilence s = s.withRun (restartSilence s).run := by
  unfold restartSilence
  split <;> rfl

/-- A report gives way in the same way once the request's frame has been heard. -/
theorem giveWay_frameArrived (s : State) : giveWay (frameArrived s) = frameArrived (giveWay s) := by
  rw [frameArrived_eq, frameArrived_eq, restartSilence_eq s, restartSilence_eq (giveWay s)]
  have hy : ((s.withRun (restartSilence s).run).withLink { s.link with
      assembler := .hunting, byteStarted := false }).yielding = s.yielding := rfl
  have hr : (restartSilence (giveWay s)).run = (restartSilence s).run := by
    unfold restartSilence
    simp only [giveWay_run, giveWay_clock]
    split <;> simp
  rw [hr]
  unfold giveWay
  rw [hy]
  cases s.yielding <;> rfl

/-- A request is taken with the Host Link and the silence timer alone changed. -/
theorem taking_eq (tag : Tag) (s : State) : taking tag s = (restartSilence s).withLink (taking tag s).link := by
  simp [taking, frameArrived_eq, State.withLink]

@[simp] theorem taking_timebase (tag : Tag) (s : State) : (taking tag s).timebase = s.timebase := by
  rw [taking_eq, restartSilence_eq]; rfl
@[simp] theorem taking_inputs (tag : Tag) (s : State) : (taking tag s).inputs = s.inputs := by
  rw [taking_eq, restartSilence_eq]; rfl
@[simp] theorem taking_journal (tag : Tag) (s : State) : (taking tag s).journal = s.journal := by
  rw [taking_eq, restartSilence_eq]; rfl
@[simp] theorem taking_rules (tag : Tag) (s : State) : (taking tag s).rules = s.rules := by
  rw [taking_eq, restartSilence_eq]; rfl
@[simp] theorem taking_sched (tag : Tag) (s : State) : (taking tag s).sched = s.sched := by
  rw [taking_eq, restartSilence_eq]; rfl
@[simp] theorem taking_outputs (tag : Tag) (s : State) : (taking tag s).outputs = s.outputs := by
  rw [taking_eq, restartSilence_eq]; rfl
@[simp] theorem taking_reports (tag : Tag) (s : State) : (taking tag s).reports = s.reports := by
  rw [taking_eq, restartSilence_eq]; rfl
@[simp] theorem taking_faults (tag : Tag) (s : State) : (taking tag s).faults = s.faults := by
  rw [taking_eq, restartSilence_eq]; rfl
@[simp] theorem taking_held (tag : Tag) (s : State) : (taking tag s).held = s.held := by
  rw [taking_eq, restartSilence_eq]; rfl
@[simp] theorem taking_clock (tag : Tag) (s : State) : (taking tag s).clock = s.clock := by
  rw [taking_eq, restartSilence_eq]; rfl
@[simp] theorem taking_run (tag : Tag) (s : State) : (taking tag s).run = (restartSilence s).run := by
  rw [taking_eq]; rfl
@[simp] theorem taking_linkType (tag : Tag) (s : State) : (taking tag s).link.linkType = s.link.linkType := by
  simp [taking, frameArrived_eq]

/-- Marking a response as in transmission changes no entry's content. -/
theorem takeResponse_content {l w : List WindowEntry} {e : WindowEntry} (h : takeResponse l = some (e, w)) :
    w.map WindowEntry.content = l.map WindowEntry.content := by
  induction l generalizing w e with
  | nil => simp [takeResponse] at h
  | cons x xs ih =>
    unfold takeResponse at h
    split at h
    · obtain ⟨⟨e', w'⟩, hp, hq⟩ := Option.map_eq_some_iff.mp h
      obtain ⟨-, rfl⟩ := Prod.mk.inj hq
      simp [ih hp]
    · obtain ⟨-, rfl⟩ := Prod.mk.inj (Option.some.inj h)
      simp [WindowEntry.content]

/-- A window whose newest entry is ready has a response to send. -/
theorem takeResponse_ready (l : List WindowEntry) (e : WindowEntry) (h : e.state ≠ .sending) :
    (takeResponse (l ++ [e])).isSome := by
  induction l with
  | nil => simp [takeResponse, h]
  | cons x xs ih =>
    simp only [List.cons_append, takeResponse]
    split
    · simpa using ih
    · rfl

/-- An admitted request is taken at its arrival. -/
theorem requestFrame_admits {s0 s : State} {tag : Tag} {n : Nat} {c : Option Byte}
    (hb : giveWay (frameBroughtIn n s0) = s)
    (h : s.admits tag c = true) (take : State → State × Reply) :
    requestFrame tag n c take s0 = .next (arbitrate (takeRequest tag c take (taking tag s))) := by
  simp only [State.admits, Bool.and_eq_true, Bool.not_eq_true', Bool.or_eq_true, decide_eq_true_eq,
    Option.isNone_iff_eq_none] at h
  obtain ⟨⟨⟨⟨hheld, htag⟩, hre⟩, hlen⟩, hrec⟩ := h
  have hl : (frameArrived (frameBroughtIn n s0)).link.window = s.link.window := by rw [frameArrived_eq, ← hb]; simp
  have hl2 : (frameArrived (frameBroughtIn n s0)).link.recent = s.link.recent := by rw [frameArrived_eq, ← hb]; simp
  have hnot : ¬ (tag ≠ 0 ∧ s.link.window.any (fun e => e.tag = tag) = true) := by
    rintro ⟨h0, h1⟩
    rcases htag with h | h
    · exact h0 h
    · simp only [List.any_eq_true, List.all_eq_true, decide_eq_true_eq] at h h1
      obtain ⟨e, he, ht⟩ := h1
      exact h e he ht
  have hre' : (frameArrived (frameBroughtIn n s0)).link.restarting = false := by
    simpa [HostLink.restarting, hl] using hre
  have hheld0 : s0.held = false := by rw [← frameBroughtIn_held n s0, ← giveWay_held, hb]; exact hheld
  unfold requestFrame putRequest
  rw [hl, hl2, hrec, hre', giveWay_frameArrived, hb]
  rw [if_neg (by simp [hheld0]), if_neg hnot, if_neg (by simp), if_neg (by omega)]
  rfl

/-- What an admitted request comes to, when its owner leaves the Host Link alone: the response joins the window, and
everything else is as the owner left it. -/
theorem requestFrame_answered {s : State} {tag : Tag} {c : Option Byte} (h : s.admits tag c = true)
    {take : State → State × Reply} {u : State} {r : Reply} (ht : take (taking tag s) = (u, r))
    (hl : u.link = (taking tag s).link) :
    ∃ t, (∀ n s0, giveWay (frameBroughtIn n s0) = s → requestFrame tag n c take s0 = .next t)
      ∧ Answered tag c (responsePayload c r) r.after s t ∧ SameButLink u t := by
  have hw : (taking tag s).link.window = s.link.window := by rw [taking, frameArrived_eq]; rfl
  have htx : (taking tag s).link.tx = s.link.tx := by rw [taking, frameArrived_eq]; rfl
  have hrate : (taking tag s).link.rate = s.link.rate := by rw [taking, frameArrived_eq]; rfl
  have hasm : (taking tag s).link.assembler = .hunting := by rw [taking, frameArrived_eq]; rfl
  have hcsn : (taking tag s).link.csnAsserted = s.link.csnAsserted := by rw [taking, frameArrived_eq]; rfl
  have hphase : (taking tag s).link.phase = s.link.phase := by rw [taking, frameArrived_eq]; rfl
  have hsdi : (taking tag s).link.sdi = s.link.sdi := by rw [taking, frameArrived_eq]; rfl
  have hlast : (taking tag s).link.lastByteAt = s.link.lastByteAt := by rw [taking, frameArrived_eq]; rfl
  have hbyte : (taking tag s).link.byteStarted = false := by rw [taking, frameArrived_eq]; rfl
  have hrec : (taking tag s).link.recent
      = if tag = 0 then s.link.recent else s.link.recent.filter (fun e => e.tag ≠ tag) := rfl
  have hr := takeResponse_ready s.link.window ⟨tag, c, .answered, responsePayload c r, r.after, true⟩ (by simp)
  obtain ⟨⟨e, w⟩, hew⟩ := Option.isSome_iff_exists.mp hr
  have hc := takeResponse_content hew
  refine ⟨_, fun n s0 hb => requestFrame_admits hb h take, ?_, ?_⟩
  · unfold takeRequest arbitrate
    rw [ht]
    simp only [State.withLink_link, hl, htx, hw]
    cases hs : s.link.tx with
    | some x =>
      refine ⟨?_, ?_, ?_, ?_, ?_, ?_, ?_, ?_, ?_, ?_, ?_, ?_, ?_⟩ <;>
        simp [hs, hrec, hasm, hrate, hcsn, hphase, hsdi, hlast, hbyte, WindowEntry.content, answeredEntry]
    | none =>
      simp only [hew]
      refine ⟨?_, ?_, ?_, ?_, ?_, ?_, ?_, ?_, ?_, ?_, ?_, ?_, ?_⟩ <;>
        simp [startTx, hs, hrec, hasm, hrate, hcsn, hphase, hsdi, hlast, hbyte, hc, hew, WindowEntry.content, answeredEntry]
  · unfold takeRequest arbitrate
    rw [ht]
    simp only [State.withLink_link, hl, htx, hw]
    cases hs : s.link.tx with
    | some x => rfl
    | none =>
      simp only [hew]
      rfl

/-- A request command whose owner, at the taking, makes of the state what `u` is in all but the Host Link. -/
theorem answers_of {s u : State} {i : Instr} {tag : Tag} {c : Option Byte} {take : State → State × Reply} {r : Reply}
    (he : ∀ s0, exec i s0 = requestFrame tag (frameLength i) c take s0) (h : s.admits tag c = true)
    (hu : take (taking tag s) = (u.withLink (taking tag s).link, r)) :
    Answers i tag c (responsePayload c r) r.after s u := by
  obtain ⟨t, h1, h2, h3⟩ := requestFrame_answered h hu rfl
  exact ⟨t, completes_of fun s0 hb => (he s0).trans (h1 _ s0 hb), h2, h3⟩

end Sys2Proof.Machine
end

