-- ==== Sys2Proof/Laws/Operations.lean ====
section
/-! SUPPORT. What the shared operations do, said once: filing in order, the pool and its handles, a fault entry, the
choice of the transmit arbiter, the operands, and when an event of the part's own comes about. -/

namespace Sys2Proof.Machine

/-! ## Tables -/

theorem setAt_setAt {α : Type} {n : Nat} (v : Vector α n) (i : Fin n) (x y : α) :
    setAt (setAt v i x) i y = setAt v i y := by
  apply table_ext
  intro j
  by_cases h : j = i <;> simp [h]

theorem setAt_getAt {α : Type} {n : Nat} (v : Vector α n) (i : Fin n) : setAt v i (getAt v i) = v := by
  apply table_ext
  intro j
  by_cases h : j = i <;> simp [h]

theorem State.slot_putSlot (s : State) (i j : SlotNo) (x : Slot) :
    (s.putSlot i x).slot j = if j = i then x else s.slot j := by
  simp [State.putSlot, State.slot, getAt_setAt]

/-! ## Filing in order (R5, R6, R156) -/

/-- What is filed joins the list, and nothing leaves it. -/
theorem fileBy_perm {α : Type} (before : α → α → Bool) (x : α) (l : List α) : (fileBy before x l).Perm (x :: l) := by
  induction l with
  | nil => simp [fileBy]
  | cons y ys ih =>
    simp only [fileBy]
    split
    · exact List.Perm.refl _
    · exact (List.Perm.cons y ih).trans (List.Perm.swap x y ys)

theorem mem_fileBy {α : Type} (before : α → α → Bool) (x y : α) (l : List α) :
    y ∈ fileBy before x l ↔ y = x ∨ y ∈ l := by
  rw [(fileBy_perm before x l).mem_iff, List.mem_cons]

theorem Report.before_trans {x y z : Report} (h : x.before y = true) (k : y.before z = true) : x.before z = true := by
  unfold Report.before at *
  cases hx : x.cls <;> cases hy : y.cls <;> cases hz : z.cls <;> simp_all [ReportClass.rank] <;> omega

theorem Report.before_of_not {x y : Report} (h : x.before y = false) (hc : y.creation < x.creation) :
    y.before x = true := by
  unfold Report.before at *
  cases hx : x.cls <;> cases hy : y.cls <;> simp_all [ReportClass.rank]

/-- The newest report filed into an ordered queue leaves it ordered. -/
theorem fileBy_ordered {x : Report} {l : List Report} (hl : l.Pairwise (fun x y => x.before y = true))
    (hc : ∀ y ∈ l, y.creation < x.creation) :
    (fileBy Report.before x l).Pairwise (fun x y => x.before y = true) := by
  induction l with
  | nil => simp [fileBy]
  | cons y ys ih =>
    have hl' := List.pairwise_cons.mp hl
    simp only [fileBy]
    split
    · rename_i hb
      refine List.pairwise_cons.mpr ⟨fun z hz => ?_, hl⟩
      rcases List.mem_cons.mp hz with rfl | hz
      · exact hb
      · exact Report.before_trans hb (hl'.1 z hz)
    · rename_i hb
      refine List.pairwise_cons.mpr ⟨fun z hz => ?_, ih hl'.2 (fun z hz => hc z (List.mem_cons_of_mem _ hz))⟩
      rcases (mem_fileBy _ _ _ _).mp hz with rfl | hz
      · exact Report.before_of_not (by simpa using hb) (hc y List.mem_cons_self)
      · exact hl'.1 z hz

/-- A report that is filed takes one place of the outbox. -/
theorem hasRoom_filing {s : State} {n : Nat} (b : ReportBody) (h : s.hasRoom (n + 1)) : (s.filing b).hasRoom n := by
  unfold State.hasRoom State.filing ReportUnit.filed ReportUnit.outboxCount at *
  split
  · have := (fileBy_perm Report.before (newReport b s.reports.nextCreation) s.reports.queue).length_eq
    simp at this ⊢
    omega
  · simp
    omega

theorem hasRoom_mono {s : State} {n m : Nat} (h : s.hasRoom n) (hm : m ≤ n) : s.hasRoom m := by
  unfold State.hasRoom at *
  omega

/-! ## The pool (R1 to R3, R13) -/

theorem Handle.ext_parts {a b : Handle} (h1 : a.slot = b.slot) (h2 : a.gen = b.gen) : a = b := by
  cases a
  cases b
  cases h1
  cases h2
  rfl

/-- What a handle names is in use and of its gen. -/
theorem actionOf_some {s : State} {h : Handle} {a : Action} (x : s.actionOf h = some a) :
    s.live h = some (s.slot h.slot) ∧ (s.slot h.slot).action = some a ∧ (s.slot h.slot).gen = h.gen
      ∧ (s.slot h.slot).isFree = false := by
  unfold State.actionOf State.live at *
  dsimp only at *
  split at x
  · rename_i hc
    simp at x
    exact ⟨if_pos hc, x, hc.1, hc.2⟩
  · simp at x

theorem actionOf_isSome {s : State} {h : Handle} :
    (s.actionOf h).isSome ↔ (s.slot h.slot).gen = h.gen ∧ (s.slot h.slot).isFree = false := by
  unfold State.actionOf State.live
  dsimp only
  split
  · rename_i hc
    have := hc.2
    unfold Slot.isFree at this
    simp only [Option.bind_some, hc, and_self, iff_true]
    unfold Slot.action
    cases hx : (s.slot h.slot).state <;> simp_all
  · rename_i hc
    simp only [Option.bind_none, Option.isSome_none, Bool.false_eq_true, false_iff]
    exact hc

theorem waiting_of_slot {s : State} {h : Handle} {a : Action} (x : s.slot h.slot = ⟨h.gen, .waiting a⟩) :
    s.waitingAction h = some a ∧ s.holdingAction h = none ∧ s.actionOf h = some a := by
  simp [State.waitingAction, State.holdingAction, State.actionOf, State.live, x, Slot.isFree, Slot.action]

theorem holding_of_slot {s : State} {h : Handle} {a : Action} {finish : Tick}
    (x : s.slot h.slot = ⟨h.gen, .holding a finish⟩) :
    s.waitingAction h = none ∧ s.holdingAction h = some a ∧ s.actionOf h = some a := by
  simp [State.waitingAction, State.holdingAction, State.actionOf, State.live, x, Slot.isFree, Slot.action]

theorem slot_of_free (x : Slot) (h : x.isFree = true) : x = ⟨x.gen, .free⟩ := by
  cases x with
  | mk g st => cases st <;> simp_all [Slot.isFree]

/-- A slot vacated: FREE, its gen kept, its entry gone from its list. -/
theorem vacate_eq {s : State} {h : Handle} (hg : (s.slot h.slot).gen = h.gen) :
    vacate h s = s.withSched { s.sched with
      slots := setAt s.sched.slots h.slot ⟨h.gen, .free⟩
      timeList := s.sched.timeList.filter (fun x => x.handle ≠ h)
      travelList := s.sched.travelList.filter (fun x => x.handle ≠ h) } := by
  unfold vacate removeEntry
  rw [hg]
  rfl

/-- A handle that names nothing frees nothing. -/
theorem freeSlot_of_none {s : State} {h : Handle} (e : Ended) (ha : s.actionOf h = none) : freeSlot h e s = s := by
  unfold freeSlot
  cases hl : s.live h with
  | none => rfl
  | some x =>
    have : x.action = none := by simpa [State.actionOf, hl] using ha
    simp only [this]

theorem freeCount_eq_96 (s : State) : s.freeCount = 96 ↔ ∀ j, (s.slot j).isFree = true := by
  unfold State.freeCount State.freeSlots allSlots
  constructor
  · intro h j
    have := List.length_filter_eq_length_iff (p := fun i => (s.slot i).isFree) (l := List.finRange 96)
    rw [show (List.finRange 96).length = 96 by simp] at this
    exact this.mp h j (List.mem_finRange j)
  · intro h
    rw [List.filter_eq_self.mpr (fun a _ => h a)]
    simp

/-- Every action of the pool is freed with the others, whether or not it has an entry (R25). -/
theorem handleOf_mem_freeingOrder {s : State} {i : SlotNo} (h : (s.slot i).isFree = false) :
    s.handleOf i ∈ s.freeingOrder := by
  unfold State.freeingOrder
  dsimp only
  rw [List.mem_append]
  by_cases hc : s.handleOf i ∈ s.listedHandles
  · exact Or.inl hc
  · right
    rw [List.mem_filter]
    refine ⟨?_, by simpa using hc⟩
    rw [List.mem_map]
    exact ⟨i, List.mem_filter.mpr ⟨List.mem_finRange i, by simp [h]⟩, rfl⟩

/-! ## Fault entries and what a counting may bring about -/

theorem FaultKind.code_injective {a b : FaultKind} (h : a.code = b.code) : a = b := by
  cases a <;> cases b <;> simp [FaultKind.code] at h ⊢

theorem faultEntry_recordFault (k j : FaultKind) (d : Option FaultDetail) (s : State) :
    (recordFault k d s).faultEntry j = if j = k then (s.faultEntry k).counted s.now d else s.faultEntry j := by
  unfold recordFault State.faultEntry
  simp only [State.withFaults_faults, getAt_setAt]
  by_cases h : j = k
  · subst h
    simp
  · have : ¬ j.code = k.code := fun e => h (FaultKind.code_injective e)
    simp [h, this]

/-- `t` is `s` in everything but the reports and the faults: what creating and counting may touch outside ARMED and
DRAINING. -/
def OnlyNotes (s t : State) : Prop := t = { s with reports := t.reports, faults := t.faults }

theorem OnlyNotes.trans {s t u : State} (h : OnlyNotes s t) (k : OnlyNotes t u) : OnlyNotes s u := by
  unfold OnlyNotes at *
  rw [h] at k
  exact k

theorem OnlyNotes.run {s t : State} (h : OnlyNotes s t) : t.run = s.run := by rw [h]
theorem OnlyNotes.sched {s t : State} (h : OnlyNotes s t) : t.sched = s.sched := by rw [h]
theorem OnlyNotes.outputs {s t : State} (h : OnlyNotes s t) : t.outputs = s.outputs := by rw [h]

theorem createWith_onlyNotes {f : ReportKind → Bool → State → State} (b : ReportBody) (s : State)
    (hf : ∀ k q t, t.run = s.run → OnlyNotes t (f k q t)) : OnlyNotes s (createWith f b s) := by
  unfold createWith
  split
  · split
    · rfl
    · exact (show OnlyNotes s (s.withReports _) from rfl).trans (hf _ _ _ rfl)
  · rfl

theorem countWith_onlyNotes {c : ReportBody → State → State} {f : FaultKind → State → State} (q : Bool) (k : FaultKind)
    (d : Option FaultDetail) {s : State} (hs : s.run.state.sequencing = false)
    (hc : ∀ b t, t.run = s.run → OnlyNotes t (c b t)) : OnlyNotes s (countWith c f q k d s) := by
  have h1 : OnlyNotes s (recordFault k d s) := rfl
  unfold countWith
  dsimp only
  split
  · have h2 := h1.trans (hc (.fault k 1 d) _ h1.run)
    rw [if_neg]
    · exact h2
    · rintro ⟨-, h⟩
      rw [h2.run, hs] at h
      cases h
  · rw [if_neg]
    · exact h1
    · rintro ⟨-, h⟩
      rw [h1.run, hs] at h
      cases h

/-- A report created in STANDBY or FAULTED touches the reports and the faults alone. -/
theorem createReport_onlyNotes (b : ReportBody) {s : State} (hs : s.run.state.sequencing = false) :
    OnlyNotes s (createReport b s) := by
  unfold createReport
  refine createWith_onlyNotes b s (fun k q t ht => ?_)
  refine countWith_onlyNotes _ _ _ (by rw [ht]; exact hs) (fun b2 t2 ht2 => ?_)
  refine createWith_onlyNotes _ _ (fun k3 q3 t3 ht3 => ?_)
  exact countWith_onlyNotes _ _ _ (by rw [ht3, ht2, ht]; exact hs) (fun _ _ _ => rfl)

/-- A fault counted in STANDBY or FAULTED touches the reports and the faults alone. -/
theorem countFault_onlyNotes (k : FaultKind) (d : Option FaultDetail) {s : State}
    (hs : s.run.state.sequencing = false) : OnlyNotes s (countFault k d s) :=
  countWith_onlyNotes _ _ _ hs (fun b _ ht => createReport_onlyNotes b (by rw [ht]; exact hs))

/-! ## The choices of the outbox and of the arbiter (R144, R157, R163) -/

theorem takeOldestC_none {l : List Report} (h : ∀ r ∈ l, r.cls ≠ .c) : takeOldestC l = none := by
  induction l with
  | nil => rfl
  | cons x xs ih =>
    simp only [takeOldestC, if_neg (h x List.mem_cons_self), ih (fun r hr => h r (List.mem_cons_of_mem _ hr))]
    rfl

theorem takeOldestC_first {pre post : List Report} {old : Report} (h : ∀ r ∈ pre, r.cls ≠ .c) (ho : old.cls = .c) :
    takeOldestC (pre ++ old :: post) = some (old, pre ++ post) := by
  induction pre with
  | nil => simp [takeOldestC, ho]
  | cons x xs ih =>
    simp only [List.cons_append, takeOldestC, if_neg (h x List.mem_cons_self),
      ih (fun r hr => h r (List.mem_cons_of_mem _ hr))]
    rfl

theorem takeResponse_none {l : List WindowEntry} (h : ∀ e ∈ l, e.state = .sending) : takeResponse l = none := by
  induction l with
  | nil => rfl
  | cons x xs ih => simp [takeResponse, h x List.mem_cons_self, ih (fun e he => h e (List.mem_cons_of_mem _ he))]

theorem takeResponse_first {pre post : List WindowEntry} {e : WindowEntry} (h : ∀ e ∈ pre, e.state = .sending)
    (he : e.state ≠ .sending) :
    takeResponse (pre ++ e :: post) = some (e, pre ++ { e with state := .sending } :: post) := by
  induction pre with
  | nil => simp [takeResponse, he]
  | cons x xs ih => simp [takeResponse, h x List.mem_cons_self, ih (fun e he => h e (List.mem_cons_of_mem _ he))]

theorem Report.dueAt_eq_some (r : Report) (n : Nat) : r.dueAt = some n ↔ r.state = .retryDue n := by
  unfold Report.dueAt
  split <;> simp_all

theorem Report.dueAt_eq_none (r : Report) : r.dueAt = none ↔ ∀ n, r.state ≠ .retryDue n := by
  constructor
  · intro h n hn
    rw [(Report.dueAt_eq_some r n).mpr hn] at h
    cases h
  · intro h
    cases hd : r.dueAt with
    | none => rfl
    | some n => exact absurd ((Report.dueAt_eq_some r n).mp hd) (h n)

theorem firstDueRetry_none {l : List Report} (h : ∀ x ∈ l, ∀ m, x.state ≠ .retryDue m) : firstDueRetry l = none := by
  induction l with
  | nil => rfl
  | cons x xs ih =>
    simp [firstDueRetry, (Report.dueAt_eq_none x).mpr (h x List.mem_cons_self),
      ih (fun e he => h e (List.mem_cons_of_mem _ he))]

/-- With no retry due, no retry is taken. -/
theorem nextRetry_none {clock : Nat} {l : List Report} (h : ∀ x ∈ l, ∀ m, x.state ≠ .retryDue m) :
    nextRetry clock l = none := by
  simp [nextRetry, firstDueRetry_none h]

/-- A retry whose interval expired first, before this instant, is the one that is taken (R163). -/
theorem nextRetry_earlier {clock : Nat} {l : List Report} {r : Report} (h : firstDueRetry l = some r)
    (hc : r.dueAt ≠ some clock) : nextRetry clock l = some r := by
  simp [nextRetry, h, hc]

/-- Of the retries whose intervals expire at this instant the oldest of the window is taken, its expiry taken or not yet
(R163). -/
theorem nextRetry_tied {clock : Nat} {pre post : List Report} {r x : Report}
    (h : firstDueRetry (pre ++ x :: post) = some r) (hc : r.dueAt = some clock)
    (hpre : ∀ y ∈ pre, y.dueAt ≠ some clock ∧ y.fallsDue clock = false)
    (hx : x.dueAt = some clock ∨ x.fallsDue clock = true) : nextRetry clock (pre ++ x :: post) = some x := by
  have hf : (pre ++ x :: post).find? (fun y => decide (y.dueAt = some clock) || y.fallsDue clock) = some x := by
    rw [List.find?_append, List.find?_eq_none.mpr (fun y hy => by simp [hpre y hy]), List.find?_cons_of_pos]
    · rfl
    · simpa using hx
  simp only [nextRetry, h, Option.map_some, hc, if_true, hf, Option.getD_some]

theorem firstDueRetry_mem {l : List Report} {x : Report} (h : firstDueRetry l = some x) :
    x ∈ l ∧ ∃ n, x.dueAt = some n := by
  induction l with
  | nil => simp [firstDueRetry] at h
  | cons y ys ih =>
    simp only [firstDueRetry] at h
    split at h
    · obtain ⟨a, b⟩ := ih h
      exact ⟨List.mem_cons_of_mem _ a, b⟩
    · rename_i t hd hn
      cases h
      exact ⟨List.mem_cons_self, _, hd⟩
    · rename_i t z hd hn
      split at h
      · cases h
        exact ⟨List.mem_cons_self, _, hd⟩
      · cases h
        obtain ⟨a, b⟩ := ih hn
        exact ⟨List.mem_cons_of_mem _ a, b⟩

/-- The in-flight report of a sequence number that stands once. -/
theorem find_seq {q : Seq} {pre post : List Report} {r : Report} (hr : r.seq = some q)
    (h : ∀ x ∈ pre ++ post, x.seq ≠ some q) :
    (pre ++ r :: post).find? (fun r => r.seq = some q) = some r := by
  have hp : pre.find? (fun r => r.seq = some q) = none := by
    rw [List.find?_eq_none]
    intro x hx
    simpa using h x (List.mem_append_left _ hx)
  rw [List.find?_append, hp]
  simp [hr]

/-- The reports without the one of a sequence number that stands once. -/
theorem filter_seq {q : Seq} {pre post : List Report} {r : Report} (hr : r.seq = some q)
    (h : ∀ x ∈ pre ++ post, x.seq ≠ some q) :
    (pre ++ r :: post).filter (fun r => r.seq ≠ some q) = pre ++ post := by
  rw [List.filter_append, List.filter_cons_of_neg (by simp [hr]), ← List.filter_append, List.filter_eq_self]
  intro x hx
  simpa using h x hx

/-- The reports with the one of a sequence number that stands once replaced. -/
theorem replaceReport_seq {q : Seq} {pre post : List Report} {r : Report} (y : Report) (hr : r.seq = some q)
    (h : ∀ x ∈ pre ++ post, x.seq ≠ some q) :
    replaceReport (some q) y (pre ++ r :: post) = pre ++ y :: post := by
  have hm : ∀ l : List Report, (∀ x ∈ l, x.seq ≠ some q) → l.map (fun x => if x.seq = some q then y else x) = l := by
    intro l hl
    induction l with
    | nil => rfl
    | cons x xs ih =>
      rw [List.map_cons, if_neg (hl x List.mem_cons_self), ih (fun z hz => hl z (List.mem_cons_of_mem _ hz))]
  unfold replaceReport
  rw [List.map_append, List.map_cons, if_pos hr, hm pre (fun x hx => h x (List.mem_append_left _ hx)),
    hm post (fun x hx => h x (List.mem_append_right _ hx))]

/-! ## The silence timer and the taking of a request -/

theorem restartSilence_of_idle {s : State} (h : s.run.state.sequencing = false) : restartSilence s = s := by
  unfold restartSilence
  rw [if_neg]
  simp [h]

@[simp] theorem restartSilence_state (s : State) : (restartSilence s).run.state = s.run.state := by
  unfold restartSilence
  split <;> rfl
@[simp] theorem restartSilence_silenceLimit (s : State) :
    (restartSilence s).run.silenceLimit = s.run.silenceLimit := by
  unfold restartSilence
  split <;> rfl
@[simp] theorem restartSilence_timebase (s : State) : (restartSilence s).timebase = s.timebase := by
  rw [restartSilence_eq]; rfl
@[simp] theorem restartSilence_inputs (s : State) : (restartSilence s).inputs = s.inputs := by
  rw [restartSilence_eq]; rfl
@[simp] theorem restartSilence_journal (s : State) : (restartSilence s).journal = s.journal := by
  rw [restartSilence_eq]; rfl
@[simp] theorem restartSilence_rules (s : State) : (restartSilence s).rules = s.rules := by
  rw [restartSilence_eq]; rfl
@[simp] theorem restartSilence_sched (s : State) : (restartSilence s).sched = s.sched := by
  rw [restartSilence_eq]; rfl
@[simp] theorem restartSilence_outputs (s : State) : (restartSilence s).outputs = s.outputs := by
  rw [restartSilence_eq]; rfl
@[simp] theorem restartSilence_link (s : State) : (restartSilence s).link = s.link := by
  rw [restartSilence_eq]; rfl
@[simp] theorem restartSilence_reports (s : State) : (restartSilence s).reports = s.reports := by
  rw [restartSilence_eq]; rfl
@[simp] theorem restartSilence_faults (s : State) : (restartSilence s).faults = s.faults := by
  rw [restartSilence_eq]; rfl
@[simp] theorem restartSilence_clock (s : State) : (restartSilence s).clock = s.clock := by
  rw [restartSilence_eq]; rfl
@[simp] theorem restartSilence_held (s : State) : (restartSilence s).held = s.held := by
  rw [restartSilence_eq]; rfl

theorem taking_output (tag : Tag) (s : State) (l : OutLine) : (taking tag s).output l = s.output l := by
  unfold State.output
  rw [taking_outputs]
theorem taking_slot (tag : Tag) (s : State) (i : SlotNo) : (taking tag s).slot i = s.slot i := by
  unfold State.slot
  rw [taking_sched]
theorem taking_input (tag : Tag) (s : State) (l : InLine) : (taking tag s).input l = s.input l := by
  unfold State.input
  rw [taking_inputs]
theorem taking_rule (tag : Tag) (s : State) (r : RuleNo) : (taking tag s).rule r = s.rule r := by
  unfold State.rule
  rw [taking_rules]
theorem taking_now (tag : Tag) (s : State) : (taking tag s).now = s.now := by
  unfold State.now
  rw [taking_timebase]
theorem taking_syncArmed (tag : Tag) (s : State) : (taking tag s).syncArmed = s.syncArmed := by
  unfold State.syncArmed
  rw [taking_timebase]
theorem taking_freeCount (tag : Tag) (s : State) : (taking tag s).freeCount = s.freeCount := by
  unfold State.freeCount State.freeSlots State.slot
  rw [taking_sched]
theorem taking_faultEntry (tag : Tag) (s : State) (k : FaultKind) :
    (taking tag s).faultEntry k = s.faultEntry k := by
  unfold State.faultEntry
  rw [taking_faults]

/-- A request command is the arrival of its request frame, whose owner block takes it. -/
theorem exec_request {i : Instr} {tag : Tag} {p : List Byte} (h : encodeRequest i = some (tag, p)) (s : State) :
    ∃ take, exec i s = requestFrame tag p.length p.head? take s := by
  cases i <;> simp only [encodeRequest, Option.some.injEq, Prod.mk.injEq, reduceCtorEq] at h <;>
    obtain ⟨rfl, rfl⟩ := h <;> exact ⟨_, rfl⟩

/-! ## Operands (R141, 10.4, 10.5) -/

theorem outLineOf_none {b : Byte} (h : 11 < b.toNat) : outLineOf b = none := by
  unfold outLineOf
  rw [dif_neg (by omega)]
theorem outLineOf_some {b : Byte} {l : OutLine} (h : b.toNat = l.val) : outLineOf b = some l := by
  unfold outLineOf
  rw [dif_pos (by rw [h]; exact l.isLt)]
  congr
theorem inLineOf_none {b : Byte} (h : 7 < b.toNat) : inLineOf b = none := by
  unfold inLineOf
  rw [dif_neg (by omega)]
theorem inLineOf_some {b : Byte} {l : InLine} (h : b.toNat = l.val) : inLineOf b = some l := by
  unfold inLineOf
  rw [dif_pos (by rw [h]; exact l.isLt)]
  congr
theorem ruleNoOf_none {b : Byte} (h : 15 < b.toNat) : ruleNoOf b = none := by
  unfold ruleNoOf
  rw [dif_neg (by omega)]
theorem ruleNoOf_some {b : Byte} {r : RuleNo} (h : b.toNat = r.val) : ruleNoOf b = some r := by
  unfold ruleNoOf
  rw [dif_pos (by rw [h]; exact r.isLt)]
  congr

/-! ## Counting for an action (R15, R16, R32, R175) -/

/-- The fault of an action that is still WAITING is counted. -/
theorem countForAction_waiting {k : FaultKind} {d : FaultDetail} {h : Handle} {a : Action} {s : State}
    (hw : s.waitingAction h = some a) : countForAction k d h s = countFault k (some d) s := by
  simp [countForAction, hw]

/-- The fault of an action that fatal entry has freed is not counted (R175). -/
theorem countForAction_freed {k : FaultKind} {d : FaultDetail} {h : Handle} {s : State}
    (hw : s.waitingAction h = none) : countForAction k d h s = s := by
  simp [countForAction, hw]

/-! ## What the receive side sees -/

@[simp] theorem receiveAll_nil (s : State) : receiveAll [] s = s := rfl
@[simp] theorem receiveAll_cons (x : LinkEvent) (xs : List LinkEvent) (s : State) :
    receiveAll (x :: xs) s = receiveAll xs (arbitrate (receiveEvent x s)) := rfl
@[simp] theorem receiveEvent_char (c : RxChar) (s : State) :
    receiveEvent (.char c) s = receiveChar c (broughtIn (8 - s.link.phase) s) := rfl

/-- On a UART link the bits that come in move nothing that the part sends. -/
theorem broughtIn_uart (n : Nat) {s : State} (h : s.link.linkType = .uart) : broughtIn n s = s := by
  unfold broughtIn
  rw [h]

/-- The frame that a request command is has the length of the request's payload. -/
theorem frameLength_request {i : Instr} {tag : Tag} {p : List Byte} (h : encodeRequest i = some (tag, p)) :
    frameLength i = p.length := by
  unfold frameLength
  split
  · exact absurd h (by simp [encodeRequest])
  · rw [h]

/-! ## The clocking of an SPI link (R132, R144) -/

/-- A frame that has not gone yet is left to go on. -/
theorem settle_going {s : State} {t : Transmission} (h : s.link.tx = some t) (hg : t.gone = false) : settle s = s := by
  unfold settle
  rw [h]
  simp [hg]

/-- An idle transmitter has nothing to complete. -/
theorem settle_idle {s : State} (h : s.link.tx = none) : settle s = s := by
  unfold settle
  rw [h]

/-- A frame that has gone completes, and the arbiter chooses. -/
theorem settle_gone {s : State} {t : Transmission} (h : s.link.tx = some t) (hg : t.gone = true) :
    settle s = (arbitrate (completeTransmission s)).firm := by
  unfold settle
  rw [h]
  simp [hg]

/-- In step with the byte in progress, a bit of the frame goes out. -/
theorem clocked_inStep {t : Transmission} {p : Nat} (h : t.sent % 8 = p) : t.clocked p = { t with sent := t.sent + 1 } :=
  if_pos h

/-- Within a byte of filler, a frame that was chosen waits. -/
theorem clocked_waits {t : Transmission} {p : Nat} (h : t.sent % 8 ≠ p) : t.clocked p = t := if_neg h

/-- After a deassertion of CSn a frame stands at the beginning of the byte that was being sent. -/
theorem cut_sent (t : Transmission) : t.cut.sent = t.sent / 8 * 8 := rfl

/-! ## The lists at rest and time (R8, R9) -/

/-- An event of the part's own that nothing comes before is carried out at its moment. -/
theorem whenDue_eq {ticks : Option Nat} {event : State → State} {s : State} {n : Nat} (hh : s.held = false)
    (ht : ticks = some n) (hq : s.quietFor n) : whenDue ticks event s = .next (arbitrate (event (elapse n s))) := by
  unfold whenDue
  rw [if_neg (by simp [hh]), ht]
  simp only []
  rw [if_pos]
  rw [List.all_eq_true]
  intro p hp
  simpa using hq p hp

theorem atOnce_eq {event : State → State} {s : State} (hh : s.held = false) :
    atOnce event s = .next (arbitrate (event s)) := by
  unfold atOnce
  rw [if_neg (by simp [hh])]

theorem expiredTime_none {x : Expiry} {s : State} (h : s.timeListAhead) : expiredTime x s = none := by
  unfold expiredTime
  split
  · rfl
  · rename_i e es heq
    rw [if_pos (h e (by rw [heq]; exact List.mem_cons_self))]

theorem expiredTravel_none {s : State}
    (h : ∀ e ∈ s.sched.travelList, countAhead s.timebase.travelCount e.key = true) : expiredTravel s = none := by
  unfold expiredTravel
  split
  · rfl
  · rename_i e es heq
    rw [if_pos (h e (by rw [heq]; exact List.mem_cons_self))]

/-- With nothing of the lists due and no START to take at once, running the lists changes nothing. -/
theorem runLists_at_rest {x : Expiry} {s : State} (n : Nat) (h : s.timeListAhead)
    (h2 : x.travelEdge = none ∨ ∀ e ∈ s.sched.travelList, countAhead s.timebase.travelCount e.key = true) :
    runLists x n [] s = s := by
  cases n with
  | zero => rfl
  | succ n =>
    unfold runLists
    rw [expiredTime_none h]
    rcases h2 with h2 | h2
    · simp only [h2]
    · simp only [expiredTravel_none h2]
      cases x.travelEdge <;> rfl

/-- The end of a pulse is ahead of its START tick. -/
theorem tickAhead_add_width (t : Tick) (w : BitVec 24) (h : w ≠ 0) : tickAhead t (t + w.setWidth 48) = true := by
  unfold tickAhead Config.tickWindow
  have e : t + w.setWidth 48 - t = w.setWidth 48 := by simp
  rw [e]
  have h1 := w.isLt
  have h2 : w.toNat ≠ 0 := fun c => h (BitVec.eq_of_toNat_eq (by simpa using c))
  simp [BitVec.toNat_setWidth]
  omega

/-- Outside ARMED no rule is evaluated (R99). -/
theorem evalRules_unarmed (e : EdgeEvent) (l : List RuleNo) {s : State} (h : s.run.state ≠ .armed) :
    evalRules e l s = s := by
  cases l with
  | nil => rfl
  | cons r rs =>
    unfold evalRules
    rw [if_neg h]

end Sys2Proof.Machine
end

