-- ==== Sys2Proof/Laws/PerInstr.lean ====
section
/-! SUPPORT. The families of statements made per command. `Encoding` says of a command that is a request of one fixed code:
its payload names that code, is not shorter than 10.3 requires, and fits in a frame (R134, R182). -/

namespace Sys2Proof.Laws

/-- The payload of a request: it begins with a request code, has at least the least length of that code, and is no longer
than a frame's payload may be. -/
def Encoding.Statement (i : Instr) : Prop :=
  ∀ (tag : Tag) (p : List Byte), encodeRequest i = some (tag, p) → i.wellFormed = true →
    ∃ c : Code, p.head? = some c.byte ∧ c.lengths.1 ≤ p.length ∧ p.length ≤ maxPayload

/-- A payload of a fixed length that begins with its code. -/
theorem encoding_of_fixed {i : Instr} {t : Tag} {q : List Byte} (c : Code) (he : encodeRequest i = some (t, q))
    (hc : q.head? = some c.byte) (hl : c.lengths.1 = q.length) : Encoding.Statement i := by
  intro tag p h _
  rw [he] at h
  obtain ⟨-, rfl⟩ := Prod.mk.inj (Option.some.inj h)
  exact ⟨c, hc, hl.le, hl ▸ (by cases c <;> decide : c.lengths.1 ≤ maxPayload)⟩

/-- An event carries no request payload. -/
theorem encoding_of_event {i : Instr} (he : encodeRequest i = .none) : Encoding.Statement i := by
  intro tag p h _
  rw [he] at h
  cases h

theorem Encoding.fullReset (cause : ResetCause) (linkSel : Level) :
    Encoding.Statement (.fullReset cause linkSel) :=
  encoding_of_event rfl

theorem Encoding.ping (tag : Tag) (data : List Byte) :
    Encoding.Statement (.ping tag data) := by
  intro _ p h hw
  obtain ⟨-, rfl⟩ := Prod.mk.inj (Option.some.inj h)
  exact ⟨Code.ping, rfl, Nat.succ_le_succ (Nat.zero_le _), by simpa [Instr.wellFormed] using hw⟩

theorem Encoding.getIdentity (tag : Tag) :
    Encoding.Statement (.getIdentity tag) :=
  encoding_of_fixed Code.getIdentity rfl rfl rfl

theorem Encoding.setLinkRate (tag : Tag) (rate : BitVec 32) :
    Encoding.Statement (.setLinkRate tag rate) :=
  encoding_of_fixed Code.setLinkRate rfl rfl rfl

theorem Encoding.arm (tag : Tag) :
    Encoding.Statement (.arm tag) :=
  encoding_of_fixed Code.arm rfl rfl rfl

theorem Encoding.disarmWait (tag : Tag) :
    Encoding.Statement (.disarmWait tag) :=
  encoding_of_fixed Code.disarm rfl rfl rfl

theorem Encoding.disarmFlush (tag : Tag) :
    Encoding.Statement (.disarmFlush tag) :=
  encoding_of_fixed Code.disarm rfl rfl rfl

theorem Encoding.recover (tag : Tag) :
    Encoding.Statement (.recover tag) :=
  encoding_of_fixed Code.recover rfl rfl rfl

theorem Encoding.getStatus (tag : Tag) :
    Encoding.Statement (.getStatus tag) :=
  encoding_of_fixed Code.getStatus rfl rfl rfl

theorem Encoding.setSupervision (tag : Tag) (limit : BitVec 16) :
    Encoding.Statement (.setSupervision tag limit) :=
  encoding_of_fixed Code.setSupervision rfl rfl rfl

theorem Encoding.restartKeep (tag : Tag) :
    Encoding.Statement (.restartKeep tag) :=
  encoding_of_fixed Code.restart rfl rfl rfl

theorem Encoding.restartClear (tag : Tag) :
    Encoding.Statement (.restartClear tag) :=
  encoding_of_fixed Code.restart rfl rfl rfl

theorem Encoding.schedulePulse (tag : Tag) (line base dueMode : Byte) (due : BitVec 48) (width : BitVec 24) (repeats : Byte) (interval : BitVec 32) (reportDone : Byte) :
    Encoding.Statement (.schedulePulse tag line base dueMode due width repeats interval reportDone) :=
  encoding_of_fixed Code.schedulePulse rfl rfl rfl

theorem Encoding.cancelActionAbort (tag : Tag) (slot : Byte) (gen : Gen) :
    Encoding.Statement (.cancelActionAbort tag slot gen) :=
  encoding_of_fixed Code.cancelAction rfl rfl rfl

theorem Encoding.cancelActionFinish (tag : Tag) (slot : Byte) (gen : Gen) :
    Encoding.Statement (.cancelActionFinish tag slot gen) :=
  encoding_of_fixed Code.cancelAction rfl rfl rfl

theorem Encoding.cancelLineAbort (tag : Tag) (line : Byte) :
    Encoding.Statement (.cancelLineAbort tag line) :=
  encoding_of_fixed Code.cancelLine rfl rfl rfl

theorem Encoding.cancelLineFinish (tag : Tag) (line : Byte) :
    Encoding.Statement (.cancelLineFinish tag line) :=
  encoding_of_fixed Code.cancelLine rfl rfl rfl

theorem Encoding.listSchedule (tag : Tag) (list start maximum : Byte) :
    Encoding.Statement (.listSchedule tag list start maximum) :=
  encoding_of_fixed Code.listSchedule rfl rfl rfl

theorem Encoding.setSchedule (tag : Tag) (lateTicks : BitVec 16) (lateCounts policy reserve : Byte) :
    Encoding.Statement (.setSchedule tag lateTicks lateCounts policy reserve) :=
  encoding_of_fixed Code.setSchedule rfl rfl rfl

theorem Encoding.setOutput (tag : Tag) (line mode idle safe policy : Byte) :
    Encoding.Statement (.setOutput tag line mode idle safe policy) :=
  encoding_of_fixed Code.setOutput rfl rfl rfl

theorem Encoding.setLevel (tag : Tag) (line level : Byte) :
    Encoding.Statement (.setLevel tag line level) :=
  encoding_of_fixed Code.setLevel rfl rfl rfl

theorem Encoding.trainLoad (tag : Tag) (line : Byte) (period high : BitVec 24) :
    Encoding.Statement (.trainLoad tag line period high) :=
  encoding_of_fixed Code.trainLoad rfl rfl rfl

theorem Encoding.trainStart (tag : Tag) (line : Byte) (burst : BitVec 16) :
    Encoding.Statement (.trainStart tag line burst) :=
  encoding_of_fixed Code.trainStart rfl rfl rfl

theorem Encoding.trainStopNow (tag : Tag) (line : Byte) :
    Encoding.Statement (.trainStopNow tag line) :=
  encoding_of_fixed Code.trainStop rfl rfl rfl

theorem Encoding.trainStopAtPeriodEnd (tag : Tag) (line : Byte) :
    Encoding.Statement (.trainStopAtPeriodEnd tag line) :=
  encoding_of_fixed Code.trainStop rfl rfl rfl

theorem Encoding.getOutputs (tag : Tag) :
    Encoding.Statement (.getOutputs tag) :=
  encoding_of_fixed Code.getOutputs rfl rfl rfl

theorem Encoding.getTime (tag : Tag) :
    Encoding.Statement (.getTime tag) :=
  encoding_of_fixed Code.getTime rfl rfl rfl

theorem Encoding.setTravelSource (tag : Tag) (source : Byte) :
    Encoding.Statement (.setTravelSource tag source) :=
  encoding_of_fixed Code.setTravelSource rfl rfl rfl

theorem Encoding.setSync (tag : Tag) (width : BitVec 16) (reporting : Byte) :
    Encoding.Statement (.setSync tag width reporting) :=
  encoding_of_fixed Code.setSync rfl rfl rfl

theorem Encoding.armSync (tag : Tag) (preset : Tick) :
    Encoding.Statement (.armSync tag preset) :=
  encoding_of_fixed Code.armSync rfl rfl rfl

theorem Encoding.cancelSync (tag : Tag) :
    Encoding.Statement (.cancelSync tag) :=
  encoding_of_fixed Code.cancelSync rfl rfl rfl

theorem Encoding.setInput (tag : Tag) (line edgeSelect : Byte) (width : BitVec 16) (journalEnable : Byte) :
    Encoding.Statement (.setInput tag line edgeSelect width journalEnable) :=
  encoding_of_fixed Code.setInput rfl rfl rfl

theorem Encoding.getInputs (tag : Tag) :
    Encoding.Statement (.getInputs tag) :=
  encoding_of_fixed Code.getInputs rfl rfl rfl

theorem Encoding.readJournal (tag : Tag) (count : Byte) :
    Encoding.Statement (.readJournal tag count) :=
  encoding_of_fixed Code.readJournal rfl rfl rfl

theorem Encoding.setJournal (tag : Tag) (watermark empty : Byte) :
    Encoding.Statement (.setJournal tag watermark empty) :=
  encoding_of_fixed Code.setJournal rfl rfl rfl

theorem Encoding.editRule (tag : Tag) (rule : Byte) (record : RawRule) :
    Encoding.Statement (.editRule tag rule record) :=
  encoding_of_fixed Code.editRule rfl rfl rfl

theorem Encoding.readRule (tag : Tag) (rule copy : Byte) :
    Encoding.Statement (.readRule tag rule copy) :=
  encoding_of_fixed Code.readRule rfl rfl rfl

theorem Encoding.readRuleStats (tag : Tag) (first number : Byte) :
    Encoding.Statement (.readRuleStats tag first number) :=
  encoding_of_fixed Code.readRuleStats rfl rfl rfl

theorem Encoding.discardStaged (tag : Tag) :
    Encoding.Statement (.discardStaged tag) :=
  encoding_of_fixed Code.discardStaged rfl rfl rfl

theorem Encoding.resetRuleCounts (tag : Tag) (rules : BitVec 16) :
    Encoding.Statement (.resetRuleCounts tag rules) :=
  encoding_of_fixed Code.resetRuleCounts rfl rfl rfl

theorem Encoding.commitRules (tag : Tag) :
    Encoding.Statement (.commitRules tag) :=
  encoding_of_fixed Code.commitRules rfl rfl rfl

theorem Encoding.setReporting (tag : Tag) (kinds interval : BitVec 16) (maxRetries : Byte) :
    Encoding.Statement (.setReporting tag kinds interval maxRetries) :=
  encoding_of_fixed Code.setReporting rfl rfl rfl

theorem Encoding.readFaults (tag : Tag) :
    Encoding.Statement (.readFaults tag) :=
  encoding_of_fixed Code.readFaults rfl rfl rfl

theorem Encoding.clearFaults (tag : Tag) (kinds : BitVec 16) :
    Encoding.Statement (.clearFaults tag kinds) :=
  encoding_of_fixed Code.clearFaults rfl rfl rfl

theorem Encoding.setFaultMasks (tag : Tag) (fatal report : BitVec 16) :
    Encoding.Statement (.setFaultMasks tag fatal report) :=
  encoding_of_fixed Code.setFaultMasks rfl rfl rfl

theorem Encoding.unknownRequest (tag : Tag) (payload : List Byte) :
    Encoding.Statement (.unknownRequest tag payload) :=
  encoding_of_event rfl

theorem Encoding.ack (seq : Seq) :
    Encoding.Statement (.ack seq) :=
  encoding_of_event rfl

theorem Encoding.badFrame (received : List LinkEvent) :
    Encoding.Statement (.badFrame received) :=
  encoding_of_event rfl

theorem Encoding.gapTimerExpiry :
    Encoding.Statement (.gapTimerExpiry) :=
  encoding_of_event rfl

theorem Encoding.csnDeassert :
    Encoding.Statement .csnDeassert :=
  encoding_of_event rfl

theorem Encoding.transmitComplete :
    Encoding.Statement (.transmitComplete) :=
  encoding_of_event rfl

theorem Encoding.retryIntervalExpiry (seq : Seq) :
    Encoding.Statement (.retryIntervalExpiry seq) :=
  encoding_of_event rfl

theorem Encoding.silenceTimerExpiry :
    Encoding.Statement (.silenceTimerExpiry) :=
  encoding_of_event rfl

theorem Encoding.timeListExpiry :
    Encoding.Statement (.timeListExpiry) :=
  encoding_of_event rfl

theorem Encoding.trainHighTimeEnd (line : OutLine) :
    Encoding.Statement (.trainHighTimeEnd line) :=
  encoding_of_event rfl

theorem Encoding.trainPeriodEnd (line : OutLine) :
    Encoding.Statement (.trainPeriodEnd line) :=
  encoding_of_event rfl

theorem Encoding.inputRawChange (line : InLine) (level : Level) :
    Encoding.Statement (.inputRawChange line level) :=
  encoding_of_event rfl

theorem Encoding.inputEdgeAccepted (line : InLine) :
    Encoding.Statement (.inputEdgeAccepted line) :=
  encoding_of_event rfl

theorem Encoding.syncRawChange (level : Level) :
    Encoding.Statement (.syncRawChange level) :=
  encoding_of_event rfl

theorem Encoding.syncEdgeAccepted :
    Encoding.Statement (.syncEdgeAccepted) :=
  encoding_of_event rfl

theorem Encoding.resetnDrivenLow :
    Encoding.Statement (.resetnDrivenLow) :=
  encoding_of_event rfl

end Sys2Proof.Laws
end

