-- ==== Sys2Proof/Tests/Slice0.lean ====
section
/-! SUPPORT. Tests on fixed values, each a named theorem, with the expected values from the manual's layouts and worked
examples; and for every statement with hypotheses a witness that meets them. -/

namespace Sys2Proof.Tests
open Sys2Proof Sys2Proof.Machine

set_option maxRecDepth 100000

/-! ## Helpers -/

/-- The state after a command. -/
def after (i : Instr) (s : State) : State :=
  match exec i s with
  | .next t => t
  | _ => s

/-- The newest response of the window after a request. -/
def answer (i : Instr) (s : State) : Option (List Byte) :=
  ((after i s).link.window.getLast?).map WindowEntry.response

/-- Brought up: RESET_DONE is acknowledged and nothing is under way (step 2 of Example Operation 11-1). -/
def calm : State := { State.reset with
  link := defaultLink .uart
  reports := { defaultReports with nextSeq := 2, nextCreation := 1 } }

def calmSpi : State := { calm with link := defaultLink .spi }

/-- In a run state, with a silence limit of 250 ms and the timer as it runs there. -/
def running (r : RunState) : State := { calm with run := ⟨r, 250, if r.sequencing then some 0 else none⟩ }

/-- At a tick of the timeline and the same reading of the part's clock. -/
def atTick (t : Nat) (s : State) : State := elapse t s

/-- The line is SEQUENCED. -/
def sequenced (l : OutLine) (s : State) : State := s.putOutput l { s.output l with mode := .sequenced }

/-- One pulse of a host action that wants no report. -/
def pulse (l : OutLine) (due : Due) (width : BitVec 24) : Sys2Proof.Machine.Action :=
  ⟨.host 300, l, due, width, 0, none, 0, 0, false, false⟩

/-- OUT5 SEQUENCED with an action WAITING in slot 6 with gen 1, its START filed. -/
def waiting (a : Sys2Proof.Machine.Action) (t : Tick) (s : State) : State :=
  ((sequenced a.line s).putSlot 6 ⟨1, .waiting a⟩).withSched
    { ((sequenced a.line s).putSlot 6 ⟨1, .waiting a⟩).sched with
      timeList := [⟨⟨6, 1⟩, .start, t, 0⟩], nextSerial := 1 }

/-- The same action HOLDING its line, its END filed. -/
def holding (a : Sys2Proof.Machine.Action) (finish : Tick) (s : State) : State :=
  let u := (sequenced a.line s).putSlot 6 ⟨1, .holding { a with fired := 1 } finish⟩
  (u.putOutput a.line { u.output a.line with holders := [⟨6, 1⟩] }).withSched
    { u.sched with timeList := [⟨⟨6, 1⟩, .finish, finish, 0⟩], nextSerial := 1 }

/-- OUT3 in TRAIN mode, a train of period 100 and high time 40 running since tick 0. -/
def train (burst : Nat) (s : State) : State :=
  s.putOutput 3 { s.output 3 with
    mode := .train, applied := some ⟨100, 40⟩, running := true, burst := burst, periodStart := some 0, inHigh := true }

/-- An input whose level has risen at tick 0 and is not yet accepted. -/
def rising (l : InLine) (select : EdgeSelect) (width : Nat) (journal : Bool) (s : State) : State :=
  s.putInput l ⟨select, width, journal, .high, none, .low, some ⟨0, .high⟩, 0⟩

/-- An ordinary queued report. -/
def queued (b : ReportBody) (creation : Nat) : Report := newReport b creation

/-- A report in flight. -/
def inFlight (q : Seq) (st : ReportState) (retries : Nat) : Report :=
  ⟨.trainDone 0 1, q.toNat, st, some q, retries, some 3⟩

/-- The default rule record enabled on IN1 with one template on OUT4 (Example Operation 11-4, rule 3). -/
def rule3 : RuleRecord :=
  ⟨true, 0x02, .positive, .rising, none, 0, none, .time, [⟨4, 30000, 1000, 0, none⟩], true, true⟩

/-- Rule 3 of Example Operation 11-4, active with generation 2 and 57 firings. -/
def withRule3 (s : State) : State :=
  s.putRule 3 { s.rule 3 with active := rule3, staged := rule3, state := .listening, generation := 2, fired := 57 }

/-! ## Well-formedness (R134) -/

theorem test_ping_too_long_for_a_frame : (Instr.ping 1 (List.replicate 240 0)).wellFormed = false := by decide
theorem test_payload_too_long_for_a_frame : (Instr.unknownRequest 1 (List.replicate 241 0)).wellFormed = false := by
  decide
theorem test_nothing_received : (Instr.badFrame []).wellFormed = false := by decide
theorem test_longest_ping_fits : (Instr.ping 1 (List.replicate 239 0)).wellFormed = true := by decide

/-! ## Frames and payloads -/

/-- R135: the CRC of "123456789". -/
theorem test_crc : crc16 [0x31, 0x32, 0x33, 0x34, 0x35, 0x36, 0x37, 0x38, 0x39] = 0x29B1 := by decide

/-- 10.8, the example payload of SCHEDULE_PULSE. -/
theorem test_decode_schedule_pulse :
    decodeRequest 300 [0x20, 0x03, 0x00, 0x01, 0x50, 0xC3, 0, 0, 0, 0, 0xDC, 0x05, 0, 0, 0, 0, 0, 0, 0x01]
      = .command (.schedulePulse 300 3 0 1 50000 1500 0 0 1) := by decide

/-- 10.5: the fatal set of HOST_SILENT and COLLISION is sent as 0x00, 0x06. -/
theorem test_decode_fault_masks :
    decodeRequest 7 [0x7A, 0x00, 0x06, 0xFF, 0x07] = .command (.setFaultMasks 7 0x0600 0x07FF) := by decide

theorem test_decode_cancel_action :
    decodeRequest 7 [0x21, 17, 3, 1] = .command (.cancelActionFinish 7 17 3) := by decide
theorem test_decode_set_output :
    decodeRequest 7 [0x30, 2, 1, 0, 1, 2] = .command (.setOutput 7 2 1 0 1 2) := by decide
theorem test_decode_arm_sync :
    decodeRequest 7 [0x43, 0x40, 0x42, 0x0F, 0, 0, 0] = .command (.armSync 7 1000000) := by decide
theorem test_decode_set_input :
    decodeRequest 7 [0x50, 1, 3, 0xC8, 0, 1] = .command (.setInput 7 1 3 200 1) := by decide
theorem test_decode_set_link_rate :
    decodeRequest 7 [0x03, 0x00, 0x10, 0x0E, 0x00] = .command (.setLinkRate 7 921600) := by decide
theorem test_decode_set_reporting :
    decodeRequest 7 [0x70, 0xFF, 0x0F, 50, 0, 3] = .command (.setReporting 7 0x0FFF 50 3) := by decide
theorem test_decode_restart_mode_outside :
    decodeRequest 7 [0x15, 2] = .badMode .restart := by decide

/-! ## Resets -/

/-- R129, R168: power-on gives the reset state, RESET_DONE in transmission. -/
theorem test_full_reset : after (.fullReset .power .low) State.reset = State.reset := by decide
theorem test_full_reset_spi_by_line :
    (after (.fullReset .resetLine .high) calm).link.linkType = .spi
      ∧ (after (.fullReset .resetLine .high) calm).link.tx = some ⟨⟨.report, 1, [0x01, 0x00, 1]⟩, 0, 0, none⟩ := by decide
theorem test_resetn_drives_outputs_low :
    (after .resetnDrivenLow (holding (pulse 5 (.time 10) 100) 110 calm)).pinLevel 5 = .low := by decide
theorem test_held_ignores_requests :
    after (.arm 1) (after .resetnDrivenLow calm) = after .resetnDrivenLow calm := by decide

/-! ## The Host Link -/

theorem test_ping : answer (.ping 5 [9, 8]) calm = some [0x01, 0x00, 9, 8] := by decide
/-- R182: 17 bytes of data are one too many. -/
theorem test_ping_seventeen : answer (.ping 5 (List.replicate 17 0)) calm = some [0x01, 0x01] := by decide
theorem test_get_identity : answer (.getIdentity 2) calm
    = some [0x02, 0x00, 0x2A, 0x0F, 0x12, 0x08, 0x41, 96, 16, 4, 64, 32, 4, 12, 8] := by decide
/-- Example Operation 11-1, step 3: the rate changes at the completion. -/
theorem test_set_link_rate :
    answer (.setLinkRate 1 921600) calm = some [0x03, 0x00, 0x00, 0x10, 0x0E, 0x00]
      ∧ (after (.setLinkRate 1 921600) calm).link.rate = .b115200 := by decide
/-- R131: a frame of 13 bytes is 130 bit times at 115200, 56423.6 ticks. -/
theorem test_rate_changes_at_completion :
    (after .transmitComplete (after (.setLinkRate 1 921600) calm)).link.rate = .b921600
      ∧ (after .transmitComplete (after (.setLinkRate 1 921600) calm)).clock = 56424 := by decide
/-- 10.8, Note 1: a SCHEDULE_PULSE of 18 bytes. -/
theorem test_schedule_pulse_too_short :
    answer (.unknownRequest 4 (0x20 :: List.replicate 17 0)) calm = some [0x20, 0x01] := by decide
theorem test_unknown_code : answer (.unknownRequest 4 [0x77]) calm = some [0x77, 0x02] := by decide
/-- Example Operation 11-5: an ACK of no report in flight. -/
theorem test_ack_unknown :
    (after (.ack 32) calm).faultEntry .ackUnknown = ⟨1, some 0, some 0, some (.sequence 32)⟩ := by decide
theorem test_ack : (after (.ack 1) (after .transmitComplete State.reset)).reports.flight = [] := by decide
theorem test_bad_crc :
    ((after (.badFrame (soundly [0xA5, 0x54, 30, 0, 0, 0, 0])) calm).faultEntry .frameCrc).count = 1 := by decide
theorem test_broken_byte_in_a_frame :
    ((after (.badFrame [.char ⟨0xA5, .high⟩, .char ⟨0x51, .low⟩]) calm).faultEntry .frameMalformed).count = 1 := by decide
/-- R138: 2 ms without a start bit; a byte that has started holds the gap timer off. -/
theorem test_gap_timer :
    ((after .gapTimerExpiry (after (.badFrame (soundly [0xA5, 0x51])) calm)).faultEntry .frameMalformed)
      = ⟨1, some 100000, some 100000, none⟩
      ∧ (after .gapTimerExpiry (after (.badFrame (soundly [0xA5, 0x51] ++ [.startBit])) calm)).clock = 0 := by decide
theorem test_csn_inside_a_frame :
    ((after .csnDeassert (after (.badFrame (soundly [0xA5, 0x51])) calmSpi)).faultEntry .frameMalformed).count = 1 := by
  decide
/-- An SPI link right after a full reset: RESET_DONE is in transmission, nothing of it sent. -/
def spiReset : State := after (.fullReset .power .high) calm

/-- So many periods of SCK with SDI LOW. -/
def idleClocks (n : Nat) : List LinkEvent := List.replicate n (.sck .low false)

/-- R132: CSn deasserts 21 bits into the frame; its third byte, the low byte of sequence number 1, has three bits left, and is
sent again from its first. With no frame to send the part sends filler. -/
theorem test_spi_byte_sent_again :
    (after (.badFrame (.select :: idleClocks 21)) spiReset).sdoBits = [.low, .low, .high]
      ∧ (after (.badFrame [.select]) (after .csnDeassert (after (.badFrame (.select :: idleClocks 21)) spiReset))).sdoBits
      = [.low, .low, .low, .low, .low, .low, .low, .high]
      ∧ (after (.badFrame [.select]) calmSpi).sdoBits = List.replicate 8 .low := by decide
/-- R132: the ten bytes of RESET_DONE complete with their eightieth bit and not before; SCK does nothing while CSn is HIGH. -/
theorem test_spi_completion :
    (after .transmitComplete (after (.badFrame (.select :: idleClocks 79)) spiReset)).link.tx.isSome
      ∧ (after .transmitComplete (after (.badFrame (.select :: idleClocks 80)) spiReset)).link.tx = none
      ∧ (after (.badFrame (.select :: idleClocks 81)) spiReset).link.tx = none
      ∧ after .transmitComplete spiReset = spiReset
      ∧ after (.badFrame (idleClocks 80)) spiReset = spiReset := by decide
/-- R144: a response chosen three bits into a byte of filler starts at the next byte boundary. -/
theorem test_spi_start_at_byte_boundary :
    let s := after (.badFrame (.select :: idleClocks 3)) calmSpi
    let t := s.withLink { s.link with tx := some ⟨firstFrame, 0, 0, none⟩ }
    t.sdoBits = List.replicate 5 .low ∧ (after (.badFrame (idleClocks 5)) t).sdoBits = spiBits 0xA5
      ∧ (after (.badFrame (idleClocks 6)) t).sdoBits = [.low, .high, .low, .low, .high, .low, .high] := by decide
/-- R132: one period of SCK moves a bit in each direction: a received byte moves the part's frame by a byte, and an ACK of
seven bytes by seven. -/
theorem test_spi_full_duplex :
    (after (.badFrame (soundly [0x00])) spiReset).txPosition = 1
      ∧ (after (.badFrame ((spiBits 0xA5).map (.sck · false))) (after (.badFrame [.select]) spiReset)).link.assembler = .header []
      ∧ (after (.ack 1) spiReset).txPosition = 7 := by decide
/-- Example Operation 11-1: tags 3 and 4 of completed responses are recorded. -/
theorem test_response_recorded :
    (after .transmitComplete (after (.getIdentity 2) calm)).link.recent.map RecentEntry.tag = [2] := by decide
/-- R162: an interval that expires below the limit makes the retry due, and the arbiter sends it with URGENT. R163: of two
that expire at one tick the older of the window is sent first, whichever expiry comes first. -/
theorem test_retry :
    (after (.retryIntervalExpiry 30)
      { calm with reports := { calm.reports with flight := [inFlight 30 (.awaiting 0 50) 0] } }).link.tx
      = some ⟨⟨.report, 30, [0x23, 0x81, 0, 1, 0, 0, 0]⟩, 2500000, 0, some (inFlight 30 (.retryDue 2500000) 0)⟩
    ∧ (after (.retryIntervalExpiry 31) { calm with reports := { calm.reports with
        flight := [inFlight 30 (.awaiting 0 50) 0, inFlight 31 (.awaiting 0 50) 0] } }).link.tx.map (fun x => x.frame.tag)
      = some 30 := by decide
theorem test_report_expired :
    (after (.retryIntervalExpiry 32)
      { calm with reports := { calm.reports with flight := [inFlight 32 (.awaiting 0 50) 3] } }).faultEntry .reportExpired
      = ⟨1, some 2500000, some 2500000, some (.expired 32 .trainDone)⟩ := by decide

/-! ## Run Control -/

theorem test_arm : answer (.arm 12) (running .standby) = some [0x10, 0x00, 1]
    ∧ (after (.arm 12) (running .standby)).run.silence = some 0 := by decide
theorem test_disarm_wait_with_work : answer (.disarmWait 1) (holding (pulse 5 (.time 10) 100) 110 (running .armed))
    = some [0x11, 0x00, 2, 1] := by decide
theorem test_disarm_wait_idle : answer (.disarmWait 1) (running .armed) = some [0x11, 0x00, 0, 0] := by decide
theorem test_disarm_flush : answer (.disarmFlush 1) (holding (pulse 5 (.time 10) 100) 110 (running .armed))
    = some [0x11, 0x00, 0, 1] := by decide
theorem test_flush_releases_the_line :
    (after (.disarmFlush 1) (holding (pulse 5 (.time 10) 100) 110 (running .armed))).pinLevel 5 = .low := by decide
theorem test_recover : answer (.recover 1) (running .faulted) = some [0x12, 0x00, 0] := by decide
theorem test_recover_elsewhere : answer (.recover 1) (running .armed) = some [0x12, 0x04] := by decide
theorem test_get_status : answer (.getStatus 1) (holding (pulse 5 (.time 10) 100) 110 (running .armed))
    = some [0x13, 0x00, 1, 95, 1, 0, 0, 0, 0, 0, 0, 2, 250, 0] := by decide
theorem test_set_supervision : answer (.setSupervision 11 250) calm = some [0x14, 0x00, 250, 0] := by decide
theorem test_set_supervision_nine : answer (.setSupervision 11 9) calm = some [0x14, 0x03] := by decide
theorem test_restart_keep_keeps_modes :
    ((after (.restartKeep 1) (holding (pulse 5 (.time 10) 100) 110 calm)).output 5).mode = .sequenced := by decide
theorem test_restart_clear_clears_modes :
    ((after (.restartClear 1) (holding (pulse 5 (.time 10) 100) 110 calm)).output 5).mode = .static := by decide
theorem test_restart_reports_at_completion :
    (after .transmitComplete (after (.restartKeep 1) calm)).link.tx.map Transmission.frame
      = some ⟨.report, 1, [0x01, 0x00, 2]⟩ := by decide
/-- Example Operation 11-1, Note 3: 250 ms of silence are counted, and the part enters FAULTED. -/
theorem test_silence :
    (after .silenceTimerExpiry (running .armed)).run.state = .faulted
      ∧ ((after .silenceTimerExpiry (running .armed)).faultEntry .hostSilent).first = some 12500000 := by decide

/-! ## The Action Scheduler -/

/-- 10.8: at 7,000,000 with slots 0 to 3 in use and slot 4 at gen 8. -/
theorem test_schedule_pulse :
    answer (.schedulePulse 300 3 0 1 50000 1500 0 0 1)
      ([0, 1, 2, 3].foldl (fun s i => s.putSlot i ⟨1, .waiting (pulse 3 (.time 0) 1)⟩)
        ((sequenced 3 (atTick 7000000 calm)).putSlot 4 ⟨8, .free⟩))
      = some [0x20, 0x00, 0x04, 0x09, 0x10, 0x93, 0x6B, 0, 0, 0] := by decide
theorem test_schedule_pulse_static_line :
    answer (.schedulePulse 300 3 0 1 50000 1500 0 0 1) calm = some [0x20, 0x08] := by decide
theorem test_cancel_action_abort :
    answer (.cancelActionAbort 1 6 1) (waiting (pulse 5 (.time 100) 10) 100 calm) = some [0x21, 0x00, 1] := by decide
theorem test_cancel_action_stale :
    answer (.cancelActionAbort 1 6 2) (waiting (pulse 5 (.time 100) 10) 100 calm) = some [0x21, 0x07] := by decide
theorem test_cancel_action_finish :
    answer (.cancelActionFinish 1 6 1) (holding (pulse 5 (.time 10) 100) 110 calm) = some [0x21, 0x00, 2]
      ∧ (after (.cancelActionFinish 1 6 1) (holding (pulse 5 (.time 10) 100) 110 calm)).pinLevel 5 = .high := by decide
/-- Example Operation 11-7, step 2. -/
theorem test_cancel_line_abort :
    answer (.cancelLineAbort 1 3) (waiting (pulse 3 (.time 100) 10) 100 calm) = some [0x22, 0x00, 1]
      ∧ (after (.cancelLineAbort 1 3) (waiting (pulse 3 (.time 100) 10) 100 calm)).sched.timeList = [] := by decide
theorem test_cancel_line_finish :
    answer (.cancelLineFinish 1 5) (holding (pulse 5 (.time 10) 100) 110 calm) = some [0x22, 0x00, 1]
      ∧ (after (.cancelLineFinish 1 5) (holding (pulse 5 (.time 10) 100) 110 calm)).pinLevel 5 = .high := by decide
/-- 10.7, the LIST_SCHEDULE entry. -/
theorem test_list_schedule :
    answer (.listSchedule 1 0 0 12) (holding (pulse 5 (.time 10) 100) 110 calm)
      = some ([0x23, 0x00, 1, 1, 6, 1, 0x15, 110, 0, 0, 0, 0, 0, 0, 0, 0, 0, 0] ++ [0x2C, 0x01, 0, 0, 0]) := by decide
theorem test_set_schedule : answer (.setSchedule 1 64 0 1 8) calm = some [0x24, 0x00]
    ∧ (after (.setSchedule 1 64 0 1 8) calm).sched.latePolicy = .skip := by decide
/-- Example Operation 11-3, Run 1, step 1: the START of B. -/
theorem test_start :
    (after .timeListExpiry (waiting (pulse 5 (.time 100000) 10000) 100000 calm)).pinLevel 5 = .high
      ∧ (after .timeListExpiry (waiting (pulse 5 (.time 100000) 10000) 100000 calm)).sched.timeList
        = [⟨⟨6, 1⟩, .finish, 110000, 1⟩] := by decide
/-- Example Operation 11-3, Run 1, step 3: the END of B. -/
theorem test_end :
    (after .timeListExpiry (holding (pulse 5 (.time 100000) 10000) 110000 calm)).pinLevel 5 = .low
      ∧ ((after .timeListExpiry (holding (pulse 5 (.time 100000) 10000) 110000 calm)).slot 6) = ⟨1, .free⟩ := by decide

/-! ## The Output Stage -/

/-- Example Operation 11-1, step 9: OUT1 goes HIGH when its idle level is set HIGH. -/
theorem test_set_output : answer (.setOutput 7 1 1 1 1 0) calm = some [0x30, 0x00]
    ∧ (after (.setOutput 7 1 1 1 1 0) calm).pinLevel 1 = .high := by decide
theorem test_set_output_busy :
    answer (.setOutput 7 5 0 0 0 0) (waiting (pulse 5 (.time 100) 10) 100 calm) = some [0x30, 0x05] := by decide
theorem test_set_level : answer (.setLevel 1 2 1) calm = some [0x31, 0x00]
    ∧ (after (.setLevel 1 2 1) calm).pinLevel 2 = .high := by decide
theorem test_train_load : answer (.trainLoad 1 3 200 50) (train 0 calm) = some [0x32, 0x00]
    ∧ ((after (.trainLoad 1 3 200 50) (train 0 calm)).output 3).staged = some ⟨200, 50⟩ := by decide
theorem test_train_start :
    answer (.trainStart 1 3 5) (atTick 1000000
      (calm.putOutput 3 { calm.output 3 with mode := .train, staged := some ⟨100, 40⟩, stagedPending := true }))
      = some [0x33, 0x00, 0x40, 0x42, 0x0F, 0, 0, 0] := by decide
theorem test_train_stop_now : answer (.trainStopNow 1 3) (train 0 calm) = some [0x34, 0x00, 1, 0, 0, 0, 0]
    ∧ (after (.trainStopNow 1 3) (train 0 calm)).pinLevel 3 = .low := by decide
theorem test_train_stop_at_period_end :
    (after (.trainStopAtPeriodEnd 1 3) (train 0 calm)).pinLevel 3 = .high
      ∧ ((after (.trainPeriodEnd 3) (after (.trainHighTimeEnd 3)
        (after (.trainStopAtPeriodEnd 1 3) (train 0 calm)))).output 3).running = false := by decide
theorem test_train_high_time_end : (after (.trainHighTimeEnd 3) (train 0 calm)).pinLevel 3 = .low
    ∧ (after (.trainHighTimeEnd 3) (train 0 calm)).now = 40 := by decide
theorem test_get_outputs :
    (answer (.getOutputs 1) (train 0 calm)).map (fun p => (p.drop 47).take 15)
      = some [2, 0x91, 0, 0xFF, 0, 100, 0, 0, 40, 0, 0, 0, 0, 0, 0] := by decide

/-! ## The Timebase -/

theorem test_get_time : answer (.getTime 1) (atTick 1000000 calm)
    = some ([0x40, 0x00, 0x40, 0x42, 0x0F, 0, 0, 0] ++ [0, 0, 0, 0] ++ [8, 0] ++ List.replicate 12 0) := by decide
/-- Example Operation 11-1, step 7. -/
theorem test_set_travel_source : answer (.setTravelSource 5 7) calm = some [0x41, 0x00, 0, 0, 0, 0]
    ∧ (after (.setTravelSource 5 7) calm).timebase.source = some 7 := by decide
theorem test_set_sync : answer (.setSync 1 50 1) calm = some [0x42, 0x00]
    ∧ (after (.setSync 1 50 1) calm).timebase.syncWidth = 50 := by decide
/-- Example Operation 11-7, step 3; and step 1, with an action WAITING. -/
theorem test_arm_sync : answer (.armSync 1 1000000000) calm = some [0x43, 0x00]
    ∧ answer (.armSync 1 1000000000) (waiting (pulse 3 (.time 100) 10) 100 calm) = some [0x43, 0x05] := by decide
theorem test_cancel_sync : answer (.cancelSync 1) (after (.armSync 2 5) calm) = some [0x44, 0x00, 1] := by decide
/-- Example Operation 11-7, steps 6 and 7, on U1. -/
theorem test_sync_load :
    (after .syncEdgeAccepted (after (.syncRawChange .high) (atTick 3210400
      { calm with timebase := { calm.timebase with syncWidth := 50, preset := some 1000000000 } }))).now
      = 1000000050 := by decide
/-- Example Operation 11-7, pulse 3: the interval since the last SYNC timestamp. -/
theorem test_sync_seen :
    (after .syncEdgeAccepted (after (.syncRawChange .high) (atTick 1100000000
      { calm with timebase := { calm.timebase with
          syncWidth := 50, syncReporting := true, lastSync := some 1050000000 } }))).reports.flight.map Report.body
      = [.syncSeen 1100000000 (some 50000000) false] := by decide

/-! ## The Input Capture Unit and the Capture Journal -/

theorem test_set_input : answer (.setInput 3 0 1 200 1) calm = some [0x50, 0x00]
    ∧ (after (.setInput 3 0 1 200 1) calm).input 0 = ⟨.rising, 200, true, .low, none, .low, none, 0⟩ := by decide
theorem test_get_inputs :
    (answer (.getInputs 1) (rising 1 .both 1023 true calm)).map (fun p => (p.drop 14).take 12)
      = some [3, 0xFF, 0x03, 0x0B, 0, 0, 0, 0, 0, 0, 0, 0] := by decide
/-- Example Operation 11-6, step 1, on a journal of two records. -/
theorem test_read_journal :
    answer (.readJournal 41 8) { calm with journal :=
      ⟨[⟨500, 0, .rising, 1000000, 7, none⟩, ⟨501, 1, .falling, 1, 7, some 3⟩], 502, 0, 32, true⟩ }
      = some ([0x52, 0x00, 2, 0, 0xF6, 0x01, 0, 0, 0, 0]
        ++ [0xF4, 0x01, 0, 0, 0, 1, 0x40, 0x42, 0x0F, 0, 0, 0, 7, 0, 0, 0, 0, 0]
        ++ [0xF5, 0x01, 0, 0, 1, 2, 1, 0, 0, 0, 0, 0, 7, 0, 0, 0, 3, 0]) := by decide
theorem test_set_journal :
    answer (.setJournal 1 64 1) { calm with journal := ⟨[⟨500, 0, .rising, 1, 7, none⟩], 501, 2, 32, true⟩ }
      = some [0x53, 0x00, 1, 0, 0xF5, 0x01, 0, 0, 2, 0] := by decide
/-- R66: a pin has one sample a tick; the return is the next tick's. -/
theorem test_raw_change_begins_a_qualification :
    let s := after (.inputRawChange 0 .high) (atTick 9 (after (.setInput 3 0 1 200 1) calm))
    (s.input 0).qual = some ⟨9, .high⟩ ∧ (after (.inputRawChange 0 .low) s).now = 10 := by decide
/-- R67; and R72, row 2: SET_INPUT at the tick of the return leaves neither a glitch nor a qualification. -/
theorem test_raw_return_is_a_glitch :
    ((after (.inputRawChange 1 .low) (atTick 5 (rising 1 .both 100 true calm))).input 1).glitches = 1
      ∧ (let x := (after (.inputRawChange 1 .low)
          (after (.setInput 3 1 3 200 1) (atTick 5 (rising 1 .both 100 true calm)))).input 1
        x.glitches = 0 ∧ x.qual = none) := by decide
theorem test_edge_journalled :
    (after (.inputEdgeAccepted 1) (rising 1 .both 100 true calm)).journal.records
      = [⟨0, 1, .rising, 0, 0, none⟩] := by decide
/-- Example Operation 11-4, step 4: rule 3 fires for an edge at 20,000,000 accepted 100 ticks later. -/
theorem test_rule_fires :
    ((after (.inputEdgeAccepted 1) (after (.inputRawChange 1 .high) (atTick 20000000
      ((withRule3 (sequenced 4 { running .armed with run := ⟨.armed, 0, none⟩ })).putInput 1
        ⟨.rising, 100, false, .low, none, .low, none, 0⟩)))).slot 0)
      = ⟨1, .waiting ⟨.rule 3 2 58, 4, .time 20030000, 1000, 0, none, 0, 0, true, false⟩⟩ := by decide

/-! ## The Rule Engine -/

/-- The record of rule 3 as EDIT_RULE carries it. -/
def rawRule3 : RawRule :=
  ⟨1, 0x02, 0, 1, 0xFF, 0, 0, 0, 0, 1, 1, 1, ⟨4, 30000, 1000, 0, 0⟩, ⟨0, 0, 0, 0, 0⟩, ⟨0, 0, 0, 0, 0⟩, ⟨0, 0, 0, 0, 0⟩⟩

theorem test_edit_rule : answer (.editRule 9 3 rawRule3) calm = some [0x60, 0x00]
    ∧ (after (.editRule 9 3 rawRule3) calm).rule 3 = { calm.rule 3 with staged := rule3, dirty := true } := by decide
theorem test_read_rule :
    (answer (.readRule 9 0 0) calm).map (fun p => p.take 20)
      = some [0x61, 0x00, 0, 0, 0x01, 0, 1, 0xFF, 0, 0, 0, 0, 0, 0, 0, 0, 1, 0, 0, 0] := by decide
theorem test_read_rule_stats :
    (answer (.readRuleStats 9 3 1) (withRule3 calm))
      = some ([0x62, 0x00, 1, 3, 1, 2, 0, 57, 0, 0, 0] ++ List.replicate 18 0) := by decide
theorem test_discard_staged :
    answer (.discardStaged 10) (after (.editRule 9 3 rawRule3) calm) = some [0x63, 0x00, 1] := by decide
theorem test_reset_rule_counts :
    answer (.resetRuleCounts 9 0x0008) (calm.putRule 3 { calm.rule 3 with state := .spent, fired := 4 })
      = some [0x64, 0x00, 1] := by decide
/-- Example Operation 11-1, step 12. -/
theorem test_commit_rules :
    answer (.commitRules 10) (after (.editRule 9 3 rawRule3) (sequenced 4 calm)) = some [0x65, 0x00, 1] := by decide
/-- Example Operation 11-1, Note 2: the line is not SEQUENCED. -/
theorem test_commit_rules_refused :
    answer (.commitRules 10) (after (.editRule 9 3 rawRule3) calm) = some [0x65, 0x0A, 3, 0, 1] := by decide

/-! ## Reports and the Fault Table -/

theorem test_set_reporting : answer (.setReporting 1 0x0FFF 50 3) calm = some [0x70, 0x00, 0xFF, 0x0F, 50, 0, 3] := by
  decide
theorem test_read_faults :
    (answer (.readFaults 1) (countFault .ackUnknown (some (.sequence 32)) calm)).map
      (fun p => (p.length, p.take 6, (p.drop 60).take 18))
      = some (204, [0x78, 0x00, 0x00, 0x04, 0xFF, 0x07], [3, 1, 0] ++ List.replicate 12 0 ++ [32, 0, 0]) := by decide
theorem test_clear_faults :
    answer (.clearFaults 1 0x07FF) (countFault .ackUnknown (some (.sequence 32)) calm) = some [0x79, 0x00, 1] := by
  decide
theorem test_set_fault_masks : answer (.setFaultMasks 1 0x0600 0) calm = some [0x7A, 0x00, 0x00, 0x06, 0, 0] := by
  decide

/-! ## The step -/

theorem test_idle_tick : step calm = .next (elapse 1 calm) := by rfl
theorem test_step_takes_the_front :
    step { calm with pending := [.ping 1 [], .arm 2] } = exec (.ping 1 []) { calm with pending := [.arm 2] } := by rfl
theorem test_no_word_spells_a_command : decodeTableWord 8 0x20 = none := by decide

/-! ## Witnesses: a concrete state and operands that meet the hypotheses of each statement, clause by clause -/

/-- A request of any tag and code is admitted where nothing waits on the link. -/
theorem admits_on_a_quiet_link {s : State} (tag : Tag) (code : Option Byte) (hh : s.held = false)
    (hl : s.link = defaultLink .uart) : s.admits tag code = true := by
  simp [State.admits, hh, hl, defaultLink, HostLink.restarting, matchRecent, Config.windowCap]

theorem calm_admits (tag : Tag) (code : Option Byte) : calm.admits tag code = true :=
  admits_on_a_quiet_link tag code rfl rfl

/-- OUT5 SEQUENCED, held by the action of slot 6. -/
def work : State := holding (pulse 5 (.time 10) 100) 110 calm

theorem work_slot (i : SlotNo) :
    work.slot i = if i = 6 then ⟨1, .holding { pulse 5 (.time 10) 100 with fired := 1 } 110⟩ else ⟨0, .free⟩ := by
  revert i; decide

theorem witness_StepTakesFrontCommand : ({ calm with pending := [.arm 1] } : State).pending = .arm 1 :: [] := rfl

/-- Two events due at tick 100: the head of the time list and an input edge. -/
def twoDue : State := rising 1 .both 100 true (waiting (pulse 5 (.time 100) 10) 100 calm)

theorem witness_IdleStep :
    ({ calm with held := true } : State).pending = [] ∧ calm.pending = [] ∧ calm.held = false ∧ dueNow calm = []
      ∧ dueNow (atTick 100 (waiting (pulse 5 (.time 100) 10) 100 calm)) = [.timeListExpiry]
      ∧ 2 ≤ (dueNow (atTick 100 twoDue)).length := by decide

theorem witness_EveryCommandCompletes : (after .resetnDrivenLow calm).held = true ∧ calm.held = false := by decide

theorem witness_DecodeReadsWhatEncodeWrites :
    encodeRequest (.ping 7 (List.replicate 16 0)) = some (7, 1 :: List.replicate 16 0)
      ∧ ∀ t d, Instr.ping 7 (List.replicate 16 0) = .ping t d → d.length ≤ 16 := by
  refine ⟨rfl, ?_⟩
  rintro t d h
  cases h
  decide

theorem witness_RequestFrameRunsItsCommand :
    encodeRequest (.arm 7) = some (7, [0x10]) ∧ (∀ t d, Instr.arm 7 = .ping t d → d.length ≤ 16) ∧ calm.held = false
      ∧ calm.link.assembler = .hunting ∧ arbitrate calm = calm ∧ calm.undisturbed (7 + 1) :=
  ⟨rfl, fun _ _ h => (by cases h), rfl, rfl, by decide, fun h => absurd h (by decide)⟩

/-- A report filed on a quiet link and chosen at once, which may give way. -/
def chosen : State := arbitrate (calm.filing (.trainDone 0 1))

theorem witness_YieldsInOrder :
    YieldsInOrder chosen ∧ (chosen.link.tx.bind Transmission.yields).isSome ∧ QueueOrdered chosen.reports
      ∧ ∃ t, step chosen = .next t := by
  refine ⟨fun t r x ht hr _ _ => ?_, by decide, ⟨by decide, by decide⟩, _, rfl⟩
  have e : chosen.link.tx = some ⟨⟨.report, 2, [0x23, 0, 0, 1, 0, 0, 0]⟩, 0, 0, some (newReport (.trainDone 0 1) 1)⟩ := by
    decide
  obtain rfl := Option.some.inj (e.symm.trans ht)
  obtain rfl := Option.some.inj hr
  exact ⟨by decide, by decide⟩

theorem witness_CapacitiesKept : Capacities work ∧ (∃ t, step work = .next t)
    ∧ QueueOrdered (work.filing (.trainDone 0 1)).reports ∧ ∃ t, step (work.filing (.trainDone 0 1)) = .next t :=
  ⟨⟨by decide, by decide, by decide, by decide, by decide, by decide, by decide, fun k => by cases k <;> decide⟩,
    ⟨_, rfl⟩, ⟨by decide, by decide⟩, _, rfl⟩

theorem witness_SyncArmedAtRestKept :
    SyncArmedAtRest (after (.armSync 1 5) calm) ∧ (after (.armSync 1 5) calm).syncArmed = true
      ∧ ∃ t, step (after (.armSync 1 5) calm) = .next t :=
  ⟨fun _ => by decide, by decide, _, rfl⟩

theorem witness_FaultedAtRestKept :
    FaultedAtRest (running .faulted) ∧ (running .faulted).run.state = .faulted
      ∧ ∃ t, step (running .faulted) = .next t :=
  ⟨fun _ => by decide, rfl, _, rfl⟩

theorem work_holdingAction (h : Handle) (a : Sys2Proof.Machine.Action) :
    work.holdingAction h = some a ↔ h = ⟨6, 1⟩ ∧ a = { pulse 5 (.time 10) 100 with fired := 1 } := by
  obtain ⟨i, g⟩ := h
  unfold State.holdingAction
  simp only [work_slot]
  by_cases hi : i = 6
  · subst hi
    by_cases hg : g = 1
    · subst hg
      simp [eq_comm]
    · simp [show ¬ 1#8 = g from fun e => hg e.symm, show ¬ g = 1#8 from hg]
  · simp [hi]

theorem witness_ListsAgreeKept : ListsAgree work ∧ ∃ t, step work = .next t := by
  refine ⟨⟨by decide, ?_, ?_, ?_, ?_⟩, _, rfl⟩
  · intro e he hs
    have hl : work.sched.timeList = [⟨⟨6, 1⟩, .finish, 110, 0⟩] := rfl
    rw [hl, List.mem_singleton] at he
    subst he
    cases hs
  · intro e he _
    have hl : work.sched.timeList = [⟨⟨6, 1⟩, .finish, 110, 0⟩] := rfl
    rw [hl, List.mem_singleton] at he
    subst he
    exact ⟨_, work_slot 6⟩
  · intro e he
    have : work.sched.travelList = [] := rfl
    rw [this] at he
    cases he
  · decide

theorem witness_CleanCopiesKept :
    CleanCopies calm ∧ (∃ r, (calm.rule r).dirty = false) ∧ ∃ t, step calm = .next t :=
  ⟨fun r _ => by revert r; decide, ⟨0, by decide⟩, _, rfl⟩

theorem witness_HoldersAgreeKept :
    HoldersAgree work ∧ (∃ t, step work = .next t) ∧ work.held = false ∧ work.run.state ≠ .faulted
      ∧ (work.output 5).mode = .sequenced ∧ (∃ h a, work.holdingAction h = some a ∧ a.line = 5)
      ∧ ((sequenced 4 calm).output 4).mode = .sequenced ∧ ∀ h a, work.holdingAction h = some a → a.line ≠ 4 := by
  refine ⟨⟨by decide, ?_, by decide⟩, ⟨_, rfl⟩, rfl, by decide, by decide, ?_, by decide, ?_⟩
  · intro l h
    simp only [work_holdingAction]
    have : (work.output l).holders = if l = 5 then [⟨6, 1⟩] else [] := by revert l; decide
    rw [this]
    by_cases hl : l = 5
    · subst hl
      simp [pulse]
    · have h5 : ¬ (5 : OutLine) = l := fun e => hl e.symm
      simp [hl, h5, pulse]
  · exact ⟨⟨6, 1⟩, _, (work_holdingAction _ _).mpr ⟨rfl, rfl⟩, rfl⟩
  · rintro h a ha
    obtain ⟨-, rfl⟩ := (work_holdingAction h a).mp ha
    decide

theorem witness_ListsAgreeKept_order :
    ListsAgree work ∧ HoldersAgree work ∧ SyncArmedAtRest work ∧ ListsOrdered work ∧ SerialsRecent work
      ∧ SerialsInOrder work ∧ ∃ t, step work = .next t := by
  refine ⟨witness_ListsAgreeKept.1, witness_HoldersAgreeKept.1, fun h => absurd h (by decide), ?_, ⟨by decide, by decide⟩,
    ⟨by decide, by decide⟩, ⟨_, rfl⟩⟩
  refine ⟨?_, List.Pairwise.nil, by decide, by decide, by decide, by decide, ?_, ?_, by decide, ?_⟩
  · exact List.pairwise_singleton _ _
  · intro l q h
    have hq : ∀ l, (work.input l).qual = none := by decide
    rw [hq l] at h
    cases h
  · intro i a h
    rw [work_slot] at h
    split at h <;> cases h
    decide
  · intro i g a finish due h hd
    rw [work_slot] at h
    split at h <;> cases h
    cases hd
    decide

theorem witness_ListsAgreeKept_front :
    ∃ received rest, ({ work with pending := [.badFrame [.select]] } : State).pending = .badFrame received :: rest
      ∧ received.length ≤ 1 := ⟨_, _, rfl, by decide⟩

theorem witness_LinesInUseKept : LinesInUse work ∧ ∃ t, step work = .next t := by
  refine ⟨⟨?_, by decide, by decide⟩, _, rfl⟩
  intro i a h
  rw [work_slot] at h
  split at h
  · cases h
    decide
  · cases h

/-! ### Reports, faults, slots -/

theorem witness_ReportCreated :
    calm.hasRoom 1 ∧ calm.reports.enables .fired = true
      ∧ ({ calm.reports with enabled := 3 } : ReportUnit).enables .fired = false := by
  unfold State.hasRoom
  decide

/-- A full outbox of class A reports, with REPORT_OVERFLOW counted before. -/
def fullOutbox (b : ReportBody) : State :=
  recordFault .reportOverflow none { calm with reports := { calm.reports with
    queue := (List.range 32).map (fun n => queued b n), nextCreation := 32 } }

theorem witness_ReportOverflow :
    let a := fullOutbox (.fault .collision 1 none)
    let c := fullOutbox (.trainDone 0 1)
    a.reports.enables .trainDone = true ∧ Config.outboxCap ≤ a.reports.outboxCount
      ∧ 0 < (a.faultEntry .reportOverflow).count ∧ a.run.state.sequencing = false
      ∧ ReportKind.trainDone.cls = .c ∧ ReportKind.collision.cls ≠ .c ∧ (∀ r ∈ a.reports.queue, r.cls ≠ .c)
      ∧ c.reports.queue = [] ++ queued (.trainDone 0 1) 0 :: c.reports.queue.tail
      ∧ (queued (.trainDone 0 1) 0).cls = .c := by decide

theorem witness_FaultCounted :
    calm.hasRoom 1 ∧ calm.run.state.sequencing = false ∧ (running .armed).isFatal .collision = false
      ∧ (calm.faultEntry .collision).count = 0 := by
  unfold State.hasRoom
  decide

theorem witness_FreeingASlot :
    work.hasRoom 2 ∧ (work.slot 7).isFree = true
      ∧ work.actionOf ⟨6, 1⟩ = some { pulse 5 (.time 10) 100 with fired := 1 } ∧ work.run.state ≠ .draining
      ∧ (holding (pulse 5 (.time 10) 100) 110 (running .draining)).run.state = .draining
      ∧ ∀ j, j ≠ 6 → ((holding (pulse 5 (.time 10) 100) 110 (running .draining)).slot j).isFree = true := by
  unfold State.hasRoom
  decide

/-- Slot 7 WAITING to START on OUT5, which slot 6 holds, both with the due and the repeats given; COLLISION counted before. -/
def meeting (p : Policy) (d : Due) (repeats : Nat) : State :=
  let a := { pulse 5 d 100 with repeatsLeft := repeats, interval := some 400 }
  let s := recordFault .collision none ((holding a 110 calm).putSlot 7 ⟨1, .waiting a⟩)
  s.putOutput 5 { s.output 5 with policy := p }

theorem witness_StartMeetsHolder :
    (∀ p ∈ [Policy.merge, .refuse, .retrigger], ∀ d ∈ [Due.time 50, .travel 50], ∀ n ∈ [0, 1],
      let s := meeting p d n
      let a := { pulse 5 d 100 with repeatsLeft := n, interval := some 400 }
      s.reports.outboxCount + 1 ≤ Config.outboxCap ∧ s.run.state ≠ .draining ∧ s.slot 7 = ⟨1, .waiting a⟩
      ∧ s.slot 6 = ⟨1, .holding { a with fired := 1 } 110⟩ ∧ (s.output 5).holders = [⟨6, 1⟩] ∧ (s.output 5).policy = p
      ∧ 0 < (s.faultEntry .collision).count ∧ s.isFatal .collision = false ∧ a.reportDone = false)
      ∧ (7 : SlotNo) ≠ 6 := by
  decide

/-- R175: the fatal overflow of a COLLISION report enters FAULTED; COLLISION is not counted there. -/
theorem test_collision_not_counted_in_faulted :
    let s := meeting .refuse (.time 50) 0
    let u := (startAction ⟨7, 1⟩ 50 { s with
      run := ⟨.armed, 0, none⟩
      faults := { s.faults with fatal := 0x020 }
      reports := { s.reports with queue := List.replicate 32 (queued (.fault .collision 1 none) 0) } }).1
    u.run.state = .faulted ∧ (u.faultEntry .collision).count = (s.faultEntry .collision).count := by decide

/-- At tick 1000, an action WAITING for tick 100 with the repeats given, 400 ticks apart; ACTION_LATE counted before. -/
def late (p : LatePolicy) (repeats : Nat) : State :=
  let s := recordFault .actionLate none
    (waiting { pulse 5 (.time 100) 10 with repeatsLeft := repeats, interval := some 400 } 100 (atTick 1000 calm))
  s.withSched { s.sched with latePolicy := p }

/-- An action of slot 6 just allocated, not yet joined, at a tick, with a travel count of 7; ACTION_LATE counted before. -/
def joining (p : LatePolicy) (tick : Nat) (d : Due) : State :=
  let s := recordFault .actionLate none ((sequenced 5 (atTick tick calm)).putSlot 6 ⟨1, .waiting (pulse 5 d 10)⟩)
  { s with sched := { s.sched with latePolicy := p }, timebase := { s.timebase with travelCount := 7 } }

/-- At a travel count of 7, an action WAITING for count 1 under SKIP, with the repeats given, 4 counts apart. -/
def lateTravel (repeats : Nat) : State :=
  (joining .skip 0 (.travel 1)).putSlot 6
    ⟨1, .waiting { pulse 5 (.travel 1) 10 with repeatsLeft := repeats, interval := some 4 }⟩

/-- R16: a run in which every occurrence left is late is skipped whole, of base TIME and of base TRAVEL. -/
theorem test_skip_all_late :
    (startAction ⟨6, 1⟩ 1000 (late .skip 2)).1.slot 6 = ⟨1, .free⟩
      ∧ ((startAction ⟨6, 1⟩ 1000 (late .skip 2)).1.reports.queue.map Report.body) = [.late ⟨6, 1⟩ .time 900 (some 3)]
      ∧ ((startAction ⟨6, 1⟩ 0 (lateTravel 1)).1.reports.queue.map Report.body) = [.late ⟨6, 1⟩ .travel 6 (some 2)]
      ∧ ((startAction ⟨6, 1⟩ 0 (lateTravel 2)).1.sched.travelList.map TravelEntry.key) = [9] := by decide

/-- R14: on time at the tolerance of 64 ticks, late at 65; of 0 counts, late at 1. -/
theorem test_lateness_at_the_tolerance :
    (atTick 164 calm).lateBy (.time 100) = none ∧ (atTick 165 calm).lateBy (.time 100) = some 65
      ∧ (joining .fire 0 (.travel 7)).lateBy (.travel 7) = none
      ∧ (joining .fire 0 (.travel 6)).lateBy (.travel 6) = some 1 := by decide

theorem witness_LateStart :
    (tickAhead calm.now (2 ^ 40 - 1) = true ∧ ((atTick 164 calm).now - 100).toNat ≤ (atTick 164 calm).sched.lateTicks
      ∧ (atTick 165 calm).sched.lateTicks < ((atTick 165 calm).now - 100).toNat
      ∧ countAhead calm.timebase.travelCount (2 ^ 30 - 1) = true ∧ ((7 : Count) - 7).toNat ≤ calm.sched.lateCounts
      ∧ calm.sched.lateCounts < ((7 : Count) - 6).toNat)
    ∧ ((late .fire 0).hasRoom 1 ∧ (late .fire 0).run.state ≠ .draining
      ∧ (late .fire 0).slot 6 = ⟨1, .waiting { pulse 5 (.time 100) 10 with repeatsLeft := 0, interval := some 400 }⟩
      ∧ (late .fire 0).lateBy (.time 100) = some 900 ∧ 0 < ((late .fire 0).faultEntry .actionLate).count
      ∧ (late .fire 0).isFatal .actionLate = false ∧ (late .fire 0).sched.latePolicy = .fire
      ∧ ((late .fire 0).output 5).holders = [] ∧ (late .skip 0).sched.latePolicy = .skip
      ∧ (late .skip 3).lateBy (.time (100 + BitVec.ofNat 48 1 * (400 : BitVec 32).setWidth 48)) = some 500
      ∧ (late .skip 3).lateBy (.time (100 + BitVec.ofNat 48 2 * (400 : BitVec 32).setWidth 48)) = some 100
      ∧ (late .skip 3).lateBy (.time (100 + BitVec.ofNat 48 3 * (400 : BitVec 32).setWidth 48)) = none
      ∧ (∀ j ∈ [1, 2], ((late .skip 2).lateBy
        (.time (100 + BitVec.ofNat 48 j * (400 : BitVec 32).setWidth 48))).isSome)
      ∧ (∀ n ∈ [1, 2], (lateTravel n).lateBy (.travel (1 + BitVec.ofNat 32 1 * 4)) = some 2
        ∧ (lateTravel n).dueAhead (.travel (1 + BitVec.ofNat 32 2 * 4)) = true
        ∧ (lateTravel n).slot 6 = ⟨1, .waiting { pulse 5 (.travel 1) 10 with repeatsLeft := n, interval := some 4 }⟩
        ∧ (lateTravel n).hasRoom 1 ∧ ⟨6, 1⟩ ∉ (lateTravel n).listedHandles
        ∧ (∀ e ∈ (lateTravel n).sched.timeList, tickAhead (lateTravel n).now e.key = true)))
    ∧ (∀ x ∈ [(0, Due.time 100), (164, .time 100), (165, .time 100), (0, .travel 8), (0, .travel 7), (0, .travel 6)],
      ∀ p ∈ [LatePolicy.fire, .skip],
      let s := joining p x.1 x.2
      s.slot 6 = ⟨1, .waiting (pulse 5 x.2 10)⟩ ∧ (∀ e ∈ s.sched.timeList, tickAhead s.now e.key = true)
        ∧ ⟨6, 1⟩ ∉ s.listedHandles ∧ (s.output 5).holders = [] ∧ s.sched.latePolicy = p
        ∧ s.reports.outboxCount + 1 ≤ Config.outboxCap ∧ s.run.state ≠ .draining ∧ s.isFatal .actionLate = false
        ∧ 0 < (s.faultEntry .actionLate).count)
    ∧ (joining .fire 164 (.time 100)).reached (.time 100) ∧ (joining .fire 165 (.time 100)).reached (.time 100)
    ∧ (joining .fire 0 (.travel 7)).reached (.travel 7) ∧ (joining .fire 0 (.travel 6)).reached (.travel 6) := by
  unfold State.hasRoom State.reached
  decide

/-! ### The link at work -/

/-- A window entry that is ready. -/
def ready (tag : Tag) : WindowEntry := ⟨tag, some 1, .answered, [1, 0], .nothing, true⟩

theorem witness_RequestsNotAdmitted :
    encodeRequest (.ping 7 []) = some (7, [1]) ∧ calm.held = false
      ∧ (∃ e ∈ (after (.ping 7 []) calm).link.window, e.tag = 7)
      ∧ (∀ e ∈ calm.link.window, e.tag ≠ 7) ∧ (after (.restartKeep 9) calm).link.restarting = true
      ∧ 4 ≤ (calm.withLink { calm.link with window := [ready 1, ready 2, ready 3, ready 4] }).link.window.length
      ∧ (calm.withLink { calm.link with recent := [⟨7, some 1, [1, 0]⟩] }).link.recent
        = [] ++ ⟨7, some 1, [1, 0]⟩ :: [] := by
  refine ⟨rfl, rfl, ⟨⟨7, some 1, .sending, [1, 0], .nothing, true⟩, ?_, rfl⟩, ?_, ?_, ?_, ?_⟩ <;> decide

/-- A report of each stage in the outbox, the transmitter idle. -/
def outboxWith (flight queue : List Report) : State :=
  calm.withReports { calm.reports with flight := flight, queue := queue }

theorem witness_ArbiterOrder :
    State.reset.link.tx.isSome ∧ calm.link.tx = none
      ∧ (calm.withLink { calm.link with window := [ready 1] }).link.window = [] ++ ready 1 :: []
      ∧ (ready 1).state ≠ .sending ∧ (∀ e ∈ calm.link.window, e.state = .sending)
      ∧ (inFlight 5 (.retryDue 9) 0).state = .retryDue 9
      ∧ (outboxWith [inFlight 5 (.retryDue 9) 0] []).reports.flight = [] ++ inFlight 5 (.retryDue 9) 0 :: []
      ∧ (outboxWith [inFlight 5 .sending 0, inFlight 6 .sending 0, inFlight 7 .sending 0] [queued (.trainDone 0 1) 8]
        ).reports.flight.length < 4
      ∧ 4 ≤ (outboxWith [inFlight 5 .sending 0, inFlight 6 .sending 0, inFlight 7 .sending 0, inFlight 8 .sending 0]
        [queued (.trainDone 0 1) 9]).reports.flight.length
      ∧ (∀ r ∈ [inFlight 5 .sending 0], r.state = .sending)
      ∧ (inFlight 5 (.awaiting 0 50) 0).state = .awaiting 0 50 ∧ (inFlight 5 (.awaiting 0 50) 0).retryLimit = some 3
      ∧ 50 * 50000 ≤ (atTick 2500000 calm).clock - 0 ∧ (inFlight 5 (.awaiting 0 50) 2).retryCount < 3
      ∧ (∃ y ∈ [inFlight 6 (.retryDue 2500000) 0], y.state = .retryDue (atTick 2500000 calm).clock)
      ∧ (atTick 2500000 calm).clock - 1 < 50 * 50000 ∧ 3 ≤ (inFlight 4 (.awaiting 0 50) 3).retryCount := by decide

/-- With the transmitter idle: a queued report, and with it a retry that is due. -/
def tied (flight : List Report) : State :=
  let s := calm.filing (.trainDone 0 1)
  s.withReports { s.reports with flight := flight, nextSeq := 9 }

theorem witness_ArbiterOrder_tie :
    (∀ flight ∈ [[], [inFlight 5 (.retryDue 0) 0], [inFlight 5 .sending 0, inFlight 6 (.retryDue 0) 2]],
      let s := tied flight
      s.link.tx = none ∧ (∀ e ∈ s.link.window, e.state = .sending) ∧ (s.reports.flight.map Report.seq).Nodup
        ∧ (∀ x ∈ s.reports.flight, x.seq ≠ none ∧ x.seq ≠ some s.reports.nextSeq) ∧ (∀ r ∈ s.reports.queue, r.seq = none)
        ∧ s.held = false ∧ s.link.restarting = false ∧ s.link.window.length < 4 ∧ arbitrate s ≠ s
        ∧ s.atLastBit (.ping 7 []) = s ∧ (arbitrate s).atLastBit (.ping 7 []) = arbitrate s)
      ∧ QueueOrdered (tied []).reports ∧ encodeRequest (.ping 7 []) = some (7, [1])
      ∧ (calm.firm.link.tx = none ∧ State.reset.link.tx = some ⟨firstFrame, 0, 0, none⟩)
      ∧ (inFlight 5 .sending 15).seq = some 5 ∧ (inFlight 5 .sending 15).retryCount ≤ 15 :=
  ⟨by decide, ⟨by decide, by decide⟩, rfl, by decide, by decide⟩

/-- R144: a report and then a response ready at one instant, the transmitter idle: the response is sent, and the report is
sent at its completion, with the number it was to have. -/
theorem test_response_ahead_of_report :
    chosen.link.tx.map (fun t => t.frame.kind) = some .report
      ∧ (after (.ping 7 []) chosen).link.tx.map (fun t => t.frame.kind) = some .response
      ∧ (after (.ping 7 []) chosen).reports = (calm.filing (.trainDone 0 1)).reports
      ∧ (after .transmitComplete (after (.ping 7 []) chosen)).link.tx.map (fun t => (t.frame.kind, t.frame.tag))
        = some (.report, 2) := by decide

/-- R144: a report chosen before this instant, or at a completion, is transmitted whole; the response waits for it. -/
theorem test_response_waits_for_report :
    (after (.ping 7 []) (elapse 1 chosen)).link.tx = chosen.link.tx
      ∧ (let s := after .transmitComplete (after (.ping 7 []) chosen)
        (after (.ping 8 []) s).link.tx = s.link.tx) := by decide

/-- R144: what a report gives way to is the same part; where nothing gives way, an admitted request finds it so. -/
theorem witness_Completes : giveWay calm = calm ∧ giveWay chosen = calm.filing (.trainDone 0 1)
    ∧ giveWay (State.atLastBit (.getStatus 1) calmSpi) = State.atLastBit (.getStatus 1) calmSpi := by decide

/-! ### Requests of the Host Link and of Run Control -/

theorem witness_PingEchoes : calm.admits 1 (some 0x01) = true ∧ (List.replicate 16 (0 : Byte)).length ≤ 16
    ∧ 16 < (List.replicate 17 (0 : Byte)).length := by decide

theorem witness_GetIdentityAnswers : calm.admits 1 (some 0x02) = true := by decide

theorem witness_SetLinkRateAnswers :
    calm.admits 1 (some 0x03) = true ∧ calm.link.linkType = .uart ∧ (2000000 : BitVec 32).toNat = LinkRate.b2000000.baud
      ∧ calmSpi.admits 1 (some 0x03) = true ∧ calmSpi.link.linkType = .spi
      ∧ ∀ r : LinkRate, (9600 : BitVec 32).toNat ≠ r.baud :=
  ⟨by decide, rfl, rfl, by decide, rfl, fun r => by cases r <;> decide⟩

theorem witness_UnknownRequestAnswers :
    calm.admits 1 none = true ∧ calm.admits 1 (some 0x77) = true ∧ (∀ c : Code, c.byte ≠ 0x77)
      ∧ calm.admits 1 (some Code.schedulePulse.byte) = true
      ∧ (List.replicate 17 (0 : Byte)).length + 1 < Code.schedulePulse.lengths.1
      ∧ Code.schedulePulse.lengths.2 < (List.replicate 19 (0 : Byte)).length + 1
      ∧ encodeRequest (.arm 1) = some (1, [0x10]) ∧ 1 < (2 : Byte).toNat
      ∧ ∀ b ∈ [(0x11 : Byte), 0x15, 0x21, 0x22, 0x34], calm.admits 1 (some b) = true :=
  ⟨by decide, by decide, fun c => by cases c <;> decide, by decide, by decide, by decide, rfl, by decide, by decide⟩

theorem witness_ArmAndDisarmWait :
    (∀ r ∈ [RunState.standby, .armed, .draining, .faulted], (running r).admits 1 (some 0x10) = true
      ∧ (running r).admits 1 (some 0x11) = true ∧ (running r).run.state = r ∧ (running r).syncArmed = false
      ∧ (running r).reports.outboxCount + 1 ≤ Config.outboxCap)
      ∧ (running .armed).freeCount = 96
      ∧ (holding (pulse 5 (.time 10) 100) 110 (running .armed)).freeCount < 96
      ∧ (after .transmitComplete (after (.armSync 2 5) calm)).syncArmed = true := by decide

theorem witness_DisarmFlush :
    (holding (pulse 5 (.time 10) 100) 110 (running .armed)).admits 1 (some 0x11) = true ∧ ListsAgree work
    ∧ ListsAgree (holding (pulse 5 (.time 10) 100) 110 (running .armed))
    ∧ (holding (pulse 5 (.time 10) 100) 110 (running .armed)).run.state = .armed
    ∧ work.hasRoom ((work.wanting work.listedHandles).length + 1) ∧ (running .standby).run.state = .standby
    ∧ (running .faulted).run.state = .faulted ∧ (running .faulted).admits 1 (some 0x11) = true := by
  have h := witness_ListsAgreeKept.1
  refine ⟨by decide, h, ⟨h.once, h.start, h.finish, h.travel, h.listed⟩, ?_⟩
  unfold State.hasRoom
  decide

theorem witness_RecoverReturnsToStandby :
    (running .faulted).admits 1 (some 0x12) = true ∧ (running .faulted).run.state = .faulted ∧ (running .faulted).hasRoom 1
      ∧ FaultedAtRest (running .faulted) ∧ (running .armed).run.state ≠ .faulted := by
  refine ⟨by decide, rfl, ?_, witness_FaultedAtRestKept.1, by decide⟩
  unfold State.hasRoom
  decide

theorem witness_GetStatusReads :
    calm.admits 1 (some 0x13) = true ∧ (0 : BitVec 16).toNat < 2 ^ 11
      ∧ (∀ k : FaultKind, (0 : BitVec 16).getLsbD k.code.val = decide (0 < (calm.faultEntry k).count))
      ∧ ∀ k : FaultKind, (0x0200 : BitVec 16).getLsbD k.code.val
        = decide (0 < ((recordFault .collision none calm).faultEntry k).count) :=
  ⟨by decide, by decide, fun k => by cases k <;> decide, fun k => by cases k <;> decide⟩

theorem witness_RestartBothModes : work.admits 1 (some 0x15) = true ∧ work.link.tx = none ∧ State.reset.link.tx.isSome := by
  decide

/-! ### Requests of the Action Scheduler -/

theorem witness_SchedulePulseFiled :
    (sequenced 3 calm).admits 1 (some 0x20) = true ∧ calm.run.state = .standby ∧ calm.syncArmed = false
      ∧ ((sequenced 3 calm).output 3).mode = .sequenced ∧ intervalFits (.time 50000) 1500 0 0
      ∧ intervalFits (.time 50000) 1500 255 1501
      ∧ calm.resolvesAhead 0 0 50000 (.time 50000) ∧ calm.resolvesAhead 0 1 (2 ^ 40 - 1) (.time (2 ^ 40 - 1))
      ∧ (after (.setTravelSource 1 7) calm).resolvesAhead 1 1 (2 ^ 30 - 1) (.travel (2 ^ 30 - 1))
      ∧ (calm.slot 0).isFree = true ∧ (∀ j, j < (0 : SlotNo) → (calm.slot j).isFree = false) ∧ calm.timeListAhead := by
  simp only [intervalFits, State.resolvesAhead, State.timeListAhead]
  decide

theorem witness_SchedulePulseFiled_reached :
    (atTick (2 ^ 40 - 1) calm).resolvesReached 0 0 0 (.time 0) ∧ calm.resolvesReached 0 1 0 (.time 0)
      ∧ (after (.setTravelSource 1 7) calm).resolvesReached 1 0 0 (.travel 0)
      ∧ (after (.setTravelSource 1 7) calm).resolvesReached 1 1 0 (.travel 0) := by
  unfold State.resolvesReached State.reached
  decide

theorem witness_SchedulePulseRefused :
    (∀ r ∈ [RunState.faulted, .draining, .standby, .armed], (running r).admits 1 (some 0x20) = true
      ∧ (running r).run.state = r)
      ∧ 11 < (12 : Byte).toNat ∧ (11 : Byte).toNat = (11 : OutLine).val ∧ (calm.output 11).mode ≠ .sequenced
      ∧ ((sequenced 11 calm).output 11).mode = .sequenced
      ∧ (∀ j, (getAt (tabulate (fun _ : SlotNo => (⟨1, .waiting (pulse 5 (.time 9) 1)⟩ : Slot))) j).isFree = false) := by
  decide

theorem witness_SchedulePulseRefused_values :
    2 ^ 32 ≤ (2 ^ 32 : BitVec 48).toNat ∧ 1 < (2 : Byte).toNat ∧ intervalMisfits 0 0 0 1 ∧ intervalMisfits 0 0 1 0
      ∧ intervalMisfits 0 500 1 500 ∧ intervalMisfits 1 500 1 (2 ^ 30) ∧ calm.timebase.source = none := by
  unfold intervalMisfits
  decide

theorem witness_SchedulePulseRefused_due :
    calm.outOfRange 0 0 (2 ^ 40) ∧ calm.outOfRange 0 0 (2 ^ 48 - 2 ^ 40) ∧ calm.outOfRange 0 1 (2 ^ 40)
      ∧ calm.outOfRange 1 0 (2 ^ 30) ∧ calm.outOfRange 1 0 (2 ^ 32 - 2 ^ 30) ∧ calm.outOfRange 1 1 (2 ^ 30) :=
  ⟨.inl (by decide), .inl (by decide), .inr (.inl (by decide)), .inr (.inr (.inl (by decide))),
    .inr (.inr (.inl (by decide))), .inr (.inr (.inr (by decide)))⟩

theorem witness_CancelActionBothModes :
    work.admits 1 (some 0x21) = true ∧ 95 < (96 : Byte).toNat ∧ (95 : Byte).toNat = (95 : SlotNo).val
      ∧ (work.slot 95).isFree = true ∧ (work.slot 6).gen ≠ 2
      ∧ (waiting (pulse 5 (.time 100) 10) 100 calm).slot 6 = ⟨1, .waiting (pulse 5 (.time 100) 10)⟩
      ∧ work.slot 6 = ⟨1, .holding { pulse 5 (.time 10) 100 with fired := 1 } 110⟩ := by decide

theorem witness_CancelLineBothModes :
    work.admits 1 (some 0x22) = true ∧ 11 < (12 : Byte).toNat ∧ (11 : Byte).toNat = (11 : OutLine).val ∧ ListsAgree work
      ∧ work.run.state.sequencing = false ∧ work.run.state ≠ .draining
      ∧ work.hasRoom ((work.wanting (work.listedHandles.filter (fun h => (work.actionOf h).any (fun a => a.line = 5)))).length
        + 1)
      ∧ work.listedHandles.filter (fun h => (work.actionOf h).any (fun a => a.line = 5)) ≠ []
      ∧ (running .draining).run.state = .draining ∧ (running .draining).isFatal .reportOverflow = false
      ∧ ∀ i, (calm.slot i).isFree = true := by
  refine ⟨by decide, by decide, rfl, witness_ListsAgreeKept.1, rfl, by decide, ?_⟩
  unfold State.hasRoom
  decide

theorem witness_ListingsRead :
    work.admits 1 (some 0x23) = true ∧ work.admits 1 (some 0x35) = true ∧ work.admits 1 (some 0x51) = true
      ∧ work.admits 1 (some 0x62) = true ∧ work.admits 1 (some 0x40) = true ∧ 1 < (2 : Byte).toNat
      ∧ 12 < (13 : Byte).toNat ∧ (12 : Byte).toNat ≤ 12 ∧ 15 < (16 : Byte).toNat
      ∧ (15 : Byte).toNat ≤ 15 ∧ (8 : Byte).toNat ≤ 8 ∧ 8 < (9 : Byte).toNat
      ∧ (work.output 5).holders = [] ++ ⟨6, 1⟩ :: [] ∧ (work.output 4).holders = []
      ∧ (work.putOutput 5 { work.output 5 with holders := [⟨7, 1⟩, ⟨6, 1⟩, ⟨8, 1⟩] }).endOf ⟨7, 1⟩ = 0
      ∧ (110 : Tick) ≠ 0 ∧ ((110 : Tick) - 0).toNat < 2 ^ 47 ∧ 2 ^ 47 ≤ ((0 : Tick) - 110).toNat := by decide

/-! ### Requests of the Output Stage -/

theorem witness_SetOutputAndSetLevel :
    calm.admits 1 (some 0x30) = true ∧ calm.admits 1 (some 0x31) = true ∧ 11 < (12 : Byte).toNat
      ∧ (11 : Byte).toNat = (11 : OutLine).val ∧ (work.slot 6).targets 5 = true ∧ (∀ i, (work.slot i).targets 4 = false)
      ∧ ((sequenced 4 (withRule3 calm)).output 4).mode = .sequenced
      ∧ ((withRule3 calm).rule 3).active.enabled = true ∧ ((withRule3 calm).rule 3).active.templates.map Template.line = [4]
      ∧ (∀ i, (calm.slot i).targets 0 = false) ∧ (calm.output 0).mode = .static
      ∧ ((sequenced 4 calm).output 4).mode ≠ .static ∧ 2 < (3 : Byte).toNat ∧ 1 < (2 : Byte).toNat := by decide

theorem witness_TrainRequests :
    calm.admits 1 (some 0x32) = true ∧ calm.admits 1 (some 0x33) = true ∧ calm.admits 1 (some 0x34) = true
      ∧ (1 : BitVec 24).toNat < 2 ∧ (2 : BitVec 24).toNat ≤ (2 : BitVec 24).toNat ∧ (calm.output 3).mode ≠ .train
      ∧ ((train 0 calm).output 3).mode = .train ∧ ((train 0 calm).output 3).running = true
      ∧ (running .faulted).run.state = .faulted
      ∧ ((after (.setOutput 1 3 2 0 0 0) calm).output 3).mode = .train
      ∧ ((after (.setOutput 1 3 2 0 0 0) calm).output 3).running = false
      ∧ ((after (.setOutput 1 3 2 0 0 0) calm).output 3).stagedPending = false
      ∧ ((after (.setOutput 1 3 2 0 0 0) calm).output 3).applied = none
      ∧ ((after (.trainLoad 1 3 200 50) (train 0 calm)).output 3).stagedPending = true
      ∧ ((after (.trainLoad 1 3 200 50) (train 0 calm)).output 3).staged = some ⟨200, 50⟩
      ∧ ((after (.trainStopNow 1 3) (train 0 calm)).output 3).staged = none
      ∧ ((after (.trainStopNow 1 3) (train 0 calm)).output 3).applied = some ⟨100, 40⟩
      ∧ ((after (.trainStopNow 1 3) (train 0 calm)).output 3).running = false := by decide

/-! ### Requests of the Timebase, the inputs and the journal -/

theorem witness_TimebaseRequests :
    calm.admits 1 (some 0x41) = true ∧ calm.admits 1 (some 0x42) = true ∧ calm.admits 1 (some 0x43) = true
      ∧ calm.admits 1 (some 0x44) = true ∧ 8 < (9 : Byte).toNat ∧ (8 : Byte) = sourceByte none
      ∧ (7 : Byte) = sourceByte (some 7) ∧ calm.sched.travelList = []
      ∧ (joinTravel ⟨6, 1⟩ 9 calm).sched.travelList ≠ [] ∧ 1023 < (1024 : BitVec 16).toNat
      ∧ (1023 : BitVec 16).toNat ≤ 1023 ∧ (1 : Byte).toNat ≤ 1 ∧ calm.run.state = .standby
      ∧ (running .armed).run.state ≠ .standby ∧ work.sched.timeList ≠ [] := by decide

theorem witness_InputAndJournalRequests :
    calm.admits 1 (some 0x50) = true ∧ calm.admits 1 (some 0x52) = true ∧ calm.admits 1 (some 0x53) = true
      ∧ 7 < (8 : Byte).toNat ∧ (7 : Byte).toNat = (7 : InLine).val ∧ (3 : Byte) = edgeSelectByte .both
      ∧ 3 < (4 : Byte).toNat ∧ (0 : Byte).toNat < 1 ∧ 8 < (9 : Byte).toNat ∧ 1 ≤ (8 : Byte).toNat
      ∧ 64 < (65 : Byte).toNat ∧ (64 : Byte).toNat ≤ 64 := by decide

/-! ### Requests of the Rule Engine -/

theorem witness_RuleTableRequests :
    calm.admits 1 (some 0x60) = true ∧ calm.admits 1 (some 0x63) = true ∧ calm.admits 1 (some 0x64) = true
      ∧ 15 < (16 : Byte).toNat ∧ (15 : Byte).toNat = (15 : RuleNo).val ∧ recordOf rawRule3 = some rule3
      ∧ RecordPasses rawRule3 ∧ ¬ RecordPasses { rawRule3 with templateCount := 5 } := by
  refine ⟨by decide, by decide, by decide, by decide, rfl, by decide, ⟨by decide, by decide, by decide, by decide,
    by decide, ?_⟩, fun h => absurd h.count (by decide)⟩
  unfold templatePasses
  decide

theorem witness_EditReadsBack : recordOf rawRule3 = some rule3 := by decide

theorem witness_ReadRule :
    calm.admits 1 (some 0x61) = true ∧ 15 < (16 : Byte).toNat ∧ 1 < (2 : Byte).toNat ∧ (15 : Byte).toNat = (15 : RuleNo).val
      ∧ CleanCopies calm ∧ (calm.rule 15).dirty = false :=
  ⟨by decide, by decide, by decide, rfl, witness_CleanCopiesKept.1, by decide⟩

/-- Rule 3 edited, and with repeats every 1000 ticks of a width of 1000. -/
def editedRule3 : State :=
  let x := { rule3 with templates := [⟨4, 30000, 1000, 1, some 1000⟩] }
  (sequenced 4 calm).putRule 3 { calm.rule 3 with staged := x, dirty := true }

theorem witness_CommitRules :
    calm.admits 1 (some 0x65) = true ∧ (running .faulted).run.state = .faulted ∧ calm.run.state ≠ .faulted
      ∧ ((after (.editRule 9 3 rawRule3) (sequenced 4 calm)).rule 3).dirty = true
      ∧ ((after (.editRule 9 3 rawRule3) (sequenced 4 calm)).output 4).mode = .sequenced
      ∧ ((after (.editRule 9 3 rawRule3) calm).output 4).mode ≠ .sequenced
      ∧ ((editedRule3.rule 3).staged.templates = [] ++ ⟨4, 30000, 1000, 1, some 1000⟩ :: [])
      ∧ (∀ q, q < 3 → (editedRule3.rule q).dirty = false) ∧ (editedRule3.output 4).mode = .sequenced
      ∧ (editedRule3.rule 3).staged.base = .time := by decide

theorem witness_SettingRequests :
    calm.admits 1 (some 0x14) = true ∧ calm.admits 1 (some 0x24) = true ∧ calm.admits 1 (some 0x70) = true
      ∧ (9 : BitVec 16).toNat ≤ 9 ∧ 60000 < (60001 : BitVec 16).toNat ∧ 10 ≤ (10 : BitVec 16).toNat
      ∧ (60000 : BitVec 16).toNat ≤ 60000 ∧ 1 < (2 : Byte).toNat ∧ 32 < (33 : Byte).toNat ∧ (32 : Byte).toNat ≤ 32
      ∧ ((0x0FFF : BitVec 16).getLsbD 0 = true ∧ (0x0FFF : BitVec 16).getLsbD 1 = true
        ∧ (0x0FFF : BitVec 16).toNat < 2 ^ 12 ∧ 5 ≤ (5 : BitVec 16).toNat ∧ (1000 : BitVec 16).toNat ≤ 1000
        ∧ (15 : Byte).toNat ≤ 15)
      ∧ ¬ (0x0FFE : BitVec 16).getLsbD 0 = true := by decide

/-! ### Requests of the Fault Table -/

theorem witness_ReadFaults : calm.admits 1 (some 0x78) = true := by decide

theorem witness_ClearFaults : calm.admits 1 (some 0x79) = true ∧ 2 ^ 11 ≤ (0x0800 : BitVec 16).toNat
    ∧ (0x07FF : BitVec 16).toNat < 2 ^ 11 := by decide

theorem witness_SetFaultMasks : calm.admits 1 (some 0x7A) = true ∧ 2 ^ 11 ≤ (0x0800 : BitVec 16).toNat
    ∧ (0x07FF : BitVec 16).toNat < 2 ^ 11 := by decide

/-! ### Events of the link -/

theorem witness_AckAndRetry :
    calm.held = false ∧ (∀ x ∈ calm.reports.flight, x.seq ≠ some 7)
      ∧ (outboxWith [inFlight 7 (.awaiting 0 50) 0] []).reports.flight = [] ++ inFlight 7 (.awaiting 0 50) 0 :: []
      ∧ (inFlight 7 (.awaiting 0 50) 0).state = .awaiting 0 50 ∧ (inFlight 7 (.awaiting 0 50) 0).retryLimit = some 3
      ∧ (outboxWith [inFlight 7 (.awaiting 0 50) 0] []).quietFor (50 * 50000 - (0 - 0))
      ∧ (inFlight 7 (.awaiting 0 50) 2).retryCount < 3 ∧ 3 ≤ (inFlight 7 (.awaiting 0 50) 3).retryCount := by
  unfold State.quietFor
  decide

theorem witness_FramesDropped :
    (calm.held = false ∧ arbitrate calm = calm ∧ calm.link.assembler = .hunting
      ∧ (∀ c ∈ [(⟨0x00, .high⟩ : RxChar), ⟨0xA5, .low⟩], c.data ≠ 0xA5 ∨ (calm.link.linkType = .uart ∧ c.stop = .low)) ∧ (0x52 : Byte) ≠ 0x51 ∧ (0x52 : Byte) ≠ 0x54 ∧ 240 < (241 : Byte).toNat
      ∧ (1 : Byte) ≠ 0 ∧ (List.replicate 240 (0 : Byte)).length ≤ 240
      ∧ ([0, 0] : List Byte) ≠ leBytes 2 (crc16 (Frame.covered ⟨.request, 1, [0x10]⟩)).toNat
      ∧ (after (.badFrame (soundly [0xA5])) calm).link.assembler ≠ .hunting ∧ calm.link.linkType = .uart)
      ∧ ∀ n, calm.undisturbed n := ⟨by decide, fun _ h => absurd h (by decide)⟩

/-- The bytes of the statements above come in undisturbed on a UART link, on an idle SPI link, and on one whose frame in
transmission ends with the last of them. -/
theorem witness_undisturbed :
    calm.undisturbed 240 ∧ calmSpi.undisturbed 240 ∧ arbitrate calmSpi = calmSpi ∧ spiReset.undisturbed 10
      ∧ arbitrate spiReset = spiReset ∧ spiReset.link.assembler = .hunting ∧ spiReset.held = false := by
  refine ⟨fun h => absurd h (by decide), fun _ => ⟨by decide, fun t h => ?_⟩, by decide,
    fun _ => ⟨by decide, fun t h => ?_⟩, by decide, by decide, by decide⟩
  · exact absurd h (by simp [calmSpi, defaultLink])
  · have e : spiReset.link.tx = some ⟨firstFrame, 0, 0, none⟩ := by decide
    obtain rfl : ⟨firstFrame, 0, 0, none⟩ = t := Option.some.inj (e.symm.trans h)
    decide

/-- A request on an SPI link finds the part in a state that the bits of its frame bring about. -/
theorem witness_atLastBit :
    (calmSpi.atLastBit (.getStatus 1)).link.csnAsserted = true ∧ (calmSpi.atLastBit (.getStatus 1)).admits 1 (some 0x13) = true
      ∧ (spiReset.atLastBit (.getStatus 1)).txPosition = 8 := by decide

theorem witness_FramesBrokenOff :
    calm.held = false ∧ calm.link.linkType = .uart
      ∧ (after (.badFrame (soundly [0xA5])) calm).link.assembler ≠ .hunting
      ∧ (after (.badFrame (soundly [0xA5])) calm).link.byteStarted = false
      ∧ (after (.badFrame (soundly [0xA5])) calm).quietFor (100000 - (0 - 0)) ∧ calmSpi.link.linkType = .spi
      ∧ (after (.badFrame (soundly [0xA5] ++ [.startBit])) calm).link.byteStarted = true
      ∧ calmSpi.link.assembler = .hunting ∧ calmSpi.link.csnAsserted = false
      ∧ (after (.badFrame [.select]) calmSpi).link.csnAsserted = true ∧ calmSpi.link.tx = none
      ∧ (after (.badFrame (soundly [0xA5])) calmSpi).link.assembler ≠ .hunting
      ∧ arbitrate (after (.badFrame [.select]) calmSpi) = after (.badFrame [.select]) calmSpi
      ∧ (after (.badFrame [.select]) calmSpi).link.phase < 7
      ∧ (after (.badFrame (.select :: idleClocks 7)) calmSpi).link.phase = 7
      ∧ (after (.badFrame (.select :: idleClocks 7)) spiReset).link.tx = some ⟨firstFrame, 0, 7, none⟩
      ∧ (after (.badFrame (.select :: idleClocks 21)) spiReset).link.tx = some ⟨firstFrame, 0, 21, none⟩
      ∧ (after (.badFrame (.select :: idleClocks 21)) spiReset).link.phase = 5
      ∧ (after (.badFrame (.select :: idleClocks 79)) spiReset).link.tx = some ⟨firstFrame, 0, 79, none⟩
      ∧ (after (.badFrame (.select :: idleClocks 79)) spiReset).link.phase = 7
      ∧ (after (.badFrame (.select :: idleClocks 80)) spiReset).link.tx = some ⟨firstFrame, 0, 80, none⟩
      ∧ 8 * (7 + firstFrame.payload.length) = 80 ∧ 21 = 8 * 2 + 5 ∧ firstFrame.bytes[2]? = some 1
      ∧ spiReset.link.tx = some ⟨firstFrame, 0, 0, none⟩
      ∧ (0 : Nat) % 8 ≠ (after (.badFrame (.select :: idleClocks 3)) calmSpi).link.phase
      ∧ firstFrame.bytes[0]? = some 0xA5 ∧ firstFrame.bytes[9]?.isSome = true
      ∧ (elapse 43402 State.reset).link.tx = some ⟨firstFrame, 0, 0, none⟩
      ∧ ((elapse 43402 State.reset).clock - 0) * State.reset.link.rate.baud / 50000000 = 10 * 9 + 9 := by
  unfold State.quietFor
  decide

/-- A response in transmission, with what its completion brings about. -/
def sendingWith (a : AfterSent) : State :=
  calm.withLink { calm.link with
    window := [⟨7, some 1, .sending, [1, 0], a, true⟩], tx := some ⟨⟨.response, 7, [1, 0]⟩, 0, 0, none⟩ }

theorem witness_TransmissionCompletes :
    (∀ a ∈ [AfterSent.nothing, .changeRate .b115200, .changeRate .b921600, .restarted .keep, .restarted .clear],
      (sendingWith a).held = false ∧ (sendingWith a).link.tx = some ⟨⟨.response, 7, [1, 0]⟩, 0, 0, none⟩
        ∧ (∀ p ∈ agenda (sendingWith a), (10 * (7 + 2) * 50000000 + 115200 - 1) / 115200 - (0 - 0) ≤ p.1)
        ∧ (sendingWith a).link.window = [] ++ ⟨7, some 1, .sending, [1, 0], a, true⟩ :: [])
      ∧ (sendingWith .nothing).link.rate = .b115200 ∧ (sendingWith .nothing).link.assembler = .hunting
      ∧ (after (.badFrame (soundly [0xA5])) (sendingWith (.changeRate .b921600))).link.assembler ≠ .hunting
      ∧ State.reset.link.tx = some ⟨firstFrame, 0, 0, none⟩ ∧ State.reset.reports.flight = [] ++ firstResetDone :: []
      ∧ firstResetDone.seq = some firstFrame.tag ∧ firstResetDone.state = .sending
      ∧ (∀ x ∈ (after (.ack 1) State.reset).reports.flight, x.seq ≠ some firstFrame.tag)
      ∧ (after (.ack 1) State.reset).link.tx.isSome
      ∧ spiReset.link.linkType = .spi ∧ spiReset.link.tx = some ⟨firstFrame, 0, 0, none⟩ ∧ 0 < 8 * (7 + firstFrame.payload.length)
      ∧ (after (.badFrame (.select :: idleClocks 80)) spiReset).link.tx = some ⟨firstFrame, 0, 80, none⟩
      ∧ 8 * (7 + firstFrame.payload.length) ≤ 80 := by decide

/-! ### Silence, the time list, trains and inputs -/

theorem witness_SilenceAndFatalEntry :
    (running .armed).held = false ∧ (running .armed).run.silence = some 0
      ∧ (running .armed).quietFor ((running .armed).run.silenceLimit * 50000 - (0 - 0)) ∧ (running .armed).hasRoom 2
      ∧ (running .armed).isFatal .hostSilent = true ∧ (running .armed).run.state = .armed
      ∧ (running .draining).run.state = .draining := by
  unfold State.quietFor State.hasRoom
  decide

theorem witness_TimeListExpires :
    let s := waiting (pulse 5 (.time 100000) 10000) 100000 calm
    s.held = false ∧ s.sched.timeList = ⟨⟨6, 1⟩, .start, 100000, 0⟩ :: [] ∧ tickAhead s.now 100000 = true
      ∧ s.quietFor ((100000 : Tick) - s.now).toNat ∧ s.slot 6 = ⟨1, .waiting (pulse 5 (.time 100000) 10000)⟩
      ∧ (pulse 5 (.time 100000) 10000).width ≠ 0 ∧ (s.output 5).holders = []
      ∧ work.sched.timeList = ⟨⟨6, 1⟩, .finish, 110, 0⟩ :: [] ∧ work.quietFor ((110 : Tick) - work.now).toNat
      ∧ work.slot 6 = ⟨1, .holding { pulse 5 (.time 10) 100 with fired := 1 } 110⟩
      ∧ tickAhead 110 (10 + (101 : BitVec 32).setWidth 48) = true ∧ countAhead calm.timebase.travelCount (5 + 1) = true := by
  unfold State.quietFor
  decide

/-- The head of the time list is reached now: idle ticks have brought the timeline to it. -/
theorem witness_TimeListExpires_reached :
    let s := atTick 100 (waiting (pulse 5 (.time 100) 10) 100 calm)
    s.sched.timeList = ⟨⟨6, 1⟩, .start, 100, 0⟩ :: [] ∧ (100 : Tick) = s.now ∧ 0 = ((100 : Tick) - s.now).toNat
      ∧ s.quietFor 0 ∧ dueNow s = [.timeListExpiry] ∧ ((after .timeListExpiry s).output 5).holders = [⟨6, 1⟩] := by
  unfold State.quietFor
  decide

theorem witness_TrainEvents :
    (train 0 calm).held = false ∧ ((train 0 calm).output 3).running = true ∧ ((train 0 calm).output 3).periodStart = some 0
      ∧ ((train 0 calm).output 3).applied = some ⟨100, 40⟩ ∧ (train 0 calm).quietFor (40 - (0 - 0))
      ∧ (after (.trainHighTimeEnd 3) (train 1 calm)).quietFor (100 - 40)
      ∧ ((train 1 calm).output 3).burst = ((train 1 calm).output 3).periodsCompleted + 1
      ∧ ((train 0 calm).output 3).stagedPending = false ∧ ((train 0 calm).output 3).stopAtEnd = false
      ∧ ((after (.trainLoad 1 3 200 50) (train 0 calm)).output 3).stagedPending = true
      ∧ ((train 0 calm).output 3).mode = .train ∧ ((train 0 calm).output 3).inHigh = true
      ∧ ((after (.trainHighTimeEnd 3) (train 0 calm)).output 3).inHigh = false
      ∧ ((after (.setOutput 1 3 2 0 0 0) calm).output 3).running = false
      ∧ calm.run.state ≠ .faulted ∧ (train 1 calm).hasRoom 1 := by
  unfold State.quietFor State.hasRoom
  decide

theorem witness_RawChanges :
    calm.held = false ∧ (calm.input 0).sampledAt ≠ some calm.clock ∧ Level.high ≠ (calm.input 0).filtered
      ∧ (calm.input 0).qual = none ∧ 0 < ((after (.setInput 1 0 1 1 0) calm).input 0).width ∧ (calm.input 0).width = 0
      ∧ (calm.input 0).edgeSelect = .none ∧ calm.timebase.source ≠ some 0
      ∧ ((rising 1 .both 100 true calm).input 1).qual = some ⟨0, .high⟩
      ∧ Level.high ≠ ((rising 1 .both 100 true calm).input 1).filtered
      ∧ Level.low = ((rising 1 .both 100 true calm).input 1).filtered
      ∧ (0 : Tick) ≠ (atTick 1 (rising 1 .both 100 true calm)).now ∧ (0 : Tick) = (rising 1 .both 100 true calm).now
      ∧ (rising 1 .both 0 true calm).input 1 = ⟨.both, 0, true, .high, none, .low, some ⟨0, .high⟩, 0⟩
      ∧ ((after (.inputRawChange 0 .low) calm).input 0).sampledAt = some calm.clock
      ∧ (after (.inputRawChange 0 .low) calm).quietFor 1
      ∧ ¬ (after (.inputRawChange 0 .low) (rising 1 .both 0 true calm)).quietFor 1
      ∧ calm.timebase.syncSampledAt ≠ some calm.clock ∧ Level.high ≠ calm.timebase.syncFiltered
      ∧ calm.timebase.syncQual = none ∧ calm.timebase.syncWidth = 0
      ∧ 0 < (after (.setSync 1 50 1) calm).timebase.syncWidth
      ∧ (after (.syncRawChange .high) (after (.setSync 1 50 1) calm)).timebase.syncQual ≠ none
      ∧ (after (.syncRawChange .low) calm).timebase.syncSampledAt = some calm.clock
      ∧ (after (.syncRawChange .low) calm).quietFor 1
      ∧ ({ calm.timebase with syncFiltered := .high, syncRaw := .high } : Timebase).syncFiltered = .high := by
  unfold State.quietFor
  decide

/-- An edge that is not selected, on the travel source, with an action WAITING for the next count. -/
def travelling : State :=
  let s := rising 7 .none 10 false (sequenced 5 (calm.putSlot 6 ⟨1, .waiting (pulse 5 (.travel 1) 100)⟩))
  joinTravel ⟨6, 1⟩ 1 (s.withTimebase { s.timebase with source := some 7 })

theorem witness_EdgesAccepted :
    let s := rising 1 .rising 100 true calm
    let full : Journal := ⟨List.replicate 64 ⟨0, 1, .rising, 0, 0, none⟩, 64, 0, 32, false⟩
    s.held = false ∧ (s.input 1).qual = some ⟨0, .high⟩ ∧ s.quietFor (100 - 0)
      ∧ s.timebase.source ≠ some 1 ∧ (s.input 1).edgeSelect = .rising ∧ (s.input 1).journalEnable = true
      ∧ ((rising 1 .falling 100 true calm).input 1).edgeSelect = .falling ∧ s.journal.records.length < 64
      ∧ s.journal.records.length + 1 ≠ s.journal.watermark ∧ s.journal.watermarkArmed = true
      ∧ (after (.setJournal 1 1 0) s).journal.watermark = s.journal.records.length + 1
      ∧ 64 ≤ full.records.length
      ∧ travelling.timebase.source = some 7 ∧ (travelling.input 7).qual = some ⟨0, .high⟩
      ∧ (travelling.input 7).edgeSelect = .none ∧ travelling.quietFor (10 - 0) ∧ travelling.sched.timeList = []
      ∧ travelling.sched.travelList = ⟨⟨6, 1⟩, 1, 0⟩ :: []
      ∧ travelling.slot 6 = ⟨1, .waiting (pulse 5 (.travel 1) 100)⟩ ∧ (travelling.output 5).holders = []
      ∧ tickAhead (elapse 10 travelling).now (0 + (100 : BitVec 24).setWidth 48) = true
      ∧ (rising 7 .none 10 false calm).sched.travelList = [] := by
  unfold State.quietFor
  decide

theorem witness_SyncEdgesAccepted :
    let s := after (.syncRawChange .high) (after (.setSync 1 50 1) calm)
    s.held = false ∧ s.timebase.syncQual = some ⟨0, .high⟩ ∧ s.quietFor (50 - 0) ∧ s.timebase.preset = none
      ∧ s.timebase.syncReporting = true ∧ (after (.setSync 2 50 0) s).timebase.syncReporting = false
      ∧ (after (.armSync 2 5) s).timebase.preset = some 5
      ∧ (after (.syncRawChange .low) { calm with timebase := { calm.timebase with
        syncWidth := 50, syncRaw := .high, syncFiltered := .high } }).timebase.syncQual = some ⟨0, .low⟩ := by
  unfold State.quietFor
  decide

/-! ### The rules -/

/-- Rule 3 LISTENING with OUT4 SEQUENCED, ARMED. -/
def listening : State := withRule3 (sequenced 4 (running .armed))

theorem witness_RuleCountsEdgeOnce :
    let x := listening.rule 3
    calm.run.state ≠ .armed ∧ x.state = .listening ∧ (calm.rule 0).state ≠ .listening
      ∧ x.active.matchSet.getLsbD 1 = decide (x.active.sense = .positive) ∧ x.active.edgeKind = .rising
      ∧ x.active.base ≠ .travel ∧ x.active.gate = none ∧ x.lastFiring = none
      ∧ x.active.templates.length + listening.sched.reserve ≤ listening.freeCount
      ∧ (listening.withSched { listening.sched with
          slots := tabulate (fun _ => ⟨1, .waiting (pulse 4 (.time 9) 1)⟩) }).freeCount
        < x.active.templates.length + listening.sched.reserve
      ∧ ((9 : Tick) - 0).toNat < (10 : BitVec 32).toNat ∧ listening.timebase.source = none := by decide

theorem witness_RuleFires_slots :
    ([0] : List SlotNo).length = (listening.rule 3).active.templates.length
      ∧ ([0] : List SlotNo).Pairwise (fun i j => i < j) ∧ (∀ i ∈ ([0] : List SlotNo), (listening.slot i).isFree = true)
      ∧ ∀ i ∈ ([0] : List SlotNo), ∀ j, j < i → (listening.slot j).isFree = true → j ∈ ([0] : List SlotNo) :=
  ⟨rfl, List.pairwise_singleton _ _, by decide, by simp⟩

theorem witness_RuleFires :
    let x := listening.rule 3
    x.state = .listening ∧ x.active.matchesEdge ⟨1, .rising, 0, 0⟩ = true ∧ listening.gateMet x.active = true
      ∧ x.heldOff 0 = false ∧ x.active.templates = [⟨4, 30000, 1000, 0, none⟩] ∧ x.active.base = .time
      ∧ x.active.limit = none ∧ tickAhead listening.now (0 + (30000 : BitVec 32).setWidth 48) = true
      ∧ 1 + listening.sched.reserve ≤ listening.freeCount ∧ (listening.slot 0).isFree = true
      ∧ (∀ j, j < (0 : SlotNo) → (listening.slot j).isFree = false) ∧ listening.timeListAhead := by
  unfold State.timeListAhead
  decide

end Sys2Proof.Tests
end

