-- ==== Sys2Proof/Proofs/Noted.lean ====
section
/-! PROOFS. What creating a report, counting a fault and freeing a slot can do to the schedule, the outputs and the run state,
said once: nothing, or the entry into FAULTED (R122), or the end of a drain (R119). -/

namespace Sys2Proof.Machine

/-! ## Reports and faults: a note, or the entry into FAULTED -/

theorem OnlyNotes.refl (s : State) : OnlyNotes s s := rfl

theorem OnlyNotes.timebase {s t : State} (h : OnlyNotes s t) : t.timebase = s.timebase := by rw [h]
theorem OnlyNotes.inputs {s t : State} (h : OnlyNotes s t) : t.inputs = s.inputs := by rw [h]
theorem OnlyNotes.rules {s t : State} (h : OnlyNotes s t) : t.rules = s.rules := by rw [h]
theorem OnlyNotes.journal {s t : State} (h : OnlyNotes s t) : t.journal = s.journal := by rw [h]
theorem OnlyNotes.link {s t : State} (h : OnlyNotes s t) : t.link = s.link := by rw [h]
theorem OnlyNotes.held {s t : State} (h : OnlyNotes s t) : t.held = s.held := by rw [h]
theorem OnlyNotes.clock {s t : State} (h : OnlyNotes s t) : t.clock = s.clock := by rw [h]

theorem OnlyNotes.slot {s t : State} (h : OnlyNotes s t) (i : SlotNo) : t.slot i = s.slot i := by
  unfold State.slot
  rw [h.sched]

theorem OnlyNotes.output {s t : State} (h : OnlyNotes s t) (l : OutLine) : t.output l = s.output l := by
  unfold State.output
  rw [h.outputs]

theorem OnlyNotes.waitingAction {s t : State} (n : OnlyNotes s t) (h : Handle) :
    t.waitingAction h = s.waitingAction h := by
  unfold State.waitingAction
  rw [n.slot]

theorem OnlyNotes.holdingAction {s t : State} (n : OnlyNotes s t) (h : Handle) :
    t.holdingAction h = s.holdingAction h := by
  unfold State.holdingAction
  rw [n.slot]

/-- Entering FAULTED comes to the same after a note. -/
theorem OnlyNotes.enterFaulted {s t : State} (h : OnlyNotes s t) : OnlyNotes (enterFaulted s) (enterFaulted t) := by
  rw [show t = { s with reports := t.reports, faults := t.faults } from h]
  rfl

/-- From `s` to `t` reports and faults were noted, and the part may have entered FAULTED, from ARMED or DRAINING, on the way
(R122, R174). -/
def Noted (s t : State) : Prop :=
  OnlyNotes s t ∨ s.run.state.sequencing = true ∧ OnlyNotes (enterFaulted s) t

theorem Noted.refl (s : State) : Noted s s := .inl rfl

@[simp] theorem enterFaulted_run (s : State) :
    (enterFaulted s).run = { s.run with state := .faulted, silence := none } := rfl

@[simp] theorem enterFaulted_sched (s : State) : (enterFaulted s).sched = { s.sched with
    slots := tabulate (fun i => ⟨(s.slot i).gen, .free⟩), timeList := [], travelList := [] } := rfl

theorem enterFaulted_slot (s : State) (i : SlotNo) : (enterFaulted s).slot i = ⟨(s.slot i).gen, .free⟩ := by
  simp [State.slot]

theorem enterFaulted_output (s : State) (l : OutLine) :
    (enterFaulted s).output l = { (s.output l).stopTrain with holders := [] } := by
  unfold enterFaulted emptyHoldersStopTrains
  exact State.output_withOutputs_tabulate _ _ _

theorem Noted.trans {s t u : State} (h : Noted s t) (k : Noted t u) : Noted s u := by
  rcases h with h | ⟨hs, h⟩ <;> rcases k with k | ⟨ks, k⟩
  · exact .inl (OnlyNotes.trans h k)
  · exact .inr ⟨h.run ▸ ks, OnlyNotes.trans h.enterFaulted k⟩
  · exact .inr ⟨hs, OnlyNotes.trans h k⟩
  · rw [h.run] at ks
    cases ks

/-- After a note the part is as it was, or in FAULTED with its slot freed. -/
theorem Noted.waitingAction {s t : State} (n : Noted s t) (h : Handle) :
    OnlyNotes s t ∧ t.waitingAction h = s.waitingAction h ∨ t.waitingAction h = none := by
  rcases n with n | ⟨-, n⟩
  · exact .inl ⟨n, n.waitingAction h⟩
  · right
    rw [n.waitingAction]
    unfold State.waitingAction
    simp [enterFaulted_slot]

/-- An action that is still WAITING after a note shows that the part has not entered FAULTED. -/
theorem Noted.of_waiting {s t : State} (n : Noted s t) {h : Handle} {a : Action} (ha : t.waitingAction h = some a) :
    OnlyNotes s t ∧ s.waitingAction h = some a := by
  rcases n.waitingAction h with ⟨k, e⟩ | e
  · exact ⟨k, e ▸ ha⟩
  · rw [e] at ha
    cases ha

theorem createWith_noted {f : ReportKind → Bool → State → State} (hf : ∀ k q s, Noted s (f k q s))
    (b : ReportBody) (s : State) : Noted s (createWith f b s) := by
  unfold createWith
  split
  · split
    · exact .inl rfl
    · exact (show Noted s (s.withReports _) from .inl rfl).trans (hf _ _ _)
  · exact .refl s

theorem countWith_noted {c : ReportBody → State → State} {f : FaultKind → State → State}
    (hc : ∀ b s, Noted s (c b s)) (hf : ∀ k s, s.run.state.sequencing = true → Noted s (f k s))
    (q : Bool) (k : FaultKind) (d : Option FaultDetail) (s : State) : Noted s (countWith c f q k d s) := by
  have h1 : Noted s (recordFault k d s) := .inl rfl
  unfold countWith
  dsimp only
  split <;> split
  · rename_i h
    exact (h1.trans (hc _ _)).trans (hf _ _ h.2)
  · exact h1.trans (hc _ _)
  · rename_i h
    exact h1.trans (hf _ _ h.2)
  · exact h1

theorem overflowFaulted_onlyNotes (k : ReportKind) (q : Bool) {s : State} (h : s.run.state.sequencing = false) :
    OnlyNotes s (overflowFaulted k q s) :=
  countWith_onlyNotes _ _ _ h (fun _ _ _ => createWith_onlyNotes _ _ (fun _ _ _ _ => rfl))

/-- Fatal entry is the entry into FAULTED, with its RUN_STATE report (R122). -/
theorem fatalEntry_notes (k : FaultKind) (s : State) : OnlyNotes (enterFaulted s) (fatalEntry k s) :=
  createWith_onlyNotes _ _ (fun k q t ht => overflowFaulted_onlyNotes k q (by rw [ht]; rfl))

theorem fatalEntry_noted (k : FaultKind) (s : State) (h : s.run.state.sequencing = true) : Noted s (fatalEntry k s) :=
  .inr ⟨h, fatalEntry_notes k s⟩

theorem overflowOfFaultReport_noted (k : ReportKind) (q : Bool) (s : State) : Noted s (overflowOfFaultReport k q s) :=
  countWith_noted (fun _ s => .refl s) fatalEntry_noted _ _ _ _

theorem countOverflow_noted (k : ReportKind) (q : Bool) (s : State) : Noted s (countOverflow k q s) :=
  countWith_noted (createWith_noted overflowOfFaultReport_noted) fatalEntry_noted _ _ _ _

/-- Creating a report notes it, and may enter FAULTED. -/
theorem createReport_noted (b : ReportBody) (s : State) : Noted s (createReport b s) :=
  createWith_noted countOverflow_noted b s

/-- Counting a fault notes it, and may enter FAULTED. -/
theorem countFault_noted (k : FaultKind) (d : Option FaultDetail) (s : State) : Noted s (countFault k d s) :=
  countWith_noted createReport_noted fatalEntry_noted _ _ _ _

theorem countForAction_noted (k : FaultKind) (d : FaultDetail) (h : Handle) (s : State) :
    Noted s (countForAction k d h s) := by
  unfold countForAction
  split
  · exact countFault_noted _ _ _
  · exact .refl s

/-! ## With room in the outbox -/

/-- A report created with room in the outbox is filed, however an overflow would be counted (R156). -/
theorem createWith_room (overflow : ReportKind → Bool → State → State) (b : ReportBody) {s : State} (h : s.hasRoom 1) :
    createWith overflow b s = s.filing b := by
  have hr : s.reports.outboxCount < Config.outboxCap := by
    unfold State.hasRoom at h
    omega
  unfold createWith State.filing ReportUnit.filed
  split
  · simp [placeReport, hr]
  · rfl

/-- A report created with room in the outbox is filed, and nothing else happens (R156). -/
theorem createReport_room (b : ReportBody) {s : State} (h : s.hasRoom 1) : createReport b s = s.filing b :=
  createWith_room countOverflow b h

@[simp] theorem filing_reports (b : ReportBody) (s : State) : (s.filing b).reports = s.reports.filed b := rfl

/-- A kind counted before and not fatal is counted again in its entry alone (R172). -/
theorem countFault_again {k : FaultKind} (d : Option FaultDetail) {s : State} (hc : 0 < (s.faultEntry k).count)
    (hf : s.isFatal k = false) : countFault k d s = recordFault k d s := by
  have h1 : (recordFault k d s).isFatal k = false := hf
  unfold countFault countWith
  have hn : (s.faultEntry k).count ≠ 0 := hc.ne'
  simp [hn, h1]

end Sys2Proof.Machine
end

