-- ==== Sys2Proof/Proofs/Moves.lean ====
section
/-! PROOFS. The work of the Action Scheduler and the Output Stage as a chain of moves. A configuration is the list of the
actions that are in hand, WAITING but out of their list, and the state; a move is the least thing that the operations of
Chapter 1 do. An invariant that every move keeps is kept by every operation: each operation is shown once to be a chain of
moves (`Work`). -/

namespace Sys2Proof.Machine

/-- A travel key that is reached, or ahead, at the travel count (R52). -/
def State.countNear (s : State) (c : Count) : Bool := (c - s.timebase.travelCount).toNat < 2 ^ 30

/-- Every entry of the travel list is reached or ahead. -/
def State.travelNear (s : State) : Prop := ∀ e ∈ s.sched.travelList, s.countNear e.key = true

/-- The holders of a line are HOLDING actions of that line, one at most unless the line's policy is MERGE: the part of
`HoldersAgree` that lets RETRIGGER cut one holder (R29, R33). -/
structure HoldersHeld (s : State) : Prop where
  held : ∀ l h, h ∈ (s.output l).holders → ∃ a, s.holdingAction h = some a ∧ a.line = l
  single : ∀ l, (s.output l).policy ≠ .merge → (s.output l).holders.length ≤ 1

/-- The actions in hand, and the state. -/
abbrev Config := List Handle × State

/-- A START tick that R10 gives: now; for an action of base TRAVEL the timestamp of an edge, at most a filter width ago. -/
def State.tickFits (s : State) (due : Due) (tick : Tick) : Prop :=
  (s.now - tick).toNat ≤ 1023 ∧ ∀ t, due = .time t → tick = s.now

/-- The next occurrence of an action, with `left` repeats left after it (R11). -/
def Action.nextWith (a : Action) (left : Nat) : Action :=
  { a with due := a.due.next (a.interval.getD 0), repeatsLeft := left }

/-- One move. It gives the entries that join a list, each with the list it joins, and what the move takes off the measure
`Config.weight`. The premises under `k` are those that hold where the holder sets and the lists are known to be in order. -/
inductive Move (k : Prop) : List (Handle × Base) → Nat → Config → Config → Prop
  /-- Reports and faults are noted. -/
  | notes {V s t} : OnlyNotes s t → Move k [] 0 (V, s) (V, t)
  /-- FAULTED is entered (R122). -/
  | strike {V s} : s.run.state.sequencing = true → Move k [] 0 (V, s) (V, enterFaulted s)
  /-- A drain ends (R119). -/
  | drained {V s} : s.run.state = .draining →
    Move k [] 0 (V, s) (V, s.withRun { s.run with state := .standby, silence := none })
  /-- A WAITING action is taken in hand: its entry leaves its list. -/
  | take {V s h a} : s.waitingAction h = some a → h ∉ V → Move k [] 0 (V, s) (h :: V, removeEntry h s)
  /-- The record of an action in hand is replaced, its line and its due as they are, with no more repeats left. -/
  | rewait {V s h a b} : s.waitingAction h = some a → b.line = a.line → b.due = a.due →
    b.repeatsLeft ≤ a.repeatsLeft → Move k [] 0 (V, s) (V, setWaiting h b s)
  /-- An occurrence of an action in hand whose due is not ahead is passed by (R11, R16, R32). -/
  | pass {V s h a n} : h ∈ V → s.waitingAction h = some a → a.repeatsLeft = n + 1 → (k → s.dueAhead a.due = false) →
    Move k [] 6 (V, s) (V, setWaiting h (a.nextWith n) s)
  /-- A HOLDING action with repeats left ends or is cut: it leaves its line and is in hand, WAITING (R11, R12). -/
  | finish {V s l b a n} : s.holdingAction b = some a → (k → a.line = l) → a.repeatsLeft = n + 1 →
    Move k [] 3 (V, s) (b :: V, setWaiting b (a.nextWith n) (release l b (removeEntry b s)))
  /-- The START of an action in hand is filed (R5, R6). -/
  | file {V s h a} : s.waitingAction h = some a → (k → s.travelNear) →
    Move k [(h, a.due.base)] 0 (h :: V, s) (V, joinStart h a.due s)
  /-- The Output Stage accepts the START of an action in hand (R30). -/
  | accept {V s h a tick} : s.waitingAction h = some a → (k → s.dueAhead a.due = false) →
    (k → s.tickFits a.due tick) → (k → (s.output a.line).holders = [] ∨ (s.output a.line).policy = .merge) →
    Move k [(h, .time)] 3 (h :: V, s) (V, acceptStart h a tick s)
  /-- A slot is freed, its action WAITING (R13). -/
  | free {V s h a} : s.actionOf h = some a → (k → s.holdingAction h = none) → Move k [] 3 (V, s) (V, vacate h s)
  /-- A slot is freed, its action released from its line before (R13, R31). -/
  | freeHeld {V s l h a} : s.holdingAction h = some a → (k → a.line = l) →
    Move k [] 3 (V, s) (V, vacate h (release l h s))
  /-- What is not HOLDING leaves a holder set. -/
  | leave {V s l b} : s.holdingAction b = none → Move k [] 0 (V, s) (V, release l b s)
  /-- An action in hand that has been freed is let go. -/
  | drop {V s h} : s.actionOf h = none → Move k [] 1 (h :: V, s) (V, s)
  /-- A HOLDING action gives up its repeats (R19). -/
  | giveUp {V s a e} {h : Handle} : s.slot h.slot = ⟨h.gen, .holding a e⟩ → Move k [] 0 (V, s)
      (V, s.putSlot h.slot ⟨h.gen, .holding { a with repeatsLeft := 0, finishRequested := true } e⟩)

/-- A chain of moves. -/
inductive Work (k : Prop) : List (Handle × Base) → Nat → Config → Config → Prop
  | done {c} : Work k [] 0 c c
  | step {J J' w w' c d e} : Move k J w c d → Work k J' w' d e → Work k (J ++ J') (w + w') c e

variable {k : Prop} {V : List Handle}

theorem Move.work {J w c d} (h : Move k J w c d) : Work k J w c d := by
  simpa using Work.step h .done

theorem Work.trans {J J' w w' c d e} (h : Work k J w c d) (h' : Work k J' w' d e) :
    Work k (J ++ J') (w + w') c e := by
  induction h with
  | done => simpa using h'
  | step m _ ih => simpa [Nat.add_assoc] using Work.step m (ih h')

/-! ## What the primitive updates leave -/

theorem State.waitingAction_eq {s : State} {h : Handle} {a : Action} :
    s.waitingAction h = some a ↔ s.slot h.slot = ⟨h.gen, .waiting a⟩ := by
  unfold State.waitingAction
  rcases hx : s.slot h.slot with ⟨g, st⟩
  by_cases hg : g = h.gen <;> cases st <;> simp [hg]

theorem State.holdingAction_eq {s : State} {h : Handle} {a : Action} :
    s.holdingAction h = some a ↔ ∃ e, s.slot h.slot = ⟨h.gen, .holding a e⟩ := by
  unfold State.holdingAction
  rcases hx : s.slot h.slot with ⟨g, st⟩
  by_cases hg : g = h.gen <;> cases st <;> simp [hg]

theorem setWaiting_slot (s : State) (h : Handle) (a : Action) (i : SlotNo) :
    (setWaiting h a s).slot i = if i = h.slot then ⟨(s.slot h.slot).gen, .waiting a⟩ else s.slot i := by
  unfold setWaiting
  rw [State.slot_putSlot]

theorem setWaiting_waitingAction {s : State} {h : Handle} {a : Action} (b : Action)
    (hw : s.waitingAction h = some a) : (setWaiting h b s).waitingAction h = some b := by
  rw [State.waitingAction_eq] at *
  rw [setWaiting_slot]
  simp [hw]

theorem setWaiting_setWaiting (s : State) (h : Handle) (a b : Action) :
    setWaiting h b (setWaiting h a s) = setWaiting h b s := by
  simp [setWaiting, State.putSlot, State.withSched, setAt_setAt, State.slot]

theorem vacate_slot (s : State) (h : Handle) (i : SlotNo) :
    (vacate h s).slot i = if i = h.slot then ⟨(s.slot h.slot).gen, .free⟩ else s.slot i :=
  State.slot_putSlot _ _ _ _

theorem vacate_actionOf (s : State) (h : Handle) : (vacate h s).actionOf h = none := by
  rw [← Option.not_isSome_iff_eq_none, actionOf_isSome, vacate_slot]
  simp [Slot.isFree]

theorem release_slot (s : State) (l : OutLine) (h : Handle) (i : SlotNo) : (release l h s).slot i = s.slot i := rfl

/-- What is in use is WAITING or HOLDING. -/
theorem State.actionOf_iff {s : State} {h : Handle} {a : Action} :
    s.actionOf h = some a ↔ s.waitingAction h = some a ∨ s.holdingAction h = some a := by
  unfold State.actionOf State.live State.waitingAction State.holdingAction
  rcases hx : s.slot h.slot with ⟨g, st⟩
  by_cases hg : g = h.gen <;> cases st <;> simp [hg, Slot.isFree, Slot.action]

theorem State.actionOf_congr {s t : State} (h : Handle) (e : t.slot h.slot = s.slot h.slot) :
    t.actionOf h = s.actionOf h := by
  unfold State.actionOf State.live
  rw [e]

theorem OnlyNotes.actionOf {s t : State} (n : OnlyNotes s t) (h : Handle) : t.actionOf h = s.actionOf h :=
  State.actionOf_congr h (n.slot _)

theorem enterFaulted_actionOf (s : State) (h : Handle) : (enterFaulted s).actionOf h = none := by
  rw [← Option.not_isSome_iff_eq_none, actionOf_isSome, enterFaulted_slot]
  simp [Slot.isFree]

/-- What is freed stays freed under a note. -/
theorem Noted.actionOf_none {s t : State} (n : Noted s t) {h : Handle} (hn : s.actionOf h = none) :
    t.actionOf h = none := by
  rcases n with n | ⟨-, n⟩
  · rw [n.actionOf, hn]
  · rw [n.actionOf, enterFaulted_actionOf]

/-- A WAITING action that is no longer so after a note has been freed. -/
theorem Noted.freed {s t : State} (n : Noted s t) {h : Handle} {a : Action} (hw : s.waitingAction h = some a)
    (hn : t.waitingAction h = none) : t.actionOf h = none := by
  rcases n with n | ⟨-, n⟩
  · rw [n.waitingAction, hw] at hn
    cases hn
  · rw [n.actionOf, enterFaulted_actionOf]

theorem OnlyWork.now {s t : State} (h : OnlyWork s t) : t.now = s.now := by
  unfold State.now
  rw [h.timebase]

theorem OnlyWork.dueAhead {s t : State} (h : OnlyWork s t) (d : Due) : t.dueAhead d = s.dueAhead d := by
  unfold State.dueAhead
  rw [h.now, h.timebase]

theorem OnlyNotes.onlyWork {s t : State} (h : OnlyNotes s t) : OnlyWork s t := by
  rw [show t = { s with reports := t.reports, faults := t.faults } from h]
  rfl

/-! ## Each operation is a chain of moves -/

theorem Noted.work {s t : State} (n : Noted s t) : Work k [] 0 (V, s) (V, t) := by
  rcases n with n | ⟨hs, n⟩
  · exact (Move.notes n).work
  · exact .step (.strike hs) (Move.notes n).work

theorem poolNotice_work (s : State) : Work k [] 0 (V, s) (V, poolNotice s) := by
  unfold poolNotice
  split
  · rename_i h
    exact .step (.drained h.2) (createReport_noted _ _).work
  · exact .done

theorem poolNotice_actionOf {s : State} {h : Handle} (hn : s.actionOf h = none) :
    (poolNotice s).actionOf h = none := by
  unfold poolNotice
  split
  · exact (createReport_noted _ _).actionOf_none hn
  · exact hn

/-- What follows the freeing of a slot: the reports and the notice of an empty pool (R13, R119). -/
theorem freeSlot_of_vacate {s : State} {h : Handle} {a : Action} (e : Ended) (ha : s.actionOf h = some a) :
    ∃ u, Noted (vacate h s) u ∧ freeSlot h e s = poolNotice u := by
  obtain ⟨hl, hx, -, -⟩ := actionOf_some ha
  refine ⟨_, ?_, by simp only [freeSlot, hl, hx]; rfl⟩
  split
  · exact createReport_noted _ _
  · exact .refl _

theorem freeSlot_actionOf (s : State) (h : Handle) (e : Ended) : (freeSlot h e s).actionOf h = none := by
  cases ha : s.actionOf h with
  | none => rw [freeSlot_of_none e ha, ha]
  | some a =>
    obtain ⟨u, n, hu⟩ := freeSlot_of_vacate e ha
    rw [hu]
    exact poolNotice_actionOf (n.actionOf_none (vacate_actionOf s h))

theorem freeSlot_work {s : State} {h : Handle} {a : Action} (e : Ended) (ha : s.actionOf h = some a)
    (hk : k → s.holdingAction h = none) : Work k [] 3 (V, s) (V, freeSlot h e s) := by
  obtain ⟨u, n, hu⟩ := freeSlot_of_vacate e ha
  rw [hu]
  exact .step (.free ha hk) (n.work.trans (poolNotice_work u))

/-- An action in hand is freed and let go. -/
theorem freeSlot_inHand {s : State} {h : Handle} {a : Action} (e : Ended) (hw : s.waitingAction h = some a) :
    Work k [] 4 (h :: V, s) (V, freeSlot h e s) :=
  (freeSlot_work e (State.actionOf_iff.mpr (.inl hw))
    (fun _ => (waiting_of_slot (State.waitingAction_eq.mp hw)).2.1)).trans
    (Move.drop (freeSlot_actionOf s h e)).work

/-- A HOLDING action is released and freed. -/
theorem freeSlot_released {s : State} {l : OutLine} {h : Handle} {a : Action} (e : Ended)
    (ha : s.holdingAction h = some a) (hk : k → a.line = l) :
    Work k [] 3 (V, s) (V, freeSlot h e (release l h s)) := by
  obtain ⟨u, n, hu⟩ := freeSlot_of_vacate (s := release l h s) e (State.actionOf_iff.mpr (.inr ha))
  rw [hu]
  exact .step (.freeHeld ha hk) (n.work.trans (poolNotice_work u))

/-! ## What a move does to the lists -/

/-- From `s` to `t` entries left the two lists, and no entry joined. -/
structure Thinned (s t : State) : Prop where
  time : t.sched.timeList.Sublist s.sched.timeList
  travel : t.sched.travelList.Sublist s.sched.travelList
  serial : t.sched.nextSerial = s.sched.nextSerial

/-- From `s` to `t` an entry of this action joined the time list. -/
structure JoinedTime (h : Handle) (s t : State) : Prop where
  time : ∃ p key, t.sched.timeList = fileBy TimeEntry.before ⟨h, p, key, s.sched.nextSerial⟩ s.sched.timeList
  travel : t.sched.travelList = s.sched.travelList
  serial : t.sched.nextSerial = s.sched.nextSerial + 1

/-- From `s` to `t` an entry of this action joined the travel list. -/
structure JoinedTravel (h : Handle) (s t : State) : Prop where
  time : t.sched.timeList = s.sched.timeList
  travel : ∃ key, t.sched.travelList = fileBy TravelEntry.before ⟨h, key, s.sched.nextSerial⟩ s.sched.travelList
  serial : t.sched.nextSerial = s.sched.nextSerial + 1

theorem Thinned.of_sched {s t : State} (h : t.sched = s.sched) : Thinned s t :=
  ⟨h ▸ .refl _, h ▸ .refl _, by rw [h]⟩

theorem Move.timebase {J w} {c d : Config} (m : Move k J w c d) : d.2.timebase = c.2.timebase := by
  cases m with
  | notes n => exact n.timebase
  | @file V s h a _ _ => cases hd : a.due <;> rfl
  | _ => rfl

theorem Work.timebase {J w} {c d : Config} (h : Work k J w c d) : d.2.timebase = c.2.timebase := by
  induction h with
  | done => rfl
  | step m _ ih => rw [ih, m.timebase]

theorem Move.lists {J w} {c d : Config} (m : Move k J w c d) :
    J = [] ∧ Thinned c.2 d.2 ∨ (∃ h, J = [(h, .time)] ∧ JoinedTime h c.2 d.2)
      ∨ ∃ h, J = [(h, .travel)] ∧ JoinedTravel h c.2 d.2 ∧ (k → c.2.travelNear) := by
  cases m with
  | notes n => exact .inl ⟨rfl, .of_sched n.sched⟩
  | strike _ => exact .inl ⟨rfl, List.nil_sublist _, List.nil_sublist _, rfl⟩
  | drained _ => exact .inl ⟨rfl, .of_sched rfl⟩
  | take _ _ => exact .inl ⟨rfl, List.filter_sublist, List.filter_sublist, rfl⟩
  | rewait _ _ _ _ => exact .inl ⟨rfl, .refl _, .refl _, rfl⟩
  | pass _ _ _ _ => exact .inl ⟨rfl, .refl _, .refl _, rfl⟩
  | finish _ _ _ => exact .inl ⟨rfl, List.filter_sublist, List.filter_sublist, rfl⟩
  | @file V s h a _ hn =>
    cases hd : a.due with
    | time t => exact .inr (.inl ⟨h, rfl, ⟨_, _, rfl⟩, rfl, rfl⟩)
    | travel c => exact .inr (.inr ⟨h, rfl, ⟨rfl, ⟨_, rfl⟩, rfl⟩, hn⟩)
  | @accept V s h a tick _ _ _ _ => exact .inr (.inl ⟨h, rfl, ⟨_, _, rfl⟩, rfl, rfl⟩)
  | free _ _ => exact .inl ⟨rfl, List.filter_sublist, List.filter_sublist, rfl⟩
  | freeHeld _ _ => exact .inl ⟨rfl, List.filter_sublist, List.filter_sublist, rfl⟩
  | leave _ => exact .inl ⟨rfl, .refl _, .refl _, rfl⟩
  | drop _ => exact .inl ⟨rfl, .refl _, .refl _, rfl⟩
  | giveUp _ => exact .inl ⟨rfl, .refl _, .refl _, rfl⟩

theorem Move.timeEntry {J w} {c d : Config} (m : Move k J w c d) :
    ∀ e ∈ d.2.sched.timeList, e ∈ c.2.sched.timeList ∨ (e.handle, Base.time) ∈ J := by
  intro e he
  rcases m.lists with ⟨-, ⟨ht, -, -⟩⟩ | ⟨h, rfl, ⟨p, key, ht⟩, -, -⟩ | ⟨h, -, ⟨ht, -, -⟩, -⟩
  · exact .inl (ht.mem he)
  · rw [ht, mem_fileBy] at he
    rcases he with rfl | he
    · exact .inr List.mem_cons_self
    · exact .inl he
  · exact .inl (ht ▸ he)

theorem Move.travelEntry {J w} {c d : Config} (m : Move k J w c d) :
    ∀ e ∈ d.2.sched.travelList, e ∈ c.2.sched.travelList ∨ (e.handle, Base.travel) ∈ J := by
  intro e he
  rcases m.lists with ⟨-, ⟨-, ht, -⟩⟩ | ⟨h, -, -, ht, -⟩ | ⟨h, rfl, ⟨-, ⟨key, ht⟩, -⟩, -⟩
  · exact .inl (ht.mem he)
  · exact .inl (ht ▸ he)
  · rw [ht, mem_fileBy] at he
    rcases he with rfl | he
    · exact .inr List.mem_cons_self
    · exact .inl he

/-- From `s` to `t` no entries joined but those named. -/
structure EntriesFrom (J : List (Handle × Base)) (s t : State) : Prop where
  time : ∀ e ∈ t.sched.timeList, e ∈ s.sched.timeList ∨ (e.handle, Base.time) ∈ J
  travel : ∀ e ∈ t.sched.travelList, e ∈ s.sched.travelList ∨ (e.handle, Base.travel) ∈ J

theorem Move.entriesFrom {J w} {c d : Config} (m : Move k J w c d) : EntriesFrom J c.2 d.2 :=
  ⟨m.timeEntry, m.travelEntry⟩

theorem Work.entriesFrom {J w} {c d : Config} (h : Work k J w c d) : EntriesFrom J c.2 d.2 := by
  induction h with
  | done => exact ⟨fun e he => .inl he, fun e he => .inl he⟩
  | step m _ ih =>
    refine ⟨fun e he => ?_, fun e he => ?_⟩
    · rcases ih.time e he with he | he
      · exact (m.timeEntry e he).imp_right (List.mem_append_left _)
      · exact .inr (List.mem_append_right _ he)
    · rcases ih.travel e he with he | he
      · exact (m.travelEntry e he).imp_right (List.mem_append_left _)
      · exact .inr (List.mem_append_right _ he)

/-! ## START and END -/

/-- The entries that join in an operation on the action `h` belong to it, or to an action that is answered to be tested next;
those of the travel list to an action answered. -/
def JoinedFor (J : List (Handle × Base)) (h : Handle) (next : List Handle) : Prop :=
  ∀ x ∈ J, (x.2 = .travel → x.1 ∈ next) ∧ (x.1 = h ∨ x.1 ∈ next)

theorem mem_travelUrgent (h : Handle) (d : Due) : d.base = .travel → h ∈ travelUrgent h d := by
  cases d <;> simp [Due.base, travelUrgent]

theorem travelUrgent_length (h : Handle) (d : Due) : (travelUrgent h d).length ≤ 1 := by
  cases d <;> simp [travelUrgent]

/-- The START of an action in hand is filed, and answered when it is of base TRAVEL. -/
theorem joinedFor_filed (h : Handle) (d : Due) : JoinedFor [(h, d.base)] h (travelUrgent h d) := by
  intro x hx
  rw [List.mem_singleton] at hx
  subst hx
  exact ⟨mem_travelUrgent h d, .inl rfl⟩

theorem setWaiting_travelNear {s : State} (h : Handle) (a : Action) (hn : s.travelNear) :
    (setWaiting h a s).travelNear := hn

/-- A HOLDING action ends, or is cut: it leaves its line and proceeds (R11, R31). -/
theorem holdingAction_proceeds {s : State} {l : OutLine} {b : Handle} {a : Action}
    (ha : s.holdingAction b = some a) (hk : k → a.line = l) (hn : k → s.travelNear) :
    ∃ J w, Work k J w (V, s) (V, (proceed b a (release l b (removeEntry b s))).1) ∧ J.length + 2 ≤ w
      ∧ (proceed b a (release l b (removeEntry b s))).2.length ≤ 1
      ∧ JoinedFor J b (proceed b a (release l b (removeEntry b s))).2
      ∧ EntriesFrom J (removeEntry b s) (proceed b a (release l b (removeEntry b s))).1 := by
  unfold proceed
  cases hr : a.repeatsLeft with
  | zero =>
    have hf : ∀ e, freeSlot b e (release l b (removeEntry b s)) = freeSlot b e (release l b s) := by
      intro e
      have ho : (release l b s).actionOf b = some a := State.actionOf_iff.mpr (.inr ha)
      have ho' : (release l b (removeEntry b s)).actionOf b = some a := State.actionOf_iff.mpr (.inr ha)
      obtain ⟨hl, hx, -, -⟩ := actionOf_some ho
      obtain ⟨hl', hx', -, -⟩ := actionOf_some ho'
      have hv : vacate b (release l b (removeEntry b s)) = vacate b (release l b s) := by
        simp only [vacate, removeEntry, release, State.putOutput, State.putSlot, State.withSched, State.withOutputs,
          State.slot, State.output, List.filter_filter, Bool.and_self]
      simp only [freeSlot, hl, hx, hl', hx', hv]
    refine ⟨[], 3, ?_, by simp, by simp, by simp [JoinedFor],
      (freeSlot_released (k := False) (V := []) (s := removeEntry b s) _ ha (fun c => c.elim)).entriesFrom⟩
    dsimp only
    rw [hf]
    exact freeSlot_released _ ha hk
  | succ n =>
    have hw : (setWaiting b (a.nextWith n) (release l b (removeEntry b s))).waitingAction b = some (a.nextWith n) := by
      obtain ⟨e, he⟩ := State.holdingAction_eq.mp ha
      rw [State.waitingAction_eq, setWaiting_slot]
      simp [show (release l b (removeEntry b s)).slot b.slot = _ from he]
    have hfile := Move.file (k := k) (V := V) hw (fun x e he => hn x e (List.mem_of_mem_filter he))
    exact ⟨_, _, .step (.finish ha hk hr) hfile.work, by simp, travelUrgent_length _ _,
      joinedFor_filed b (a.nextWith n).due, ⟨hfile.entriesFrom.time, hfile.entriesFrom.travel⟩⟩

end Sys2Proof.Machine
end

