-- ==== Sys2Proof/Proofs/Starts.lean ====
section
/-! PROOFS. START and END as chains of moves (R10 to R16, R30 to R34). -/

namespace Sys2Proof.Machine

variable {k : Prop} {V : List Handle}

/-! ## What an operation on one action leaves of the others -/

/-- Every slot is FREE and both lists are empty. -/
def State.emptied (s : State) : Prop :=
  (∀ i, (s.slot i).isFree = true) ∧ s.sched.timeList = [] ∧ s.sched.travelList = []

theorem enterFaulted_emptied (s : State) : (enterFaulted s).emptied :=
  ⟨fun i => by rw [enterFaulted_slot]; rfl, rfl, rfl⟩

theorem OnlyNotes.emptied {s t : State} (n : OnlyNotes s t) (h : s.emptied) : t.emptied := by
  obtain ⟨hf, ht, hv⟩ := h
  exact ⟨fun i => by rw [n.slot, hf i], by rw [n.sched, ht], by rw [n.sched, hv]⟩

theorem Noted.emptied {s t : State} (n : Noted s t) (h : s.emptied) : t.emptied := by
  rcases n with n | ⟨-, n⟩
  · exact n.emptied h
  · exact n.emptied (enterFaulted_emptied s)

theorem State.emptied.actionOf {s : State} (he : s.emptied) (h : Handle) : s.actionOf h = none := by
  rw [← Option.not_isSome_iff_eq_none, actionOf_isSome, he.1]
  simp

theorem State.emptied.holdingAction {s : State} (he : s.emptied) (h : Handle) : s.holdingAction h = none := by
  cases hb : s.holdingAction h with
  | none => rfl
  | some a =>
    have := he.actionOf h
    rw [State.actionOf_iff.mpr (.inr hb)] at this
    cases this

/-- The slot is as it was, or the pool has been emptied. -/
def Spared (s t : State) (i : SlotNo) : Prop := t.slot i = s.slot i ∨ t.emptied

theorem Spared.refl (s : State) (i : SlotNo) : Spared s s i := .inl rfl

theorem Spared.trans {s t u : State} {i : SlotNo} (h : Spared s t i) (n : Spared t u i)
    (e : t.emptied → u.emptied) : Spared s u i := by
  rcases n with n | n
  · exact h.imp (n.trans ·) e
  · exact .inr n

/-- A WAITING action whose slot is spared is WAITING with the same record, or the pool is empty. -/
theorem Spared.waiting {s t : State} {h : Handle} {a : Action} (n : Spared s t h.slot)
    (hw : s.waitingAction h = some a) : t.waitingAction h = some a ∨ t.emptied := by
  refine n.imp_left fun n => ?_
  rw [State.waitingAction_eq] at *
  rw [n, hw]

/-- The holders of a line are as they were, or the set has been emptied. -/
def HoldersStay (s t : State) (l : OutLine) : Prop :=
  (t.output l).holders = (s.output l).holders ∨ (t.output l).holders = []

theorem HoldersStay.trans {s t u : State} {l : OutLine} (h : HoldersStay s t l) (n : HoldersStay t u l) :
    HoldersStay s u l := by
  rcases n with n | n
  · rcases h with h | h
    · exact .inl (n.trans h)
    · exact .inr (n.trans h)
  · exact .inr n

theorem Noted.spared {s t : State} (n : Noted s t) (i : SlotNo) : Spared s t i := by
  rcases n with n | ⟨-, n⟩
  · exact .inl (n.slot i)
  · exact .inr (n.emptied (enterFaulted_emptied s))

theorem Noted.holdersStay {s t : State} (n : Noted s t) (l : OutLine) : HoldersStay s t l := by
  rcases n with n | ⟨-, n⟩
  · exact .inl (by rw [n.output])
  · exact .inr (by rw [n.output, enterFaulted_output])

theorem poolNotice_spared (s : State) (i : SlotNo) : Spared s (poolNotice s) i := by
  unfold poolNotice
  split
  · exact (createReport_noted _ (s.withRun { s.run with state := .standby, silence := none })).spared i
  · exact .refl s i

theorem poolNotice_emptied {s : State} (h : s.emptied) : (poolNotice s).emptied := by
  unfold poolNotice
  split
  · exact (createReport_noted _ (s.withRun { s.run with state := .standby, silence := none })).emptied h
  · exact h

theorem poolNotice_holdersStay (s : State) (l : OutLine) : HoldersStay s (poolNotice s) l := by
  unfold poolNotice
  split
  · exact (show HoldersStay s (s.withRun _) l from .inl rfl).trans ((createReport_noted _ _).holdersStay l)
  · exact .inl rfl

theorem freeSlot_spared (h : Handle) (e : Ended) (s : State) {i : SlotNo} (hi : i ≠ h.slot) :
    Spared s (freeSlot h e s) i := by
  cases ha : s.actionOf h with
  | none => exact .inl (by rw [freeSlot_of_none e ha])
  | some a =>
    obtain ⟨u, n, hu⟩ := freeSlot_of_vacate e ha
    rw [hu]
    have hv : Spared s (vacate h s) i := .inl (by rw [vacate_slot, if_neg hi])
    exact (hv.trans (n.spared i) n.emptied).trans (poolNotice_spared u i) poolNotice_emptied

theorem freeSlot_holdersStay (h : Handle) (e : Ended) (s : State) (l : OutLine) :
    HoldersStay s (freeSlot h e s) l := by
  cases ha : s.actionOf h with
  | none => exact .inl (by rw [freeSlot_of_none e ha])
  | some a =>
    obtain ⟨u, n, hu⟩ := freeSlot_of_vacate e ha
    rw [hu]
    exact ((show HoldersStay s (vacate h s) l from .inl rfl).trans (n.holdersStay l)).trans
      (poolNotice_holdersStay u l)

@[simp] theorem joinStart_slot (h : Handle) (d : Due) (s : State) (i : SlotNo) :
    (joinStart h d s).slot i = s.slot i := by
  cases d <;> rfl

@[simp] theorem joinStart_outputs (h : Handle) (d : Due) (s : State) : (joinStart h d s).outputs = s.outputs := by
  cases d <;> rfl

theorem proceed_spared (h : Handle) (a : Action) (s : State) {i : SlotNo} (hi : i ≠ h.slot) :
    Spared s (proceed h a s).1 i := by
  unfold proceed
  split
  · exact .inl (by rw [joinStart_slot, setWaiting_slot, if_neg hi])
  · exact freeSlot_spared _ _ _ hi

/-- Only the action itself is answered to be tested next. -/
theorem proceed_next (h : Handle) (a : Action) (s : State) : ∀ x ∈ (proceed h a s).2, x = h := by
  unfold proceed
  split
  · dsimp only
    unfold travelUrgent
    split <;> simp
  · simp

theorem proceed_holdersStay (h : Handle) (a : Action) (s : State) (l : OutLine) :
    HoldersStay s (proceed h a s).1 l := by
  unfold proceed
  split
  · exact .inl (by simp only [State.output, joinStart_outputs]; rfl)
  · exact freeSlot_holdersStay _ _ _ _

/-! ## Cutting holders (R12, R33) -/

/-- The slot holds no HOLDING action. -/
def Slot.notHolding (x : Slot) : Prop := ∀ a e, x.state ≠ .holding a e

theorem Slot.notHolding_of_waiting {s : State} {h : Handle} {a : Action} (hw : s.waitingAction h = some a) :
    (s.slot h.slot).notHolding := by
  rw [State.waitingAction_eq.mp hw]
  intro x e c
  cases c

/-- Cutting a holder spares every slot that does not hold. -/
theorem cutHolder_spared (l : OutLine) (b : Handle) {s : State} {i : SlotNo} (hi : (s.slot i).notHolding) :
    Spared s (cutHolder l b s).1 i := by
  unfold cutHolder
  cases hb : s.holdingAction b with
  | none => exact .inl rfl
  | some x =>
    have hne : i ≠ b.slot := by
      rintro rfl
      obtain ⟨f, hf⟩ := State.holdingAction_eq.mp hb
      exact hi x f (by rw [hf])
    exact proceed_spared b x (release l b (removeEntry b s)) hne

theorem cutHolders_emptied (l : OutLine) (bs : List Handle) {s : State} (he : s.emptied) :
    (cutHolders l bs s).1.emptied := by
  induction bs generalizing s with
  | nil => exact he
  | cons b bs ih =>
    refine ih ?_
    unfold cutHolder
    rw [he.holdingAction b]
    exact he

theorem cutHolders_spared (l : OutLine) (bs : List Handle) {s : State} {i : SlotNo} (hi : (s.slot i).notHolding) :
    Spared s (cutHolders l bs s).1 i := by
  induction bs generalizing s with
  | nil => exact .refl s i
  | cons b bs ih =>
    rcases cutHolder_spared l b hi with e | e
    · exact .trans (.inl e) (ih (by rwa [e])) (cutHolders_emptied l bs)
    · exact .inr (cutHolders_emptied l bs e)

/-- A holder that is cut has left its line. -/
theorem cutHolder_holders (l : OutLine) (b : Handle) (s : State) :
    ((cutHolder l b s).1.output l).holders = (s.output l).holders.filter (fun x => x ≠ b)
      ∨ ((cutHolder l b s).1.output l).holders = [] := by
  have hr : ∀ u : State, ((release l b u).output l).holders = (u.output l).holders.filter (fun x => x ≠ b) := by
    intro u
    simp [release]
  unfold cutHolder
  split
  · exact .inl (hr s)
  · rcases proceed_holdersStay b _ (release l b (removeEntry b s)) l with e | e
    · exact .inl (e.trans (hr _))
    · exact .inr e

theorem cutHolders_onlyHolder (l : OutLine) (b : Handle) {s : State} (hb : (s.output l).holders = [b]) :
    ((cutHolders l [b] s).1.output l).holders = [] := by
  rcases cutHolder_holders l b s with e | e
  · exact e.trans (by simp [hb])
  · exact e

/-- The holders of a line are cut: each leaves the line and proceeds. -/
theorem cutHolders_work (l : OutLine) (bs : List Handle) {s : State}
    (hl : k → bs.length ≤ 1) (ha : k → ∀ b ∈ bs, ∀ a, s.holdingAction b = some a → a.line = l)
    (hn : k → bs ≠ [] → s.travelNear) :
    ∃ J w, Work k J w (V, s) (V, (cutHolders l bs s).1) ∧ J.length + (cutHolders l bs s).2.length ≤ w
      ∧ (∀ x ∈ J, x.1 ∈ (cutHolders l bs s).2) := by
  induction bs generalizing s with
  | nil => exact ⟨[], 0, .done, le_rfl, by simp⟩
  | cons b bs ih =>
    have hnil : k → bs = [] := fun x => List.length_eq_zero_iff.mp (by simpa using hl x)
    obtain ⟨J', w', hw', hle', hJ'⟩ := @ih (cutHolder l b s).1 (fun x => by simp [hnil x])
      (fun x => by simp [hnil x]) (fun x => by simp [hnil x])
    have h1 : ∃ J w, Work k J w (V, s) (V, (cutHolder l b s).1) ∧ J.length + (cutHolder l b s).2.length ≤ w
        ∧ ∀ x ∈ J, x.1 ∈ (cutHolder l b s).2 := by
      unfold cutHolder
      cases hb : s.holdingAction b with
      | none => exact ⟨[], 0, (Move.leave hb).work, le_rfl, by simp⟩
      | some a =>
        obtain ⟨J, w, hw, hle, hp, hJ, -⟩ := holdingAction_proceeds (V := V) hb
          (fun x => ha x b List.mem_cons_self a hb) (fun x => hn x (by simp))
        refine ⟨J, w, hw, by simpa using Nat.le_of_succ_le hle, fun x hx => ?_⟩
        rcases (hJ x hx).2 with e | e
        · simp [e]
        · have hsub := proceed_next b a (release l b (removeEntry b s))
          simpa using hsub _ e
    obtain ⟨J, w, hw, hle, hJ⟩ := h1
    refine ⟨J ++ J', w + w', hw.trans hw', ?_, ?_⟩
    · simp only [cutHolders, List.length_append]
      omega
    · intro x hx
      simp only [cutHolders, List.mem_append] at hx ⊢
      exact hx.imp (hJ x) (hJ' x)

/-! ## START (R10, R30 to R34) -/

/-- An operation takes an action `h` that is in hand in `s` to its end: its entry or its END is filed, or it is freed. -/
def Carried (k : Prop) (V : List Handle) (h : Handle) (s : State) (p : State × List Handle) : Prop :=
  ∃ J w, Work k J w (h :: V, s) (V, p.1) ∧ J.length + p.2.length + 1 ≤ w 
    ∧ (JoinedFor J h p.2 ∨ p.1.emptied)

/-- A WAITING action in hand proceeds after an occurrence that is not ahead (R11). -/
theorem proceed_carried {s : State} {h : Handle} {a : Action} (hw : s.waitingAction h = some a)
    (hd : k → s.dueAhead a.due = false) (hn : k → s.travelNear) : Carried k V h s (proceed h a s) := by
  unfold proceed
  cases hr : a.repeatsLeft with
  | zero => exact ⟨[], 4, freeSlot_inHand _ hw, by simp, .inl (by simp [JoinedFor])⟩
  | succ n =>
    refine ⟨_, _, .step (.pass List.mem_cons_self hw hr hd)
      (Move.file (setWaiting_waitingAction _ hw) (fun x => setWaiting_travelNear h _ (hn x))).work, ?_, ?_⟩
    · have := travelUrgent_length h (a.nextWith n).due
      simp only [List.nil_append, List.length_singleton, Action.nextWith] at *
      omega
    · exact .inl (joinedFor_filed h (a.nextWith n).due)

/-- An action that is no longer in use is let go, whatever was done to it. -/
theorem carried_dropped {s u : State} {h : Handle} (hw : Work k [] 0 (h :: V, s) (h :: V, u))
    (hn : u.actionOf h = none) : Carried k V h s (u, []) :=
  ⟨[], 1, hw.trans (Move.drop hn).work, le_rfl, .inl (by simp [JoinedFor])⟩

/-- An operation carries on from where moves without a joining have brought the action. -/
theorem Carried.after {s u : State} {h : Handle} {p : State × List Handle} {w : Nat}
    (hw : Work k [] w (h :: V, s) (h :: V, u)) (hc : Carried k V h u p) : Carried k V h s p := by
  obtain ⟨J, w', hw', hle, hJ⟩ := hc
  exact ⟨J, w + w', hw.trans hw', by omega, hJ⟩

/-- What the notes of an operation on a WAITING action leave: the action as it was, or freed. -/
theorem carried_noted {s u : State} {h : Handle} {a : Action} {p : State × List Handle} {f : Action → State × List Handle}
    (n : Noted s u) (hw : s.waitingAction h = some a)
    (hp : p = match u.waitingAction h with
      | none => (u, [])
      | some b => f b)
    (hc : OnlyNotes s u → Carried k V h u (f a)) : Carried k V h s p := by
  subst hp
  cases hu : u.waitingAction h with
  | none => exact carried_dropped n.work (n.freed hw hu)
  | some b =>
    obtain ⟨hn, hb⟩ := n.of_waiting hu
    rw [hw] at hb
    cases hb
    exact (hc hn).after n.work

theorem refuseStart_carried {s : State} {h : Handle} {a : Action} (owner : Handle) (hw : s.waitingAction h = some a)
    (hd : k → s.dueAhead a.due = false) (hn : k → s.travelNear) : Carried k V h s (refuseStart h owner a s) := by
  have hw1 := setWaiting_waitingAction { a with skipped := a.skipped + 1 } hw
  have n := (createReport_noted (.collision a.line h owner)
    (setWaiting h { a with skipped := a.skipped + 1 } s)).trans
      (countForAction_noted .collision (.output a.line) h _)
  refine Carried.after (Move.rewait (b := { a with skipped := a.skipped + 1 }) hw rfl rfl le_rfl).work (carried_noted n hw1 rfl fun hu => ?_)
  refine proceed_carried (by rw [hu.waitingAction]; exact hw1) (by rw [hu.onlyWork.dueAhead]; exact hd) fun x e he => ?_
  rw [hu.sched] at he
  unfold State.countNear
  rw [hu.timebase]
  exact hn x e he

theorem acceptStart_carried {s : State} {h : Handle} {a : Action} {tick : Tick} (hw : s.waitingAction h = some a)
    (hd : k → s.dueAhead a.due = false) (ht : k → s.tickFits a.due tick)
    (ho : k → (s.output a.line).holders = [] ∨ (s.output a.line).policy = .merge) :
    Carried k V h s (acceptStart h a tick s, []) :=
  ⟨_, _, (Move.accept hw hd ht ho).work, by simp, .inl (by simp [JoinedFor])⟩

/-- A START reaches the Output Stage (R30 to R34). -/
theorem startOnLine_carried {s : State} {h : Handle} {a : Action} {tick : Tick} (hw : s.waitingAction h = some a)
    (hd : k → s.dueAhead a.due = false) (ht : k → s.tickFits a.due tick) (hn : k → s.travelNear)
    (hh : k → HoldersHeld s) : Carried k V h s (startOnLine h a tick s) := by
  unfold startOnLine
  split
  · exact acceptStart_carried hw hd ht (fun _ => .inl ‹_›)
  · rename_i first others hbs
    split
    · exact refuseStart_carried _ hw hd hn
    · exact acceptStart_carried hw hd ht (fun _ => .inr ‹_›)
    · rename_i hpol
      have hone : k → others = [] := fun x => by
        have := (hh x).single a.line (by simp [hpol])
        rw [hbs] at this
        exact List.length_eq_zero_iff.mp (by simpa using this)
      have hline : k → ∀ b ∈ first :: others, ∀ x, s.holdingAction b = some x → x.line = a.line := by
        intro y b hb x hx
        obtain ⟨x', hx', hl⟩ := (hh y).held a.line b (hbs ▸ hb)
        rw [hx] at hx'
        cases hx'
        exact hl
      obtain ⟨J, w, hJw, hle, hJ⟩ := cutHolders_work (V := h :: V) a.line (first :: others)
        (fun x => by simp [hone x]) hline (fun x _ => hn x)
      have hwork := cutHolders_onlyWork a.line (first :: others) s
      rcases (cutHolders_spared a.line (first :: others) (Slot.notHolding_of_waiting hw)).waiting hw with hu | he
      · simp only [hu]
        refine ⟨_, _, hJw.trans (Move.accept hu (fun x => by rw [hwork.dueAhead, hd x]) (fun x => ?_) (fun x => .inl ?_)).work,
          by simp; omega, .inl fun x hx => ?_⟩
        · unfold State.tickFits
          rw [hwork.now]
          exact ht x
        · rw [hone x] at hbs ⊢
          exact cutHolders_onlyHolder a.line first hbs
        · rcases List.mem_append.mp hx with hx | hx
          · exact ⟨fun _ => hJ x hx, .inr (hJ x hx)⟩
          · rw [List.mem_singleton] at hx
            subst hx
            exact ⟨fun c => (nomatch c), .inl rfl⟩
      · have hnone : (cutHolders a.line (first :: others) s).1.waitingAction h = none := by
          cases hu : (cutHolders a.line (first :: others) s).1.waitingAction h with
          | none => rfl
          | some b =>
            have := he.actionOf h
            rw [State.actionOf_iff.mpr (.inl hu)] at this
            cases this
        simp only [hnone]
        exact ⟨_, _, hJw.trans (Move.drop (he.actionOf h)).work, by simp; omega, .inr he⟩

/-! ## Lateness (R14 to R16) -/

/-- A due that is late is not ahead. -/
theorem dueAhead_of_late {s : State} {d : Due} (h : (s.lateBy d).isSome = true) : s.dueAhead d = false := by
  unfold State.lateBy at h
  cases hd : s.dueAhead d with
  | false => rfl
  | true => simp [hd] at h

theorem OnlyNotes.travelNear {s t : State} (n : OnlyNotes s t) (h : s.travelNear) : t.travelNear := by
  intro e he
  rw [n.sched] at he
  unfold State.countNear
  rw [n.timebase]
  exact h e he

theorem OnlyNotes.holdersHeld {s t : State} (n : OnlyNotes s t) (h : HoldersHeld s) : HoldersHeld t :=
  ⟨fun l b hb => by rw [n.output] at hb; rw [n.holdingAction]; exact h.held l b hb,
    fun l hl => by rw [n.output] at hl ⊢; exact h.single l hl⟩

/-- A late START under FIRE is taken now (R15). -/
theorem fireLate_carried {s : State} {h : Handle} {a : Action} (n : Nat) (hw : s.waitingAction h = some a)
    (hd : s.dueAhead a.due = false) (hn : k → s.travelNear) (hh : k → HoldersHeld s) :
    Carried k V h s (fireLate h a n s) := by
  have hnote := (createReport_noted (.late h a.due.base n none) s).trans
    (countForAction_noted .actionLate (.handle h) h _)
  refine carried_noted hnote hw (f := fun b => startOnLine h b _ _) rfl fun hu => ?_
  exact startOnLine_carried (by rw [hu.waitingAction, hw]) (fun _ => by rw [hu.onlyWork.dueAhead, hd])
    (fun _ => ⟨by simp, fun _ _ => rfl⟩) (fun x => hu.travelNear (hn x)) (fun x => hu.holdersHeld (hh x))

/-- The occurrences of a run of skipped ones are passed by, one after another (R16). -/
theorem skipFrom_work {s : State} {h : Handle} {late : Due → Bool} {interval : BitVec 32} {left n : Nat} {due d : Due}
    {left' : Nat} (hl : ∀ d, late d = true → s.dueAhead d = false)
    (hs : (skipFrom late interval left due n).next = some (d, left')) :
    ∀ {t : State} {a : Action}, (∀ d, t.dueAhead d = s.dueAhead d) → t.waitingAction h = some a → a.due = due →
      a.repeatsLeft = left → a.interval.getD 0 = interval → s.dueAhead due = false →
      ∃ w, 6 ≤ w ∧ Work k [] w (h :: V, t) (h :: V, setWaiting h { a with due := d, repeatsLeft := left' } t) := by
  induction left generalizing due n with
  | zero => simp [skipFrom] at hs
  | succ left ih =>
    intro t a ht hw hdue hleft hint hd
    have hpass : Work k [] 6 (h :: V, t) (h :: V, setWaiting h (a.nextWith left) t) :=
      (Move.pass List.mem_cons_self hw hleft (fun _ => by rw [hdue, ht, hd])).work
    unfold skipFrom at hs
    split at hs
    · rename_i hlate
      obtain ⟨w, hw6, hwork⟩ := ih hs (t := setWaiting h (a.nextWith left) t) (a := a.nextWith left) ht
        (setWaiting_waitingAction _ hw) (show a.due.next (a.interval.getD 0) = _ by rw [hdue, hint]) rfl hint (hl _ hlate)
      rw [setWaiting_setWaiting] at hwork
      exact ⟨6 + w, by omega, hpass.trans hwork⟩
    · subst hdue hint
      obtain ⟨rfl, rfl⟩ := Prod.mk.inj (Option.some.inj hs)
      exact ⟨6, le_rfl, hpass⟩

/-- A late START under SKIP: the run of skipped occurrences (R16). -/
theorem skipLate_carried {s : State} {h : Handle} {a : Action} (n : Nat) (hw : s.waitingAction h = some a)
    (hd : s.dueAhead a.due = false) (hn : k → s.travelNear) : Carried k V h s (skipLate h a n s) := by
  unfold skipLate
  generalize hrun : skipFrom (fun d => (s.lateBy d).isSome) (a.interval.getD 0) a.repeatsLeft a.due 0 = run
  dsimp only
  generalize hb : ({ a with skipped := a.skipped + run.skipped, due := (run.next.map Prod.fst).getD a.due, repeatsLeft := (run.next.map Prod.snd).getD 0 } : Action) = b
  have hwb := setWaiting_waitingAction b hw
  have hnote := (createReport_noted (.late h a.due.base n (some run.skipped)) (setWaiting h b s)).trans
    (countForAction_noted .actionLate (.handle h) h _)
  cases hnext : run.next with
  | none =>
    refine Carried.after (Move.rewait (b := b) hw ?_ ?_ ?_).work
      (carried_noted hnote hwb (f := fun _ => (freeSlot h .complete _, [])) rfl fun hu => ?_)
    · simp [← hb]
    · simp [← hb, hnext]
    · simp [← hb, hnext]
    · exact ⟨[], 4, freeSlot_inHand _ (by rw [hu.waitingAction, hwb]), by simp, .inl (by simp [JoinedFor])⟩
  | some p =>
    obtain ⟨w, hw6, hwork⟩ := skipFrom_work (k := k) (V := V) (s := s) (h := h) (n := 0) (d := p.1) (left' := p.2)
      (fun d => dueAhead_of_late) (by rw [hrun, hnext]) (t := s) (a := a) (fun _ => rfl) hw rfl rfl rfl hd
    have hrew : Work k [] 0 (h :: V, setWaiting h { a with due := p.1, repeatsLeft := p.2 } s) (h :: V, setWaiting h b s) := by
      rw [← setWaiting_setWaiting s h { a with due := p.1, repeatsLeft := p.2 } b]
      exact (Move.rewait (setWaiting_waitingAction _ hw) (by simp [← hb]) (by simp [← hb, hnext])
        (by simp [← hb, hnext])).work
    have hdue : b.due = p.1 := by simp [← hb, hnext]
    generalize hu : countForAction .actionLate (.handle h) h
      (createReport (.late h a.due.base n (some run.skipped)) (setWaiting h b s)) = u at hnote
    cases hwu : u.waitingAction h with
    | none => exact (carried_dropped hnote.work (hnote.freed hwb hwu)).after (hwork.trans hrew)
    | some c =>
      obtain ⟨hon, hc⟩ := hnote.of_waiting hwu
      rw [hwb] at hc
      cases hc
      dsimp only
      rw [← hdue]
      refine ⟨_, _, (hwork.trans hrew).trans (hnote.work.trans (Move.file hwu fun x => hon.travelNear (hn x)).work), ?_,
        .inl (joinedFor_filed h b.due)⟩
      have := travelUrgent_length h b.due
      simp
      omega

/-- A START entry has expired: the lateness test, then the START (R10, R14). -/
theorem startAction_carried {s : State} {h : Handle} {a : Action} {tick : Tick} (hw : s.waitingAction h = some a)
    (hd : k → s.dueAhead a.due = false) (ht : k → s.tickFits a.due tick) (hn : k → s.travelNear)
    (hh : k → HoldersHeld s) : Carried k V h s (startAction h tick s) := by
  unfold startAction
  rw [hw]
  dsimp only
  split
  · exact startOnLine_carried hw hd ht hn hh
  · rename_i n hlate
    have hb : s.dueAhead a.due = false := dueAhead_of_late (by rw [hlate]; rfl)
    split
    · exact fireLate_carried _ hw hb hn hh
    · exact skipLate_carried _ hw hb hn

/-! ## Which actions are answered to be tested next -/

/-- No action has become HOLDING, and those that still are have their slots as they were. -/
def NoNewHolder (s t : State) : Prop := ∀ i, (t.slot i).notHolding ∨ t.slot i = s.slot i

theorem NoNewHolder.trans {s t u : State} (h : NoNewHolder s t) (n : NoNewHolder t u) : NoNewHolder s u := by
  intro i
  rcases n i with n | n
  · exact .inl n
  · rw [n]
    exact h i

theorem NoNewHolder.holding {s t : State} (n : NoNewHolder s t) {b : Handle} (h : (t.holdingAction b).isSome) :
    (s.holdingAction b).isSome := by
  obtain ⟨a, ha⟩ := Option.isSome_iff_exists.mp h
  obtain ⟨e, he⟩ := State.holdingAction_eq.mp ha
  rcases n b.slot with n | n
  · exact absurd (by rw [he]) (n a e)
  · rw [Option.isSome_iff_exists]
    exact ⟨a, State.holdingAction_eq.mpr ⟨e, by rw [← n, he]⟩⟩

theorem Slot.notHolding_of_isFree {x : Slot} (h : x.isFree = true) : x.notHolding := by
  rw [slot_of_free x h]
  intro a e c
  cases c

theorem noNewHolder_of_slot {s t : State} (h : ∀ i, t.slot i = s.slot i) : NoNewHolder s t := fun i => .inr (h i)

theorem Noted.noNewHolder {s t : State} (n : Noted s t) : NoNewHolder s t := fun i =>
  (n.spared i).symm.imp_left fun e => Slot.notHolding_of_isFree (e.1 i)

theorem setWaiting_noNewHolder (h : Handle) (a : Action) (s : State) : NoNewHolder s (setWaiting h a s) := by
  intro i
  rw [setWaiting_slot]
  split
  · left
    intro x e c
    cases c
  · exact .inr rfl

theorem freeSlot_noNewHolder (h : Handle) (e : Ended) (s : State) : NoNewHolder s (freeSlot h e s) := by
  cases ha : s.actionOf h with
  | none => rw [freeSlot_of_none e ha]; exact noNewHolder_of_slot fun _ => rfl
  | some a =>
    obtain ⟨u, n, hu⟩ := freeSlot_of_vacate e ha
    have hv : NoNewHolder s (vacate h s) := by
      intro i
      rw [vacate_slot]
      split
      · exact .inl (Slot.notHolding_of_isFree rfl)
      · exact .inr rfl
    rw [hu]
    exact (hv.trans n.noNewHolder).trans fun i =>
      (poolNotice_spared u i).symm.imp_left fun e => Slot.notHolding_of_isFree (e.1 i)

theorem proceed_noNewHolder (h : Handle) (a : Action) (s : State) : NoNewHolder s (proceed h a s).1 := by
  unfold proceed
  split
  · exact (setWaiting_noNewHolder h _ s).trans (noNewHolder_of_slot fun i => joinStart_slot _ _ _ _)
  · exact freeSlot_noNewHolder _ _ _

theorem cutHolder_noNewHolder (l : OutLine) (b : Handle) (s : State) : NoNewHolder s (cutHolder l b s).1 := by
  unfold cutHolder
  split
  · exact noNewHolder_of_slot fun _ => rfl
  · exact (noNewHolder_of_slot (t := release l b (removeEntry b s)) fun _ => rfl).trans (proceed_noNewHolder _ _ _)

/-- What is answered of the cutting of holders was HOLDING. -/
theorem cutHolders_next (l : OutLine) (bs : List Handle) (s : State) :
    ∀ x ∈ (cutHolders l bs s).2, (s.holdingAction x).isSome := by
  induction bs generalizing s with
  | nil => simp [cutHolders]
  | cons b bs ih =>
    intro x hx
    rcases List.mem_append.mp hx with hx | hx
    · unfold cutHolder at hx
      split at hx
      · cases hx
      · rename_i hb
        rw [List.mem_singleton] at hx
        rw [hx, hb]
        rfl
    · exact (cutHolder_noNewHolder l b s).holding (ih _ x hx)

theorem cutHolders_next_length (l : OutLine) (bs : List Handle) (s : State) :
    (cutHolders l bs s).2.length ≤ bs.length := by
  induction bs generalizing s with
  | nil => simp [cutHolders]
  | cons b bs ih =>
    have h1 : (cutHolder l b s).2.length ≤ 1 := by
      unfold cutHolder
      split <;> simp
    simp only [cutHolders, List.length_append, List.length_cons]
    have := ih (cutHolder l b s).1
    omega

theorem proceed_next_length (h : Handle) (a : Action) (s : State) : (proceed h a s).2.length ≤ 1 := by
  unfold proceed
  split
  · exact travelUrgent_length _ _
  · simp

/-- What a START answers: the action itself, or holders that it cut. -/
theorem startOnLine_next (h : Handle) (a : Action) (tick : Tick) (s : State) :
    ∀ x ∈ (startOnLine h a tick s).2, x = h ∨ (s.holdingAction x).isSome := by
  intro x hx
  unfold startOnLine at hx
  split at hx
  · cases hx
  · split at hx
    · left
      unfold refuseStart at hx
      dsimp only at hx
      split at hx
      · cases hx
      · exact proceed_next _ _ _ x hx
    · cases hx
    · dsimp only at hx
      split at hx
      · cases hx
      · exact .inr (cutHolders_next _ _ _ x hx)

theorem startOnLine_next_length (h : Handle) (a : Action) (tick : Tick) {s : State} (hh : HoldersHeld s) :
    (startOnLine h a tick s).2.length ≤ 1 := by
  unfold startOnLine
  split
  · simp
  · rename_i first others hbs
    split
    · unfold refuseStart
      dsimp only
      split
      · simp
      · exact proceed_next_length _ _ _
    · simp
    · rename_i hpol
      dsimp only
      split
      · simp
      · have h1 := hh.single a.line (by simp [hpol])
        rw [hbs] at h1
        exact (cutHolders_next_length _ _ _).trans h1

theorem travelUrgent_next (h : Handle) (d : Due) : ∀ x ∈ travelUrgent h d, x = h := by
  cases d <;> simp [travelUrgent]

theorem startAction_next (h : Handle) (tick : Tick) (s : State) :
    ∀ x ∈ (startAction h tick s).2, x = h ∨ (s.holdingAction x).isSome := by
  intro x hx
  unfold startAction at hx
  split at hx
  · cases hx
  · rename_i a hw
    split at hx
    · exact startOnLine_next _ _ _ _ x hx
    · rename_i n _
      split at hx
      · unfold fireLate at hx
        dsimp only at hx
        split at hx
        · cases hx
        · have hnote := (createReport_noted (.late h a.due.base n none) s).trans
            (countForAction_noted .actionLate (.handle h) h _)
          exact (startOnLine_next _ _ _ _ x hx).imp_right hnote.noNewHolder.holding
      · unfold skipLate at hx
        dsimp only at hx
        split at hx
        · cases hx
        · split at hx
          · exact .inl (travelUrgent_next _ _ x hx)
          · cases hx

theorem startAction_next_length (h : Handle) (tick : Tick) {s : State} (hh : HoldersHeld s) :
    (startAction h tick s).2.length ≤ 1 := by
  unfold startAction
  split
  · simp
  · rename_i a hw
    split
    · exact startOnLine_next_length _ _ _ hh
    · rename_i n _
      split
      · unfold fireLate
        dsimp only
        have hnote := (createReport_noted (.late h a.due.base n none) s).trans
          (countForAction_noted .actionLate (.handle h) h _)
        split
        · simp
        · rename_i b hb
          exact startOnLine_next_length _ _ _ ((hnote.of_waiting hb).1.holdersHeld hh)
      · unfold skipLate
        dsimp only
        split
        · simp
        · split
          · exact travelUrgent_length _ _
          · simp

end Sys2Proof.Machine
end

