-- ==== Sys2Proof/Proofs/Agree.lean ====
section
/-! PROOFS. Every move keeps the agreement of the lists with the pool (R5, R6), FAULTED at rest (R47), and the holders of each
line held (R29). -/

namespace Sys2Proof.Machine

variable {k : Prop} {V : List Handle}

/-! ## The agreement of the lists with the pool, some actions being in hand -/

/-- The lists agree with the pool but for the actions in hand, which are WAITING or freed and have no entry. -/
structure AgreeBut (V : List Handle) (s : State) : Prop where
  once : s.listedHandles.Nodup
  start : ∀ e ∈ s.sched.timeList, e.phase = .start → ∃ a, s.waitingAction e.handle = some a ∧ a.due = .time e.key
  finish : ∀ e ∈ s.sched.timeList, e.phase = .finish →
    ∃ a, s.slot e.handle.slot = ⟨e.handle.gen, .holding a e.key⟩
  travel : ∀ e ∈ s.sched.travelList, ∃ a, s.waitingAction e.handle = some a ∧ a.due = .travel e.key
  listed : ∀ i, (s.slot i).isFree = false → s.handleOf i ∈ s.listedHandles ∨ s.handleOf i ∈ V
  out : ∀ h ∈ V, h ∉ s.listedHandles
  hand : ∀ h ∈ V, s.holdingAction h = none
  nodup : V.Nodup

theorem agreeBut_nil {s : State} : AgreeBut [] s ↔ ListsAgree s :=
  ⟨fun h => ⟨h.once, h.start, h.finish, h.travel, fun i hi => (h.listed i hi).resolve_right (by simp)⟩,
    fun h => ⟨h.once, h.start, h.finish, h.travel, fun i hi => .inl (h.listed i hi), by simp, by simp, by simp⟩⟩

theorem AgreeBut.congr {s t : State} (h : AgreeBut V s) (hs : t.sched = s.sched) : AgreeBut V t := by
  have hslot : ∀ i, t.slot i = s.slot i := fun i => by unfold State.slot; rw [hs]
  have hl : t.listedHandles = s.listedHandles := by unfold State.listedHandles; rw [hs]
  have hw : ∀ x, t.waitingAction x = s.waitingAction x := fun x => by unfold State.waitingAction; rw [hslot]
  have hh : ∀ x, t.holdingAction x = s.holdingAction x := fun x => by unfold State.holdingAction; rw [hslot]
  refine ⟨hl ▸ h.once, ?_, ?_, ?_, ?_, ?_, ?_, h.nodup⟩
  · simpa only [hs, hw] using h.start
  · simpa only [hs, hslot] using h.finish
  · simpa only [hs, hw] using h.travel
  · simpa only [State.handleOf, hslot, hl] using h.listed
  · simpa only [hl] using h.out
  · simpa only [hh] using h.hand

theorem AgreeBut.of_emptied {s : State} (h : s.emptied) (hV : V.Nodup) : AgreeBut V s := by
  obtain ⟨hf, ht, hv⟩ := h
  have hl : s.listedHandles = [] := by simp [State.listedHandles, ht, hv]
  refine ⟨by simp [hl], by simp [ht], by simp [ht], by simp [hv], fun i hi => ?_, by simp [hl],
    fun x _ => State.emptied.holdingAction ⟨hf, ht, hv⟩ x, hV⟩
  rw [hf i] at hi
  cases hi

/-- What is in use and has its entry is named by its entry's handle. -/
theorem AgreeBut.live {s : State} (ag : AgreeBut V s) {h : Handle} (hm : h ∈ s.listedHandles) :
    (s.actionOf h).isSome := by
  rcases List.mem_append.mp hm with hm | hm
  · obtain ⟨e, he, rfl⟩ := List.mem_map.mp hm
    cases hp : e.phase with
    | start =>
      obtain ⟨a, ha, -⟩ := ag.start e he hp
      rw [State.actionOf_iff.mpr (.inl ha)]
      rfl
    | finish =>
      obtain ⟨a, ha⟩ := ag.finish e he hp
      rw [State.actionOf_iff.mpr (.inr (State.holdingAction_eq.mpr ⟨_, ha⟩))]
      rfl
  · obtain ⟨e, he, rfl⟩ := List.mem_map.mp hm
    obtain ⟨a, ha, -⟩ := ag.travel e he
    rw [State.actionOf_iff.mpr (.inl ha)]
    rfl

/-- Two actions in use in one slot are one action. -/
theorem live_unique {s : State} {h h' : Handle} (a : (s.actionOf h).isSome) (b : (s.actionOf h').isSome)
    (e : h'.slot = h.slot) : h' = h := by
  have ha := (actionOf_isSome.mp a).1
  have hb := (actionOf_isSome.mp b).1
  rw [e] at hb
  exact Handle.ext_parts e (hb.symm.trans ha)

theorem handleOf_eq {s : State} {h : Handle} (a : (s.actionOf h).isSome) : s.handleOf h.slot = h := by
  unfold State.handleOf
  rw [(actionOf_isSome.mp a).1]

theorem removeEntry_listedHandles (h : Handle) (s : State) :
    (removeEntry h s).listedHandles = s.listedHandles.filter (fun x => x ≠ h) := by
  simp only [State.listedHandles, removeEntry, State.withSched, List.filter_append, List.filter_map]
  rfl

/-- An action's entry leaves its list, and its slot becomes WAITING in hand, or FREE. -/
theorem AgreeBut.removed {V' : List Handle} {s t : State} {h : Handle} (ag : AgreeBut V s)
    (hl : (s.actionOf h).isSome) (htime : t.sched.timeList = s.sched.timeList.filter (fun e => e.handle ≠ h))
    (htravel : t.sched.travelList = s.sched.travelList.filter (fun e => e.handle ≠ h))
    (hslot : ∀ i, i ≠ h.slot → t.slot i = s.slot i) (hgen : (t.slot h.slot).gen = h.gen)
    (hnot : (t.slot h.slot).notHolding) (hV : ∀ x ∈ V, x ∈ V') (hV' : ∀ x ∈ V', x = h ∨ x ∈ V) (hnd : V'.Nodup)
    (hin : (t.slot h.slot).isFree = false → h ∈ V') : AgreeBut V' t := by
  have hlist : t.listedHandles = s.listedHandles.filter (fun x => x ≠ h) := by
    rw [← removeEntry_listedHandles]
    simp only [State.listedHandles, htime, htravel]
    rfl
  have hne : ∀ x, (s.actionOf x).isSome → x ≠ h → t.slot x.slot = s.slot x.slot := fun x hx hxh =>
    hslot _ fun e => hxh (live_unique hl hx e)
  refine ⟨hlist ▸ ag.once.filter _, ?_, ?_, ?_, ?_, ?_, ?_, hnd⟩
  · intro e he hp
    rw [htime] at he
    obtain ⟨he, hx⟩ := List.mem_filter.mp he
    obtain ⟨a, ha, hd⟩ := ag.start e he hp
    refine ⟨a, ?_, hd⟩
    rw [State.waitingAction_eq] at ha ⊢
    rw [hne e.handle (by rw [State.actionOf_iff.mpr (.inl (State.waitingAction_eq.mpr ha))]; rfl) (by simpa using hx), ha]
  · intro e he hp
    rw [htime] at he
    obtain ⟨he, hx⟩ := List.mem_filter.mp he
    obtain ⟨a, ha⟩ := ag.finish e he hp
    refine ⟨a, ?_⟩
    rw [hne e.handle
      (by rw [State.actionOf_iff.mpr (.inr (State.holdingAction_eq.mpr ⟨_, ha⟩))]; rfl) (by simpa using hx), ha]
  · intro e he
    rw [htravel] at he
    obtain ⟨he, hx⟩ := List.mem_filter.mp he
    obtain ⟨a, ha, hd⟩ := ag.travel e he
    refine ⟨a, ?_, hd⟩
    rw [State.waitingAction_eq] at ha ⊢
    rw [hne e.handle (by rw [State.actionOf_iff.mpr (.inl (State.waitingAction_eq.mpr ha))]; rfl) (by simpa using hx), ha]
  · intro i hi
    by_cases hs : i = h.slot
    · right
      subst hs
      have : t.handleOf h.slot = h := by unfold State.handleOf; rw [hgen]
      rw [this]
      exact hin hi
    · have hho : t.handleOf i = s.handleOf i := by unfold State.handleOf; rw [hslot i hs]
      rw [hslot i hs] at hi
      rw [hho, hlist]
      refine (ag.listed i hi).imp (fun hm => List.mem_filter.mpr ⟨hm, ?_⟩) (hV _)
      have : s.handleOf i ≠ h := fun e => hs (by rw [← e]; rfl)
      simpa using this
  · intro x hx
    rw [hlist, List.mem_filter]
    rintro ⟨hm, hxh⟩
    exact (hV' x hx).elim (by simpa using hxh) (fun hv => ag.out x hv hm)
  · intro x hx
    by_cases hs : x.slot = h.slot
    · cases hb : t.holdingAction x with
      | none => rfl
      | some a =>
        obtain ⟨e, he⟩ := State.holdingAction_eq.mp hb
        rw [hs] at he
        exact absurd (by rw [he]) (hnot a e)
    · have hxV := (hV' x hx).resolve_left (fun e => hs (by rw [e]))
      rw [← ag.hand x hxV]
      unfold State.holdingAction
      rw [hslot _ hs]

/-- An action in hand gets its entry. -/
theorem AgreeBut.joined {s t : State} {h : Handle} (ag : AgreeBut (h :: V) s)
    (hl : (s.actionOf h).isSome) (hslot : ∀ i, i ≠ h.slot → t.slot i = s.slot i) (hgen : (t.slot h.slot).gen = h.gen)
    (hperm : t.listedHandles.Perm (h :: s.listedHandles))
    (htime : ∀ e ∈ t.sched.timeList, e ∈ s.sched.timeList ∨ e.handle = h
      ∧ (e.phase = .start → ∃ a, t.waitingAction h = some a ∧ a.due = .time e.key)
      ∧ (e.phase = .finish → ∃ a, t.slot h.slot = ⟨h.gen, .holding a e.key⟩))
    (htravel : ∀ e ∈ t.sched.travelList, e ∈ s.sched.travelList ∨ e.handle = h
      ∧ ∃ a, t.waitingAction h = some a ∧ a.due = .travel e.key) : AgreeBut V t := by
  have hout := ag.out h List.mem_cons_self
  have hnotV : h ∉ V := (List.nodup_cons.mp ag.nodup).1
  have hne : ∀ x, x ∈ s.listedHandles → t.slot x.slot = s.slot x.slot := fun x hx =>
    hslot _ fun e => hout (live_unique hl (ag.live hx) e ▸ hx)
  have hmt : ∀ e ∈ s.sched.timeList, e.handle ∈ s.listedHandles := fun e he =>
    List.mem_append_left _ (List.mem_map_of_mem he)
  have hmv : ∀ e ∈ s.sched.travelList, e.handle ∈ s.listedHandles := fun e he =>
    List.mem_append_right _ (List.mem_map_of_mem he)
  refine ⟨hperm.nodup_iff.mpr (List.nodup_cons.mpr ⟨hout, ag.once⟩), ?_, ?_, ?_, ?_, ?_, ?_,
    (List.nodup_cons.mp ag.nodup).2⟩
  · intro e he hp
    rcases htime e he with he | ⟨rfl, hs, -⟩
    · obtain ⟨a, ha, hd⟩ := ag.start e he hp
      refine ⟨a, ?_, hd⟩
      rw [State.waitingAction_eq] at ha ⊢
      rw [hne _ (hmt e he), ha]
    · exact hs hp
  · intro e he hp
    rcases htime e he with he | ⟨rfl, -, hs⟩
    · obtain ⟨a, ha⟩ := ag.finish e he hp
      exact ⟨a, by rw [hne _ (hmt e he), ha]⟩
    · exact hs hp
  · intro e he
    rcases htravel e he with he | ⟨rfl, hs⟩
    · obtain ⟨a, ha, hd⟩ := ag.travel e he
      refine ⟨a, ?_, hd⟩
      rw [State.waitingAction_eq] at ha ⊢
      rw [hne _ (hmv e he), ha]
    · exact hs
  · intro i hi
    rw [hperm.mem_iff]
    by_cases hs : i = h.slot
    · subst hs
      have : t.handleOf h.slot = h := by unfold State.handleOf; rw [hgen]
      rw [this]
      exact .inl List.mem_cons_self
    · have hho : t.handleOf i = s.handleOf i := by unfold State.handleOf; rw [hslot i hs]
      rw [hslot i hs] at hi
      rw [hho]
      rcases ag.listed i hi with hm | hm
      · exact .inl (List.mem_cons_of_mem _ hm)
      · exact (List.mem_cons.mp hm).imp_left (fun e => by rw [e]; exact List.mem_cons_self)
  · intro x hx hm
    rcases List.mem_cons.mp (hperm.mem_iff.mp hm) with rfl | hm
    · exact hnotV hx
    · exact ag.out x (List.mem_cons_of_mem _ hx) hm
  · intro x hx
    have hxs := ag.hand x (List.mem_cons_of_mem _ hx)
    by_cases hs : x.slot = h.slot
    · have hg : x.gen ≠ h.gen := fun e => hnotV (Handle.ext_parts hs e ▸ hx)
      unfold State.holdingAction
      dsimp only
      rw [if_neg]
      rw [hs, hgen]
      exact fun e => hg e.symm
    · rw [← hxs]
      unfold State.holdingAction
      rw [hslot _ hs]

/-- A WAITING action's record is replaced: its due stays, or it is in hand. -/
theorem AgreeBut.rewaited {s : State} {h : Handle} {a b : Action} (ag : AgreeBut V s)
    (hw : s.waitingAction h = some a) (hb : h ∈ V ∨ b.due = a.due) : AgreeBut V (setWaiting h b s) := by
  have hl : (s.actionOf h).isSome := by rw [State.actionOf_iff.mpr (.inl hw)]; rfl
  have hslot : ∀ i, i ≠ h.slot → (setWaiting h b s).slot i = s.slot i := fun i hi => by
    rw [setWaiting_slot, if_neg hi]
  have hwb := setWaiting_waitingAction b hw
  have hother : ∀ x, x ∈ s.listedHandles → x ≠ h → (setWaiting h b s).slot x.slot = s.slot x.slot := fun x hx hxh =>
    hslot _ fun e => hxh (live_unique hl (ag.live hx) e)
  have hdue : h ∈ s.listedHandles → b.due = a.due := fun hm => hb.resolve_left (fun hv => ag.out h hv hm)
  have hstart : ∀ x (d : Due), x ∈ s.listedHandles → (∃ c, s.waitingAction x = some c ∧ c.due = d) →
      ∃ c, (setWaiting h b s).waitingAction x = some c ∧ c.due = d := by
    rintro x d hx ⟨c, hc, rfl⟩
    by_cases hxh : x = h
    · subst hxh
      rw [hw] at hc
      cases hc
      exact ⟨b, hwb, hdue hx⟩
    · refine ⟨c, ?_, rfl⟩
      rw [State.waitingAction_eq] at hc ⊢
      rw [hother x hx hxh, hc]
  have hmt : ∀ e ∈ s.sched.timeList, e.handle ∈ s.listedHandles := fun e he =>
    List.mem_append_left _ (List.mem_map_of_mem he)
  refine ⟨ag.once, fun e he hp => hstart _ _ (hmt e he) (ag.start e he hp), ?_,
    fun e he => hstart _ _ (List.mem_append_right _ (List.mem_map_of_mem he)) (ag.travel e he), ?_, ag.out, ?_, ag.nodup⟩
  · intro e he hp
    obtain ⟨c, hc⟩ := ag.finish e he hp
    refine ⟨c, ?_⟩
    rw [hother _ (hmt e he), hc]
    intro hx
    rw [hx, State.waitingAction_eq.mp hw] at hc
    cases hc
  · intro i hi
    have hho : (setWaiting h b s).handleOf i = s.handleOf i := by
      unfold State.handleOf
      rw [setWaiting_slot]
      split
      · rename_i e
        rw [e]
      · rfl
    rw [hho]
    by_cases hs : i = h.slot
    · rw [hs, handleOf_eq hl]
      have := ag.listed h.slot (by simpa using (actionOf_isSome.mp hl).2)
      rwa [handleOf_eq hl] at this
    · rw [hslot i hs] at hi
      exact ag.listed i hi
  · intro x hx
    cases hxb : (setWaiting h b s).holdingAction x with
    | none => rfl
    | some c =>
      have := (setWaiting_noNewHolder h b s).holding (b := x) (by rw [hxb]; rfl)
      rw [ag.hand x hx] at this
      cases this

theorem joinStart_listedHandles (h : Handle) (d : Due) (s : State) :
    (joinStart h d s).listedHandles.Perm (h :: s.listedHandles) := by
  cases d with
  | time t => exact ((fileBy_perm _ _ _).map TimeEntry.handle).append_right _
  | travel c => exact (((fileBy_perm _ _ _).map TravelEntry.handle).append_left _).trans List.perm_middle

theorem acceptStart_slot (h : Handle) (a : Action) (tick : Tick) (s : State) (i : SlotNo) :
    (acceptStart h a tick s).slot i =
      if i = h.slot then ⟨h.gen, .holding { a with fired := a.fired + 1 } (tick + a.width.setWidth 48)⟩ else s.slot i :=
  State.slot_putSlot _ _ _ _

theorem acceptStart_listedHandles (h : Handle) (a : Action) (tick : Tick) (s : State) :
    (acceptStart h a tick s).listedHandles.Perm (h :: s.listedHandles) :=
  ((fileBy_perm _ _ _).map TimeEntry.handle).append_right _

/-- A HOLDING action's record is replaced, its end as it was. -/
theorem AgreeBut.heldAgain {s : State} {h : Handle} {a : Action} {f : Tick} (ag : AgreeBut V s)
    (hh : s.slot h.slot = ⟨h.gen, .holding a f⟩) (b : Action) :
    AgreeBut V (s.putSlot h.slot ⟨h.gen, .holding b f⟩) := by
  have hslot : ∀ i, (s.putSlot h.slot ⟨h.gen, .holding b f⟩).slot i = if i = h.slot then ⟨h.gen, .holding b f⟩ else s.slot i :=
    fun i => State.slot_putSlot _ _ _ _
  have hw : ∀ x, (s.putSlot h.slot ⟨h.gen, .holding b f⟩).waitingAction x = s.waitingAction x := by
    intro x
    unfold State.waitingAction
    rw [hslot]
    split
    · rename_i e
      rw [e, hh]
    · rfl
  refine ⟨ag.once, fun e he hp => ?_, fun e he hp => ?_, fun e he => ?_, fun i hi => ?_, ag.out, fun x hx => ?_, ag.nodup⟩
  · rw [hw]
    exact ag.start e he hp
  · obtain ⟨c, hc⟩ := ag.finish e he hp
    rw [hslot]
    split
    · rename_i i
      rw [i, hh] at hc
      injection hc with hg hst
      injection hst with _ hf
      exact ⟨b, by rw [hg, hf]⟩
    · exact ⟨c, hc⟩
  · rw [hw]
    exact ag.travel e he
  · have hho : (s.putSlot h.slot ⟨h.gen, .holding b f⟩).handleOf i = s.handleOf i := by
      unfold State.handleOf
      rw [hslot]
      split
      · rename_i e
        rw [e, hh]
      · rfl
    rw [hho]
    refine ag.listed i ?_
    by_cases hi' : i = h.slot
    · rw [hi', hh]
      rfl
    · rwa [hslot, if_neg hi'] at hi
  · have hx' := ag.hand x hx
    unfold State.holdingAction at hx' ⊢
    rw [hslot]
    split
    · rename_i e
      rw [e, hh] at hx'
      by_cases hg : h.gen = x.gen
      · simp [hg] at hx'
      · simp [hg]
    · exact hx'

/-- Every move keeps the agreement. -/
theorem Move.agree {J w} {c d : Config} (m : Move k J w c d) (ag : AgreeBut c.1 c.2) : AgreeBut d.1 d.2 := by
  cases m with
  | notes n => exact ag.congr n.sched
  | strike _ => exact .of_emptied (enterFaulted_emptied _) ag.nodup
  | drained _ => exact ag.congr rfl
  | @take V s h a hw hv =>
    have hslot := State.waitingAction_eq.mp hw
    refine ag.removed (by rw [State.actionOf_iff.mpr (.inl hw)]; rfl) rfl rfl (fun _ _ => rfl)
      (show (s.slot h.slot).gen = _ by rw [hslot]) (Slot.notHolding_of_waiting hw)
      (fun x hx => List.mem_cons_of_mem _ hx) (fun x hx => List.mem_cons.mp hx)
      (List.nodup_cons.mpr ⟨hv, ag.nodup⟩) (fun _ => List.mem_cons_self)
  | rewait hw _ hd _ => exact ag.rewaited hw (.inr hd)
  | pass hv hw _ _ => exact ag.rewaited hw (.inl hv)
  | @finish V s l b a n hb _ _ =>
    obtain ⟨f, hf⟩ := State.holdingAction_eq.mp hb
    have hv : b ∉ V := fun hv => by
      rw [ag.hand b hv] at hb
      cases hb
    have hslot : (setWaiting b (a.nextWith n) (release l b (removeEntry b s))).slot b.slot = ⟨b.gen, .waiting (a.nextWith n)⟩ := by
      rw [setWaiting_slot, if_pos rfl, show ((release l b (removeEntry b s)).slot b.slot) = _ from hf]
    refine ag.removed (by rw [State.actionOf_iff.mpr (.inr hb)]; rfl) rfl rfl (fun i hi => ?_) (by rw [hslot])
      (Slot.notHolding_of_waiting (State.waitingAction_eq.mpr hslot))
      (fun x hx => List.mem_cons_of_mem _ hx) (fun x hx => List.mem_cons.mp hx)
      (List.nodup_cons.mpr ⟨hv, ag.nodup⟩) (fun _ => List.mem_cons_self)
    rw [setWaiting_slot, if_neg hi]
    rfl
  | @file V s h a hw _ =>
    have hslot := State.waitingAction_eq.mp hw
    have hw' : (joinStart h a.due s).waitingAction h = some a := by
      rw [State.waitingAction_eq, joinStart_slot, hslot]
    refine ag.joined (by rw [State.actionOf_iff.mpr (.inl hw)]; rfl) (fun i _ => joinStart_slot _ _ _ _)
      (by rw [joinStart_slot, hslot]) (joinStart_listedHandles _ _ _) (fun e he => ?_) (fun e he => ?_)
    · cases hd : a.due with
      | time t =>
        rw [hd] at he
        rcases (mem_fileBy _ _ _ _).mp he with rfl | he
        · exact .inr ⟨rfl, fun _ => ⟨a, hd ▸ hw', hd⟩, fun c => nomatch c⟩
        · exact .inl he
      | travel c => rw [hd] at he; exact .inl he
    · cases hd : a.due with
      | time t => rw [hd] at he; exact .inl he
      | travel c =>
        rw [hd] at he
        rcases (mem_fileBy _ _ _ _).mp he with rfl | he
        · exact .inr ⟨rfl, a, hd ▸ hw', hd⟩
        · exact .inl he
  | @accept V s h a tick hw _ _ _ =>
    refine ag.joined (by rw [State.actionOf_iff.mpr (.inl hw)]; rfl)
      (fun i hi => by rw [acceptStart_slot, if_neg hi]) (by rw [acceptStart_slot, if_pos rfl])
      (acceptStart_listedHandles _ _ _ _) (fun e he => ?_) (fun e he => .inl he)
    rcases (mem_fileBy _ _ _ _).mp he with rfl | he
    · exact .inr ⟨rfl, fun c => (nomatch c), fun _ => ⟨_, by rw [acceptStart_slot, if_pos rfl]⟩⟩
    · exact .inl he
  | @free V s h a ha _ =>
    exact ag.removed (by rw [ha]; rfl) rfl rfl (fun i hi => by rw [vacate_slot, if_neg hi])
      (by rw [vacate_slot, if_pos rfl]; exact (actionOf_some ha).2.2.1)
      (by rw [vacate_slot, if_pos rfl]; exact Slot.notHolding_of_isFree rfl) (fun _ => id) (fun _ => .inr) ag.nodup
      (fun c => by rw [vacate_slot, if_pos rfl] at c; cases c)
  | @freeHeld V s l h a ha _ =>
    have hl := State.actionOf_iff.mpr (.inr ha)
    exact ag.removed (by rw [hl]; rfl) rfl rfl (fun i hi => by rw [vacate_slot, if_neg hi]; rfl)
      (by rw [vacate_slot, if_pos rfl]; exact (actionOf_some hl).2.2.1)
      (by rw [vacate_slot, if_pos rfl]; exact Slot.notHolding_of_isFree rfl) (fun _ => id) (fun _ => .inr) ag.nodup
      (fun c => by rw [vacate_slot, if_pos rfl] at c; cases c)
  | leave _ => exact ag.congr rfl
  | @drop V s h hn =>
    refine ⟨ag.once, ag.start, ag.finish, ag.travel, fun i hi => ?_, fun x hx => ag.out x (List.mem_cons_of_mem _ hx),
      fun x hx => ag.hand x (List.mem_cons_of_mem _ hx), (List.nodup_cons.mp ag.nodup).2⟩
    refine (ag.listed i hi).imp_right fun hm => (List.mem_cons.mp hm).resolve_left ?_
    rintro rfl
    have : (s.actionOf (s.handleOf i)).isSome := actionOf_isSome.mpr ⟨rfl, hi⟩
    rw [hn] at this
    cases this
  | @giveUp V s a e h hh => exact ag.heldAgain hh _

theorem Work.agree {J w} {c d : Config} (h : Work k J w c d) (ag : AgreeBut c.1 c.2) : AgreeBut d.1 d.2 := by
  induction h with
  | done => exact ag
  | step m _ ih => exact ih (m.agree ag)

/-! ## FAULTED at rest (R47) -/

/-- What is in use shows that the part is not in FAULTED. -/
theorem FaultedAtRest.of_live {s t : State} (h : FaultedAtRest s) {x : Handle} (hx : (s.actionOf x).isSome)
    (hr : t.run.state = s.run.state) : FaultedAtRest t := by
  intro hf
  rw [hr] at hf
  have := (h hf).1 x.slot
  rw [(actionOf_isSome.mp hx).2] at this
  cases this

theorem FaultedAtRest.congr {s t : State} (h : FaultedAtRest s) (hs : t.sched = s.sched) (ho : t.outputs = s.outputs)
    (hr : t.run.state = s.run.state) : FaultedAtRest t := by
  intro hf
  simp only [State.slot, State.output, hs, ho]
  exact h (hr ▸ hf)

theorem FaultedAtRest.of_not {s : State} (h : s.run.state ≠ .faulted) : FaultedAtRest s := fun hf => absurd hf h

theorem enterFaulted_atRest (s : State) : FaultedAtRest (enterFaulted s) := by
  intro _
  obtain ⟨hf, ht, hv⟩ := enterFaulted_emptied s
  exact ⟨hf, ht, hv, fun l => by rw [enterFaulted_output]; exact ⟨rfl, rfl⟩⟩

theorem OnlyNotes.faultedAtRest {s t : State} (n : OnlyNotes s t) (h : FaultedAtRest s) : FaultedAtRest t :=
  h.congr n.sched n.outputs (by rw [n.run])

theorem joinStart_run (h : Handle) (d : Due) (s : State) : (joinStart h d s).run = s.run := by
  cases d <;> rfl

/-- Every move keeps FAULTED at rest: what works on an action in use does not happen in FAULTED. -/
theorem Move.faultedAtRest {J w} {c d : Config} (m : Move k J w c d) (h : FaultedAtRest c.2) : FaultedAtRest d.2 := by
  have hlive : ∀ {s : State} {x : Handle} {a : Action}, s.actionOf x = some a → (s.actionOf x).isSome :=
    fun hx => by rw [hx]; rfl
  cases m with
  | notes n => exact n.faultedAtRest h
  | strike _ => exact enterFaulted_atRest _
  | drained _ => exact .of_not (by simp)
  | take hw _ => exact h.of_live (hlive (State.actionOf_iff.mpr (.inl hw))) rfl
  | rewait hw _ _ _ => exact h.of_live (hlive (State.actionOf_iff.mpr (.inl hw))) rfl
  | pass _ hw _ _ => exact h.of_live (hlive (State.actionOf_iff.mpr (.inl hw))) rfl
  | finish hb _ _ => exact h.of_live (hlive (State.actionOf_iff.mpr (.inr hb))) rfl
  | file hw _ => exact h.of_live (hlive (State.actionOf_iff.mpr (.inl hw))) (by rw [joinStart_run])
  | accept hw _ _ _ => exact h.of_live (hlive (State.actionOf_iff.mpr (.inl hw))) rfl
  | free ha _ => exact h.of_live (hlive ha) rfl
  | freeHeld ha _ => exact h.of_live (hlive (State.actionOf_iff.mpr (.inr ha))) rfl
  | @leave V s l b _ =>
    intro hf
    obtain ⟨h1, h2, h3, h4⟩ := h hf
    refine ⟨h1, h2, h3, fun m => ?_⟩
    unfold release
    by_cases hm : m = l
    · subst hm
      rw [State.output_putOutput_self, (h4 m).1]
      exact ⟨rfl, (h4 m).2⟩
    · rw [State.output_putOutput_ne _ _ _ _ hm]
      exact h4 m
  | drop _ => exact h
  | giveUp hh => exact h.of_live (hlive (State.actionOf_iff.mpr (.inr (State.holdingAction_eq.mpr ⟨_, hh⟩)))) rfl

theorem Work.faultedAtRest {J w} {c d : Config} (h : Work k J w c d) (hr : FaultedAtRest c.2) : FaultedAtRest d.2 := by
  induction h with
  | done => exact hr
  | step m _ ih => exact ih (m.faultedAtRest hr)

/-! ## The holders of a line are held (R29) -/

theorem HoldersHeld.congr {s t : State} (h : HoldersHeld s) (hs : ∀ b, t.holdingAction b = s.holdingAction b)
    (ho : t.outputs = s.outputs) : HoldersHeld t := by
  refine ⟨fun l b hb => ?_, fun l => ?_⟩
  · rw [hs]
    exact h.held l b (by simpa only [State.output, ho] using hb)
  · simpa only [State.output, ho] using h.single l

/-- With no holders, none is to be held. -/
theorem HoldersHeld.of_empty {s : State} (h : ∀ l, (s.output l).holders = []) : HoldersHeld s :=
  ⟨fun l b hb => by simp [h] at hb, fun l _ => by simp [h]⟩

/-- Holders leave and the other HOLDING actions stay what they are. -/
theorem HoldersHeld.fewer {s t : State} (h : HoldersHeld s)
    (hp : ∀ l, (t.output l).policy = (s.output l).policy)
    (hsub : ∀ l, (t.output l).holders.Sublist (s.output l).holders)
    (hs : ∀ l b a, b ∈ (t.output l).holders → s.holdingAction b = some a → a.line = l →
      ∃ a', t.holdingAction b = some a' ∧ a'.line = l) : HoldersHeld t := by
  refine ⟨fun l b hb => ?_, fun l hl => ?_⟩
  · obtain ⟨a, ha, hal⟩ := h.held l b ((hsub l).subset hb)
    exact hs l b a hb ha hal
  · exact (hsub l).length_le.trans (h.single l (by rwa [← hp]))

theorem holdingAction_of_slot_eq {s t : State} {b : Handle} (h : t.slot b.slot = s.slot b.slot) :
    t.holdingAction b = s.holdingAction b := by
  unfold State.holdingAction
  rw [h]

theorem release_output (l : OutLine) (h : Handle) (s : State) (m : OutLine) :
    (release l h s).output m = if m = l then { s.output l with holders := (s.output l).holders.filter (fun x => x ≠ h) }
      else s.output m := by
  unfold release
  split
  · rename_i e
    rw [e, State.output_putOutput_self]
  · rename_i e
    rw [State.output_putOutput_ne _ _ _ _ e]

/-- A HOLDING action leaves its line and its slot. -/
theorem HoldersHeld.released {s t : State} {l : OutLine} {b : Handle} {a : Action} (h : HoldersHeld s)
    (hb : s.holdingAction b = some a) (hl : a.line = l)
    (hout : ∀ m, t.output m = (release l b s).output m) (hslot : ∀ i, i ≠ b.slot → t.slot i = s.slot i) :
    HoldersHeld t := by
  refine h.fewer (fun m => ?_) (fun m => ?_) (fun m x c hx hc hcl => ?_)
  · rw [hout, release_output]
    split
    · rename_i e
      rw [e]
    · rfl
  · rw [hout, release_output]
    split
    · rename_i e
      rw [e]
      exact List.filter_sublist
    · exact .refl _
  · have hne : x.slot ≠ b.slot := by
      intro e
      have hxb : x = b := live_unique (s := s) (by rw [State.actionOf_iff.mpr (.inr hb)]; rfl)
        (by rw [State.actionOf_iff.mpr (.inr hc)]; rfl) e
      subst hxb
      rw [hc] at hb
      cases hb
      rw [hout, release_output, if_pos (hcl.symm.trans hl)] at hx
      simp at hx
    exact ⟨c, by rw [holdingAction_of_slot_eq (hslot _ hne), hc], hcl⟩

/-- A slot that does not hold is replaced. -/
theorem HoldersHeld.slotReplaced {s t : State} {i : SlotNo} (h : HoldersHeld s) (hi : (s.slot i).notHolding)
    (hout : t.outputs = s.outputs) (hslot : ∀ j, j ≠ i → t.slot j = s.slot j) : HoldersHeld t := by
  have ho : ∀ m, t.output m = s.output m := fun m => by simp only [State.output, hout]
  refine h.fewer (fun m => by rw [ho]) (fun m => by rw [ho]) (fun m x c _ hc hcl => ⟨c, ?_, hcl⟩)
  have hne : x.slot ≠ i := by
    rintro rfl
    obtain ⟨f, hf⟩ := State.holdingAction_eq.mp hc
    exact hi c f (by rw [hf])
  rw [holdingAction_of_slot_eq (hslot _ hne), hc]

/-- Every move keeps the holders held, where its premises on lines are known. -/
theorem Move.holdersHeld {J w} {c d : Config} (m : Move k J w c d) (hk : k) (h : HoldersHeld c.2) :
    HoldersHeld d.2 := by
  cases m with
  | notes n => exact n.holdersHeld h
  | strike _ => exact .of_empty fun l => by rw [enterFaulted_output]
  | drained _ => exact h.congr (fun _ => rfl) rfl
  | take _ _ => exact h.congr (fun _ => rfl) rfl
  | rewait hw _ _ _ =>
    exact h.slotReplaced (Slot.notHolding_of_waiting hw) rfl fun j hj => by rw [setWaiting_slot, if_neg hj]
  | pass _ hw _ _ =>
    exact h.slotReplaced (Slot.notHolding_of_waiting hw) rfl fun j hj => by rw [setWaiting_slot, if_neg hj]
  | finish hb hl _ =>
    exact h.released hb (hl hk) (fun _ => rfl) fun i hi => by rw [setWaiting_slot, if_neg hi]; rfl
  | file _ _ =>
    exact h.congr (fun b => holdingAction_of_slot_eq (joinStart_slot _ _ _ _)) (joinStart_outputs _ _ _)
  | @accept V s x a tick hw _ _ ho =>
    have hout : ∀ m, (acceptStart x a tick s).output m = if m = a.line then
        { s.output a.line with holders := (s.output a.line).holders ++ [x] } else s.output m := by
      intro m
      show ((s.putOutput a.line _).output m) = _
      split
      · rename_i e
        rw [e, State.output_putOutput_self]
      · rename_i e
        rw [State.output_putOutput_ne _ _ _ _ e]
    have hold : ∀ l b, b ∈ (s.output l).holders → ∃ a', (acceptStart x a tick s).holdingAction b = some a' ∧ a'.line = l := by
      intro l b hb
      obtain ⟨c, hc, hcl⟩ := h.held l b hb
      refine ⟨c, ?_, hcl⟩
      rw [holdingAction_of_slot_eq, hc]
      rw [acceptStart_slot, if_neg]
      intro e
      have hbx : b = x := live_unique (s := s) (by rw [State.actionOf_iff.mpr (.inl hw)]; rfl)
        (by rw [State.actionOf_iff.mpr (.inr hc)]; rfl) e
      subst hbx
      rw [(waiting_of_slot (State.waitingAction_eq.mp hw)).2.1] at hc
      cases hc
    refine ⟨fun l b hb => ?_, fun l hl => ?_⟩
    · rw [hout] at hb
      split at hb
      · rename_i e
        subst e
        rcases List.mem_append.mp hb with hb | hb
        · exact hold _ b hb
        · rw [List.mem_singleton] at hb
          subst hb
          exact ⟨{ a with fired := a.fired + 1 }, State.holdingAction_eq.mpr ⟨_, by rw [acceptStart_slot, if_pos rfl]⟩, rfl⟩
      · exact hold l b hb
    · rw [hout] at hl ⊢
      split
      · rename_i e
        rcases ho hk with ho | ho
        · simp [ho]
        · rw [if_pos e] at hl
          exact absurd ho hl
      · rename_i e
        rw [if_neg e] at hl
        exact h.single l hl
  | @free V s x a ha hn =>
    have hnot : (s.slot x.slot).notHolding := by
      intro b f e
      have hg := (actionOf_some ha).2.2.1
      have : s.holdingAction x = some b := State.holdingAction_eq.mpr ⟨f, by
        rcases hx : s.slot x.slot with ⟨g, st⟩
        rw [hx] at hg e
        rw [← hg, ← e]⟩
      rw [hn hk] at this
      cases this
    exact h.slotReplaced hnot rfl fun j hj => by rw [vacate_slot, if_neg hj]
  | freeHeld ha hl =>
    exact h.released ha (hl hk) (fun _ => rfl) fun i hi => by rw [vacate_slot, if_neg hi]; rfl
  | @leave V s l b hb =>
    refine h.fewer (fun m => ?_) (fun m => ?_) (fun m x c _ hc hcl => ⟨c, hc, hcl⟩)
    · rw [release_output]
      split
      · rename_i e
        rw [e]
      · rfl
    · rw [release_output]
      split
      · rename_i e
        rw [e]
        exact List.filter_sublist
      · exact .refl _
  | drop _ => exact h
  | @giveUp V s a e x hh =>
    refine h.fewer (fun m => rfl) (fun m => .refl _) (fun m b c _ hc hcl => ?_)
    by_cases hb : b.slot = x.slot
    · obtain rfl : b = x := live_unique (s := s)
        (by rw [State.actionOf_iff.mpr (.inr (State.holdingAction_eq.mpr ⟨_, hh⟩))]; rfl)
        (by rw [State.actionOf_iff.mpr (.inr hc)]; rfl) hb
      rw [(holding_of_slot hh).2.1] at hc
      cases hc
      exact ⟨_, State.holdingAction_eq.mpr ⟨e, State.slot_putSlot_self _ _ _⟩, hcl⟩
    · exact ⟨c, by rw [holdingAction_of_slot_eq (State.slot_putSlot_ne _ _ _ _ hb), hc], hcl⟩

theorem Work.holdersHeld {J w} {c d : Config} (h : Work k J w c d) (hk : k) (hh : HoldersHeld c.2) :
    HoldersHeld d.2 := by
  induction h with
  | done => exact hh
  | step m _ ih => exact ih (m.holdersHeld hk hh)

end Sys2Proof.Machine
end

