-- ==== Sys2Proof/Proofs/Order.lean ====
section
/-! PROOFS. Every move keeps the dues and the ends of the pool in time, and both lists in the order of their keys (R5, R6):
the bounds that keep keys apart by less than the span of their comparison. -/

namespace Sys2Proof.Machine

variable {k : Prop} {V : List Handle}

/-! ## Filing into a list in order -/

/-- What is filed ahead of the first entry it stands before stands in order. -/
theorem fileBy_pairwise {α : Type} {before : α → α → Bool} {R : α → α → Prop} {x : α} {l : List α}
    (hl : l.Pairwise R) (hb : ∀ y ∈ l, before x y = true → R x y) (hn : ∀ y ∈ l, before x y = false → R y x)
    (ht : ∀ y ∈ l, ∀ z ∈ l, before x y = true → R y z → R x z) : (fileBy before x l).Pairwise R := by
  induction l with
  | nil => simp [fileBy]
  | cons y ys ih =>
    obtain ⟨hy, hys⟩ := List.pairwise_cons.mp hl
    unfold fileBy
    split
    · rename_i hxy
      refine List.pairwise_cons.mpr ⟨fun z hz => ?_, hl⟩
      rcases List.mem_cons.mp hz with rfl | hz'
      · exact hb _ hz hxy
      · exact ht y List.mem_cons_self z hz hxy (hy z hz')
    · rename_i hxy
      refine List.pairwise_cons.mpr ⟨fun z hz => ?_, ih hys (fun z hz => hb z (List.mem_cons_of_mem _ hz))
        (fun z hz => hn z (List.mem_cons_of_mem _ hz))
        (fun z hz u hu => ht z (List.mem_cons_of_mem _ hz) u (List.mem_cons_of_mem _ hu))⟩
      rcases (mem_fileBy _ _ _ _).mp hz with rfl | hz
      · exact hn y List.mem_cons_self (by simpa using hxy)
      · exact hy z hz

/-! ## Keys within a window of now -/

/-- A key that R5 can hold: less than 2^40 ticks ahead, or behind by no more than lateness can leave it. -/
def keyInTime (now key : Tick) : Prop := (key - now).toNat < 2 ^ 40 ∨ (now - key).toNat ≤ 2 ^ 41 + 2 ^ 10

/-- The place of a key in the order around now. -/
def keyRank (now key : Tick) : Nat := (key - now + 0x40000000000).toNat

theorem keyRank_inj {now a b : Tick} : keyRank now a = keyRank now b ↔ a = b := by
  constructor
  · intro h
    have := BitVec.eq_of_toNat_eq h
    simpa using this
  · rintro rfl
    rfl

/-- Within the window keys compare by their place. -/
theorem key_sub_lt {now a b : Tick} (ha : keyInTime now a) (hb : keyInTime now b) :
    (b - a).toNat < 2 ^ 47 ↔ keyRank now a ≤ keyRank now b := by
  unfold keyInTime keyRank at *
  bv_omega

theorem TimeEntry.inOrder_iff {now : Tick} {a b : TimeEntry} (ha : keyInTime now a.key) (hb : keyInTime now b.key) :
    a.inOrder b ↔ keyRank now a.key < keyRank now b.key
      ∨ a.key = b.key ∧ (a.phase = .finish ∨ b.phase = .start) := by
  unfold TimeEntry.inOrder
  split
  · rename_i h
    simp [h]
  · rename_i h
    have hne : keyRank now a.key ≠ keyRank now b.key := fun e => h (keyRank_inj.mp e)
    rw [key_sub_lt ha hb]
    simp only [h, false_and, or_false]
    omega

theorem TimeEntry.before_iff {now : Tick} {a b : TimeEntry} (ha : keyInTime now a.key) (hb : keyInTime now b.key) :
    a.before b = true ↔ keyRank now a.key < keyRank now b.key
      ∨ a.key = b.key ∧ (a.phase = .finish ∧ b.phase = .start
        ∨ a.phase = b.phase ∧ serialEarlier a.serial b.serial = true) := by
  unfold TimeEntry.before
  split
  · rename_i h
    cases a.phase <;> cases b.phase <;> simp [h]
  · rename_i h
    have hne : keyRank now a.key ≠ keyRank now b.key := fun e => h (keyRank_inj.mp e)
    rw [decide_eq_true_iff, key_sub_lt ha hb]
    simp only [h, false_and, or_false]
    omega

theorem TimeEntry.inOrder_of_before {now : Tick} {a b : TimeEntry} (ha : keyInTime now a.key) (hb : keyInTime now b.key)
    (h : a.before b = true) : a.inOrder b := by
  rw [TimeEntry.before_iff ha hb] at h
  rw [TimeEntry.inOrder_iff ha hb]
  refine h.imp_right fun ⟨hk, h⟩ => ⟨hk, ?_⟩
  rcases h with ⟨h, -⟩ | ⟨h, -⟩
  · exact .inl h
  · cases hp : a.phase
    · exact .inr (h ▸ hp)
    · exact .inl rfl

theorem TimeEntry.inOrder_of_not_before {now : Tick} {a b : TimeEntry} (ha : keyInTime now a.key)
    (hb : keyInTime now b.key) (h : a.before b = false) : b.inOrder a := by
  have h' : ¬ a.before b = true := by simp [h]
  rw [TimeEntry.before_iff ha hb] at h'
  rw [TimeEntry.inOrder_iff hb ha]
  by_cases hk : a.key = b.key
  · right
    refine ⟨hk.symm, ?_⟩
    cases hap : a.phase <;> cases hbp : b.phase <;> simp_all
  · have : keyRank now a.key ≠ keyRank now b.key := fun e => hk (keyRank_inj.mp e)
    left
    omega

theorem TimeEntry.inOrder_trans_before {now : Tick} {a b c : TimeEntry} (ha : keyInTime now a.key)
    (hb : keyInTime now b.key) (hc : keyInTime now c.key) (h : a.before b = true) (hr : b.inOrder c) : a.inOrder c := by
  rw [TimeEntry.before_iff ha hb] at h
  rw [TimeEntry.inOrder_iff hb hc] at hr
  rw [TimeEntry.inOrder_iff ha hc]
  rcases h with h | ⟨hk, h⟩
  · rcases hr with hr | ⟨hk, hr⟩
    · left; omega
    · left; rwa [← hk]
  · rw [hk]
    refine hr.imp_right fun ⟨hk', hr⟩ => ⟨hk', ?_⟩
    rcases h with ⟨h, -⟩ | ⟨h, -⟩
    · exact .inl h
    · rwa [h]

/-- An entry filed into an ordered time list leaves it ordered. -/
theorem fileBy_timeOrdered {now : Tick} {x : TimeEntry} {l : List TimeEntry} (hx : keyInTime now x.key)
    (hw : ∀ y ∈ l, keyInTime now y.key) (hl : l.Pairwise TimeEntry.inOrder) :
    (fileBy TimeEntry.before x l).Pairwise TimeEntry.inOrder :=
  fileBy_pairwise hl (fun y hy => TimeEntry.inOrder_of_before hx (hw y hy))
    (fun y hy => TimeEntry.inOrder_of_not_before hx (hw y hy))
    (fun y hy z hz => TimeEntry.inOrder_trans_before hx (hw y hy) (hw z hz))

/-- Near keys compare by their distance. -/
theorem count_sub_lt {c a b : Count} (ha : (a - c).toNat < 2 ^ 30) (hb : (b - c).toNat < 2 ^ 30) :
    (b - a).toNat < 2 ^ 31 ↔ (a - c).toNat ≤ (b - c).toNat := by
  bv_omega

theorem count_sub_inj {c a b : Count} : (a - c).toNat = (b - c).toNat ↔ a = b := by
  constructor
  · intro h
    have := BitVec.eq_of_toNat_eq h
    simpa using this
  · rintro rfl
    rfl

theorem TravelEntry.inOrder_iff {c : Count} {a b : TravelEntry} (ha : (a.key - c).toNat < 2 ^ 30)
    (hb : (b.key - c).toNat < 2 ^ 30) : a.inOrder b ↔ (a.key - c).toNat ≤ (b.key - c).toNat := by
  unfold TravelEntry.inOrder
  rw [count_sub_lt ha hb, ← count_sub_inj (c := c)]
  omega

theorem TravelEntry.before_iff {c : Count} {a b : TravelEntry} (ha : (a.key - c).toNat < 2 ^ 30)
    (hb : (b.key - c).toNat < 2 ^ 30) : a.before b = true ↔ (a.key - c).toNat < (b.key - c).toNat
      ∨ a.key = b.key ∧ serialEarlier a.serial b.serial = true := by
  unfold TravelEntry.before
  split
  · rename_i h
    simp [h]
  · rename_i h
    have hne : (a.key - c).toNat ≠ (b.key - c).toNat := fun e => h (count_sub_inj.mp e)
    rw [decide_eq_true_iff, count_sub_lt ha hb]
    simp only [h, false_and, or_false]
    omega

/-- An entry filed into an ordered travel list leaves it ordered. -/
theorem fileBy_travelOrdered {c : Count} {x : TravelEntry} {l : List TravelEntry} (hx : (x.key - c).toNat < 2 ^ 30)
    (hw : ∀ y ∈ l, (y.key - c).toNat < 2 ^ 30) (hl : l.Pairwise TravelEntry.inOrder) :
    (fileBy TravelEntry.before x l).Pairwise TravelEntry.inOrder := by
  refine fileBy_pairwise hl (fun y hy hb => ?_) (fun y hy hb => ?_) (fun y hy z hz hb hr => ?_)
  · rw [TravelEntry.before_iff hx (hw y hy)] at hb
    rw [TravelEntry.inOrder_iff hx (hw y hy)]
    rcases hb with hb | ⟨hb, -⟩
    · omega
    · rw [hb]
  · have hb' : ¬ x.before y = true := by simp [hb]
    rw [TravelEntry.before_iff hx (hw y hy)] at hb'
    rw [TravelEntry.inOrder_iff (hw y hy) hx]
    omega
  · rw [TravelEntry.before_iff hx (hw y hy)] at hb
    rw [TravelEntry.inOrder_iff (hw y hy) (hw z hz)] at hr
    rw [TravelEntry.inOrder_iff hx (hw z hz)]
    rcases hb with hb | ⟨hb, -⟩
    · omega
    · rw [hb]
      exact hr

theorem fileBy_filter_out {α : Type} {before : α → α → Bool} {p : α → Bool} {x : α} {l : List α} (hx : p x = false)
    (hl : ∀ y ∈ l, p y = true) : (fileBy before x l).filter p = l := by
  induction l with
  | nil => simp [fileBy, hx]
  | cons y ys ih =>
    have hy := hl y List.mem_cons_self
    unfold fileBy
    split
    · rw [List.filter_cons_of_neg (by simp [hx]), List.filter_eq_self.mpr hl]
    · rw [List.filter_cons_of_pos hy, ih fun z hz => hl z (List.mem_cons_of_mem _ hz)]

/-- An entry filed into a travel list that is near and ordered leaves what is near ordered. -/
theorem fileBy_near_travelOrdered {c : Count} {x : TravelEntry} {l : List TravelEntry}
    (hw : ∀ y ∈ l, decide ((y.key - c).toNat < 2 ^ 30) = true) (hl : l.Pairwise TravelEntry.inOrder) :
    ((fileBy TravelEntry.before x l).filter (fun e => decide ((e.key - c).toNat < 2 ^ 30))).Pairwise
      TravelEntry.inOrder := by
  by_cases hx : (x.key - c).toNat < 2 ^ 30
  · rw [List.filter_eq_self.mpr]
    · exact fileBy_travelOrdered hx (fun y hy => of_decide_eq_true (hw y hy)) hl
    · intro y hy
      rcases (mem_fileBy _ _ _ _).mp hy with rfl | hy
      · simpa using hx
      · exact hw y hy
  · rw [fileBy_filter_out (by simpa using hx) hw]
    exact hl

/-! ## Dues and ends in time -/

/-- A due of base TIME with `left` repeats left is ahead, or behind by what `left` repeats less than all can have added. -/
def dueInTime (now : Tick) (left : Nat) (t : Tick) : Prop :=
  (t - now).toNat < 2 ^ 40 ∨ (now - t).toNat + (left + 1) * 2 ^ 25 ≤ 2 ^ 41 + 2 ^ 10

/-- An end is at most a width ahead, or at most a filter width behind. -/
def endInTime (now f : Tick) : Prop := (f - now).toNat < 2 ^ 24 ∨ (now - f).toNat ≤ 1023

/-- The action of a slot is in time. -/
def Slot.inTime (now : Tick) (x : Slot) : Prop :=
  match x.state with
  | .free => True
  | .waiting a => a.repeatsLeft ≤ 255 ∧ ∀ t, a.due = .time t → dueInTime now a.repeatsLeft t
  | .holding a f => a.repeatsLeft ≤ 255 ∧ endInTime now f
      ∧ ∀ t, a.due = .time t → (f - t).toNat + a.repeatsLeft * 2 ^ 25 ≤ 2 ^ 41

theorem dueInTime.key {now t : Tick} {left : Nat} (h : dueInTime now left t) : keyInTime now t := by
  unfold dueInTime at h
  unfold keyInTime
  omega

theorem endInTime.key {now f : Tick} (h : endInTime now f) : keyInTime now f := by
  unfold endInTime at h
  unfold keyInTime
  omega

theorem dueInTime.fewer {now t : Tick} {n m : Nat} (h : dueInTime now n t) (hm : m ≤ n) : dueInTime now m t := by
  have hle : (m + 1) * 2 ^ 25 ≤ (n + 1) * 2 ^ 25 := Nat.mul_le_mul_right _ (by omega)
  exact h.imp_right fun h => (Nat.add_le_add_left hle _).trans h

theorem not_tickAhead {now t : Tick} (h : tickAhead now t = false) :
    (t - now).toNat = 0 ∨ 2 ^ 40 ≤ (t - now).toNat := by
  unfold tickAhead Config.tickWindow at h
  by_contra hc
  have h1 : 0 < (t - now).toNat ∧ (t - now).toNat < 2 ^ 40 := by omega
  rw [decide_eq_true h1.1, decide_eq_true h1.2] at h
  cases h

/-- The next due after one that is not ahead. -/
theorem dueInTime.next {now t iv : Tick} {n : Nat} (h : dueInTime now (n + 1) t) (ha : tickAhead now t = false)
    (hi : iv.toNat < 2 ^ 32) : dueInTime now n (t + iv) := by
  have ha' := not_tickAhead ha
  unfold dueInTime at *
  rw [show (n + 1 + 1) * 2 ^ 25 = (n + 1) * 2 ^ 25 + 2 ^ 25 by ring] at h
  generalize (n + 1) * 2 ^ 25 = m at *
  bv_omega

/-- The next due of an action whose end is in time. -/
theorem dueInTime.ofEnd {now f t iv : Tick} {n : Nat} (h : endInTime now f)
    (hl : (f - t).toNat + (n + 1) * 2 ^ 25 ≤ 2 ^ 41) (hi : iv.toNat < 2 ^ 32) :
    dueInTime now n (t + iv) := by
  unfold dueInTime endInTime at *
  bv_omega

/-- The end of an action started within a filter width of now. -/
theorem endInTime.ofTick {now tick w : Tick} (h : (now - tick).toNat ≤ 1023) (hw : w.toNat < 2 ^ 24) :
    endInTime now (tick + w) := by
  unfold endInTime
  bv_omega

/-- The end of an action started now is not far behind its due. -/
theorem lag_of_start {now t w : Tick} {n : Nat} (h : dueInTime now n t) (ha : tickAhead now t = false)
    (hw : w.toNat < 2 ^ 24) (hn : n ≤ 255) : (now + w - t).toNat + n * 2 ^ 25 ≤ 2 ^ 41 := by
  have ha' := not_tickAhead ha
  unfold dueInTime at h
  bv_omega

/-! ## The order that every move keeps -/

/-- Dues and ends are in time, and both lists in order; of the travel list what is not out of reach, which is started before
anything else is filed. -/
structure Timely (s : State) : Prop where
  slots : ∀ i, (s.slot i).inTime s.now
  time : s.sched.timeList.Pairwise TimeEntry.inOrder
  travel : (s.sched.travelList.filter (fun e => s.countNear e.key)).Pairwise TravelEntry.inOrder

theorem Timely.waiting {s : State} (h : Timely s) {x : Handle} {a : Action} (hw : s.waitingAction x = some a) :
    a.repeatsLeft ≤ 255 ∧ ∀ t, a.due = .time t → dueInTime s.now a.repeatsLeft t := by
  have := h.slots x.slot
  rw [State.waitingAction_eq.mp hw] at this
  exact this

theorem Timely.holding {s : State} (h : Timely s) {x : Handle} {a : Action} {f : Tick}
    (hs : s.slot x.slot = ⟨x.gen, .holding a f⟩) : a.repeatsLeft ≤ 255 ∧ endInTime s.now f
      ∧ ∀ t, a.due = .time t → (f - t).toNat + a.repeatsLeft * 2 ^ 25 ≤ 2 ^ 41 := by
  have := h.slots x.slot
  rw [hs] at this
  exact this

/-- The keys of the time list are in time. -/
theorem Timely.keys {s : State} (h : Timely s) (ag : AgreeBut V s) :
    ∀ e ∈ s.sched.timeList, keyInTime s.now e.key := by
  intro e he
  cases hp : e.phase with
  | start =>
    obtain ⟨a, ha, hd⟩ := ag.start e he hp
    exact ((h.waiting ha).2 _ hd).key
  | finish =>
    obtain ⟨a, ha⟩ := ag.finish e he hp
    exact (h.holding ha).2.1.key

theorem Timely.congr {s t : State} (h : Timely s) (hs : t.sched = s.sched) (ht : t.timebase = s.timebase) :
    Timely t := by
  refine ⟨fun i => ?_, by rw [hs]; exact h.time, ?_⟩
  · have := h.slots i
    unfold State.slot State.now at *
    rwa [hs, ht]
  · have := h.travel
    unfold State.countNear at *
    rwa [hs, ht]

theorem Timely.of_emptied {s : State} (h : s.emptied) : Timely s := by
  obtain ⟨hf, ht, hv⟩ := h
  refine ⟨fun i => ?_, by simp [ht], by simp [hv]⟩
  rw [slot_of_free _ (hf i)]
  trivial

/-- Entries leave the lists, and one slot is replaced. -/
theorem Timely.fewer {s t : State} {j : SlotNo} (h : Timely s) (hb : t.timebase = s.timebase)
    (hi : ∀ i, i ≠ j → t.slot i = s.slot i) (hj : (t.slot j).inTime s.now)
    (ht : t.sched.timeList.Sublist s.sched.timeList) (hv : t.sched.travelList.Sublist s.sched.travelList) :
    Timely t := by
  have hnow : t.now = s.now := by unfold State.now; rw [hb]
  refine ⟨fun i => ?_, h.time.sublist ht, ?_⟩
  · rw [hnow]
    by_cases hij : i = j
    · rw [hij]
      exact hj
    · rw [hi i hij]
      exact h.slots i
  · have he : t.countNear = s.countNear := by funext c; unfold State.countNear; rw [hb]
    rw [he]
    exact h.travel.sublist (hv.filter _)

theorem setWidth_interval_lt (iv : BitVec 32) : (iv.setWidth 48).toNat < 2 ^ 32 := by
  rw [BitVec.toNat_setWidth]
  have := iv.isLt
  omega

theorem setWidth_width_lt (w : BitVec 24) : (w.setWidth 48).toNat < 2 ^ 24 := by
  rw [BitVec.toNat_setWidth]
  have := w.isLt
  omega

theorem next_time {d : Due} {iv : BitVec 32} {t : Tick} (h : d.next iv = .time t) :
    ∃ u, d = .time u ∧ t = u + iv.setWidth 48 := by
  cases d with
  | time u =>
    injection h with h
    exact ⟨u, rfl, h.symm⟩
  | travel c => cases h

/-- The action of a slot moved on past a due that is not ahead is in time. -/
theorem Slot.inTime_pass {s : State} {a : Action} {n : Nat} {g : Gen} (h : a.repeatsLeft ≤ 255)
    (hd : ∀ t, a.due = .time t → dueInTime s.now a.repeatsLeft t) (hn : a.repeatsLeft = n + 1)
    (ha : s.dueAhead a.due = false) : Slot.inTime s.now ⟨g, .waiting (a.nextWith n)⟩ := by
  refine ⟨show n ≤ 255 by omega, fun t ht => ?_⟩
  obtain ⟨u, hu, rfl⟩ := next_time ht
  rw [hn] at hd
  exact (hd u hu).next (by simpa [State.dueAhead, hu] using ha) (setWidth_interval_lt _)

/-- The action of a slot that ends, or is cut, is in time. -/
theorem Slot.inTime_finish {now f : Tick} {a : Action} {n : Nat} {g : Gen} (h : a.repeatsLeft ≤ 255)
    (he : endInTime now f) (hl : ∀ t, a.due = .time t → (f - t).toNat + a.repeatsLeft * 2 ^ 25 ≤ 2 ^ 41)
    (hn : a.repeatsLeft = n + 1) : Slot.inTime now ⟨g, .waiting (a.nextWith n)⟩ := by
  refine ⟨show n ≤ 255 by omega, fun t ht => ?_⟩
  obtain ⟨u, hu, rfl⟩ := next_time ht
  rw [hn] at hl
  exact dueInTime.ofEnd he (hl u hu) (setWidth_interval_lt _)

/-- The action of a slot that is started is in time. -/
theorem Slot.inTime_accept {s : State} {a : Action} {tick : Tick} {g : Gen} (h : a.repeatsLeft ≤ 255)
    (hd : ∀ t, a.due = .time t → dueInTime s.now a.repeatsLeft t) (ha : s.dueAhead a.due = false)
    (ht : s.tickFits a.due tick) :
    Slot.inTime s.now ⟨g, .holding { a with fired := a.fired + 1 } (tick + a.width.setWidth 48)⟩ := by
  obtain ⟨h1, h2⟩ := ht
  refine ⟨h, .ofTick h1 (setWidth_width_lt _), fun t htd => ?_⟩
  rw [h2 t htd]
  exact lag_of_start (hd t htd) (by simpa [State.dueAhead, show a.due = _ from htd] using ha) (setWidth_width_lt _) h

/-- Every move keeps what is in time so, where its premises are known. -/
theorem Move.timely {J w} {c d : Config} (m : Move k J w c d) (hk : k) (ag : AgreeBut c.1 c.2) (h : Timely c.2) :
    Timely d.2 := by
  have hfil : ∀ {α : Type} (p : α → Bool) (l : List α), (l.filter p).Sublist l := fun p l => List.filter_sublist
  cases m with
  | notes n => exact h.congr n.sched n.timebase
  | strike _ => exact .of_emptied (enterFaulted_emptied _)
  | drained _ => exact h.congr rfl rfl
  | @take V s x a _ _ =>
    exact h.fewer (j := x.slot) rfl (fun _ _ => rfl) (h.slots _) (hfil _ _) (hfil _ _)
  | @rewait V s x a b hw _ hd hr =>
    obtain ⟨h1, h2⟩ := h.waiting hw
    refine h.fewer (j := x.slot) rfl (fun i hi => by rw [setWaiting_slot, if_neg hi]) ?_ (.refl _) (.refl _)
    rw [setWaiting_slot, if_pos rfl]
    exact ⟨hr.trans h1, fun t ht => (h2 t (hd ▸ ht)).fewer hr⟩
  | @pass V s x a n _ hw hn ha =>
    obtain ⟨h1, h2⟩ := h.waiting hw
    refine h.fewer (j := x.slot) rfl (fun i hi => by rw [setWaiting_slot, if_neg hi]) ?_ (.refl _) (.refl _)
    rw [setWaiting_slot, if_pos rfl]
    exact Slot.inTime_pass h1 h2 hn (ha hk)
  | @finish V s l b a n hb _ hn =>
    obtain ⟨f, hf⟩ := State.holdingAction_eq.mp hb
    obtain ⟨h1, h2, h3⟩ := h.holding hf
    refine h.fewer (j := b.slot) rfl (fun i hi => by rw [setWaiting_slot, if_neg hi]; rfl) ?_ (hfil _ _) (hfil _ _)
    rw [setWaiting_slot, if_pos rfl]
    exact Slot.inTime_finish h1 h2 h3 hn
  | @file V s x a hw hnear =>
    obtain ⟨h1, h2⟩ := h.waiting hw
    cases hd : a.due with
    | time t =>
      refine ⟨h.slots, ?_, h.travel⟩
      exact fileBy_timeOrdered (h2 t hd).key (h.keys ag) h.time
    | travel c =>
      refine ⟨h.slots, h.time, ?_⟩
      have hall : s.sched.travelList.filter (fun e => s.countNear e.key) = s.sched.travelList :=
        List.filter_eq_self.mpr (hnear hk)
      have htr := h.travel
      rw [hall] at htr
      exact fileBy_near_travelOrdered (hnear hk) htr
  | @accept V s x a tick hw ha ht _ =>
    obtain ⟨h1, h2⟩ := h.waiting hw
    have hin := Slot.inTime_accept (g := x.gen) h1 h2 (ha hk) (ht hk)
    refine ⟨fun i => ?_, fileBy_timeOrdered hin.2.1.key (h.keys ag) h.time, h.travel⟩
    rw [acceptStart_slot]
    split
    · exact hin
    · exact h.slots i
  | @free V s x a _ _ =>
    refine h.fewer (j := x.slot) rfl (fun i hi => by rw [vacate_slot, if_neg hi]) ?_ (hfil _ _) (hfil _ _)
    rw [vacate_slot, if_pos rfl]
    trivial
  | @freeHeld V s l x a _ _ =>
    refine h.fewer (j := x.slot) rfl (fun i hi => by rw [vacate_slot, if_neg hi]; rfl) ?_ (hfil _ _) (hfil _ _)
    rw [vacate_slot, if_pos rfl]
    trivial
  | leave _ => exact h.congr rfl rfl
  | drop _ => exact h
  | @giveUp V s a e x hh =>
    obtain ⟨h1, h2, h3⟩ := h.holding hh
    refine h.fewer (j := x.slot) rfl (fun i hi => State.slot_putSlot_ne _ _ _ _ hi) ?_ (.refl _) (.refl _)
    rw [State.slot_putSlot_self]
    exact ⟨by simp, h2, fun t ht => by have := h3 t ht; simp only [zero_mul]; omega⟩

theorem Work.timely {J w} {c d : Config} (h : Work k J w c d) (hk : k) (ag : AgreeBut c.1 c.2) (ht : Timely c.2) :
    Timely d.2 := by
  induction h with
  | done => exact ht
  | step m _ ih => exact ih (m.agree ag) (m.timely hk ag ht)

end Sys2Proof.Machine
end

