-- ==== Sys2Proof/Proofs/Serials.lean ====
section
/-! PROOFS. Every move keeps the order of insertion serials (R7), and the sum of what the actions of the pool can still have. -/

namespace Sys2Proof.Machine

variable {k : Prop} {V : List Handle}

/-! ## Insertion serials -/

/-- No entry of the lists has stood while more than `B` others joined. -/
structure SerialsWithin (B : Nat) (s : State) : Prop where
  time : ∀ e ∈ s.sched.timeList, 0 < (s.sched.nextSerial - e.serial).toNat ∧ (s.sched.nextSerial - e.serial).toNat ≤ B
  travel : ∀ e ∈ s.sched.travelList,
    0 < (s.sched.nextSerial - e.serial).toNat ∧ (s.sched.nextSerial - e.serial).toNat ≤ B

theorem SerialsWithin.mono {B C : Nat} {s : State} (h : SerialsWithin B s) (hb : B ≤ C) : SerialsWithin C s :=
  ⟨fun e he => ⟨(h.time e he).1, (h.time e he).2.trans hb⟩, fun e he => ⟨(h.travel e he).1, (h.travel e he).2.trans hb⟩⟩

theorem SerialsWithin.congr {B : Nat} {s t : State} (h : SerialsWithin B s) (hs : t.sched = s.sched) :
    SerialsWithin B t := by
  constructor
  · rw [hs]
    exact h.time
  · rw [hs]
    exact h.travel

theorem serial_next {n e : Serial} {B : Nat} (h : 0 < (n - e).toNat ∧ (n - e).toNat ≤ B) (hb : B + 1 < 2 ^ 32) :
    0 < (n + 1 - e).toNat ∧ (n + 1 - e).toNat ≤ B + 1 := by
  bv_omega

theorem serial_first (n : Serial) : (n + 1 - n).toNat = 1 := by
  bv_omega

theorem Move.serialsWithin {J w} {c d : Config} {B : Nat} (m : Move k J w c d) (h : SerialsWithin B c.2)
    (hb : B + J.length < 2 ^ 32) : SerialsWithin (B + J.length) d.2 := by
  rcases m.lists with ⟨rfl, ⟨ht, hv, hn⟩⟩ | ⟨x, rfl, ⟨p, key, ht⟩, hv, hn⟩ | ⟨x, rfl, ⟨ht, ⟨key, hv⟩, hn⟩, -⟩
  · exact ⟨fun e he => hn ▸ h.time e (ht.mem he), fun e he => hn ▸ h.travel e (hv.mem he)⟩
  · refine ⟨fun e he => ?_, fun e he => ?_⟩
    · rw [ht, mem_fileBy] at he
      rw [hn]
      rcases he with rfl | he
      · rw [serial_first]
        simp
      · exact serial_next (h.time e he) hb
    · rw [hv] at he
      rw [hn]
      exact serial_next (h.travel e he) hb
  · refine ⟨fun e he => ?_, fun e he => ?_⟩
    · rw [ht] at he
      rw [hn]
      exact serial_next (h.time e he) hb
    · rw [hv, mem_fileBy] at he
      rw [hn]
      rcases he with rfl | he
      · rw [serial_first]
        simp
      · exact serial_next (h.travel e he) hb

/-- Each joining brings the serials of the entries that stand one further from the next. -/
theorem Work.serialsWithin {J w} {c d : Config} (h : Work k J w c d) :
    ∀ {B : Nat}, SerialsWithin B c.2 → B + J.length < 2 ^ 32 → SerialsWithin (B + J.length) d.2 := by
  induction h with
  | done => exact fun h _ => h
  | step m _ ih =>
    intro B h hb
    rw [List.length_append, ← Nat.add_assoc] at hb ⊢
    exact ih (m.serialsWithin h (by omega)) hb

theorem serialEarlier_next {n e : Serial} {B : Nat} (h : 0 < (n - e).toNat ∧ (n - e).toNat ≤ B) (hb : B < 2 ^ 31) :
    serialEarlier e n = true ∧ serialEarlier n e = false := by
  unfold serialEarlier
  have h1 : e ≠ n := by rintro rfl; simp at h
  have h2 : (n - e).toNat < 2 ^ 31 := by omega
  have h3 : ¬ (e - n).toNat < 2 ^ 31 := by bv_omega
  rw [decide_eq_true h2, decide_eq_false h3]
  simpa using h1

/-- At equal keys and equal phase two entries of the time list stand by insertion serial. -/
def TimeEntry.bySerial (a b : TimeEntry) : Prop :=
  a.key = b.key → a.phase = b.phase → serialEarlier a.serial b.serial = true

/-- At equal keys two entries of the travel list stand by insertion serial. -/
def TravelEntry.bySerial (a b : TravelEntry) : Prop := a.key = b.key → serialEarlier a.serial b.serial = true

/-- The entries stand by serial; those of the travel list that are not out of reach. -/
structure SerialsStand (s : State) : Prop where
  time : s.sched.timeList.Pairwise TimeEntry.bySerial
  travel : (s.sched.travelList.filter (fun e => s.countNear e.key)).Pairwise TravelEntry.bySerial

theorem SerialsStand.congr {s t : State} (h : SerialsStand s) (hs : t.sched = s.sched) (ht : t.timebase = s.timebase) :
    SerialsStand t := by
  have he : t.countNear = s.countNear := by funext c; unfold State.countNear; rw [ht]
  constructor
  · rw [hs]
    exact h.time
  · rw [hs, he]
    exact h.travel

/-- The entry that joins with the next serial stands after those of its key and phase. -/
theorem fileBy_timeBySerial {now : Tick} {x : TimeEntry} {l : List TimeEntry} {B : Nat} (hx : keyInTime now x.key)
    (hw : ∀ y ∈ l, keyInTime now y.key) (hl : l.Pairwise TimeEntry.inOrder) (hs : l.Pairwise TimeEntry.bySerial)
    (hn : ∀ y ∈ l, 0 < (x.serial - y.serial).toNat ∧ (x.serial - y.serial).toNat ≤ B) (hb : B < 2 ^ 31) :
    (fileBy TimeEntry.before x l).Pairwise TimeEntry.bySerial := by
  have hno : ∀ y ∈ l, x.before y = true → x.key = y.key → x.phase = .finish ∧ y.phase = .start := by
    intro y hy hb' hk
    rw [TimeEntry.before_iff hx (hw y hy)] at hb'
    rcases hb' with hb' | ⟨-, hb' | ⟨-, hb'⟩⟩
    · rw [hk] at hb'
      omega
    · exact hb'
    · rw [(serialEarlier_next (hn y hy) hb).2] at hb'
      cases hb'
  refine (fileBy_pairwise (R := fun a b => TimeEntry.inOrder a b ∧ TimeEntry.bySerial a b) (hl.and hs)
    (fun y hy hb' => ⟨TimeEntry.inOrder_of_before hx (hw y hy) hb', fun hk hp => ?_⟩)
    (fun y hy hb' => ⟨TimeEntry.inOrder_of_not_before hx (hw y hy) hb', fun _ _ => (serialEarlier_next (hn y hy) hb).1⟩)
    (fun y hy z hz hb' hr =>
      ⟨TimeEntry.inOrder_trans_before hx (hw y hy) (hw z hz) hb' hr.1, fun hk hp => ?_⟩)).imp And.right
  · obtain ⟨h1, h2⟩ := hno y hy hb' hk
    rw [h1, h2] at hp
    cases hp
  · obtain ⟨hr, -⟩ := hr
    have hxy : ¬ keyRank now x.key < keyRank now y.key := by
      rw [TimeEntry.inOrder_iff (hw y hy) (hw z hz)] at hr
      rw [hk]
      rcases hr with hr | ⟨hr, -⟩
      · omega
      · rw [hr]
        omega
    obtain ⟨hk', -⟩ := ((TimeEntry.before_iff hx (hw y hy)).mp hb').resolve_left hxy
    obtain ⟨h1, h2⟩ := hno y hy hb' hk'
    rw [TimeEntry.inOrder_iff (hw y hy) (hw z hz), ← hk', hk] at hr
    rcases hr with hr | ⟨-, hr | hr⟩
    · omega
    · rw [h2] at hr
      cases hr
    · rw [← hp, h1] at hr
      cases hr

theorem fileBy_travelBySerial {c : Count} {x : TravelEntry} {l : List TravelEntry} {B : Nat}
    (hx : (x.key - c).toNat < 2 ^ 30) (hw : ∀ y ∈ l, (y.key - c).toNat < 2 ^ 30) (hl : l.Pairwise TravelEntry.inOrder)
    (hs : l.Pairwise TravelEntry.bySerial)
    (hn : ∀ y ∈ l, 0 < (x.serial - y.serial).toNat ∧ (x.serial - y.serial).toNat ≤ B) (hb : B < 2 ^ 31) :
    (fileBy TravelEntry.before x l).Pairwise TravelEntry.bySerial := by
  have hno : ∀ y ∈ l, x.before y = true → (x.key - c).toNat < (y.key - c).toNat := by
    intro y hy hb'
    rw [TravelEntry.before_iff hx (hw y hy)] at hb'
    refine hb'.resolve_right fun ⟨_, h⟩ => ?_
    rw [(serialEarlier_next (hn y hy) hb).2] at h
    cases h
  refine (fileBy_pairwise (R := fun a b => TravelEntry.inOrder a b ∧ TravelEntry.bySerial a b) (hl.and hs) (fun y hy hb' => ?_)
    (fun y hy hb' => ?_) (fun y hy z hz hb' hr => ?_)).imp And.right
  · have h1 := hno y hy hb'
    refine ⟨(TravelEntry.inOrder_iff hx (hw y hy)).mpr (by omega), fun hk => ?_⟩
    rw [hk] at h1
    omega
  · have hb'' : ¬ x.before y = true := by simp [hb']
    rw [TravelEntry.before_iff hx (hw y hy)] at hb''
    exact ⟨(TravelEntry.inOrder_iff (hw y hy) hx).mpr (by omega), fun _ => (serialEarlier_next (hn y hy) hb).1⟩
  · have h1 := hno y hy hb'
    have h2 := (TravelEntry.inOrder_iff (hw y hy) (hw z hz)).mp hr.1
    refine ⟨(TravelEntry.inOrder_iff hx (hw z hz)).mpr (by omega), fun hk => ?_⟩
    rw [hk] at h1
    omega

/-- Every move keeps the entries by serial. -/
theorem Move.serialsStand {J w} {c d : Config} {B : Nat} (m : Move k J w c d) (hk : k) (ag : AgreeBut c.1 c.2)
    (ht : Timely c.2) (hw : SerialsWithin B c.2) (hb : B < 2 ^ 31) (h : SerialsStand c.2) : SerialsStand d.2 := by
  have hcn : d.2.countNear = c.2.countNear := by funext x; unfold State.countNear; rw [m.timebase]
  have htd := m.timely hk ag ht
  have hnow : d.2.now = c.2.now := by unfold State.now; rw [m.timebase]
  have hkeys := htd.keys (m.agree ag)
  rcases m.lists with ⟨rfl, ⟨hl, hv, hn⟩⟩ | ⟨x, rfl, ⟨p, key, hl⟩, hv, hn⟩ | ⟨x, rfl, ⟨hl, ⟨key, hv⟩, hn⟩, hnear⟩
  · exact ⟨h.time.sublist hl, by rw [hcn]; exact h.travel.sublist (hv.filter _)⟩
  · refine ⟨?_, by rw [hcn, hv]; exact h.travel⟩
    rw [hl, hnow] at hkeys
    rw [hl]
    exact fileBy_timeBySerial (hkeys _ ((mem_fileBy _ _ _ _).mpr (.inl rfl))) (ht.keys ag) ht.time h.time
      hw.time hb
  · refine ⟨by rw [hl]; exact h.time, ?_⟩
    have hnear' := hnear hk
    have hall : c.2.sched.travelList.filter (fun e => c.2.countNear e.key) = c.2.sched.travelList :=
      List.filter_eq_self.mpr hnear'
    have hto := ht.travel
    have hts := h.travel
    rw [hall] at hto hts
    rw [hcn, hv]
    by_cases hx : (key - c.2.timebase.travelCount).toNat < 2 ^ 30
    · rw [List.filter_eq_self.mpr]
      · exact fileBy_travelBySerial hx (fun y hy => of_decide_eq_true (hnear' y hy)) hto hts hw.travel hb
      · intro y hy
        rcases (mem_fileBy _ _ _ _).mp hy with rfl | hy
        · exact decide_eq_true hx
        · exact hnear' y hy
    · rw [fileBy_filter_out (p := fun e : TravelEntry => c.2.countNear e.key) (decide_eq_false hx) hnear']
      exact hts

theorem Work.serialsStand {J w} {c d : Config} (h : Work k J w c d) (hk : k) : ∀ {B : Nat}, AgreeBut c.1 c.2 → Timely c.2 →
    SerialsWithin B c.2 → B + J.length < 2 ^ 31 → SerialsStand c.2 → SerialsStand d.2 := by
  induction h with
  | done => exact fun _ _ _ _ h => h
  | step m _ ih =>
    intro B ag ht hw hb h
    rw [List.length_append] at hb
    exact ih (m.agree ag) (m.timely hk ag ht) (m.serialsWithin hw (by omega)) (by omega)
      (m.serialsStand hk ag ht hw (by omega) h)

/-! ## The measure of what one event can still carry out -/

/-- What the actions of the pool can still have, the entries of the lists, and the actions in hand (log entry 28). -/
def Config.weight (c : Config) : Nat := c.2.expiryBound + c.1.length

theorem expiryBound_eq (s : State) :
    s.expiryBound = 3 * (allSlots.map (fun i => (s.slot i).eventsLeft)).sum + s.listedHandles.length := by
  simp [State.expiryBound, State.listedHandles, Nat.add_assoc]

theorem sum_eventsLeft (s : State) : (allSlots.map (fun i => (s.slot i).eventsLeft)).sum = ∑ i, (s.slot i).eventsLeft := by
  unfold allSlots
  rw [← List.ofFn_eq_map, List.sum_ofFn]

theorem sum_eventsLeft_replaced {s t : State} (j : SlotNo) (h : ∀ i, i ≠ j → t.slot i = s.slot i) :
    (allSlots.map (fun i => (t.slot i).eventsLeft)).sum + (s.slot j).eventsLeft
      = (allSlots.map (fun i => (s.slot i).eventsLeft)).sum + (t.slot j).eventsLeft := by
  rw [sum_eventsLeft, sum_eventsLeft, ← Finset.add_sum_erase _ _ (Finset.mem_univ j),
    ← Finset.add_sum_erase (s := Finset.univ) (f := fun i => (s.slot i).eventsLeft) (Finset.mem_univ j)]
  have : ∑ i ∈ Finset.univ.erase j, (t.slot i).eventsLeft = ∑ i ∈ Finset.univ.erase j, (s.slot i).eventsLeft :=
    Finset.sum_congr rfl fun i hi => by rw [h i (Finset.ne_of_mem_erase hi)]
  rw [this]
  omega

theorem State.emptied.expiryBound {s : State} (h : s.emptied) : s.expiryBound = 0 := by
  obtain ⟨hf, ht, hv⟩ := h
  rw [expiryBound_eq, sum_eventsLeft, Finset.sum_eq_zero]
  · simp [State.listedHandles, ht, hv]
  · intro i _
    rw [slot_of_free _ (hf i)]
    rfl

/-- The entry of an action leaves. -/
theorem removeEntry_length {s : State} {h : Handle} (hm : h ∈ s.listedHandles) :
    (removeEntry h s).listedHandles.length + 1 ≤ s.listedHandles.length := by
  rw [removeEntry_listedHandles]
  exact List.length_filter_lt_length_iff_exists.mpr ⟨h, hm, by simp⟩

theorem AgreeBut.mem_listed {s : State} (ag : AgreeBut V s) {h : Handle} {a : Action} (ha : s.actionOf h = some a)
    (hv : h ∉ V) : h ∈ s.listedHandles := by
  have hs : (s.actionOf h).isSome := by rw [ha]; rfl
  have := ag.listed h.slot (actionOf_isSome.mp hs).2
  rw [handleOf_eq hs] at this
  exact this.resolve_right hv

theorem expiryBound_replaced {s t : State} {j : SlotNo} {p q : Nat} (h : ∀ i, i ≠ j → t.slot i = s.slot i)
    (he : 3 * (t.slot j).eventsLeft + p ≤ 3 * (s.slot j).eventsLeft + q)
    (hl : t.listedHandles.length + q ≤ s.listedHandles.length + p) : t.expiryBound ≤ s.expiryBound := by
  have := sum_eventsLeft_replaced j h
  rw [expiryBound_eq, expiryBound_eq]
  omega

end Sys2Proof.Machine
end

