-- ==== Sys2Proof/Proofs/Loop.lean ====
section
/-! PROOFS. The expiry of the lists is a chain of moves, and ends with nothing left that is to expire: what each pass takes off
the measure is more than what it puts in (R8, R9; log entry 28). -/

namespace Sys2Proof.Machine

variable {k : Prop} {V : List Handle}

/-! ## Every move takes its weight off the measure -/

theorem expiryBound_congr {s t : State} (h : t.sched = s.sched) : t.expiryBound = s.expiryBound := by
  unfold State.expiryBound State.slot
  rw [h]

theorem removeEntry_slot (h : Handle) (s : State) (i : SlotNo) : (removeEntry h s).slot i = s.slot i := rfl

theorem vacate_weight {s : State} {h : Handle} {a : Action} (ha : s.actionOf h = some a) :
    (vacate h s).expiryBound + 3 ≤ s.expiryBound := by
  have hl : (vacate h s).listedHandles.length ≤ s.listedHandles.length := by
    unfold vacate
    rw [removeEntry_listedHandles]
    exact List.length_filter_le _ _
  have hs := sum_eventsLeft_replaced (s := s) (t := vacate h s) h.slot (fun i hi => by rw [vacate_slot, if_neg hi])
  have hp : 1 ≤ (s.slot h.slot).eventsLeft := by
    have := (actionOf_some ha).2.2.1
    rcases State.actionOf_iff.mp ha with hw | hh
    · rw [State.waitingAction_eq.mp hw]
      simp only [Slot.eventsLeft]
      omega
    · obtain ⟨f, hf⟩ := State.holdingAction_eq.mp hh
      rw [hf]
      simp only [Slot.eventsLeft]
      omega
  rw [vacate_slot, if_pos rfl, show (Slot.eventsLeft ⟨(s.slot h.slot).gen, .free⟩) = 0 from rfl] at hs
  rw [expiryBound_eq, expiryBound_eq]
  omega

theorem weight_mk (V : List Handle) (s : State) : Config.weight (V, s) = s.expiryBound + V.length := rfl

/-- The measure of a state in the same schedule is the same. -/
theorem weight_congr {s t : State} (h : t.sched = s.sched) : Config.weight (V, t) = Config.weight (V, s) := by
  rw [weight_mk, weight_mk, expiryBound_congr h]

theorem Move.weight {J w} {c d : Config} (m : Move k J w c d) (ag : AgreeBut c.1 c.2) :
    d.weight + w ≤ c.weight := by
  cases m with
  | notes n => rw [weight_congr n.sched, Nat.add_zero]
  | strike _ => rw [weight_mk, weight_mk, (enterFaulted_emptied _).expiryBound]; omega
  | @drained V s _ =>
    rw [Nat.add_zero]
    exact (weight_congr (s := s) rfl).le
  | @take V s h a hw hv =>
    have := removeEntry_length (s := s) (ag.mem_listed (State.actionOf_iff.mpr (.inl hw)) hv)
    rw [weight_mk, weight_mk, expiryBound_eq, expiryBound_eq]
    simp only [List.length_cons, removeEntry_slot]
    omega
  | @rewait V s h a b hw _ _ hr =>
    have := expiryBound_replaced (s := s) (t := setWaiting h b s) (p := 0) (q := 0) (j := h.slot)
      (fun i hi => by rw [setWaiting_slot, if_neg hi])
      (by rw [setWaiting_slot, if_pos rfl, State.waitingAction_eq.mp hw]; simp only [Slot.eventsLeft]; omega) le_rfl
    rw [weight_mk, weight_mk]
    omega
  | @pass V s h a n _ hw hn _ =>
    have := sum_eventsLeft_replaced (s := s) (t := setWaiting h (a.nextWith n) s) h.slot
      (fun i hi => by rw [setWaiting_slot, if_neg hi])
    rw [setWaiting_slot, if_pos rfl, State.waitingAction_eq.mp hw] at this
    rw [weight_mk, weight_mk, expiryBound_eq, expiryBound_eq, show (setWaiting h (a.nextWith n) s).listedHandles = s.listedHandles from rfl]
    simp only [Slot.eventsLeft, Action.nextWith, hn] at this ⊢
    omega
  | @finish V s l b a n hb _ hn =>
    obtain ⟨f, hf⟩ := State.holdingAction_eq.mp hb
    have hv : b ∉ V := fun hv => by
      rw [ag.hand b hv] at hb
      cases hb
    have hl := removeEntry_length (s := s) (ag.mem_listed (State.actionOf_iff.mpr (.inr hb)) hv)
    have := sum_eventsLeft_replaced (s := s) (t := setWaiting b (a.nextWith n) (release l b (removeEntry b s))) b.slot
      (fun i hi => by rw [setWaiting_slot, if_neg hi]; rfl)
    rw [setWaiting_slot, if_pos rfl, hf] at this
    rw [weight_mk, weight_mk, expiryBound_eq, expiryBound_eq, show (setWaiting b (a.nextWith n) (release l b (removeEntry b s))).listedHandles
      = (removeEntry b s).listedHandles from rfl]
    simp only [Slot.eventsLeft, Action.nextWith, hn, List.length_cons] at this ⊢
    omega
  | @file V s h a hw _ =>
    have := (joinStart_listedHandles h a.due s).length_eq
    rw [weight_mk, weight_mk, expiryBound_eq, expiryBound_eq]
    simp only [joinStart_slot, List.length_cons] at this ⊢
    omega
  | @accept V s h a tick hw _ _ _ =>
    have hl := (acceptStart_listedHandles h a tick s).length_eq
    have := sum_eventsLeft_replaced (s := s) (t := acceptStart h a tick s) h.slot
      (fun i hi => by rw [acceptStart_slot, if_neg hi])
    rw [acceptStart_slot, if_pos rfl, State.waitingAction_eq.mp hw] at this
    rw [weight_mk, weight_mk, expiryBound_eq, expiryBound_eq]
    simp only [Slot.eventsLeft, List.length_cons] at this hl ⊢
    omega
  | @free V s h a ha _ =>
    have := vacate_weight ha
    rw [weight_mk, weight_mk]
    omega
  | @freeHeld V s l h a ha _ =>
    have := vacate_weight (s := release l h s) (State.actionOf_iff.mpr (.inr ha))
    rw [expiryBound_congr (s := s) (t := release l h s) rfl] at this
    rw [weight_mk, weight_mk]
    omega
  | @leave V s l b _ =>
    rw [Nat.add_zero]
    exact (weight_congr (s := s) rfl).le
  | drop _ => rw [weight_mk, weight_mk, List.length_cons]; omega
  | @giveUp V s a e h hh =>
    have := expiryBound_replaced (s := s)
      (t := s.putSlot h.slot ⟨h.gen, .holding { a with repeatsLeft := 0, finishRequested := true } e⟩) (p := 0) (q := 0)
      (j := h.slot) (fun i hi => State.slot_putSlot_ne _ _ _ _ hi)
      (by rw [State.slot_putSlot_self, hh]; simp only [Slot.eventsLeft]; omega) le_rfl
    rw [weight_mk, weight_mk]
    omega

theorem Work.weight {J w} {c d : Config} (h : Work k J w c d) (ag : AgreeBut c.1 c.2) : d.weight + w ≤ c.weight := by
  induction h with
  | done => rw [Nat.add_zero]
  | step m _ ih =>
    have := m.weight ag
    have := ih (m.agree ag)
    omega

/-! ## The expiry of the lists -/

/-- What the expiry of the lists finds: the actions whose START is to be taken at once are one at most; the entries of the
travel list are theirs, or ahead, or reached where the travel count has advanced on an edge that came in a filter width ago
at most; and the entries of the time list that have stood since before the event are theirs, or not far ahead. -/
structure Expiring (x : Expiry) (U : List Handle) (s : State) : Prop where
  single : U.length ≤ 1
  held : HoldersHeld s
  edge : ∀ t, x.travelEdge = some t → (s.now - t).toNat ≤ 1023
  travel : ∀ e ∈ s.sched.travelList, e.handle ∈ U ∨ countAhead s.timebase.travelCount e.key = true
    ∨ x.travelEdge.isSome = true ∧ s.countNear e.key = true
  standing : ∀ e ∈ s.sched.timeList, x.stood e.handle = true → e.handle ∈ U ∨ (e.key - s.now).toNat < 2 ^ 40

/-- What the expiry of the lists leaves: every key less than 2^40 ticks, or 2^30 counts, ahead. -/
structure Expired (s : State) : Prop where
  keys : ∀ e ∈ s.sched.timeList, (e.key - s.now).toNat < 2 ^ 40
  counts : ∀ e ∈ s.sched.travelList, countAhead s.timebase.travelCount e.key = true

theorem countNear_of_ahead {s : State} {c : Count} (h : countAhead s.timebase.travelCount c = true) :
    s.countNear c = true := by
  unfold countAhead Config.countWindow at h
  unfold State.countNear
  simp only [Bool.and_eq_true, decide_eq_true_eq] at h
  exact decide_eq_true h.2

theorem tickAhead_near {now t : Tick} (h : tickAhead now t = true) : (t - now).toNat < 2 ^ 40 := by
  unfold tickAhead Config.tickWindow at h
  simp only [Bool.and_eq_true, decide_eq_true_eq] at h
  exact h.2

/-- With nothing to be taken at once, every entry of the travel list is near. -/
theorem Expiring.near {x : Expiry} {s : State} (h : Expiring x [] s) : s.travelNear := by
  intro e he
  rcases h.travel e he with h | h | h
  · cases h
  · exact countNear_of_ahead h
  · exact h.2

/-- Without the entry of the action that is taken at once, every entry of the travel list is near. -/
theorem Expiring.near_removed {x : Expiry} {s : State} {h : Handle} (hx : Expiring x [h] s) :
    (removeEntry h s).travelNear := by
  intro e he
  obtain ⟨hm, hne⟩ := List.mem_filter.mp he
  rcases hx.travel e hm with h | h | h
  · rw [List.mem_singleton] at h
    simp [h] at hne
  · exact countNear_of_ahead h
  · exact h.2

/-- After the entries of an action have been carried out, the expiry goes on with those to be taken at once. -/
theorem Expiring.after {x : Expiry} {U U' : List Handle} {h : Handle} {J : List (Handle × Base)} {s u t : State}
    (hx : Expiring x U s) (hU : ∀ y ∈ U, y = h) (hh : HoldersHeld t) (ht : t.timebase = s.timebase)
    (hut : u.sched.timeList.Sublist s.sched.timeList) (huv : u.sched.travelList.Sublist s.sched.travelList)
    (hno : h ∉ u.listedHandles)
    (hent : EntriesFrom J u t)
    (hJ : JoinedFor J h U' ∨ t.emptied) (hl : U'.length ≤ 1) : Expiring (x.without h) U' t := by
  have hnow : t.now = s.now := by unfold State.now; rw [ht]
  refine ⟨hl, hh, fun e he => ?_, fun e he => ?_, fun e he hst => ?_⟩
  · rw [hnow]
    exact hx.edge e he
  · rcases hJ with hJ | ⟨-, -, hv⟩
    · rcases hent.travel e he with hm | hm
      · have hne : e.handle ≠ h := fun c => hno (c ▸ List.mem_append_right _ (List.mem_map_of_mem hm))
        rw [ht]
        have hcn : t.countNear = s.countNear := by funext c; unfold State.countNear; rw [ht]
        rw [hcn]
        exact .inr ((hx.travel e (huv.mem hm)).resolve_left fun c => hne (hU _ c))
      · exact .inl ((hJ _ hm).1 rfl)
    · rw [hv] at he
      cases he
  · unfold Expiry.stood Expiry.without at hst
    rw [List.contains_iff_mem, List.mem_filter] at hst
    rcases hJ with hJ | ⟨-, hv, -⟩
    · rcases hent.time e he with hm | hm
      · have hne : e.handle ≠ h := fun c => hno (c ▸ List.mem_append_left _ (List.mem_map_of_mem hm))
        rw [hnow]
        exact .inr ((hx.standing e (hut.mem hm) (List.contains_iff_mem.mpr hst.1)).resolve_left fun c => hne (hU _ c))
      · refine .inl ((hJ _ hm).2.resolve_left ?_)
        simpa using hst.2
    · rw [hv] at he
      cases he

/-- The head of an ordered time list being ahead, so is the rest. -/
theorem ahead_of_head {now : Tick} {e : TimeEntry} {es : List TimeEntry} (hk : ∀ y ∈ e :: es, keyInTime now y.key)
    (ho : (e :: es).Pairwise TimeEntry.inOrder) (ha : tickAhead now e.key = true) :
    ∀ y ∈ e :: es, (y.key - now).toNat < 2 ^ 40 := by
  intro y hy
  have h1 := tickAhead_near ha
  rcases List.mem_cons.mp hy with rfl | hy'
  · exact h1
  · have h2 := (List.pairwise_cons.mp ho).1 y hy'
    rw [TimeEntry.inOrder_iff (hk e List.mem_cons_self) (hk y hy)] at h2
    have h3 : keyRank now e.key ≤ keyRank now y.key := by
      rcases h2 with h2 | ⟨h2, -⟩
      · omega
      · rw [h2]
    have h4 := hk y hy
    unfold keyInTime at h4
    unfold keyRank at h3
    bv_omega

/-- Nothing of the time list being to expire, every key of it is less than 2^40 ticks ahead. -/
theorem keys_of_expiredTime {x : Expiry} {s : State} (ag : AgreeBut V s) (ht : Timely s) (hx : Expiring x [] s)
    (h : expiredTime x s = none) : ∀ e ∈ s.sched.timeList, (e.key - s.now).toNat < 2 ^ 40 := by
  have hk := ht.keys ag
  have ho := ht.time
  unfold expiredTime at h
  cases hl : s.sched.timeList with
  | nil => simp
  | cons e es =>
    rw [hl] at h hk ho
    dsimp only at h
    split at h
    · exact ahead_of_head hk ho ‹_›
    · split at h
      · cases h
      · rename_i hn
        intro y hy
        simp only [Bool.or_eq_true, not_or, List.any_eq_true, not_exists, not_and] at hn
        have h1 := hn.2 y hy
        by_cases hs : x.stood y.handle = true
        · exact (hx.standing y (hl ▸ hy) hs).resolve_left (by simp)
        · refine tickAhead_near ?_
          simpa [hs] using h1

/-- The head of the travel list being ahead, so is the rest. -/
theorem counts_of_expiredTravel {s : State} (ht : Timely s) (hn : s.travelNear) (h : expiredTravel s = none) :
    ∀ e ∈ s.sched.travelList, countAhead s.timebase.travelCount e.key = true := by
  have ho := ht.travel
  rw [List.filter_eq_self.mpr hn] at ho
  unfold State.travelNear at hn
  unfold expiredTravel at h
  cases hl : s.sched.travelList with
  | nil => simp
  | cons e es =>
    rw [hl] at h ho hn
    dsimp only at h
    split at h
    · rename_i ha
      intro y hy
      rcases List.mem_cons.mp hy with rfl | hy'
      · exact ha
      · have h1 := of_decide_eq_true (hn e List.mem_cons_self)
        have h2 := of_decide_eq_true (hn y hy)
        have h3 := (TravelEntry.inOrder_iff h1 h2).mp ((List.pairwise_cons.mp ho).1 y hy')
        unfold countAhead Config.countWindow at ha ⊢
        simp only [Bool.and_eq_true, decide_eq_true_eq] at ha ⊢
        omega
    · cases h

/-- The head of the time list leaves it as the entry of its action does. -/
theorem popTime_eq {s : State} {e : TimeEntry} {es : List TimeEntry} (ag : AgreeBut V s)
    (hl : s.sched.timeList = e :: es) : popTime s = removeEntry e.handle s := by
  have hn := ag.once
  unfold State.listedHandles at hn
  rw [hl, List.map_cons, List.cons_append, List.nodup_cons, List.mem_append, not_or] at hn
  obtain ⟨⟨h1, h2⟩, -⟩ := hn
  have ht : (e :: es).filter (fun y => y.handle ≠ e.handle) = es := by
    rw [List.filter_cons_of_neg (by simp), List.filter_eq_self]
    intro y hy
    simpa using fun c : y.handle = e.handle => h1 (c ▸ List.mem_map_of_mem hy)
  have hv : s.sched.travelList.filter (fun y => y.handle ≠ e.handle) = s.sched.travelList := by
    rw [List.filter_eq_self]
    intro y hy
    simpa using fun c : y.handle = e.handle => h2 (c ▸ List.mem_map_of_mem hy)
  unfold popTime removeEntry
  rw [hl, ht, hv]
  rfl

/-- The head of the travel list leaves it as the entry of its action does. -/
theorem popTravel_eq {s : State} {e : TravelEntry} {es : List TravelEntry} (ag : AgreeBut V s)
    (hl : s.sched.travelList = e :: es) : popTravel s = removeEntry e.handle s := by
  have hn := ag.once
  unfold State.listedHandles at hn
  rw [hl, List.map_cons, List.nodup_append] at hn
  obtain ⟨-, h1, h2⟩ := hn
  have ht : s.sched.timeList.filter (fun y => y.handle ≠ e.handle) = s.sched.timeList := by
    rw [List.filter_eq_self]
    intro y hy
    simpa using fun c : y.handle = e.handle => h2 _ (List.mem_map_of_mem hy) _ List.mem_cons_self c
  have hv : (e :: es).filter (fun y => y.handle ≠ e.handle) = es := by
    rw [List.filter_cons_of_neg (by simp), List.filter_eq_self]
    intro y hy
    simpa using fun c : y.handle = e.handle => (List.nodup_cons.mp h1).1 (c ▸ List.mem_map_of_mem hy)
  unfold popTravel removeEntry
  rw [hl, ht, hv]
  rfl

theorem expiredTime_some {x : Expiry} {s : State} {e : TimeEntry} (h : expiredTime x s = some e) :
    ∃ es, s.sched.timeList = e :: es ∧ tickAhead s.now e.key = false := by
  unfold expiredTime at h
  split at h
  · cases h
  · rename_i y ys hl
    split at h
    · cases h
    · rename_i ha
      split at h
      · cases h
        exact ⟨ys, hl, by simpa using ha⟩
      · cases h

theorem expiredTravel_some {s : State} {e : TravelEntry} (h : expiredTravel s = some e) :
    ∃ es, s.sched.travelList = e :: es ∧ countAhead s.timebase.travelCount e.key = false := by
  unfold expiredTravel at h
  split at h
  · cases h
  · rename_i y ys hl
    split at h
    · cases h
    · rename_i ha
      cases h
      exact ⟨ys, hl, by simpa using ha⟩

theorem removeEntry_not_mem (h : Handle) (s : State) : h ∉ (removeEntry h s).listedHandles := by
  rw [removeEntry_listedHandles]
  simp

theorem State.tickFits_now (s : State) (d : Due) : s.tickFits d s.now := ⟨by simp, fun _ _ => rfl⟩

/-- What a pass of the loop has to bring about: a chain of moves to a state from which the loop goes on. -/
structure Pass (k : Prop) (x : Expiry) (V U : List Handle) (s : State) (h : Handle) (p : State × List Handle) : Prop where
  work : ∃ J w, Work k J w (V, s) (V, p.1) ∧ J.length + p.2.length + 1 ≤ w
  apart : ∀ y ∈ p.2, y ∉ V
  goes : k → Expiring (x.without h) p.2 p.1

/-- A START that has expired is taken (R10). -/
theorem startAction_pass {x : Expiry} {U : List Handle} {s : State} {h : Handle} {a : Action} {tick : Tick}
    (ag : AgreeBut V s) (hw : s.waitingAction h = some a) (hv : h ∉ V) (hd : s.dueAhead a.due = false)
    (ht : k → s.tickFits a.due tick) (hx : k → Expiring x U s) (hU : k → ∀ y ∈ U, y = h)
    (hn : k → (removeEntry h s).travelNear) : Pass k x V U s h (startAction h tick (removeEntry h s)) := by
  have hh : k → HoldersHeld (removeEntry h s) := fun c => (hx c).held.congr (fun _ => rfl) rfl
  have htake : Move k [] 0 (V, s) (h :: V, removeEntry h s) := .take hw hv
  obtain ⟨J, w, hwork, hle, hJ⟩ := startAction_carried (k := k) (V := V) (s := removeEntry h s) (tick := tick) hw
    (fun _ => hd) ht hn hh
  have hall := Work.step htake hwork
  refine ⟨⟨_, _, hall, by simpa using hle⟩, fun y hy => ?_, fun c => ?_⟩
  · rcases startAction_next h tick _ y hy with rfl | hy
    · exact hv
    · intro hyv
      have h0 : (removeEntry h s).holdingAction y = none := ag.hand y hyv
      rw [h0] at hy
      cases hy
  · exact (hx c).after (hU c) (hall.holdersHeld c (hx c).held) hall.timebase List.filter_sublist List.filter_sublist
      (removeEntry_not_mem h s) hwork.entriesFrom hJ (startAction_next_length h tick (hh c))

/-- An END that has expired is taken (R11). -/
theorem endAction_pass {x : Expiry} {s : State} {h : Handle} {a : Action} (ag : AgreeBut V s)
    (ha : s.holdingAction h = some a) (hx : k → Expiring x [] s) : Pass k x V [] s h (endAction h (removeEntry h s)) := by
  obtain ⟨J, w, hwork, hle, hp, hJ, hent⟩ := holdingAction_proceeds (k := k) (V := V) ha (fun _ => rfl) (fun c => (hx c).near)
  have he : endAction h (removeEntry h s) = proceed h a (release a.line h (removeEntry h s)) := by
    unfold endAction
    rw [show (removeEntry h s).holdingAction h = some a from ha]
  rw [he]
  refine ⟨⟨J, w, hwork, by omega⟩, fun y hy hyv => ?_, fun c => ?_⟩
  · rw [proceed_next _ _ _ y hy] at hyv
    rw [ag.hand h hyv] at ha
    cases ha
  · exact (hx c).after (by simp) (hwork.holdersHeld c (hx c).held) hwork.timebase List.filter_sublist List.filter_sublist
      (removeEntry_not_mem h s) hent (.inl hJ) hp

/-- What the expiry of the lists does: a chain of moves that takes every entry that is to expire. -/
structure RunsOut (k : Prop) (V : List Handle) (s t : State) : Prop where
  work : ∃ J w, Work k J w (V, s) (V, t) ∧ J.length ≤ w
  expired : k → Expired t

theorem RunsOut.after {x : Expiry} {U : List Handle} {s t : State} {h : Handle} {p : State × List Handle}
    (hp : Pass k x V U s h p) (hr : RunsOut k V p.1 t) : RunsOut k V s t := by
  obtain ⟨J, w, hw, hle⟩ := hp.work
  obtain ⟨J', w', hw', hle'⟩ := hr.work
  exact ⟨⟨_, _, hw.trans hw', by rw [List.length_append]; omega⟩, hr.expired⟩

/-- A handle whose START is not due lets the expiry go on. -/
theorem Expiring.skip {x : Expiry} {s : State} {h : Handle} (ag : AgreeBut V s) (hx : Expiring x [h] s)
    (hd : s.startDue h = false) : Expiring (x.without h) [] s := by
  refine ⟨by simp, hx.held, hx.edge, fun e he => .inr ?_, fun e he hs => ?_⟩
  · rcases hx.travel e he with hm | h
    · rw [List.mem_singleton] at hm
      obtain ⟨a, ha, hda⟩ := ag.travel e he
      left
      rw [hm] at ha
      simpa [State.startDue, ha, State.dueAhead, hda] using hd
    · exact h
  · unfold Expiry.stood Expiry.without at hs
    rw [List.contains_iff_mem, List.mem_filter] at hs
    refine .inr ((hx.standing e he (List.contains_iff_mem.mpr hs.1)).resolve_left ?_)
    simpa using hs.2

theorem startDue_iff {s : State} {h : Handle} :
    s.startDue h = true ↔ ∃ a, s.waitingAction h = some a ∧ s.dueAhead a.due = false := by
  unfold State.startDue
  cases s.waitingAction h <;> simp

/-- The expiry of the lists within one event is a chain of moves, and with fuel enough it takes every entry that is to
expire (R8, R9). -/
theorem runLists_runsOut {fuel : Nat} : ∀ {x : Expiry} {U : List Handle} {s : State}, AgreeBut V s → (∀ u ∈ U, u ∉ V) →
    (k → Expiring x U s ∧ Timely s) → (k → s.expiryBound + U.length ≤ fuel) →
    RunsOut k V s (runLists x fuel U s) := by
  induction fuel with
  | zero =>
    intro x U s ag hU hk hf
    refine ⟨⟨_, _, .done, le_rfl⟩, fun c => ?_⟩
    have := hf c
    rw [expiryBound_eq] at this
    have hl : s.listedHandles = [] := List.eq_nil_of_length_eq_zero (by omega)
    unfold State.listedHandles at hl
    simp only [List.append_eq_nil_iff, List.map_eq_nil_iff] at hl
    exact ⟨by simp [runLists, hl.1], by simp [runLists, hl.2]⟩
  | succ fuel ih =>
    have go : ∀ {x : Expiry} {U hs : List Handle} {s : State} {h : Handle} {p : State × List Handle}, AgreeBut V s →
        Pass k x V U s h p → (k → hs = []) → (∀ u ∈ hs, u ∉ V) → (k → Timely s) →
        (k → s.expiryBound ≤ fuel + 1) → RunsOut k V s (runLists (x.without h) fuel (p.2 ++ hs) p.1) := by
      intro x U hs s h p ag hp hhs hsV ht hf
      obtain ⟨J, w, hw, hle⟩ := hp.work
      refine .after hp (ih (hw.agree ag) (fun u hu => ?_) (fun c => ?_) (fun c => ?_))
      · rcases List.mem_append.mp hu with hu | hu
        · exact hp.apart u hu
        · exact hsV u hu
      · rw [hhs c, List.append_nil]
        exact ⟨hp.goes c, hw.timely c ag (ht c)⟩
      · rw [hhs c, List.append_nil]
        have h1 := hw.weight ag
        have h2 := hf c
        rw [weight_mk, weight_mk] at h1
        omega
    intro x U s ag hU hk hf
    cases U with
    | cons h hs =>
      have hnil : k → hs = [] := fun c => by
        have := (hk c).1.single
        rw [List.length_cons] at this
        exact List.eq_nil_of_length_eq_zero (by omega)
      have hhs : ∀ u ∈ hs, u ∉ V := fun u hu => hU u (List.mem_cons_of_mem _ hu)
      rw [runLists]
      split
      · rename_i hd
        obtain ⟨a, hw, hda⟩ := startDue_iff.mp hd
        refine go ag (startAction_pass (U := [h]) ag hw (hU h List.mem_cons_self) hda
          (fun _ => s.tickFits_now _) (fun c => hnil c ▸ (hk c).1) (fun _ y hy => List.mem_singleton.mp hy)
          (fun c => Expiring.near_removed (hnil c ▸ (hk c).1))) hnil hhs (fun c => (hk c).2) (fun c => ?_)
        have := hf c
        rw [List.length_cons] at this
        omega
      · rename_i hd
        refine ih ag hhs (fun c => ?_) (fun c => ?_)
        · obtain ⟨hx, ht⟩ := hk c
          rw [hnil c] at hx ⊢
          exact ⟨hx.skip ag (by simpa using hd), ht⟩
        · have := hf c
          rw [List.length_cons] at this
          omega
    | nil =>
      rw [runLists]
      split
      · rename_i e he
        obtain ⟨es, hl, ha⟩ := expiredTime_some he
        have hm : e ∈ s.sched.timeList := hl ▸ List.mem_cons_self
        have hv : e.handle ∉ V := fun hv => ag.out _ hv (List.mem_append_left _ (List.mem_map_of_mem hm))
        have hpass : Pass k x V [] s e.handle (carryOutTime e (popTime s)) := by
          rw [popTime_eq ag hl]
          unfold carryOutTime
          split
          · obtain ⟨a, hw, hda⟩ := ag.start e hm ‹_›
            exact startAction_pass ag hw hv (by rw [hda]; exact ha) (fun _ => s.tickFits_now _)
              (fun c => (hk c).1) (by simp) (fun c e he => (hk c).1.near e (List.mem_of_mem_filter he))
          · obtain ⟨a, hh⟩ := ag.finish e hm ‹_›
            exact endAction_pass ag (State.holdingAction_eq.mpr ⟨_, hh⟩) (fun c => (hk c).1)
        have := go ag hpass (fun _ => rfl) (by simp) (fun c => (hk c).2) (fun c => by simpa using hf c)
        rwa [List.append_nil] at this
      · rename_i hnone
        have hkeys := fun c => keys_of_expiredTime ag (hk c).2 (hk c).1 hnone
        split
        · rename_i hedge
          refine ⟨⟨_, _, .done, le_rfl⟩, fun c => ⟨hkeys c, fun e he => ?_⟩⟩
          rcases (hk c).1.travel e he with h | h | h
          · cases h
          · exact h
          · rw [hedge] at h
            cases h.1
        · rename_i edge hedge
          split
          · rename_i hnone'
            exact ⟨⟨_, _, .done, le_rfl⟩, fun c => ⟨hkeys c, counts_of_expiredTravel (hk c).2 (hk c).1.near hnone'⟩⟩
          · rename_i e he
            obtain ⟨es, hl, ha⟩ := expiredTravel_some he
            have hm : e ∈ s.sched.travelList := hl ▸ List.mem_cons_self
            have hv : e.handle ∉ V := fun hv => ag.out _ hv (List.mem_append_right _ (List.mem_map_of_mem hm))
            have hpass : Pass k x V [] s e.handle (startAction e.handle (travelTick x edge e s) (popTravel s)) := by
              rw [popTravel_eq ag hl]
              obtain ⟨a, hw, hda⟩ := ag.travel e hm
              refine startAction_pass ag hw hv (by rw [hda]; exact ha) (fun c => ?_) (fun c => (hk c).1) (by simp)
                (fun c e he => (hk c).1.near e (List.mem_of_mem_filter he))
              unfold travelTick
              split
              · exact ⟨(hk c).1.edge _ hedge, fun t ht => by rw [hda] at ht; cases ht⟩
              · exact s.tickFits_now _
            have := go ag hpass (fun _ => rfl) (by simp) (fun c => (hk c).2) (fun c => by simpa using hf c)
            rwa [List.append_nil] at this

end Sys2Proof.Machine
end

