-- ==== Sys2Proof/Proofs/Orderly.lean ====
section
/-! PROOFS. A state in order, some actions being in hand: lists and pool agree; where the holder sets are known, dues, ends and
lists are in order; and where the insertion serials are known, those are, with a credit for what one event can still have
join. Chains of moves, the expiry of the lists and the joining of an action keep it. -/

namespace Sys2Proof.Machine

variable {k j : Prop} {V : List Handle}

/-! ## States alike in what the lists stand on -/

/-- From `s` to `t` the pool, the lists, the timeline, the travel count and the holders of each line are what they were. -/
structure SameSchedule (s t : State) : Prop where
  slots : t.sched.slots = s.sched.slots
  time : t.sched.timeList = s.sched.timeList
  travel : t.sched.travelList = s.sched.travelList
  serial : t.sched.nextSerial = s.sched.nextSerial
  now : t.now = s.now
  count : t.timebase.travelCount = s.timebase.travelCount
  holders : ∀ l, (t.output l).holders = (s.output l).holders
  policy : ∀ l, (t.output l).policy = (s.output l).policy

theorem SameSchedule.of_eq {s t : State} (hs : t.sched = s.sched) (hb : t.timebase = s.timebase)
    (ho : t.outputs = s.outputs) : SameSchedule s t :=
  ⟨by rw [hs], by rw [hs], by rw [hs], by rw [hs], by simp [State.now, hb], by rw [hb], fun l => by simp [State.output, ho],
    fun l => by simp [State.output, ho]⟩

theorem SameSchedule.slot {s t : State} (h : SameSchedule s t) (i : SlotNo) : t.slot i = s.slot i := by
  unfold State.slot
  rw [h.slots]

theorem SameSchedule.agree {s t : State} (h : SameSchedule s t) (ag : AgreeBut V s) : AgreeBut V t := by
  have hw : ∀ x, t.waitingAction x = s.waitingAction x := fun x => by unfold State.waitingAction; rw [h.slot]
  have hh : ∀ x, t.holdingAction x = s.holdingAction x := fun x => by unfold State.holdingAction; rw [h.slot]
  have hl : t.listedHandles = s.listedHandles := by unfold State.listedHandles; rw [h.time, h.travel]
  refine ⟨hl ▸ ag.once, ?_, ?_, ?_, ?_, ?_, ?_, ag.nodup⟩
  · simpa only [h.time, hw] using ag.start
  · simpa only [h.time, h.slot] using ag.finish
  · simpa only [h.travel, hw] using ag.travel
  · simpa only [State.handleOf, h.slot, hl] using ag.listed
  · simpa only [hl] using ag.out
  · simpa only [hh] using ag.hand

theorem SameSchedule.countNear {s t : State} (h : SameSchedule s t) : t.countNear = s.countNear := by
  funext c
  unfold State.countNear
  rw [h.count]

theorem SameSchedule.timely {s t : State} (h : SameSchedule s t) (ht : Timely s) : Timely t := by
  refine ⟨fun i => ?_, h.time ▸ ht.time, ?_⟩
  · rw [h.slot, h.now]
    exact ht.slots i
  · rw [h.travel, h.countNear]
    exact ht.travel

theorem SameSchedule.held {s t : State} (h : SameSchedule s t) (hh : HoldersHeld s) : HoldersHeld t :=
  hh.fewer h.policy (fun l => by rw [h.holders]) fun l b a _ ha hl =>
    ⟨a, by rw [holdingAction_of_slot_eq (h.slot _), ha], hl⟩

theorem SameSchedule.expired {s t : State} (h : SameSchedule s t) (he : Expired s) : Expired t := by
  constructor
  · rw [h.time, h.now]
    exact he.keys
  · rw [h.travel, h.count]
    exact he.counts

theorem SameSchedule.within {s t : State} {B : Nat} (h : SameSchedule s t) (hs : SerialsWithin B s) :
    SerialsWithin B t := by
  constructor
  · rw [h.time, h.serial]
    exact hs.time
  · rw [h.travel, h.serial]
    exact hs.travel

theorem SameSchedule.stand {s t : State} (h : SameSchedule s t) (hs : SerialsStand s) : SerialsStand t := by
  constructor
  · rw [h.time]
    exact hs.time
  · rw [h.travel, h.countNear]
    exact hs.travel

theorem SameSchedule.weight {s t : State} (h : SameSchedule s t) : Config.weight (V, t) = Config.weight (V, s) := by
  rw [weight_mk, weight_mk]
  unfold State.expiryBound State.slot
  rw [h.slots, h.time, h.travel]

/-! ## States in order -/

/-- Serials stand in order, and have credit enough for what one event can still have join, up to `C` in all. -/
structure Credited (C : Nat) (V : List Handle) (s : State) : Prop where
  stand : SerialsStand s
  credit : ∃ B, SerialsWithin B s ∧ B + Config.weight (V, s) ≤ C

/-- The state is in order, the actions of `V` being in hand. -/
structure Orderly (k j : Prop) (C : Nat) (V : List Handle) (s : State) : Prop where
  agree : AgreeBut V s
  held : k → HoldersHeld s
  timely : k → Timely s
  serials : j → Credited C V s

/-- What is known of serials is known with the order of the lists; and the credit is within the span of their comparison. -/
structure Spans (k j : Prop) (C : Nat) : Prop where
  order : j → k
  credit : j → C < 2 ^ 31

theorem SameSchedule.orderly {s t : State} {C : Nat} (h : SameSchedule s t) (o : Orderly k j C V s) :
    Orderly k j C V t := by
  refine ⟨h.agree o.agree, fun c => h.held (o.held c), fun c => h.timely (o.timely c), fun c => ?_⟩
  obtain ⟨hs, B, hw, hle⟩ := o.serials c
  exact ⟨h.stand hs, B, h.within hw, by rwa [h.weight]⟩

theorem Orderly.mono {s : State} {C D : Nat} (o : Orderly k j C V s) (hd : C ≤ D) : Orderly k j D V s := by
  refine ⟨o.agree, o.held, o.timely, fun c => ?_⟩
  obtain ⟨hs, B, hw, hle⟩ := o.serials c
  exact ⟨hs, B, hw, by omega⟩

/-- A chain of moves keeps the order; what joins beyond what the measure goes down is to be credited. -/
theorem Orderly.work {C D : Nat} {J w} {c d : Config} (o : Orderly k j C c.1 c.2) (hs : Spans k j D) (h : Work k J w c d)
    (hle : C + J.length ≤ D + w) : Orderly k j D d.1 d.2 := by
  refine ⟨h.agree o.agree, fun x => h.holdersHeld x (o.held x), fun x => h.timely x o.agree (o.timely x), fun x => ?_⟩
  obtain ⟨hst, B, hw, hc⟩ := o.serials x
  have hD := hs.credit x
  have hweight : Config.weight d + w ≤ Config.weight c := h.weight o.agree
  have hcw : B + Config.weight c ≤ C := hc
  exact ⟨h.serialsStand (hs.order x) o.agree (o.timely (hs.order x)) hw (by omega) hst, B + J.length,
    h.serialsWithin hw (by omega), show B + J.length + Config.weight d ≤ D by omega⟩

/-- With no slot in use and both lists empty, nothing is to be credited but what is in hand. -/
theorem Credited.of_emptied {C : Nat} {s : State} (h : s.emptied) (hC : V.length ≤ C) : Credited C V s := by
  have h' := h
  obtain ⟨-, ht, hv⟩ := h
  refine ⟨⟨by simp [ht], by simp [hv]⟩, 0, ⟨by simp [ht], by simp [hv]⟩, ?_⟩
  rw [weight_mk, h'.expiryBound]
  omega

/-- With no slot in use and both lists empty, the state is in order. -/
theorem Orderly.of_emptied {C : Nat} {s : State} (h : s.emptied) (hV : V.Nodup) (hh : k → ∀ l, (s.output l).holders = [])
    (hC : V.length ≤ C) : Orderly k j C V s :=
  ⟨.of_emptied h hV, fun c => .of_empty (hh c), fun _ => .of_emptied h, fun _ => .of_emptied h hC⟩

theorem Expired.of_emptied {s : State} (h : s.emptied) : Expired s := by
  obtain ⟨-, ht, hv⟩ := h
  exact ⟨by simp [ht], by simp [hv]⟩

/-! ## The expiry of the lists keeps the order -/

theorem Orderly.ran {C : Nat} {s t : State} (o : Orderly k j C V s) (hs : Spans k j C) (h : RunsOut k V s t) :
    Orderly k j C V t := by
  obtain ⟨J, w, hw, hle⟩ := h.work
  exact o.work hs hw (by omega)

theorem Expired.expiring {s : State} (h : Expired s) (hh : HoldersHeld s) (whole : Bool) (standing : List Handle) :
    Expiring ⟨whole, standing, none⟩ [] s :=
  ⟨by simp, hh, by simp, fun e he => .inr (.inl (h.counts e he)), fun e he _ => .inr (h.keys e he)⟩

theorem expireTimeList_runsOut {s : State} (ag : AgreeBut V s) (hk : k → HoldersHeld s ∧ Timely s ∧ Expired s) :
    RunsOut k V s (expireTimeList s) :=
  runLists_runsOut ag (by simp) (fun c => ⟨(hk c).2.2.expiring (hk c).1 _ _, (hk c).2.1⟩) (fun _ => le_rfl)

theorem mem_travelUrgent_iff {h x : Handle} {d : Due} : x ∈ travelUrgent h d ↔ x = h ∧ d.base = .travel := by
  cases d <;> simp [travelUrgent, Due.base]

/-- An action in hand joins its list, and is taken if its due is not ahead (R3, R14). -/
theorem joinAction_orderly {C : Nat} {s : State} {h : Handle} (o : Orderly k j C (h :: V) s)
    (hs : Spans k j (C + 1)) (he : k → Expired s) :
    Orderly k j (C + 1) V (joinAction h s) ∧ (k → Expired (joinAction h s)) := by
  unfold joinAction
  cases hw : s.waitingAction h with
  | none =>
    have hn : s.actionOf h = none := by
      cases ha : s.actionOf h with
      | none => rfl
      | some a =>
        have hh := o.agree.hand h List.mem_cons_self
        rcases State.actionOf_iff.mp ha with c | c
        · rw [hw] at c
          cases c
        · rw [hh] at c
          cases c
    exact ⟨o.work (c := (h :: V, s)) hs (Move.drop hn).work (by simp; omega), he⟩
  | some a =>
    have hnear : k → s.travelNear := fun c e hm => countNear_of_ahead ((he c).counts e hm)
    have hfile := (Move.file (k := k) (V := V) hw hnear).work
    have hout := o.agree.out h List.mem_cons_self
    have o' : Orderly k j (C + 1) V (joinStart h a.due s) := o.work (c := (h :: V, s)) hs hfile (by simp)
    have hrun : RunsOut k V (joinStart h a.due s)
        (expireLists ⟨false, s.listedHandles, none⟩ (travelUrgent h a.due) (joinStart h a.due s)) := by
      refine runLists_runsOut o'.agree (fun u hu => ?_) (fun c => ⟨⟨travelUrgent_length _ _, o'.held c, by simp, ?_, ?_⟩,
        o'.timely c⟩) (fun _ => le_rfl)
      · rw [(mem_travelUrgent_iff.mp hu).1]
        exact (List.nodup_cons.mp o.agree.nodup).1
      · intro e hm
        rcases hfile.entriesFrom.travel e hm with hm | hm
        · rw [show (joinStart h a.due s).timebase = s.timebase from hfile.timebase]
          exact .inr (.inl ((he c).counts e hm))
        · obtain ⟨h1, h2⟩ : e.handle = h ∧ Base.travel = a.due.base := by simpa using hm
          exact .inl (mem_travelUrgent_iff.mpr ⟨h1, h2.symm⟩)
      · intro e hm hst
        have hst' : e.handle ∈ s.listedHandles := List.contains_iff_mem.mp hst
        rcases hfile.entriesFrom.time e hm with hm | hm
        · rw [show (joinStart h a.due s).now = s.now by
            unfold State.now; rw [show (joinStart h a.due s).timebase = s.timebase from hfile.timebase]]
          exact .inr ((he c).keys e hm)
        · obtain ⟨h1, -⟩ : e.handle = h ∧ Base.time = a.due.base := by simpa using hm
          rw [h1] at hst'
          exact absurd hst' hout
    exact ⟨o'.ran hs hrun, hrun.expired⟩

end Sys2Proof.Machine
end

