-- ==== Sys2Proof/Proofs/Settled.lean ====
section
/-! PROOFS. A settled state: in order, nothing in hand, nothing left that is to expire, the bounds of the input filters and
the templates kept. Chains of moves, the expiry of the lists, allocation and the firing of rules keep it. -/

namespace Sys2Proof.Machine

variable {k j : Prop} {V : List Handle} {C D : Nat}

/-! ## Settled states -/

/-- The bounds of the input filters and of the templates, which the order of the lists rests on. -/
structure Statics (s : State) : Prop where
  widths : ∀ l, (s.input l).width ≤ 1023
  qualified : ∀ l q, (s.input l).qual = some q → (s.now - q.rawTick).toNat ≤ (s.input l).width
  templates : ∀ r, ∀ t ∈ (s.rule r).active.templates ++ (s.rule r).staged.templates, t.repeats ≤ 255

theorem Statics.congr {s t : State} (h : Statics s) (hn : t.now = s.now) (hi : ∀ l, t.input l = s.input l)
    (hr : ∀ r, (t.rule r).active.templates = (s.rule r).active.templates
      ∧ (t.rule r).staged.templates = (s.rule r).staged.templates) : Statics t := by
  refine ⟨fun l => ?_, fun l q => ?_, fun r => ?_⟩
  · rw [hi]
    exact h.widths l
  · rw [hi, hn]
    exact h.qualified l q
  · rw [(hr r).1, (hr r).2]
    exact h.templates r

theorem OnlyWork.statics {s t : State} (w : OnlyWork s t) (h : Statics s) : Statics t :=
  h.congr w.now (fun l => by simp [State.input, w.inputs]) fun r => by simp [State.rule, w.rules]

/-- A state between two events is settled. -/
structure Settled (k j : Prop) (C : Nat) (s : State) : Prop where
  order : Orderly k j C [] s
  expired : k → Expired s
  statics : k → Statics s

theorem Settled.mono {s : State} (h : Settled k j C s) (hd : C ≤ D) : Settled k j D s :=
  ⟨h.order.mono hd, h.expired, h.statics⟩

theorem SameSchedule.settled {s t : State} (h : SameSchedule s t) (hs : Settled k j C s) (ht : k → Statics t) :
    Settled k j C t :=
  ⟨h.orderly hs.order, fun c => h.expired (hs.expired c), ht⟩

/-- What changes nothing of the schedule, the outputs, the timebase, the inputs and the rules keeps a state settled. -/
theorem Settled.congr {s t : State} (h : Settled k j C s) (hs : t.sched = s.sched) (ho : t.outputs = s.outputs)
    (hb : t.timebase = s.timebase) (hi : t.inputs = s.inputs) (hr : t.rules = s.rules) : Settled k j C t :=
  (SameSchedule.of_eq hs hb ho).settled h fun c => (h.statics c).congr (by simp [State.now, hb])
    (fun l => by simp [State.input, hi]) (fun r => by simp [State.rule, hr])

theorem Move.onlyWork {J w} {c d : Config} (m : Move k J w c d) : OnlyWork c.2 d.2 := by
  cases m with
  | notes n => exact n.onlyWork
  | file _ _ => exact joinStart_onlyWork _ _ _
  | _ => rfl

theorem Work.onlyWork {J w} {c d : Config} (h : Work k J w c d) : OnlyWork c.2 d.2 := by
  induction h with
  | done => exact .refl _
  | step m _ ih => exact m.onlyWork.trans ih

/-- Where nothing joins, what has expired stays so. -/
theorem Work.expired {w} {c d : Config} (h : Work k [] w c d) (he : Expired c.2) : Expired d.2 := by
  have hn : d.2.now = c.2.now := by unfold State.now; rw [h.timebase]
  refine ⟨fun e hm => ?_, fun e hm => ?_⟩
  · rw [hn]
    exact he.keys e ((h.entriesFrom.time e hm).resolve_right (by simp))
  · rw [h.timebase]
    exact he.counts e ((h.entriesFrom.travel e hm).resolve_right (by simp))

/-- A chain of moves in which nothing joins keeps a state settled. -/
theorem Settled.work {s t : State} {w} (h : Settled k j C s) (hs : Spans k j C) (hw : Work k [] w ([], s) ([], t)) :
    Settled k j C t :=
  ⟨h.order.work (c := ([], s)) (d := ([], t)) hs hw (by simp), fun c => hw.expired (h.expired c),
    fun c => hw.onlyWork.statics (h.statics c)⟩

theorem Settled.noted {s t : State} (h : Settled k j C s) (hs : Spans k j C) (n : Noted s t) : Settled k j C t :=
  h.work hs n.work

theorem Settled.of_emptied {s : State} (h : s.emptied) (hh : k → ∀ l, (s.output l).holders = []) (ht : k → Statics s) :
    Settled k j C s :=
  ⟨.of_emptied h List.nodup_nil hh (by simp), fun _ => .of_emptied h, ht⟩

theorem Spans.mono (h : Spans k j D) (hc : C ≤ D) : Spans k j C := ⟨h.order, fun c => by have := h.credit c; omega⟩

/-! ## Allocation (R3, R4) -/

theorem allocate_slot (i : SlotNo) (a : Action) (s : State) (x : SlotNo) :
    (allocate i a s).slot x = if x = i then ⟨(s.slot i).gen + 1, .waiting a⟩ else s.slot x :=
  State.slot_putSlot _ _ _ _

/-- The handle that an allocation gives. -/
theorem allocate_handleOf (i : SlotNo) (a : Action) (s : State) :
    (allocate i a s).handleOf i = ⟨i, (s.slot i).gen + 1⟩ := by
  unfold State.handleOf
  rw [allocate_slot, if_pos rfl]

theorem AgreeBut.perm {V' : List Handle} {s : State} (h : AgreeBut V s) (hp : V.Perm V') : AgreeBut V' s :=
  ⟨h.once, h.start, h.finish, h.travel, fun i hi => (h.listed i hi).imp_right hp.mem_iff.mp,
    fun x hx => h.out x (hp.mem_iff.mpr hx), fun x hx => h.hand x (hp.mem_iff.mpr hx), hp.nodup_iff.mp h.nodup⟩

theorem Orderly.perm {V' : List Handle} {s : State} (h : Orderly k j C V s) (hp : V.Perm V') : Orderly k j C V' s := by
  refine ⟨h.agree.perm hp, h.held, h.timely, fun c => ?_⟩
  obtain ⟨hs, B, hw, hle⟩ := h.serials c
  exact ⟨hs, B, hw, by rwa [weight_mk, ← hp.length_eq]⟩

/-- What is listed is not in a FREE slot. -/
theorem AgreeBut.slot_ne {s : State} (ag : AgreeBut V s) {i : SlotNo} (hf : (s.slot i).isFree = true) {h : Handle}
    (hm : h ∈ s.listedHandles) : h.slot ≠ i := by
  rintro rfl
  have := (actionOf_isSome.mp (ag.live hm)).2
  rw [hf] at this
  cases this

theorem AgreeBut.allocated {s : State} {i : SlotNo} (ag : AgreeBut V s) (a : Action) (hf : (s.slot i).isFree = true)
    (hV : ∀ v ∈ V, v.slot ≠ i) : AgreeBut ((allocate i a s).handleOf i :: V) (allocate i a s) := by
  have hl : (allocate i a s).listedHandles = s.listedHandles := rfl
  have hs : ∀ x, x ≠ i → (allocate i a s).slot x = s.slot x := fun x hx => by rw [allocate_slot, if_neg hx]
  have hw : ∀ h : Handle, h.slot ≠ i → (allocate i a s).waitingAction h = s.waitingAction h := fun h hx => by
    unfold State.waitingAction; rw [hs _ hx]
  have hh : ∀ h : Handle, h.slot ≠ i → (allocate i a s).holdingAction h = s.holdingAction h := fun h hx => by
    unfold State.holdingAction; rw [hs _ hx]
  have hi : ((allocate i a s).handleOf i).slot = i := rfl
  have htime : ∀ e ∈ s.sched.timeList, e.handle.slot ≠ i := fun e he =>
    ag.slot_ne hf (List.mem_append_left _ (List.mem_map_of_mem he))
  refine ⟨ag.once, fun e he hp => ?_, fun e he hp => ?_, fun e he => ?_, fun x hx => ?_, fun h hm => ?_, fun h hm => ?_,
    List.nodup_cons.mpr ⟨fun hm => hV _ hm hi, ag.nodup⟩⟩
  · rw [hw _ (htime e he)]
    exact ag.start e he hp
  · rw [hs _ (htime e he)]
    exact ag.finish e he hp
  · rw [hw _ (ag.slot_ne hf (List.mem_append_right _ (List.mem_map_of_mem he)))]
    exact ag.travel e he
  · by_cases hxi : x = i
    · rw [hxi]
      exact .inr List.mem_cons_self
    · rw [hs x hxi] at hx
      have : (allocate i a s).handleOf x = s.handleOf x := by unfold State.handleOf; rw [hs x hxi]
      rw [this]
      exact (ag.listed x hx).imp_right (List.mem_cons_of_mem _)
  · rw [hl]
    intro hc
    rcases List.mem_cons.mp hm with rfl | hm
    · exact ag.slot_ne hf hc hi
    · exact ag.out h hm hc
  · rcases List.mem_cons.mp hm with rfl | hm
    · rw [← Option.not_isSome_iff_eq_none]
      intro hc
      obtain ⟨b, hb⟩ := Option.isSome_iff_exists.mp hc
      obtain ⟨f, hf'⟩ := State.holdingAction_eq.mp hb
      rw [hi, allocate_slot, if_pos rfl] at hf'
      injection hf' with _ hst
      cases hst
    · rw [hh h (hV h hm)]
      exact ag.hand h hm

/-- An action is in time at its allocation. -/
def Action.freshInTime (now : Tick) (a : Action) : Prop :=
  a.repeatsLeft ≤ 255 ∧ ∀ t, a.due = .time t → dueInTime now a.repeatsLeft t

theorem Orderly.allocated {s : State} {i : SlotNo} {a : Action} (o : Orderly k j C V s) (hjk : j → k)
    (hf : (s.slot i).isFree = true) (hV : ∀ v ∈ V, v.slot ≠ i) (ha : k → a.freshInTime s.now) :
    Orderly k j (C + 1537) ((allocate i a s).handleOf i :: V) (allocate i a s) := by
  have hs : ∀ x, x ≠ i → (allocate i a s).slot x = s.slot x := fun x hx => by rw [allocate_slot, if_neg hx]
  refine ⟨o.agree.allocated a hf hV, fun c => (o.held c).slotReplaced (Slot.notHolding_of_isFree hf) rfl hs, fun c => ?_,
    fun c => ?_⟩
  · refine (o.timely c).fewer (j := i) rfl hs ?_ (.refl _) (.refl _)
    rw [allocate_slot, if_pos rfl]
    exact ha c
  · obtain ⟨⟨h1, h2⟩, B, hw, hle⟩ := o.serials c
    refine ⟨⟨h1, h2⟩, B, ⟨hw.time, hw.travel⟩, ?_⟩
    have hsum := sum_eventsLeft_replaced (s := s) (t := allocate i a s) i hs
    rw [allocate_slot, if_pos rfl] at hsum
    have hr := (ha (hjk c)).1
    rw [weight_mk, expiryBound_eq] at hle ⊢
    rw [show (allocate i a s).listedHandles = s.listedHandles from rfl, List.length_cons]
    simp only [Slot.eventsLeft] at hsum hle ⊢
    omega

theorem allocateAll_slot_ne {l : List (SlotNo × Action)} {i : SlotNo} (h : i ∉ l.map Prod.fst) {s : State} :
    (allocateAll l s).slot i = s.slot i := by
  induction l generalizing s with
  | nil => rfl
  | cons p rest ih =>
    obtain ⟨x, a⟩ := p
    obtain ⟨hx, hr⟩ := List.ne_and_not_mem_of_not_mem_cons h
    rw [allocateAll, ih hr, allocate_slot, if_neg hx]

/-- Slots are allocated one after another, each FREE, to actions that are in time. -/
theorem allocateAll_orderly {l : List (SlotNo × Action)} : ∀ {C : Nat} {V : List Handle} {s : State}, Orderly k j C V s →
    (j → k) → (l.map Prod.fst).Nodup → (∀ p ∈ l, (s.slot p.1).isFree = true) →
    (∀ p ∈ l, ∀ v ∈ V, v.slot ≠ p.1) → (k → ∀ p ∈ l, p.2.freshInTime s.now) →
    Orderly k j (C + 1537 * l.length) (V ++ (l.map Prod.fst).map (allocateAll l s).handleOf) (allocateAll l s) := by
  induction l with
  | nil => intro C V s o _ _ _ _ _; simpa [allocateAll] using o
  | cons p rest ih =>
    intro C V s o hjk hnd hf hV ha
    obtain ⟨i, a⟩ := p
    obtain ⟨hni, hnd'⟩ := List.nodup_cons.mp hnd
    have hne : ∀ q ∈ rest, q.1 ≠ i := fun q hq c => hni (List.mem_map.mpr ⟨q, hq, c⟩)
    have h1 := o.allocated hjk (hf _ List.mem_cons_self) (hV _ List.mem_cons_self) fun c => ha c _ List.mem_cons_self
    have hp : ((allocate i a s).handleOf i :: V).Perm (V ++ [(allocate i a s).handleOf i]) :=
      (List.perm_append_singleton _ _).symm
    have h2 := ih (h1.perm hp) hjk hnd'
      (fun q hq => by rw [allocate_slot, if_neg (hne q hq)]; exact hf q (List.mem_cons_of_mem _ hq))
      (fun q hq v hv => ?_) (fun c q hq => ha c q (List.mem_cons_of_mem _ hq))
    · have hkeep : (allocateAll rest (allocate i a s)).handleOf i = (allocate i a s).handleOf i := by
        unfold State.handleOf
        rw [allocateAll_slot_ne hni]
      rw [show allocateAll ((i, a) :: rest) s = allocateAll rest (allocate i a s) from rfl]
      simp only [List.map_cons, hkeep, List.length_cons] at h2 ⊢
      rw [List.append_cons, show C + 1537 * (rest.length + 1) = C + 1537 + 1537 * rest.length by ring]
      exact h2
    · rcases List.mem_append.mp hv with hv | hv
      · exact hV q (List.mem_cons_of_mem _ hq) v hv
      · rw [List.mem_singleton.mp hv]
        exact fun c => hne q hq c.symm

theorem allocateAll_expired {l : List (SlotNo × Action)} {s : State} (h : Expired s) : Expired (allocateAll l s) := by
  induction l generalizing s with
  | nil => exact h
  | cons p rest ih => exact ih ⟨h.keys, h.counts⟩

theorem allocateAll_onlyWork (l : List (SlotNo × Action)) (s : State) : OnlyWork s (allocateAll l s) := by
  induction l generalizing s with
  | nil => exact .refl _
  | cons p rest ih => exact OnlyWork.trans (t := allocate p.1 p.2 s) rfl (ih _)

/-! ## Joining, and the two expiries (R3, R8, R9) -/

theorem joinAll_orderly {hs : List Handle} : ∀ {C : Nat} {s : State}, Orderly k j C hs s → Spans k j (C + hs.length) →
    (k → Expired s) → Orderly k j (C + hs.length) [] (joinAll hs s) ∧ (k → Expired (joinAll hs s)) := by
  induction hs with
  | nil => exact fun o _ he => ⟨o, he⟩
  | cons h hs ih =>
    intro C s o hsp he
    rw [List.length_cons] at hsp ⊢
    obtain ⟨o', he'⟩ := joinAction_orderly o (hsp.mono (by omega)) he
    have := ih o' (hsp.mono (by omega)) he'
    rwa [show C + 1 + hs.length = C + (hs.length + 1) by omega] at this

theorem joinAll_onlyWork (hs : List Handle) (s : State) : OnlyWork s (joinAll hs s) := by
  induction hs generalizing s with
  | nil => exact .refl _
  | cons h hs ih => exact (joinAction_onlyWork h s).trans (ih _)

/-- Slots are allocated to actions, which then join their lists (R3, R104). -/
theorem Settled.joined {s : State} {l : List (SlotNo × Action)} (h : Settled k j C s)
    (hs : Spans k j (C + 1538 * l.length)) (hnd : (l.map Prod.fst).Nodup)
    (hf : ∀ p ∈ l, (s.slot p.1).isFree = true) (ha : k → ∀ p ∈ l, p.2.freshInTime s.now) :
    Settled k j (C + 1538 * l.length) (joinAll ((l.map Prod.fst).map (allocateAll l s).handleOf) (allocateAll l s)) := by
  have o := allocateAll_orderly h.order hs.order hnd hf (by simp) ha
  rw [List.nil_append] at o
  have hlen : ((l.map Prod.fst).map (allocateAll l s).handleOf).length = l.length := by simp
  have hC : C + 1537 * l.length + ((l.map Prod.fst).map (allocateAll l s).handleOf).length = C + 1538 * l.length := by
    rw [hlen]
    omega
  obtain ⟨o', he⟩ := joinAll_orderly o (by rwa [hC]) fun c => allocateAll_expired (h.expired c)
  rw [hC] at o'
  exact ⟨o', he, fun c => ((allocateAll_onlyWork l s).trans (joinAll_onlyWork _ _)).statics (h.statics c)⟩

theorem expireTimeList_settled {s : State} (h : Settled k j C s) (hs : Spans k j C) :
    Settled k j C (expireTimeList s) := by
  have hr := expireTimeList_runsOut h.order.agree fun c => ⟨h.order.held c, h.order.timely c, h.expired c⟩
  exact ⟨h.order.ran hs hr, hr.expired, fun c => (expireLists_onlyWork _ _ _).statics (h.statics c)⟩

/-- The state in which the travel count has advanced by one. -/
def State.advanced (s : State) : State :=
  s.withTimebase { s.timebase with travelCount := s.timebase.travelCount + 1 }

theorem countNear_advanced {s : State} {c : Count} (h : countAhead s.timebase.travelCount c = true) :
    s.advanced.countNear c = true := by
  unfold countAhead Config.countWindow at h
  simp only [Bool.and_eq_true, decide_eq_true_eq] at h
  refine decide_eq_true ?_
  show (c - (s.timebase.travelCount + 1)).toNat < 2 ^ 30
  bv_omega

theorem advanced_orderly {s : State} (h : Settled k j C s) (hjk : j → k) : Orderly k j C [] s.advanced := by
  have hall : k → s.advanced.sched.travelList.filter (fun e => s.advanced.countNear e.key) = s.sched.travelList :=
    fun c => List.filter_eq_self.mpr fun e he => countNear_advanced ((h.expired c).counts e he)
  have hall' : k → s.sched.travelList.filter (fun e => s.countNear e.key) = s.sched.travelList :=
    fun c => List.filter_eq_self.mpr fun e he => countNear_of_ahead ((h.expired c).counts e he)
  refine ⟨h.order.agree.congr rfl, fun c => (h.order.held c).congr (fun _ => rfl) rfl, fun c => ?_, fun c => ?_⟩
  · have := (h.order.timely c).travel
    rw [hall' c] at this
    exact ⟨(h.order.timely c).slots, (h.order.timely c).time, by rwa [hall c]⟩
  · obtain ⟨⟨h1, h2⟩, B, hw, hle⟩ := h.order.serials c
    rw [hall' (hjk c)] at h2
    exact ⟨⟨h1, by rwa [hall (hjk c)]⟩, B, hw.congr rfl, by rwa [weight_congr rfl]⟩

/-- The travel count advances on an edge of a filter width ago at most, and the travel list expires (R9, R53). -/
theorem expireTravelList_settled {s : State} {edge : Tick} (h : Settled k j C s) (hs : Spans k j C)
    (he : k → (s.now - edge).toNat ≤ 1023) : Settled k j C (expireTravelList edge s.advanced) := by
  have o := advanced_orderly h hs.order
  have hr : RunsOut k [] s.advanced (expireTravelList edge s.advanced) :=
    runLists_runsOut o.agree (by simp) (fun c => ⟨⟨by simp, o.held c, fun t ht => by cases ht; exact he c,
      fun e hm => .inr (.inr ⟨rfl, countNear_advanced ((h.expired c).counts e hm)⟩),
      fun e hm _ => .inr ((h.expired c).keys e hm)⟩, o.timely c⟩) (fun _ => le_rfl)
  exact ⟨o.ran hs hr, hr.expired, fun c => (expireLists_onlyWork _ _ _).statics
    ((h.statics c).congr rfl (fun _ => rfl) (fun _ => ⟨rfl, rfl⟩))⟩

/-! ## Rules (R98 to R108) -/

theorem freeSlots_nodup (s : State) : s.freeSlots.Nodup := (List.nodup_finRange 96).filter _

theorem mem_freeSlots {s : State} {i : SlotNo} : i ∈ s.freeSlots ↔ (s.slot i).isFree = true := by
  unfold State.freeSlots allSlots
  simp

theorem freeCount_le (s : State) : s.freeCount ≤ 96 := by
  have := List.length_filter_le (fun i => (s.slot i).isFree) allSlots
  rw [show allSlots.length = 96 by simp [allSlots]] at this
  exact this

theorem freeSlots_length (s : State) : s.freeSlots.length = s.freeCount := rfl

/-- A rule's record is replaced, the templates of its copies as they were. -/
theorem Settled.putRule {s : State} (h : Settled k j C s) (r : RuleNo) {x : Rule}
    (ha : x.active.templates = (s.rule r).active.templates) (hst : x.staged.templates = (s.rule r).staged.templates) :
    Settled k j C (s.putRule r x) := by
  refine (SameSchedule.of_eq (s := s) (t := s.putRule r x) rfl rfl rfl).settled h fun c =>
    (h.statics c).congr rfl (fun _ => rfl) fun q => ?_
  by_cases hq : q = r
  · rw [hq, State.rule_putRule_self]
    exact ⟨ha, hst⟩
  · rw [State.rule_putRule_ne _ _ _ _ hq]
    exact ⟨rfl, rfl⟩

theorem testLimit_settled {s : State} (h : Settled k j C s) (hs : Spans k j C) (r : RuleNo) :
    Settled k j C (testLimit r s) := by
  unfold testLimit
  split
  · exact (h.putRule r (x := { s.rule r with state := .spent }) rfl rfl).noted hs (createReport_noted _ _)
  · exact h

/-- A due at most 2^32 ticks after a timestamp of a filter width ago is in time. -/
theorem dueInTime_offset {now t o : Tick} {n : Nat} (ht : (now - t).toNat ≤ 1023) (ho : o.toNat < 2 ^ 32) (hn : n ≤ 255) :
    dueInTime now n (t + o) := by
  have hm : (n + 1) * 2 ^ 25 ≤ 2 ^ 33 := (Nat.mul_le_mul_right (2 ^ 25) (show n + 1 ≤ 256 by omega)).trans (by norm_num)
  unfold dueInTime
  generalize (n + 1) * 2 ^ 25 = m at *
  bv_omega

/-- The action of a template is in time at the edge that fires its rule. -/
theorem templateAction_inTime {s : State} (hst : Statics s) {r : RuleNo} {e : EdgeEvent} {t : Template}
    (he : (s.now - e.timestamp).toNat ≤ 1023) (ht : t ∈ (s.rule r).active.templates) :
    (templateAction r (s.rule r) e t).freshInTime s.now := by
  have hr := hst.templates r t (List.mem_append_left _ ht)
  refine ⟨hr, fun d hd => ?_⟩
  have hd' : e.timestamp + t.offset.setWidth 48 = d := by
    have : templateDue (s.rule r).active.base t e = .time d := hd
    cases hb : (s.rule r).active.base with
    | time => rw [hb] at this; injection this
    | travel => rw [hb] at this; cases this
  have ho : (t.offset.setWidth 48).toNat < 2 ^ 32 := by
    rw [BitVec.toNat_setWidth]
    have := t.offset.isLt
    omega
  subst hd'
  show dueInTime s.now t.repeats (e.timestamp + t.offset.setWidth 48)
  exact dueInTime_offset he ho hr

theorem zip_map_fst {α β : Type} {l : List α} {m : List β} (h : l.length = m.length) : (l.zip m).map Prod.fst = l := by
  rw [List.map_fst_zip]
  omega

/-- A rule fires in slots that are FREE (R104 to R107). -/
theorem fireRule_settled {s : State} {r : RuleNo} {slots : List SlotNo} {e : EdgeEvent} (h : Settled k j C s)
    (hs : Spans k j (C + 1538 * slots.length)) (hlen : slots.length = (s.rule r).active.templates.length)
    (hnd : slots.Nodup) (hf : ∀ i ∈ slots, (s.slot i).isFree = true) (he : k → (s.now - e.timestamp).toNat ≤ 1023) :
    Settled k j (C + 1538 * slots.length) (fireRule r slots e s) := by
  let l := slots.zip ((s.rule r).active.templates.map (templateAction r (s.rule r) e))
  have hfst : l.map Prod.fst = slots := zip_map_fst (by rw [List.length_map, hlen])
  have hl : l.length = slots.length := by rw [← hfst, List.length_map]
  have h1 := h.joined (l := l) (by rwa [hl]) (by rwa [hfst])
    (fun p hp => hf _ (hfst ▸ List.mem_map_of_mem hp)) (fun c p hp => by
      obtain ⟨-, hp2⟩ := List.of_mem_zip (a := p.1) (b := p.2) hp
      obtain ⟨t, ht, hte⟩ := List.mem_map.mp hp2
      rw [← hte]
      exact templateAction_inTime (h.statics c) (he c) ht)
  rw [hfst, hl] at h1
  have h3 := h1.putRule r (x := { (joinAll (slots.map (allocateAll l s).handleOf) (allocateAll l s)).rule r with
    fired := (s.rule r).nextFiring, lastFiring := some e.timestamp }) rfl rfl
  unfold fireRule
  refine testLimit_settled ?_ hs r
  split
  · exact h3.noted hs (createReport_noted _ _)
  · exact h3

theorem dropFiring_settled {s : State} (h : Settled k j C s) (hs : Spans k j C) (r : RuleNo) (asked free : Nat)
    (e : EdgeEvent) : Settled k j C (dropFiring r asked free e s) := by
  have h1 := h.noted hs (countFault_noted .poolExhausted (some (.ruleOrigin r)) s)
  exact (h1.putRule r (x := { (countFault .poolExhausted (some (.ruleOrigin r)) s).rule r with
    dropped := satInc Config.countCap ((countFault .poolExhausted (some (.ruleOrigin r)) s).rule r).dropped })
    rfl rfl).noted hs (createReport_noted _ _)

theorem requestSlots_settled {s : State} {r : RuleNo} {e : EdgeEvent} (h : Settled k j C s)
    (hs : Spans k j (C + 1538 * 96)) (he : k → (s.now - e.timestamp).toNat ≤ 1023) :
    Settled k j (C + 1538 * 96) (requestSlots r e s) := by
  unfold requestSlots
  dsimp only
  split
  · rename_i hfit
    have hlen : (s.freeSlots.take (s.rule r).active.templates.length).length = (s.rule r).active.templates.length := by
      rw [List.length_take, freeSlots_length]
      omega
    have h96 := freeCount_le s
    have hmul : 1538 * (s.freeSlots.take (s.rule r).active.templates.length).length ≤ 1538 * 96 :=
      Nat.mul_le_mul_left _ (by omega)
    exact (fireRule_settled h (hs.mono (by omega)) hlen ((freeSlots_nodup s).sublist (List.take_sublist _ _))
      (fun i hi => mem_freeSlots.mp (List.mem_of_mem_take hi)) he).mono (by omega)
  · exact (dropFiring_settled h (hs.mono (by omega)) r _ _ e).mono (by omega)

theorem evalRule_settled {s : State} {r : RuleNo} {e : EdgeEvent} (h : Settled k j C s)
    (hs : Spans k j (C + 1538 * 96)) (he : k → (s.now - e.timestamp).toNat ≤ 1023) :
    Settled k j (C + 1538 * 96) (evalRule r e s) := by
  unfold evalRule
  dsimp only
  split
  · exact h.mono (by omega)
  · split
    · exact h.mono (by omega)
    · split
      · exact (Settled.putRule (C := C + 1538 * 96) (h.mono (by omega)) r rfl rfl)
      · split
        · exact (Settled.putRule (C := C + 1538 * 96) (h.mono (by omega)) r rfl rfl)
        · exact requestSlots_settled h hs he

theorem fireRule_timebase (r : RuleNo) (slots : List SlotNo) (e : EdgeEvent) (s : State) :
    (fireRule r slots e s).timebase = s.timebase := by
  have hlimit : ∀ u : State, (testLimit r u).timebase = u.timebase := by
    intro u
    unfold testLimit
    split
    · exact (createReport_onlyWork _ _).timebase
    · rfl
  have hjoin : ∀ (hs : List Handle) (l : List (SlotNo × Action)), (joinAll hs (allocateAll l s)).timebase = s.timebase :=
    fun hs l => ((allocateAll_onlyWork l s).trans (joinAll_onlyWork hs _)).timebase
  unfold fireRule
  rw [hlimit]
  split
  · exact ((createReport_onlyWork _ _).timebase).trans (hjoin _ _)
  · exact hjoin _ _

/-- Evaluating a rule leaves the Timebase as it is. -/
theorem evalRule_timebase (r : RuleNo) (e : EdgeEvent) (s : State) : (evalRule r e s).timebase = s.timebase := by
  unfold evalRule
  dsimp only
  split
  · rfl
  · split
    · rfl
    · split
      · rfl
      · split
        · rfl
        · unfold requestSlots
          dsimp only
          split
          · exact fireRule_timebase _ _ _ _
          · exact (createReport_onlyWork _ _).timebase.trans (countFault_onlyWork _ _ _).timebase

theorem evalRules_settled {rs : List RuleNo} {e : EdgeEvent} : ∀ {C : Nat} {s : State}, Settled k j C s →
    Spans k j (C + 147648 * rs.length) → (k → (s.now - e.timestamp).toNat ≤ 1023) →
    Settled k j (C + 147648 * rs.length) (evalRules e rs s) := by
  induction rs with
  | nil => exact fun h _ _ => h
  | cons r rs ih =>
    intro C s h hs he
    rw [List.length_cons] at hs ⊢
    unfold evalRules
    split
    · have h1 := evalRule_settled (r := r) h (hs.mono (by omega)) he
      have hn : (evalRule r e s).now = s.now := by
        unfold State.now
        rw [evalRule_timebase]
      have := ih h1 (by rwa [show C + 1538 * 96 + 147648 * rs.length = C + 147648 * (rs.length + 1) by ring])
        (fun c => by rw [hn]; exact he c)
      rwa [show C + 1538 * 96 + 147648 * rs.length = C + 147648 * (rs.length + 1) by ring] at this
    · exact h.mono (by omega)

theorem evaluateEdge_settled {s : State} {e : EdgeEvent} (h : Settled k j C s) (hs : Spans k j (C + 2362368))
    (he : k → (s.now - e.timestamp).toNat ≤ 1023) : Settled k j (C + 2362368) (evaluateEdge e s) :=
  evalRules_settled (rs := allRules) h hs he

end Sys2Proof.Machine
end

