-- ==== Sys2Proof/Proofs/Events.lean ====
section
/-! PROOFS. Time that runs on, the edges of the inputs and of SYNC, and the load of the timeline keep a state settled. -/

namespace Sys2Proof.Machine

variable {k j : Prop} {C : Nat}

/-! ## Time runs on to an event of the part's own (log entry 4) -/

theorem mem_inProspect {n : Nat} {d : Option Nat} {i : Instr} : (n, i) ∈ inProspect d i ↔ d = some n := by
  cases d <;> simp [inProspect, eq_comm]

theorem timeListDue_mem_agenda {s : State} {n : Nat} (h : timeListDue s = some n) : (n, Instr.timeListExpiry) ∈ agenda s := by
  have := mem_inProspect (i := Instr.timeListExpiry).mpr h
  simp only [agenda, List.mem_append]
  exact .inl (.inl (.inl (.inl (.inl (.inl (.inl this))))))

theorem edgeDue_mem_agenda {s : State} {l : InLine} {n : Nat} (h : edgeDue l s = some n) :
    (n, Instr.inputEdgeAccepted l) ∈ agenda s := by
  have := mem_inProspect (i := Instr.inputEdgeAccepted l).mpr h
  simp only [agenda, List.mem_append, List.mem_flatMap]
  exact .inl (.inl (.inl (.inl (.inl (.inr ⟨l, List.mem_finRange l, this⟩)))))

/-- Time that runs on no further than to the next event does not pass the head of the time list, nor any entry. -/
theorem quiet_keys {s : State} {n : Nat} (ag : AgreeBut [] s) (ht : Timely s) (he : Expired s) (hq : s.quietFor n) :
    ∀ e ∈ s.sched.timeList, n ≤ (e.key - s.now).toNat := by
  intro y hy
  have hk := ht.keys ag
  have ho := ht.time
  have hkey := he.keys
  cases hl : s.sched.timeList with
  | nil =>
    rw [hl] at hy
    cases hy
  | cons e es =>
    have hd : n ≤ (e.key - s.now).toNat := by
      refine (hq _ (timeListDue_mem_agenda (by rw [timeListDue, hl]))).trans ?_
      dsimp only
      split <;> omega
    rw [hl] at hy hk ho hkey
    rcases List.mem_cons.mp hy with rfl | hy'
    · exact hd
    · refine hd.trans ?_
      have h1 := (List.pairwise_cons.mp ho).1 y hy'
      rw [TimeEntry.inOrder_iff (hk e List.mem_cons_self) (hk y hy)] at h1
      have h2 := hkey e List.mem_cons_self
      have h3 := hkey y hy
      rcases h1 with h1 | ⟨h1, -⟩
      · unfold keyRank at h1
        bv_omega
      · rw [h1]

theorem sub_elapsed {key now : Tick} {n : Nat} (h : n ≤ (key - now).toNat) :
    (key - (now + BitVec.ofNat 48 n)).toNat + n = (key - now).toNat := by
  have h1 : n < 2 ^ 48 := by have := (key - now).isLt; omega
  have h2 : (BitVec.ofNat 48 n).toNat = n := by rw [BitVec.toNat_ofNat, Nat.mod_eq_of_lt h1]
  generalize BitVec.ofNat 48 n = m at *
  subst h2
  bv_omega

theorem elapse_now (n : Nat) (s : State) : (elapse n s).now = s.now + BitVec.ofNat 48 n := rfl

theorem elapse_statics {s : State} {n : Nat} (h : Statics s) (hq : s.quietFor n) : Statics (elapse n s) := by
  refine ⟨h.widths, fun l q hl => ?_, h.templates⟩
  have hw := h.widths l
  have h1 := h.qualified l q hl
  have h2 : n ≤ ticksLeft s.now q.rawTick (s.input l).width :=
    hq _ (edgeDue_mem_agenda (l := l) (n := ticksLeft s.now q.rawTick (s.input l).width) (by
      unfold edgeDue
      rw [show (s.input l).qual = some q from hl]
      rfl))
  unfold ticksLeft at h2
  show (s.now + BitVec.ofNat 48 n - q.rawTick).toNat ≤ (s.input l).width
  have h3 : (BitVec.ofNat 48 n).toNat = n := by rw [BitVec.toNat_ofNat, Nat.mod_eq_of_lt (by omega)]
  generalize BitVec.ofNat 48 n = m at *
  bv_omega

/-- What is in use is listed, nothing being in hand. -/
theorem AgreeBut.listed_all {s : State} (ag : AgreeBut [] s) {i : SlotNo} (h : (s.slot i).isFree = false) :
    s.handleOf i ∈ s.listedHandles :=
  (ag.listed i h).resolve_right (by simp)

/-- The entry of a WAITING action of base TIME has its due as key. -/
theorem AgreeBut.entry_of_waiting {s : State} (ag : AgreeBut [] s) {i : SlotNo} {g : Gen} {a : Action} {t : Tick}
    (hs : s.slot i = ⟨g, .waiting a⟩) (hd : a.due = .time t) : ∃ e ∈ s.sched.timeList, e.key = t := by
  have hsame : ∀ {h : Handle} {b : Action}, h = s.handleOf i → s.waitingAction h = some b → b = a := by
    intro h b hh hb
    rw [hh, State.waitingAction_eq, show (s.handleOf i).slot = i from rfl, hs] at hb
    injection hb with _ hst
    injection hst with hab
    exact hab.symm
  rcases List.mem_append.mp (ag.listed_all (i := i) (by rw [hs]; rfl)) with hm | hm <;>
    obtain ⟨e, hem, heh⟩ := List.mem_map.mp hm
  · refine ⟨e, hem, ?_⟩
    cases hp : e.phase with
    | start =>
      obtain ⟨b, hb, hbd⟩ := ag.start e hem hp
      rw [hsame heh hb, hd] at hbd
      injection hbd with hbd
      exact hbd.symm
    | finish =>
      obtain ⟨b, hb⟩ := ag.finish e hem hp
      rw [heh, show (s.handleOf i).slot = i from rfl, hs] at hb
      injection hb with _ hst
      cases hst
  · obtain ⟨b, hb, hbd⟩ := ag.travel e hem
    rw [hsame heh hb, hd] at hbd
    cases hbd

/-- The entry of a HOLDING action is an END, its end the key. -/
theorem AgreeBut.entry_of_holding {s : State} (ag : AgreeBut [] s) {i : SlotNo} {g : Gen} {a : Action} {f : Tick}
    (hs : s.slot i = ⟨g, .holding a f⟩) : ∃ e ∈ s.sched.timeList, e.phase = .finish ∧ e.key = f := by
  have hno : ∀ {h : Handle} {b : Action}, h = s.handleOf i → s.waitingAction h ≠ some b := by
    intro h b hh hb
    rw [hh, State.waitingAction_eq, show (s.handleOf i).slot = i from rfl, hs] at hb
    injection hb with _ hst
    cases hst
  rcases List.mem_append.mp (ag.listed_all (i := i) (by rw [hs]; rfl)) with hm | hm <;>
    obtain ⟨e, hem, heh⟩ := List.mem_map.mp hm
  · refine ⟨e, hem, ?_⟩
    cases hp : e.phase with
    | start =>
      obtain ⟨b, hb, -⟩ := ag.start e hem hp
      exact absurd hb (hno heh)
    | finish =>
      obtain ⟨b, hb⟩ := ag.finish e hem hp
      rw [heh, show (s.handleOf i).slot = i from rfl, hs] at hb
      injection hb with _ hst
      injection hst with _ hf
      exact ⟨rfl, hf.symm⟩
  · obtain ⟨b, hb, -⟩ := ag.travel e hem
    exact absurd hb (hno heh)

theorem elapse_timely {s : State} {n : Nat} (ag : AgreeBut [] s) (ht : Timely s) (he : Expired s) (hq : s.quietFor n) :
    Timely (elapse n s) := by
  have hn := quiet_keys ag ht he hq
  refine ⟨fun i => ?_, ht.time, ht.travel⟩
  rw [show (elapse n s).slot i = s.slot i from rfl, elapse_now]
  have hs := ht.slots i
  unfold Slot.inTime at hs ⊢
  split at hs
  · trivial
  · rename_i a ha
    refine ⟨hs.1, fun t htd => .inl ?_⟩
    obtain ⟨e, hem, rfl⟩ := ag.entry_of_waiting (i := i) (show s.slot i = ⟨(s.slot i).gen, .waiting a⟩ by rw [← ha]) htd
    have h1 := sub_elapsed (hn e hem)
    have h2 := he.keys e hem
    omega
  · rename_i a f ha
    obtain ⟨h1, h2, h3⟩ := hs
    refine ⟨h1, .inl ?_, h3⟩
    obtain ⟨e, hem, -, rfl⟩ := ag.entry_of_holding (i := i) (show s.slot i = ⟨(s.slot i).gen, .holding a f⟩ by rw [← ha])
    have h4 := sub_elapsed (hn e hem)
    have h5 := he.keys e hem
    unfold endInTime at h2
    have h6 : (e.key - s.now).toNat < 2 ^ 24 := by bv_omega
    omega

/-- Time that runs on no further than to the next event keeps a state settled. -/
theorem elapse_settled {s : State} {n : Nat} (h : Settled k j C s) (hq : s.quietFor n) : Settled k j C (elapse n s) := by
  refine ⟨⟨h.order.agree.congr rfl, fun c => (h.order.held c).congr (fun _ => rfl) rfl,
    fun c => elapse_timely h.order.agree (h.order.timely c) (h.expired c) hq, fun c => ?_⟩, fun c => ⟨fun e he => ?_,
    (h.expired c).counts⟩, fun c => elapse_statics (h.statics c) hq⟩
  · obtain ⟨hst, B, hw, hle⟩ := h.order.serials c
    exact ⟨⟨hst.time, hst.travel⟩, B, hw.congr rfl, by rwa [weight_congr rfl]⟩
  · have h1 := sub_elapsed (quiet_keys h.order.agree (h.order.timely c) (h.expired c) hq e he)
    have h2 := (h.expired c).keys e he
    rw [elapse_now]
    omega

/-! ## A settled state and the invariants -/

/-- The order of the lists, with the bounds that keep it so. -/
theorem Settled.listsOrdered {s : State} (h : Settled True j C s) : ListsOrdered s := by
  have ag := h.order.agree
  have ht := h.order.timely trivial
  have he := h.expired trivial
  have hst := h.statics trivial
  have hnear : ∀ e ∈ s.sched.travelList, s.countNear e.key = true := fun e hm => countNear_of_ahead (he.counts e hm)
  refine ⟨ht.time, ?_, he.keys, fun e hm hp => ?_, he.counts, hst.widths, hst.qualified, fun i a ha => ?_, hst.templates,
    fun i g a f d hs hd => ?_⟩
  · have := ht.travel
    rwa [List.filter_eq_self.mpr hnear] at this
  · obtain ⟨a, ha⟩ := ag.finish e hm hp
    have h1 := (ht.holding ha).2.1
    have h2 := he.keys e hm
    unfold endInTime at h1
    bv_omega
  · have hs := ht.slots i
    unfold Slot.inTime at hs
    unfold Slot.action at ha
    split at hs <;> rename_i hx <;> rw [hx] at ha <;> cases ha
    · exact hs.1
    · exact hs.1
  · have := ht.slots i
    rw [hs] at this
    exact this.2.2 d hd

/-- A state whose lists agree with the pool and stand in order, its holders held, is settled. -/
theorem settled_of_ordered {s : State} (ha : ListsAgree s) (hh : HoldersHeld s) (ho : ListsOrdered s) :
    Settled True False 0 s := by
  have ag := agreeBut_nil.mpr ha
  refine ⟨⟨ag, fun _ => hh, fun _ => ⟨fun i => ?_, ho.time, ho.travel.sublist List.filter_sublist⟩, False.elim⟩,
    fun _ => ⟨ho.keys, ho.counts⟩, fun _ => ⟨ho.widths, ho.qualified, ho.templates⟩⟩
  unfold Slot.inTime
  split
  · trivial
  · rename_i a hx
    refine ⟨ho.repeats i a (by rw [Slot.action, hx]), fun t hd => .inl ?_⟩
    obtain ⟨e, hm, rfl⟩ := ag.entry_of_waiting (i := i) (show s.slot i = ⟨(s.slot i).gen, .waiting a⟩ by rw [← hx]) hd
    exact ho.keys e hm
  · rename_i a f hx
    have hs : s.slot i = ⟨(s.slot i).gen, .holding a f⟩ := by rw [← hx]
    refine ⟨ho.repeats i a (by rw [Slot.action, hx]), .inl ?_, fun t hd => ho.lag i _ a f t hs hd⟩
    obtain ⟨e, hm, hp, rfl⟩ := ag.entry_of_holding hs
    exact ho.ends e hm hp

/-- Insertion serials in order, none of them old. -/
theorem Settled.serialsInOrder {s : State} (h : Settled True True C s) : SerialsInOrder s := by
  obtain ⟨⟨h1, h2⟩, -⟩ := h.order.serials trivial
  have hnear : ∀ e ∈ s.sched.travelList, s.countNear e.key = true := fun e hm =>
    countNear_of_ahead ((h.expired trivial).counts e hm)
  rw [List.filter_eq_self.mpr hnear] at h2
  exact ⟨h1, h2⟩

/-- Each slot has one entry at most. -/
theorem AgreeBut.listed_length {V : List Handle} {s : State} (ag : AgreeBut V s) : s.listedHandles.length ≤ 96 := by
  have hnd : (s.listedHandles.map Handle.slot).Nodup := by
    refine List.Nodup.map_on (fun x hx y hy e => ?_) ag.once
    exact live_unique (ag.live hy) (ag.live hx) e
  have := hnd.length_le_card
  simpa using this

/-- What one event can carry out is bounded. -/
theorem AgreeBut.expiryBound_le {V : List Handle} {s : State} (ag : AgreeBut V s)
    (hr : ∀ i a, (s.slot i).action = some a → a.repeatsLeft ≤ 255) : s.expiryBound ≤ 147552 := by
  have h1 : ∀ i, (s.slot i).eventsLeft ≤ 512 := by
    intro i
    have := hr i
    unfold Slot.action at this
    unfold Slot.eventsLeft
    split <;> rename_i hx <;> simp only [hx] at this
    · omega
    · have := this _ rfl
      omega
    · have := this _ rfl
      omega
  have h2 : ∑ i : SlotNo, (s.slot i).eventsLeft ≤ 96 * 512 := by
    refine (Finset.sum_le_card_nsmul _ _ 512 fun i _ => h1 i).trans ?_
    simp
  have h3 := ag.listed_length
  rw [expiryBound_eq, sum_eventsLeft]
  omega

theorem settled_of_serials {s : State} (ha : ListsAgree s) (hh : HoldersHeld s) (ho : ListsOrdered s)
    (hr : SerialsRecent s) (hs : SerialsInOrder s) : Settled True True (2 ^ 31 - 2 ^ 22 + 147552) s := by
  have h := settled_of_ordered ha hh ho
  refine ⟨⟨h.order.agree, h.order.held, h.order.timely, fun _ => ⟨⟨hs.time, hs.travel.sublist List.filter_sublist⟩,
    2 ^ 31 - 2 ^ 22, ⟨hr.time, hr.travel⟩, ?_⟩⟩, h.expired, h.statics⟩
  have := h.order.agree.expiryBound_le ho.repeats
  rw [weight_mk, List.length_nil]
  omega

end Sys2Proof.Machine
end

