-- ==== Sys2Proof/Proofs/Edges.lean ====
section
/-! PROOFS. Input edges, the SYNC input and the load of the timeline keep a state settled. -/

namespace Sys2Proof.Machine

variable {k j : Prop} {C : Nat}

/-! ## Input edges (R66 to R70) -/

/-- What may be put in an input record: its filter width in range, its qualification no older than that. -/
def Input.bounded (now : Tick) (x : Input) : Prop :=
  x.width ≤ 1023 ∧ ∀ q, x.qual = some q → (now - q.rawTick).toNat ≤ x.width

theorem Statics.bounded {s : State} (h : Statics s) (l : InLine) : (s.input l).bounded s.now :=
  ⟨h.widths l, h.qualified l⟩

theorem Settled.putInput {s : State} (h : Settled k j C s) (l : InLine) {x : Input} (hx : k → x.bounded s.now) :
    Settled k j C (s.putInput l x) := by
  refine (SameSchedule.of_eq (s := s) (t := s.putInput l x) rfl rfl rfl).settled h fun c => ?_
  have hall : ∀ m, ((s.putInput l x).input m).bounded s.now := by
    intro m
    by_cases hm : m = l
    · rw [hm, State.input_putInput_self]
      exact hx c
    · rw [State.input_putInput_ne _ _ _ _ hm]
      exact (h.statics c).bounded m
  exact ⟨fun m => (hall m).1, fun m q => (hall m).2 q, (h.statics c).templates⟩

theorem Settled.journal {s : State} (h : Settled k j C s) (x : Journal) : Settled k j C (s.withJournal x) :=
  h.congr rfl rfl rfl rfl rfl

theorem offerEdge_settled {s : State} (h : Settled k j C s) (hs : Spans k j C) (e : EdgeEvent) :
    Settled k j C (offerEdge e s) := by
  unfold offerEdge
  split
  · unfold storeEdge
    dsimp only
    split
    · exact (h.journal _).noted hs (createReport_noted _ _)
    · exact h.journal _
  · exact (h.journal _).noted hs (countFault_noted _ _ _)

theorem offerEdge_now (e : EdgeEvent) (s : State) : (offerEdge e s).now = s.now := by
  unfold offerEdge
  split
  · unfold storeEdge
    dsimp only
    split
    · exact (createReport_onlyWork _ _).now
    · rfl
  · exact (countFault_onlyWork _ _ _).now

theorem advanceTravel_settled {s : State} {q : Qualification} (h : Settled k j C s) (hs : Spans k j C) (l : InLine)
    (hq : k → (s.now - q.rawTick).toNat ≤ 1023) : Settled k j C (advanceTravel l q s) := by
  unfold advanceTravel
  split
  · exact expireTravelList_settled h hs hq
  · exact h

theorem advanceTravel_now (l : InLine) (q : Qualification) (s : State) : (advanceTravel l q s).now = s.now := by
  unfold advanceTravel
  split
  · exact (expireLists_onlyWork _ _ _).now
  · rfl

/-- A qualification is accepted, and its edge handed on. -/
theorem acceptEdge_settled {s : State} (h : Settled k j C s) (hs : Spans k j (C + 2362368)) (l : InLine) :
    Settled k j (C + 2362368) (acceptEdge l s) := by
  unfold acceptEdge
  cases hq : (s.input l).qual with
  | none => exact h.mono (by omega)
  | some q =>
    dsimp only
    have hb : k → (s.now - q.rawTick).toNat ≤ 1023 := fun c =>
      ((h.statics c).qualified l q hq).trans ((h.statics c).widths l)
    have h1 := h.putInput l (x := { s.input l with filtered := q.level, qual := none }) fun c =>
      ⟨(h.statics c).widths l, by simp⟩
    have h2 := advanceTravel_settled h1 (hs.mono (by omega)) l hb
    have hn := advanceTravel_now l q (s.putInput l { s.input l with filtered := q.level, qual := none })
    split
    · split
      · refine evaluateEdge_settled (offerEdge_settled h2 (hs.mono (by omega)) _) hs fun c => ?_
        rw [offerEdge_now, hn]
        exact hb c
      · refine evaluateEdge_settled h2 hs fun c => ?_
        rw [hn]
        exact hb c
    · exact h2.mono (by omega)

/-- An input is sampled. -/
theorem sampleInput_settled {s : State} (h : Settled k j C s) (hs : Spans k j (C + 2362368)) (l : InLine) (v : Level) :
    Settled k j (C + 2362368) (sampleInput l v s) := by
  have hb : k → ((s.input l).bounded s.now) := fun c => (h.statics c).bounded l
  have h0 := h.mono (D := C + 2362368) (by omega)
  unfold sampleInput
  dsimp only
  split
  · split
    · exact h0.putInput l fun c => hb c
    · exact h0.putInput l fun c => ⟨(hb c).1, by simp⟩
  · split
    · exact h0.putInput l fun c => hb c
    · have h1 : Settled k j C (s.putInput l { s.input l with
          raw := v, sampledAt := some s.clock, qual := some ⟨s.now, v⟩ }) :=
        h.putInput l fun c => ⟨(hb c).1, fun q hq => by
          injection hq with hq
          rw [← hq]
          simp⟩
      split
      · exact acceptEdge_settled h1 hs l
      · exact h1.mono (by omega)

/-! ## SYNC (R55, R57, R60, R61) -/

/-- A change of the Timebase that leaves the timeline and the travel count. -/
theorem Settled.timebase {s : State} (h : Settled k j C s) {x : Timebase} (ht : x.timeline = s.timebase.timeline)
    (hc : x.travelCount = s.timebase.travelCount) : Settled k j C (s.withTimebase x) :=
  SameSchedule.settled (s := s) ⟨rfl, rfl, rfl, rfl, ht, hc, fun _ => rfl, fun _ => rfl⟩ h fun c =>
    (h.statics c).congr ht (fun _ => rfl) fun _ => ⟨rfl, rfl⟩

/-- With both lists empty and every action listed, no slot is in use. -/
theorem emptied_of_lists {s : State} (ag : AgreeBut [] s) (ht : s.sched.timeList = []) (hv : s.sched.travelList = []) :
    s.emptied := by
  refine ⟨fun i => ?_, ht, hv⟩
  by_contra hf
  have := ag.listed_all (i := i) (by simpa using hf)
  simp [State.listedHandles, ht, hv] at this

/-- With no slot in use no line has holders. -/
theorem HoldersHeld.holders_empty {s : State} (h : HoldersHeld s) (he : s.emptied) (l : OutLine) :
    (s.output l).holders = [] := by
  refine List.eq_nil_iff_forall_not_mem.mpr fun b hb => ?_
  obtain ⟨a, ha, -⟩ := h.held l b hb
  rw [he.holdingAction] at ha
  cases ha

/-- The timeline is loaded, no slot being in use: what measures time goes with it (R60, R61). -/
theorem loadTimeline_settled {s : State} (h : Settled k j C s) (hs : Spans k j C) (he : k → s.emptied) (p t : Tick) :
    Settled k j C (loadTimeline p t s) := by
  unfold loadTimeline
  dsimp only
  refine Settled.noted ?_ hs (createReport_noted _ _)
  refine ⟨⟨h.order.agree.congr rfl, fun c => .of_empty fun l => ?_, fun c => .of_emptied (he c), fun c =>
    .of_emptied (he (hs.order c)) (by simp)⟩, fun c => .of_emptied (he c), fun c => ⟨fun l => ?_, fun l q hq => ?_,
      (h.statics c).templates⟩⟩
  · rw [State.output_withOutputs_tabulate]
    exact (h.order.held c).holders_empty (he c) l
  · have := (h.statics c).widths l
    simpa [State.input] using this
  · have hin : ∀ u : State, u.inputs = tabulate (fun l =>
        { s.input l with qual := (s.input l).qual.map (fun q => q.moved (p - t)) }) →
        u.input l = { s.input l with qual := (s.input l).qual.map (fun q => q.moved (p - t)) } := by
      intro u hu
      simp [State.input, hu]
    rw [hin _ rfl] at hq ⊢
    obtain ⟨x, hx, rfl⟩ := Option.map_eq_some_iff.mp hq
    have h1 := (h.statics c).qualified l x hx
    show (p + (s.now - t) - (x.rawTick + (p - t))).toNat ≤ (s.input l).width
    rw [show p + (s.now - t) - (x.rawTick + (p - t)) = s.now - x.rawTick by ring]
    exact h1

theorem timeSync_settled {s : State} (h : Settled k j C s) (hs : Spans k j C) (t : Tick) :
    Settled k j C (timeSync t s) := by
  unfold timeSync
  dsimp only
  refine Settled.timebase ?_ rfl rfl
  split
  · exact h.noted hs (createReport_noted _ _)
  · exact h

/-- SYNC is armed only with both lists empty (R59). -/
def SyncAtRest (s : State) : Prop := s.syncArmed = true → s.sched.timeList = [] ∧ s.sched.travelList = []

/-- A SYNC qualification is accepted. -/
theorem acceptSync_settled {s : State} (h : Settled k j C s) (hs : Spans k j C) (hr : k → SyncAtRest s) :
    Settled k j C (acceptSync s) := by
  unfold acceptSync
  cases s.timebase.syncQual with
  | none => exact h
  | some q =>
    dsimp only
    have h1 : Settled k j C (s.withTimebase { s.timebase with syncFiltered := q.level, syncQual := none }) :=
      h.timebase rfl rfl
    split
    · exact h1
    · unfold syncEdge
      split
      · rename_i p hp
        have harmed : s.syncArmed = true := by
          rw [State.syncArmed, show s.timebase.preset = some p from hp]
          rfl
        exact loadTimeline_settled h1 hs
          (fun c => emptied_of_lists h1.order.agree (hr c harmed).1 (hr c harmed).2) p _
      · exact timeSync_settled h1 hs _

/-- SYNC is sampled. -/
theorem sampleSync_settled {s : State} (h : Settled k j C s) (hs : Spans k j C) (hr : k → SyncAtRest s) (v : Level) :
    Settled k j C (sampleSync v s) := by
  unfold sampleSync
  dsimp only
  split
  · exact h.timebase rfl rfl
  · split
    · exact h.timebase rfl rfl
    · split
      · exact acceptSync_settled (h.timebase rfl rfl) hs hr
      · exact h.timebase rfl rfl

end Sys2Proof.Machine
end

