-- ==== Sys2Proof/Proofs/Requests.lean ====
section
/-! PROOFS. Every request that is taken keeps a state settled. -/

namespace Sys2Proof.Machine

variable {k j : Prop} {V : List Handle} {C : Nat}

/-! ## Slots freed one after another (R25, R120) -/

theorem freeSlot_steps (h : Handle) (e : Ended) (s : State) : ∃ w, Work False [] w (V, s) (V, freeSlot h e s) := by
  cases ha : s.actionOf h with
  | none => exact ⟨0, by rw [freeSlot_of_none e ha]; exact .done⟩
  | some a => exact ⟨3, freeSlot_work e ha False.elim⟩

theorem flushHandles_steps (hs : List Handle) (s : State) : ∃ w, Work False [] w (V, s) (V, flushHandles hs s) := by
  induction hs generalizing s with
  | nil => exact ⟨0, .done⟩
  | cons h hs ih =>
    obtain ⟨w, hw⟩ := freeSlot_steps (V := V) h .flushed s
    obtain ⟨w', hw'⟩ := ih (freeSlot h .flushed s)
    exact ⟨_, hw.trans hw'⟩

theorem Spared.isFree {s t : State} {i : SlotNo} (h : Spared s t i) (hf : (s.slot i).isFree = true) :
    (t.slot i).isFree = true := by
  rcases h with h | h
  · rwa [h]
  · exact h.1 i

/-- The slot of an action that is freed is FREE. -/
theorem freeSlot_slot_isFree (h : Handle) (e : Ended) {s : State} (hl : (s.slot h.slot).gen = h.gen) :
    ((freeSlot h e s).slot h.slot).isFree = true := by
  cases ha : s.actionOf h with
  | none =>
    rw [freeSlot_of_none e ha]
    by_contra hc
    have : (s.actionOf h).isSome := actionOf_isSome.mpr ⟨hl, by simpa using hc⟩
    rw [ha] at this
    cases this
  | some a =>
    obtain ⟨u, n, hu⟩ := freeSlot_of_vacate e ha
    rw [hu]
    exact Spared.isFree ((n.spared h.slot).trans (poolNotice_spared u h.slot) poolNotice_emptied) (by rw [vacate_slot, if_pos rfl]; rfl)

theorem freeSlot_isFree (h : Handle) (e : Ended) {s : State} {i : SlotNo} (hf : (s.slot i).isFree = true) :
    ((freeSlot h e s).slot i).isFree = true := by
  by_cases hi : i = h.slot
  · subst hi
    have hn : s.actionOf h = none := by
      rw [← Option.not_isSome_iff_eq_none, actionOf_isSome, hf]
      simp
    rw [freeSlot_of_none e hn]
    exact hf
  · exact (freeSlot_spared h e s hi).isFree hf

/-- Every slot whose action is named is FREE after the flush. -/
theorem flushHandles_isFree (hs : List Handle) : ∀ {s : State} {i : SlotNo}, (s.slot i).isFree = true ∨ s.handleOf i ∈ hs →
    ((flushHandles hs s).slot i).isFree = true := by
  induction hs with
  | nil => exact fun h => h.resolve_right (by simp)
  | cons h hs ih =>
    intro s i hi
    refine ih ?_
    rcases hi with hf | hm
    · exact .inl (freeSlot_isFree h .flushed hf)
    · rcases List.mem_cons.mp hm with rfl | hm
      · exact .inl (freeSlot_slot_isFree (s.handleOf i) .flushed rfl)
      · by_cases hh : i = h.slot
        · subst hh
          by_cases hg : (s.slot h.slot).gen = h.gen
          · exact .inl (freeSlot_slot_isFree h .flushed hg)
          · have hn : s.actionOf h = none := by
              rw [← Option.not_isSome_iff_eq_none, actionOf_isSome]
              exact fun c => hg c.1
            rw [freeSlot_of_none _ hn]
            exact .inr hm
        · rcases freeSlot_spared h .flushed s hh with he | he
          · exact .inr (by unfold State.handleOf at hm ⊢; rwa [he])
          · exact .inl (he.1 i)

/-- With no slot in use the lists that agree with the pool are empty. -/
theorem AgreeBut.emptied {s : State} (ag : AgreeBut V s) (hf : ∀ i, (s.slot i).isFree = true) : s.emptied := by
  have hl : s.listedHandles = [] := List.eq_nil_iff_forall_not_mem.mpr fun h hm => ag.slot_ne (hf h.slot) hm rfl
  unfold State.listedHandles at hl
  simp only [List.append_eq_nil_iff, List.map_eq_nil_iff] at hl
  exact ⟨hf, hl.1, hl.2⟩

/-- The flush leaves no slot in use (R25). -/
theorem flushHandles_emptied {s : State} (ag : AgreeBut [] s) {r : RunControl} :
    (flushHandles s.freeingOrder (s.withRun r)).emptied := by
  obtain ⟨w, hw⟩ := flushHandles_steps (V := []) s.freeingOrder (s.withRun r)
  refine (hw.agree (ag.congr rfl)).emptied fun i => flushHandles_isFree _ ?_
  by_cases hf : (s.slot i).isFree = true
  · exact .inl hf
  · exact .inr (handleOf_mem_freeingOrder (by simpa using hf))

theorem emptyHolders_output (s : State) (l : OutLine) : (emptyHolders s).output l = { s.output l with holders := [] } := by
  unfold emptyHolders
  exact State.output_withOutputs_tabulate _ _ _

theorem emptyHolders_holders (s : State) (l : OutLine) : ((emptyHolders s).output l).holders = [] := by
  rw [emptyHolders_output]

theorem flushAll_settled {s : State} (h : Settled k j C s) (hs : Spans k j C) : Settled k j C (flushAll s) := by
  have hst : k → Statics (flushHandles s.freeingOrder (s.withRun { s.run with state := .standby, silence := none })) :=
    fun c => ((OnlyWork.refl s).ofRun _ |>.trans (flushHandles_onlyWork _ _)).statics (h.statics c)
  unfold flushAll changeRunState
  refine Settled.noted ?_ hs (createReport_noted _ _)
  have he := flushHandles_emptied (r := { s.run with state := .standby, silence := none }) h.order.agree
  generalize flushHandles s.freeingOrder (s.withRun { s.run with state := .standby, silence := none }) = u at he hst
  exact .of_emptied he (fun _ l => emptyHolders_holders u l) fun c => (hst c).congr rfl (fun _ => rfl)
    (fun _ => ⟨rfl, rfl⟩)

/-! ## Run Control -/

theorem Settled.run {s : State} (h : Settled k j C s) (x : RunControl) : Settled k j C (s.withRun x) :=
  h.congr rfl rfl rfl rfl rfl

theorem changeRunState_settled {s : State} (h : Settled k j C s) (hs : Spans k j C) (st : RunState) (silence : Option Nat)
    (n : Nat) : Settled k j C (changeRunState st silence n s) :=
  (h.run _).noted hs (createReport_noted _ _)

/-- The rules are replaced, the templates of each among those that it had. -/
theorem Settled.rules {s : State} (h : Settled k j C s) {f : RuleNo → Rule}
    (hf : ∀ r, ∀ t ∈ (f r).active.templates ++ (f r).staged.templates,
      t ∈ (s.rule r).active.templates ++ (s.rule r).staged.templates) : Settled k j C (s.withRules (tabulate f)) := by
  refine (SameSchedule.of_eq (s := s) (t := s.withRules (tabulate f)) rfl rfl rfl).settled h fun c =>
    ⟨(h.statics c).widths, (h.statics c).qualified, fun r t ht => ?_⟩
  rw [State.rule_withRules_tabulate] at ht
  exact (h.statics c).templates r t (hf r t ht)

theorem takeArm_settled {s : State} (h : Settled k j C s) (hs : Spans k j C) : Settled k j C (takeArm s).1 := by
  unfold takeArm
  split
  · split
    · exact h
    · exact changeRunState_settled (h.rules (f := fun r => { s.rule r with lastFiring := none }) fun r t ht => ht) hs _ _ _
  · exact h
  · exact h
  · exact h

theorem takeDisarmWait_settled {s : State} (h : Settled k j C s) (hs : Spans k j C) :
    Settled k j C (takeDisarmWait s).1 := by
  unfold takeDisarmWait
  split
  · split
    · exact changeRunState_settled h hs _ _ _
    · exact changeRunState_settled h hs _ _ _
  · exact h
  · exact h
  · exact h

theorem takeDisarmFlush_settled {s : State} (h : Settled k j C s) (hs : Spans k j C) :
    Settled k j C (takeDisarmFlush s).1 := by
  unfold takeDisarmFlush
  split
  · exact flushAll_settled h hs
  · exact flushAll_settled h hs
  · exact h
  · exact h

theorem takeRecover_settled {s : State} (h : Settled k j C s) (hs : Spans k j C) : Settled k j C (takeRecover s).1 := by
  unfold takeRecover
  split
  · exact changeRunState_settled h hs _ _ _
  · exact h

theorem takeSetSupervision_settled {s : State} (h : Settled k j C s) (limit : BitVec 16) :
    Settled k j C (takeSetSupervision limit s).1 := by
  unfold takeSetSupervision
  dsimp only
  split
  · exact h
  · exact h.run _

/-! ## RESTART and the full reset -/

theorem requalify_fresh {raw filtered : Level} {now : Tick} {q : Qualification}
    (h : requalify raw filtered now = some q) : (now - q.rawTick).toNat = 0 := by
  unfold requalify at h
  split at h
  · cases h
  · cases h
    simp

/-- A record of an input whose qualification begins now is within its bounds. -/
theorem Input.bounded_requalified {now : Tick} {x : Input} {raw filtered : Level} (hw : x.width ≤ 1023)
    (hq : x.qual = requalify raw filtered now) : x.bounded now := by
  refine ⟨hw, fun q h => ?_⟩
  rw [hq] at h
  rw [requalify_fresh h]
  omega

theorem Input.restarted_bounded {x : Input} (m : RestartMode) (now : Tick) (h : x.width ≤ 1023) :
    (x.restarted m now).bounded now := by
  cases m with
  | keep => exact Input.bounded_requalified h rfl
  | clear => exact Input.bounded_requalified (show (defaultInput x.raw).width ≤ 1023 by simp [defaultInput]) rfl

theorem defaultRule_templates : ∀ t ∈ defaultRule.active.templates ++ defaultRule.staged.templates, t.repeats ≤ 255 := by
  simp [defaultRule, defaultRecord, defaultTemplate]

theorem restartAll_emptied (m : RestartMode) (s : State) : (restartAll m s).emptied := by
  cases m with
  | keep => exact ⟨fun i => by simp [restartAll, restartScheduler, State.slot, Slot.isFree], rfl, rfl⟩
  | clear => exact ⟨fun i => by simp [restartAll, restartScheduler, defaultScheduler, defaultSlot, State.slot, getAt, Slot.isFree], rfl, rfl⟩

theorem restartAll_holders (m : RestartMode) (s : State) (l : OutLine) : ((restartAll m s).output l).holders = [] := by
  cases m with
  | keep => simp [restartAll, restartOutputs, State.output, Output.restarted]
  | clear => simp [restartAll, restartOutputs, State.output, getAt, defaultOutput]

theorem restartAll_statics {s : State} (h : Statics s) (m : RestartMode) : Statics (restartAll m s) := by
  have hin : ∀ l, ((restartAll m s).input l).bounded (restartAll m s).now := by
    intro l
    rw [show (restartAll m s).input l = (s.input l).restarted m (restartAll m s).now by
      simp [restartAll, State.input, State.now]]
    exact Input.restarted_bounded m _ (h.widths l)
  refine ⟨fun l => (hin l).1, fun l q => (hin l).2 q, fun r => ?_⟩
  cases m with
  | keep =>
    rw [show (restartAll .keep s).rule r =
      { (s.rule r).zeroed with state := if (s.rule r).active.enabled then .listening else .idle } by
      simp [restartAll, restartRules, State.rule]]
    exact h.templates r
  | clear =>
    rw [show (restartAll .clear s).rule r = defaultRule by simp [restartAll, restartRules, State.rule, getAt]]
    exact defaultRule_templates

theorem restartAll_settled {s : State} (h : Settled k j C s) (m : RestartMode) : Settled k j C (restartAll m s) :=
  .of_emptied (restartAll_emptied m s) (fun _ => restartAll_holders m s) fun c => restartAll_statics (h.statics c) m

theorem resetBlocks_settled (linkSel : Level) (s : State) : Settled k j C (resetBlocks linkSel s) := by
  refine .of_emptied ⟨fun i => ?_, rfl, rfl⟩ (fun _ l => ?_) fun _ => ⟨fun l => ?_, fun l q hq => ?_, fun r => ?_⟩
  · simp [resetBlocks, defaultScheduler, defaultSlot, State.slot, getAt, Slot.isFree]
  · simp [resetBlocks, State.output, getAt, defaultOutput]
  · simp [resetBlocks, State.input, defaultInput]
  · simp [resetBlocks, State.input, defaultInput] at hq
  · rw [show (resetBlocks linkSel s).rule r = defaultRule by simp [resetBlocks, State.rule, getAt]]
    exact defaultRule_templates

/-! ## The Action Scheduler -/

/-- A due that R18 resolves is in time. -/
theorem resolveDue_inTime {s : State} {b : Base} {relative : Bool} {due : BitVec 48} {d : Due} {n : Nat}
    (h : resolveDue b relative due s = some d) (hn : n ≤ 255) {t : Tick} (ht : d = .time t) : dueInTime s.now n t := by
  have hm : (n + 1) * 2 ^ 25 ≤ 2 ^ 33 := (Nat.mul_le_mul_right (2 ^ 25) (show n + 1 ≤ 256 by omega)).trans (by norm_num)
  subst ht
  unfold resolveDue at h
  split at h
  · split at h
    · rename_i hw
      cases h
      unfold tickInWindow Config.tickWindow at hw
      simp only [Bool.or_eq_true, decide_eq_true_eq] at hw
      unfold dueInTime
      omega
    · cases h
  · split at h
    · rename_i hw
      cases h
      left
      rw [add_sub_cancel_left]
      exact hw
    · cases h
  · split at h <;> cases h
  · split at h <;> cases h

theorem scheduledAction_inTime {s : State} {tag : Tag} {line : OutLine} {base mode : Byte} {due : BitVec 48}
    {width : BitVec 24} {repeats : Byte} {interval : BitVec 32} {done : Byte} {a : Action}
    (h : scheduledAction tag line base mode due width repeats interval done s = some a) : a.freshInTime s.now := by
  unfold scheduledAction at h
  split at h
  · split at h
    · obtain ⟨d, hd, rfl⟩ := Option.map_eq_some_iff.mp h
      have hr : repeats.toNat ≤ 255 := by have := repeats.isLt; omega
      exact ⟨hr, fun t ht => resolveDue_inTime hd hr ht⟩
    · cases h
  · cases h

theorem takeSchedulePulse_settled {s : State} {tag : Tag} {line base mode : Byte} {due : BitVec 48}
    {width : BitVec 24} {repeats : Byte} {interval : BitVec 32} {done : Byte} (h : Settled k j C s)
    (hs : Spans k j (C + 1538)) :
    Settled k j (C + 1538) (takeSchedulePulse tag line base mode due width repeats interval done s).1 := by
  have h0 := h.mono (D := C + 1538) (by omega)
  unfold takeSchedulePulse
  split
  · exact h0
  · split
    · exact h0
    · split
      · exact h0
      · split
        · exact h0
        · split
          · exact h0
          · rename_i a ha
            split
            · exact h0.noted hs (countFault_noted _ _ _)
            · rename_i i is hfree
              have hf : (s.slot i).isFree = true := mem_freeSlots.mp (by rw [hfree]; exact List.mem_cons_self)
              exact h.joined (l := [(i, a)]) hs (by simp) (by simpa using hf) fun _ p hp => by
                rw [List.mem_singleton.mp hp]
                exact scheduledAction_inTime ha

/-- A cancel treats an action by moves (R19). -/
theorem cancelHandle_steps (mode : CancelMode) (h : Handle) {s : State} {x : Slot} (hl : s.live h = some x) :
    ∃ w, Work k [] w (V, s) (V, cancelHandle mode h s) := by
  obtain ⟨hg, hf, hx⟩ : (s.slot h.slot).gen = h.gen ∧ (s.slot h.slot).isFree = false ∧ s.slot h.slot = x := by
    unfold State.live at hl
    dsimp only at hl
    split at hl
    · rename_i hc
      cases hl
      exact ⟨hc.1, hc.2, rfl⟩
    · cases hl
  unfold cancelHandle
  rcases hst : (s.slot h.slot).state with _ | a | ⟨a, f⟩
  · exact ⟨0, .done⟩
  · have hw : s.waitingAction h = some a := State.waitingAction_eq.mpr (by rw [← hg, ← hst])
    exact ⟨3, freeSlot_work _ (State.actionOf_iff.mpr (.inl hw))
      fun _ => (waiting_of_slot (State.waitingAction_eq.mp hw)).2.1⟩
  · have hs : s.slot h.slot = ⟨h.gen, .holding a f⟩ := by rw [← hg, ← hst]
    have hh : s.holdingAction h = some a := State.holdingAction_eq.mpr ⟨f, hs⟩
    cases mode with
    | abort => exact ⟨3, freeSlot_released _ hh fun _ => rfl⟩
    | finish => exact ⟨0, (Move.giveUp hs).work⟩

theorem cancelHandles_steps (mode : CancelMode) (hs : List Handle) (s : State) :
    ∃ w, Work k [] w (V, s) (V, (cancelHandles mode hs s).1) := by
  induction hs generalizing s with
  | nil => exact ⟨0, .done⟩
  | cons h hs ih =>
    unfold cancelHandles
    split
    · exact ih s
    · rename_i x hl
      obtain ⟨w, hw⟩ := cancelHandle_steps (k := k) (V := V) mode h hl
      obtain ⟨w', hw'⟩ := ih (cancelHandle mode h s)
      exact ⟨_, hw.trans hw'⟩

theorem takeCancelAction_settled {s : State} {mode : CancelMode} {slot : Byte} {gen : Gen} (h : Settled k j C s)
    (hs : Spans k j C) : Settled k j C (takeCancelAction mode slot gen s).1 := by
  unfold takeCancelAction
  split
  · exact h
  · split
    · exact h
    · rename_i x hl
      obtain ⟨w, hw⟩ := cancelHandle_steps (k := k) (V := []) mode _ hl
      exact h.work hs hw

theorem takeCancelLine_settled {s : State} {mode : CancelMode} {line : Byte} (h : Settled k j C s) (hs : Spans k j C) :
    Settled k j C (takeCancelLine mode line s).1 := by
  unfold takeCancelLine
  split
  · exact h
  · rename_i l _
    obtain ⟨w, hw⟩ := cancelHandles_steps (k := k) (V := []) mode (s.lineHandles l) s
    exact h.work hs hw

theorem takeListSchedule_state (list start maximum : Byte) (s : State) : (takeListSchedule list start maximum s).1 = s := by
  unfold takeListSchedule
  split
  · rfl
  · split <;> rfl

theorem takeSetSchedule_settled {s : State} {ticks : BitVec 16} {counts policy reserve : Byte} (h : Settled k j C s) :
    Settled k j C (takeSetSchedule ticks counts policy reserve s).1 := by
  unfold takeSetSchedule
  split
  · exact h
  · split
    · exact h
    · exact SameSchedule.settled (s := s) ⟨rfl, rfl, rfl, rfl, rfl, rfl, fun _ => rfl, fun _ => rfl⟩ h fun c =>
        (h.statics c).congr rfl (fun _ => rfl) fun _ => ⟨rfl, rfl⟩

/-! ## The Output Stage -/

/-- An output record is replaced, its holders and its policy as they were. -/
theorem Settled.putOutput {s : State} (h : Settled k j C s) (l : OutLine) {x : Output}
    (hh : x.holders = (s.output l).holders) (hp : x.policy = (s.output l).policy) : Settled k j C (s.putOutput l x) := by
  refine SameSchedule.settled (s := s) ⟨rfl, rfl, rfl, rfl, rfl, rfl, fun m => ?_, fun m => ?_⟩ h fun c =>
    (h.statics c).congr rfl (fun _ => rfl) fun _ => ⟨rfl, rfl⟩
  all_goals
    by_cases hm : m = l
    · rw [hm, State.output_putOutput_self]
      assumption
    · rw [State.output_putOutput_ne _ _ _ _ hm]

/-- A line that no action targets has no holders. -/
theorem HoldersHeld.holders_untargeted {s : State} (h : HoldersHeld s) {l : OutLine} (ht : s.lineTargeted l = false) :
    (s.output l).holders = [] := by
  refine List.eq_nil_iff_forall_not_mem.mpr fun b hb => ?_
  obtain ⟨a, ha, hal⟩ := h.held l b hb
  obtain ⟨f, hf⟩ := State.holdingAction_eq.mp ha
  unfold State.lineTargeted at ht
  rw [List.any_eq_false] at ht
  have := ht b.slot (by simp [allSlots])
  rw [hf] at this
  simp [Slot.action, hal] at this

theorem Output.configured_holders (o : Output) (m : OutMode) (i f : Level) (p : Policy) :
    (o.configured m i f p).holders = o.holders := by
  unfold Output.configured
  dsimp only
  split <;> rfl

theorem takeSetOutput_settled {s : State} {line mode idle safe policy : Byte} (h : Settled k j C s) :
    Settled k j C (takeSetOutput line mode idle safe policy s).1 := by
  unfold takeSetOutput
  split
  · rename_i l m i f p _ _ _ _ _
    split
    · exact h
    · rename_i ht
      split
      · exact h
      · have hagree : AgreeBut [] (s.putOutput l ((s.output l).configured m i f p)) := h.order.agree.congr rfl
        refine ⟨⟨hagree, fun c => ?_, fun c => (h.order.timely c).congr rfl rfl, fun c => ?_⟩, fun c =>
          ⟨(h.expired c).keys, (h.expired c).counts⟩, fun c => (h.statics c).congr rfl (fun _ => rfl) fun _ => ⟨rfl, rfl⟩⟩
        · have hempty : ((s.output l).configured m i f p).holders = [] := by
            rw [Output.configured_holders]
            exact (h.order.held c).holders_untargeted (by simpa using ht)
          refine ⟨fun x b hb => ?_, fun x hx => ?_⟩ <;> by_cases hxl : x = l
          · rw [hxl, State.output_putOutput_self, hempty] at hb
            cases hb
          · rw [State.output_putOutput_ne _ _ _ _ hxl] at hb
            exact (h.order.held c).held x b hb
          · rw [hxl, State.output_putOutput_self, hempty]
            simp
          · rw [State.output_putOutput_ne _ _ _ _ hxl] at hx ⊢
            exact (h.order.held c).single x hx
        · obtain ⟨hst, B, hw, hle⟩ := h.order.serials c
          exact ⟨hst.congr rfl rfl, B, hw.congr rfl, by rwa [weight_congr rfl]⟩
  · exact h

theorem takeSetLevel_settled {s : State} {line level : Byte} (h : Settled k j C s) :
    Settled k j C (takeSetLevel line level s).1 := by
  unfold takeSetLevel
  split
  · split
    · exact h
    · exact h.putOutput _ rfl rfl
  · exact h

theorem takeTrainLoad_settled {s : State} {line : Byte} {period high : BitVec 24} (h : Settled k j C s) :
    Settled k j C (takeTrainLoad line period high s).1 := by
  unfold takeTrainLoad
  split
  · exact h
  · split
    · exact h
    · split
      · exact h
      · exact h.putOutput _ rfl rfl

theorem Output.applyStaged_kept (o : Output) : o.applyStaged.holders = o.holders ∧ o.applyStaged.policy = o.policy := by
  unfold Output.applyStaged
  split <;> exact ⟨rfl, rfl⟩

theorem takeTrainStart_settled {s : State} {line : Byte} {burst : BitVec 16} (h : Settled k j C s) :
    Settled k j C (takeTrainStart line burst s).1 := by
  unfold takeTrainStart
  split
  · exact h
  · rename_i l _
    split
    · exact h
    · split
      · exact h
      · split
        · exact h
        · split
          · exact h
          · exact h.putOutput l (s.output l).applyStaged_kept.1 (s.output l).applyStaged_kept.2

theorem takeTrainStop_settled {s : State} {stop : Output → Output} {line : Byte} (h : Settled k j C s)
    (hstop : ∀ o, (stop o).holders = o.holders ∧ (stop o).policy = o.policy) :
    Settled k j C (takeTrainStop stop line s).1 := by
  unfold takeTrainStop
  split
  · exact h
  · split
    · exact h
    · dsimp only
      split
      · exact h.putOutput _ (hstop _).1 (hstop _).2
      · exact h

theorem endHigh_settled {s : State} (h : Settled k j C s) (l : OutLine) : Settled k j C (endHigh l s) :=
  h.putOutput l rfl rfl

theorem endPeriod_settled {s : State} (h : Settled k j C s) (hs : Spans k j C) (l : OutLine) :
    Settled k j C (endPeriod l s) := by
  unfold endPeriod
  dsimp only
  split
  · refine Settled.noted ?_ hs (createReport_noted _ _)
    exact h.putOutput l rfl rfl
  · exact h.putOutput l (Output.applyStaged_kept _).1 (Output.applyStaged_kept _).2

/-! ## The Timebase, the inputs and the rules -/

theorem takeSetTravelSource_settled {s : State} {source : Byte} (h : Settled k j C s) :
    Settled k j C (takeSetTravelSource source s).1 := by
  unfold takeSetTravelSource
  split
  · exact h
  · split
    · exact h.timebase rfl rfl
    · exact h

theorem takeSetSync_settled {s : State} {width : BitVec 16} {reporting : Byte} (h : Settled k j C s) :
    Settled k j C (takeSetSync width reporting s).1 := by
  unfold takeSetSync
  split
  · exact h
  · split
    · exact h
    · exact h.timebase rfl rfl

theorem takeArmSync_settled {s : State} {preset : Tick} (h : Settled k j C s) :
    Settled k j C (takeArmSync preset s).1 := by
  unfold takeArmSync
  split
  · exact h
  · split
    · exact h.timebase rfl rfl
    · exact h

theorem takeSetInput_settled {s : State} {line select : Byte} {width : BitVec 16} {enable : Byte}
    (h : Settled k j C s) : Settled k j C (takeSetInput line select width enable s).1 := by
  unfold takeSetInput
  split
  · split
    · exact h
    · rename_i hw
      exact h.putInput _ fun _ => Input.bounded_requalified (by simpa using hw) rfl
  · exact h

theorem takeReadJournal_settled {s : State} {count : Byte} (h : Settled k j C s) :
    Settled k j C (takeReadJournal count s).1 := by
  unfold takeReadJournal
  split
  · exact h
  · exact h.journal _

theorem takeSetJournal_settled {s : State} {watermark empty : Byte} (h : Settled k j C s) :
    Settled k j C (takeSetJournal watermark empty s).1 := by
  unfold takeSetJournal
  split
  · exact h
  · split
    · exact h
    · exact h.journal _

theorem allSome_mem {α : Type} {l : List (Option α)} {xs : List α} (h : allSome l = some xs) : ∀ x ∈ xs, some x ∈ l := by
  induction l generalizing xs with
  | nil =>
    cases h
    simp
  | cons y ys ih =>
    cases y with
    | none => cases h
    | some y =>
      obtain ⟨zs, hz, rfl⟩ := Option.map_eq_some_iff.mp h
      intro x hx
      rcases List.mem_cons.mp hx with rfl | hx
      · exact List.mem_cons_self
      · exact List.mem_cons_of_mem _ (ih hz x hx)

/-- A template that EDIT_RULE takes has at most 255 repeats. -/
theorem templateOf_repeats {base : Base} {r : RawTemplate} {t : Template} (h : templateOf base r = some t) :
    t.repeats ≤ 255 := by
  have hr : r.repeats.toNat ≤ 255 := by have := r.repeats.isLt; omega
  unfold templateOf at h
  split at h
  · cases h
  · split_ifs at h <;> cases h <;> exact hr

theorem recordOf_repeats {r : RawRule} {x : RuleRecord} (h : recordOf r = some x) : ∀ t ∈ x.templates, t.repeats ≤ 255 := by
  unfold recordOf at h
  split at h
  · split at h
    · split at h
      · cases h
      · rename_i ts hts
        cases h
        unfold templatesOf at hts
        dsimp only at hts
        split_ifs at hts
        intro t ht
        obtain ⟨p, -, hp⟩ := List.mem_map.mp (allSome_mem hts t ht)
        exact templateOf_repeats hp
    · cases h
  · cases h

theorem takeEditRule_settled {s : State} {rule : Byte} {record : RawRule} (h : Settled k j C s) :
    Settled k j C (takeEditRule rule record s).1 := by
  unfold takeEditRule
  split
  · rename_i r x _ hx
    refine (SameSchedule.of_eq (s := s) (t := s.putRule r { s.rule r with staged := x, dirty := true })
      rfl rfl rfl).settled h fun c => ⟨(h.statics c).widths, (h.statics c).qualified, fun q t ht => ?_⟩
    by_cases hq : q = r
    · rw [hq, State.rule_putRule_self] at ht
      rcases List.mem_append.mp ht with ht | ht
      · exact (h.statics c).templates r t (List.mem_append_left _ ht)
      · exact recordOf_repeats hx t ht
    · rw [State.rule_putRule_ne _ _ _ _ hq] at ht
      exact (h.statics c).templates q t ht
  · exact h

theorem takeReadRule_state (rule copy : Byte) (s : State) : (takeReadRule rule copy s).1 = s := by
  unfold takeReadRule
  split <;> rfl

theorem takeReadRuleStats_state (first number : Byte) (s : State) : (takeReadRuleStats first number s).1 = s := by
  unfold takeReadRuleStats
  split <;> rfl

theorem takeDiscardStaged_settled {s : State} (h : Settled k j C s) : Settled k j C (takeDiscardStaged s).1 :=
  h.rules (f := fun r => { s.rule r with staged := (s.rule r).active, dirty := false }) fun r t ht => by
    rcases List.mem_append.mp ht with ht | ht <;> exact List.mem_append_left _ ht

theorem takeResetRuleCounts_settled {s : State} {rules : BitVec 16} (h : Settled k j C s) :
    Settled k j C (takeResetRuleCounts rules s).1 :=
  h.rules (f := fun r => if rules.getLsbD r.val then (s.rule r).countsReset else s.rule r) fun r t ht => by
    split at ht <;> exact ht

theorem takeCommitRules_settled {s : State} (h : Settled k j C s) : Settled k j C (takeCommitRules s).1 := by
  unfold takeCommitRules
  split
  · exact h
  · split
    · exact h
    · exact h.rules (f := fun r => if (s.rule r).dirty then (s.rule r).committed else s.rule r) fun r t ht => by
        split at ht
        · rcases List.mem_append.mp ht with ht | ht <;> exact List.mem_append_right _ ht
        · exact ht

/-! ## The Host Link, the reports and the faults -/

theorem takePing_state (data : List Byte) (s : State) : (takePing data s).1 = s := by
  unfold takePing
  split <;> rfl

theorem takeSetLinkRate_state (rate : BitVec 32) (s : State) : (takeSetLinkRate rate s).1 = s := by
  unfold takeSetLinkRate
  split <;> rfl

theorem takeSetReporting_settled {s : State} {kinds interval : BitVec 16} {retries : Byte} (h : Settled k j C s) :
    Settled k j C (takeSetReporting kinds interval retries s).1 := by
  unfold takeSetReporting
  split
  · exact h.congr rfl rfl rfl rfl rfl
  · exact h

theorem takeClearFaults_settled {s : State} {kinds : BitVec 16} (h : Settled k j C s) :
    Settled k j C (takeClearFaults kinds s).1 := by
  unfold takeClearFaults
  split
  · exact h.congr rfl rfl rfl rfl rfl
  · exact h

theorem takeSetFaultMasks_settled {s : State} {fatal report : BitVec 16} (h : Settled k j C s) :
    Settled k j C (takeSetFaultMasks fatal report s).1 := by
  unfold takeSetFaultMasks
  split
  · exact h.congr rfl rfl rfl rfl rfl
  · exact h

/-- Every command that is taken keeps a state settled. -/
theorem takeCommand_settled (i : Instr) {s : State} (h : Settled k j C s) (hs : Spans k j (C + 1538)) :
    Settled k j (C + 1538) (takeCommand i s).1 := by
  have h0 := h.mono (D := C + 1538) (by omega)
  cases i with
  | ping _ data => exact (takePing_state data s).symm ▸ h0
  | setLinkRate _ rate => exact (takeSetLinkRate_state rate s).symm ▸ h0
  | arm _ => exact takeArm_settled h0 hs
  | disarmWait _ => exact takeDisarmWait_settled h0 hs
  | disarmFlush _ => exact takeDisarmFlush_settled h0 hs
  | recover _ => exact takeRecover_settled h0 hs
  | setSupervision _ limit => exact takeSetSupervision_settled h0 limit
  | restartKeep _ => exact restartAll_settled h0 .keep
  | restartClear _ => exact restartAll_settled h0 .clear
  | schedulePulse tag line base mode due width repeats interval done => exact takeSchedulePulse_settled h hs
  | cancelActionAbort _ slot gen => exact takeCancelAction_settled h0 hs
  | cancelActionFinish _ slot gen => exact takeCancelAction_settled h0 hs
  | cancelLineAbort _ line => exact takeCancelLine_settled h0 hs
  | cancelLineFinish _ line => exact takeCancelLine_settled h0 hs
  | listSchedule _ list start maximum => exact (takeListSchedule_state list start maximum s).symm ▸ h0
  | setSchedule _ ticks counts policy reserve => exact takeSetSchedule_settled h0
  | setOutput _ line mode idle safe policy => exact takeSetOutput_settled h0
  | setLevel _ line level => exact takeSetLevel_settled h0
  | trainLoad _ line period high => exact takeTrainLoad_settled h0
  | trainStart _ line burst => exact takeTrainStart_settled h0
  | trainStopNow _ line => exact takeTrainStop_settled h0 fun _ => ⟨rfl, rfl⟩
  | trainStopAtPeriodEnd _ line => exact takeTrainStop_settled h0 fun _ => ⟨rfl, rfl⟩
  | setTravelSource _ source => exact takeSetTravelSource_settled h0
  | setSync _ width reporting => exact takeSetSync_settled h0
  | armSync _ preset => exact takeArmSync_settled h0
  | cancelSync _ => exact h0.timebase rfl rfl
  | setInput _ line select width enable => exact takeSetInput_settled h0
  | readJournal _ count => exact takeReadJournal_settled h0
  | setJournal _ watermark empty => exact takeSetJournal_settled h0
  | editRule _ rule record => exact takeEditRule_settled h0
  | readRule _ rule copy => exact (takeReadRule_state rule copy s).symm ▸ h0
  | readRuleStats _ first number => exact (takeReadRuleStats_state first number s).symm ▸ h0
  | discardStaged _ => exact takeDiscardStaged_settled h0
  | resetRuleCounts _ rules => exact takeResetRuleCounts_settled h0
  | commitRules _ => exact takeCommitRules_settled h0
  | setReporting _ kinds interval retries => exact takeSetReporting_settled h0
  | clearFaults _ kinds => exact takeClearFaults_settled h0
  | setFaultMasks _ fatal report => exact takeSetFaultMasks_settled h0
  | _ => exact h0

end Sys2Proof.Machine
end

