-- ==== Sys2Proof/Proofs/Steps.lean ====
section
/-! PROOFS. What every step keeps, said once: a predicate that the traffic of the link, the reports and the faults leave as it
is, that the entry into FAULTED and the passing of time keep, and that every request taken and every event of the part's own
brings from `P` to `Q`, is brought from `P` to `Q` by every step. -/

namespace Sys2Proof.Machine

/-! ## What happens beside the schedule -/

/-- `t` is `s` in everything but the Host Link, the reports, the faults, the silence timer, the hold in reset, and the model's
own queue and counter of choices. -/
def OnlyBeside (s t : State) : Prop :=
  t = { s with link := t.link, reports := t.reports, faults := t.faults, run := { s.run with silence := t.run.silence },
               held := t.held, choices := t.choices, pending := t.pending }

/-- From `s` to `t` such things happened, and the part may have entered FAULTED on the way. -/
def Beside (s t : State) : Prop :=
  OnlyBeside s t ∨ s.run.state.sequencing = true ∧ OnlyBeside (enterFaulted s) t

theorem OnlyBeside.trans {s t u : State} (h : OnlyBeside s t) (k : OnlyBeside t u) : OnlyBeside s u := by
  unfold OnlyBeside at *
  rw [h] at k
  exact k

theorem OnlyBeside.sequencing {s t : State} (h : OnlyBeside s t) : t.run.state = s.run.state := by rw [h]

theorem OnlyBeside.enterFaulted {s t : State} (h : OnlyBeside s t) : OnlyBeside (enterFaulted s) (enterFaulted t) := by
  rw [show t = _ from h]
  rfl

theorem Beside.refl (s : State) : Beside s s := .inl rfl

theorem Beside.trans {s t u : State} (h : Beside s t) (k : Beside t u) : Beside s u := by
  rcases h with h | ⟨hs, h⟩ <;> rcases k with k | ⟨ks, k⟩
  · exact .inl (h.trans k)
  · exact .inr ⟨h.sequencing ▸ ks, h.enterFaulted.trans k⟩
  · exact .inr ⟨hs, h.trans k⟩
  · rw [h.sequencing] at ks
    cases ks

theorem Noted.beside {s t : State} (n : Noted s t) : Beside s t := by
  rcases n with n | ⟨hs, n⟩
  · exact .inl (by rw [show t = _ from n]; rfl)
  · exact .inr ⟨hs, by rw [show t = _ from n]; rfl⟩

theorem OnlySends.beside {s t : State} (h : OnlySends s t) : Beside s t :=
  .inl (by rw [show t = _ from h]; rfl)

theorem Beside.link {s t : State} (h : Beside s t) (x : HostLink) : Beside s (t.withLink x) := h.trans (.inl rfl)

theorem Beside.reports {s t : State} (h : Beside s t) (x : ReportUnit) : Beside s (t.withReports x) := h.trans (.inl rfl)

theorem arbitrate_beside (s : State) : Beside s (arbitrate s) := (arbitrate_onlySends s).beside

theorem giveWay_beside (s : State) : Beside s (giveWay s) := (giveWay_onlySends s).beside

theorem dropFrame_beside (k : FaultKind) (s : State) : Beside s (dropFrame k s) :=
  ((Beside.refl s).link _).trans (countFault_noted _ _ _).beside

theorem breakOff_beside (s : State) : Beside s (breakOff s) := by
  unfold breakOff
  split
  · exact .refl s
  · exact dropFrame_beside _ s

theorem afterResponse_beside (a : AfterSent) (s : State) : Beside s (afterResponse a s) := by
  unfold afterResponse
  split
  · exact .refl s
  · unfold changeRate
    split
    · exact .refl s
    · exact (breakOff_beside s).link _
  · exact (createReport_noted _ _).beside

theorem completeReport_beside (q : Seq) (s : State) : Beside s (completeReport q s) := by
  unfold completeReport
  split
  · exact .refl s
  · split
    · exact (Beside.refl s).reports _
    · exact .refl s

theorem completeResponse_beside (s : State) : Beside s (completeResponse s) := by
  unfold completeResponse
  split
  · exact .refl s
  · exact ((Beside.refl s).link _).trans (afterResponse_beside _ _)

theorem completeTransmission_beside (s : State) : Beside s (completeTransmission s) := by
  unfold completeTransmission
  split
  · exact .refl s
  · refine Beside.trans (t := s.withLink { s.link with tx := none }) ((Beside.refl s).link _) ?_
    dsimp only
    split
    · exact completeReport_beside _ _
    · exact completeResponse_beside _

/-- The completion of a frame, and the arbiter's choice after it. -/
theorem completion_beside (s : State) : Beside s (arbitrate (completeTransmission s)).firm :=
  ((completeTransmission_beside s).trans (arbitrate_beside _)).link _

theorem settle_beside (s : State) : Beside s (settle s) := by
  unfold settle
  split
  · exact .refl s
  · split
    · exact completion_beside s
    · exact .refl s

theorem clockOut_beside (s : State) : Beside s (clockOut s) := (settle_beside s).link _

theorem clockPeriods_beside (n : Nat) (s : State) : Beside s (clockPeriods n s) := by
  induction n generalizing s with
  | zero => exact .refl s
  | succ n ih => exact (clockOut_beside s).trans (ih _)

theorem broughtIn_beside (n : Nat) (s : State) : Beside s (broughtIn n s) := by
  unfold broughtIn
  split
  · exact .refl s
  · exact (((Beside.refl s).link _).trans (clockPeriods_beside n _)).link _

theorem frameArrived_beside (s : State) : Beside s (frameArrived s) := by
  unfold frameArrived restartSilence
  split <;> exact .inl rfl

theorem takeAck_beside (q : Seq) (s : State) : Beside s (takeAck q s) := by
  unfold takeAck
  split
  · exact (Beside.refl s).reports _
  · exact (countFault_noted _ _ _).beside

theorem expireInterval_beside (q : Seq) (s : State) : Beside s (expireInterval q s) := by
  unfold expireInterval
  split
  · exact .refl s
  · split
    · exact (Beside.refl s).reports _
    · exact ((Beside.refl s).reports _).trans (countFault_noted _ _ _).beside

theorem expireSilence_beside (s : State) : Beside s (expireSilence s) :=
  Beside.trans (t := s.withRun { s.run with silence := none }) (.inl rfl) (countFault_noted _ _ _).beside

theorem deassertCsn_beside (s : State) : Beside s (deassertCsn s) := by
  unfold deassertCsn
  split
  · exact .refl s
  · exact ((Beside.refl s).link _).trans (breakOff_beside _)

/-! ## What every step keeps -/

/-- `P` before an event brings about `Q` after it. -/
structure Keeps (P Q : State → Prop) : Prop where
  weaken : ∀ {s}, P s → Q s
  beside : ∀ {s t}, OnlyBeside s t → P s → P t
  faulted : ∀ {s}, s.run.state.sequencing = true → P s → P (enterFaulted s)
  besideAfter : ∀ {s t}, OnlyBeside s t → Q s → Q t
  faultedAfter : ∀ {s}, s.run.state.sequencing = true → Q s → Q (enterFaulted s)
  elapse : ∀ {s n}, s.quietFor n → P s → P (elapse n s)
  take : ∀ i {s}, P s → Q (takeCommand i s).1
  timeList : ∀ {s}, P s → Q (expireTimeList s)
  edge : ∀ l {s}, P s → Q (acceptEdge l s)
  sample : ∀ l v {s}, P s → Q (sampleInput l v s)
  raw : ∀ l v {s}, P s → Q (s.putInput l { s.input l with raw := v })
  rawSync : ∀ v {s}, P s → Q (s.withTimebase { s.timebase with syncRaw := v })
  highEnd : ∀ l {s}, P s → Q (endHigh l s)
  periodEnd : ∀ l {s}, P s → Q (endPeriod l s)
  reset : ∀ v s, Q (resetBlocks v s)

/-- The events of SYNC bring `s` to states of `Q`, whenever they come about. -/
structure SyncKept (Q : State → Prop) (s : State) : Prop where
  accept : ∀ n, s.quietFor n → Q (acceptSync (elapse n s))
  sample : ∀ n v, s.quietFor n → Q (sampleSync v (elapse n s))

variable {P Q : State → Prop}

theorem Keeps.kept {s t : State} (K : Keeps P Q) (h : Beside s t) (hp : P s) : P t := by
  rcases h with h | ⟨hs, h⟩
  · exact K.beside h hp
  · exact K.beside h (K.faulted hs hp)

theorem Keeps.keptAfter {s t : State} (K : Keeps P Q) (h : Beside s t) (hq : Q s) : Q t := by
  rcases h with h | ⟨hs, h⟩
  · exact K.besideAfter h hq
  · exact K.besideAfter h (K.faultedAfter hs hq)

/-- A request put into the window, or dropped. -/
theorem Keeps.putRequest {s : State} (K : Keeps P Q) {take : State → State × Reply} (ht : ∀ {u}, P u → Q (take u).1)
    (tag : Tag) (code : Option Byte) (hp : P s) : Q (putRequest tag code take s) := by
  unfold Machine.putRequest
  split
  · exact K.weaken hp
  · split
    · exact K.weaken (K.kept (countFault_noted _ _ _).beside hp)
    · split
      · exact K.weaken (K.kept (countFault_noted _ _ _).beside hp)
      · split
        · exact K.weaken (K.kept ((giveWay_beside s).link _) hp)
        · exact K.keptAfter ((Beside.refl _).link _) (ht (K.kept ((giveWay_beside s).link _) hp))

theorem Keeps.requestFrame {s t : State} (K : Keeps P Q) {take : State → State × Reply}
    (ht : ∀ {u}, P u → Q (take u).1) {tag : Tag} {n : Nat} {code : Option Byte} (hp : P s)
    (h : requestFrame tag n code take s = .next t) : Q t := by
  unfold Machine.requestFrame at h
  split at h
  · cases h
    exact K.weaken hp
  · cases h
    exact K.keptAfter (arbitrate_beside _) (K.putRequest ht _ _
      (K.kept ((broughtIn_beside _ s).trans (frameArrived_beside _)) hp))

theorem Keeps.payload {s : State} (K : Keeps P Q) (tag : Tag) (p : List Byte) (hp : P s) :
    Q (takePayload tag p s).1 := by
  unfold takePayload
  split
  · exact K.weaken hp
  · exact K.weaken hp
  · exact K.weaken hp
  · exact K.take _ hp

theorem Keeps.whenDue {s t : State} (K : Keeps P Q) {d : Option Nat} {event : State → State}
    (he : ∀ n, s.quietFor n → Q (event (Machine.elapse n s))) (hp : P s) (h : whenDue d event s = .next t) : Q t := by
  unfold Machine.whenDue at h
  split at h
  · cases h
    exact K.weaken hp
  · split at h
    · cases h
      exact K.weaken hp
    · split at h
      · rename_i n hq
        cases h
        refine K.keptAfter (arbitrate_beside _) (he n fun p hp => ?_)
        simpa using List.all_eq_true.mp hq p hp
      · cases h
        exact K.weaken hp

theorem Keeps.atOnce {s t : State} (K : Keeps P Q) {event : State → State} (he : Q (event s)) (hp : P s)
    (h : atOnce event s = .next t) : Q t := by
  unfold Machine.atOnce at h
  split at h
  · cases h
    exact K.weaken hp
  · cases h
    exact K.keptAfter (arbitrate_beside _) he

/-! ## Reception -/

theorem Keeps.handOn {s : State} (K : Keeps P Q) (bytes : List Byte) (hp : P s) : Q (handOn bytes s) := by
  unfold Machine.handOn
  dsimp only
  split
  · exact K.weaken (K.kept ((frameArrived_beside s).trans (takeAck_beside _ _)) hp)
  · exact K.putRequest (K.payload _ _) _ _ (K.kept (frameArrived_beside s) hp)

theorem gather_beside (a : Assembler) (s : State) : Beside s (gather a s) := (Beside.refl s).link _

theorem Keeps.receiveChar {s : State} (K : Keeps P Q) (c : RxChar) (hp : P s) : Q (receiveChar c s) := by
  have h1 : P (s.withLink { s.link with lastByteAt := s.clock, byteStarted := false }) :=
    K.kept ((Beside.refl s).link _) hp
  have hgather : ∀ a, Q (gather a (s.withLink { s.link with lastByteAt := s.clock, byteStarted := false })) :=
    fun a => K.weaken (K.kept (gather_beside a _) h1)
  have hdrop : ∀ k, Q (dropFrame k (s.withLink { s.link with lastByteAt := s.clock, byteStarted := false })) :=
    fun k => K.weaken (K.kept (dropFrame_beside k _) h1)
  unfold Machine.receiveChar
  dsimp only
  split
  · split
    · exact hgather _
    · exact K.weaken h1
  · split
    · exact hdrop _
    · unfold gatherHeader
      dsimp only
      split
      · exact hdrop _
      · split
        · exact hgather _
        · split
          · exact hdrop _
          · exact hgather _
  · split
    · exact hdrop _
    · exact hgather _
  · split
    · exact hdrop _
    · unfold gatherCrc
      dsimp only
      split
      · exact hgather _
      · split
        · exact K.handOn _ h1
        · exact hdrop _

theorem Keeps.receiveEvent {s : State} (K : Keeps P Q) (x : LinkEvent) (hp : P s) : Q (receiveEvent x s) := by
  unfold Machine.receiveEvent
  split
  · exact K.receiveChar _ (K.kept (broughtIn_beside _ s) hp)
  · exact K.weaken (K.kept ((Beside.refl s).link _) hp)
  · exact K.weaken (K.kept ((Beside.refl s).link _) hp)
  · split
    · unfold clockPeriod
      dsimp only
      have h1 : P (clockOut s) := K.kept (clockOut_beside s) hp
      split
      · have h2 : P ((clockOut s).withLink { (clockOut s).link with sdi := 0 }) := K.kept ((Beside.refl _).link _) h1
        split
        · exact K.receiveChar _ (K.kept (settle_beside _) h2)
        · exact K.receiveChar _ h2
      · exact K.weaken (K.kept ((Beside.refl _).link _) h1)
    · exact K.weaken hp

/-- A run of characters and events of the link: of any length where `Q` is `P`, else of one. -/
theorem Keeps.receiveAll (K : Keeps P Q) {xs : List LinkEvent} :
    ∀ {s : State}, (∀ {u}, Q u → P u) ∨ xs.length ≤ 1 → P s → Q (receiveAll xs s) := by
  induction xs with
  | nil => exact fun _ hp => K.weaken hp
  | cons x xs ih =>
    intro s hr hp
    have h1 : Q (arbitrate (Machine.receiveEvent x s)) := K.keptAfter (arbitrate_beside _) (Keeps.receiveEvent K x hp)
    unfold Machine.receiveAll
    rcases hr with hr | hr
    · exact ih (.inl hr) (hr h1)
    · have : xs = [] := List.eq_nil_of_length_eq_zero (by rw [List.length_cons] at hr; omega)
      subst this
      exact h1

/-! ## Commands and steps -/

theorem Keeps.idle {s : State} (K : Keeps P Q) (hp : P s) : Q (idle s) := by
  unfold Machine.idle
  split
  · exact K.weaken hp
  · split
    · rename_i hn
      refine K.weaken (K.elapse (fun p hm => ?_) hp)
      unfold dueNow at hn
      rw [List.map_eq_nil_iff, List.filter_eq_nil_iff] at hn
      have := hn p hm
      simp only [decide_eq_true_eq] at this
      omega
    · exact K.weaken (K.beside rfl hp)
    · exact K.weaken (K.beside rfl hp)

/-- A request command is the arrival of its request frame, which the owner block takes. -/
theorem exec_taken {i : Instr} {p : Tag × List Byte} (h : encodeRequest i = some p) (s : State) :
    exec i s = Machine.requestFrame p.1 p.2.length p.2.head? (takeCommand i) s := by
  cases i <;> simp only [encodeRequest, Option.some.injEq, reduceCtorEq] at h <;> subst h <;> rfl

/-- What is no request: an event, or a payload that need be none of a request. -/
theorem Keeps.event {s t : State} (K : Keeps P Q) {i : Instr} (hr : encodeRequest i = none) (hsync : SyncKept Q s)
    (hrun : ∀ received, i = .badFrame received → (∀ {u}, Q u → P u) ∨ received.length ≤ 1) (hp : P s)
    (h : exec i s = .next t) : Q t := by
  cases i with
  | fullReset cause v =>
    cases h
    exact K.keptAfter (((createReport_noted _ _).beside.trans (arbitrate_beside _)).link _) (K.reset v s)
  | unknownRequest tag p => exact K.requestFrame (K.payload tag p) hp h
  | ack q =>
    exact Keeps.atOnce K (event := fun t => takeAck q (frameArrived (frameBroughtIn 0 t)))
      (K.weaken (K.kept (((broughtIn_beside _ s).trans (frameArrived_beside _)).trans (takeAck_beside _ _)) hp)) hp h
  | badFrame received =>
    unfold Machine.exec execBadFrame at h
    dsimp only at h
    split at h
    · cases h
      exact K.weaken hp
    · cases h
      exact K.receiveAll (hrun received rfl) hp
  | gapTimerExpiry =>
    exact K.whenDue (fun n hq => K.weaken (K.kept (dropFrame_beside _ _) (K.elapse hq hp))) hp h
  | csnDeassert => exact K.atOnce (K.weaken (K.kept (deassertCsn_beside s) hp)) hp h
  | transmitComplete =>
    exact K.whenDue (event := fun u => (arbitrate (completeTransmission u)).firm)
      (fun n hq => K.weaken (K.kept (completion_beside _) (K.elapse hq hp))) hp h
  | retryIntervalExpiry q =>
    exact K.whenDue (fun n hq => K.weaken (K.kept (expireInterval_beside _ _) (K.elapse hq hp))) hp h
  | silenceTimerExpiry =>
    exact K.whenDue (fun n hq => K.weaken (K.kept (expireSilence_beside _) (K.elapse hq hp))) hp h
  | timeListExpiry => exact K.whenDue (fun n hq => K.timeList (K.elapse hq hp)) hp h
  | trainHighTimeEnd l => exact K.whenDue (fun n hq => K.highEnd l (K.elapse hq hp)) hp h
  | trainPeriodEnd l => exact K.whenDue (fun n hq => K.periodEnd l (K.elapse hq hp)) hp h
  | inputRawChange l v =>
    unfold Machine.exec execInputRawChange at h
    dsimp only at h
    split at h
    · cases h
      exact K.raw l v hp
    · exact K.whenDue (fun n hq => K.sample l v (K.elapse hq hp)) hp h
  | inputEdgeAccepted l => exact K.whenDue (fun n hq => K.edge l (K.elapse hq hp)) hp h
  | syncRawChange v =>
    unfold Machine.exec execSyncRawChange at h
    dsimp only at h
    split at h
    · cases h
      exact K.rawSync v hp
    · exact K.whenDue (fun n hq => hsync.sample n v hq) hp h
  | syncEdgeAccepted => exact K.whenDue (fun n hq => hsync.accept n hq) hp h
  | resetnDrivenLow =>
    cases h
    exact K.weaken (K.beside (s := s) rfl hp)
  | _ => cases hr

/-- Every command brings `P` to `Q`. -/
theorem Keeps.exec {s t : State} (K : Keeps P Q) (i : Instr) (hsync : SyncKept Q s)
    (hrun : ∀ received, i = .badFrame received → (∀ {u}, Q u → P u) ∨ received.length ≤ 1) (hp : P s)
    (h : exec i s = .next t) : Q t := by
  cases hr : encodeRequest i with
  | some p => exact K.requestFrame (K.take i) hp ((exec_taken hr s).symm.trans h)
  | none => exact K.event hr hsync hrun hp h

/-- Every step brings `P` to `Q`. -/
theorem Keeps.step {s t : State} (K : Keeps P Q) (hsync : ∀ rest, SyncKept Q { s with pending := rest })
    (hrun : ∀ received rest, s.pending = .badFrame received :: rest → (∀ {u}, Q u → P u) ∨ received.length ≤ 1)
    (hp : P s) (h : step s = .next t) : Q t := by
  unfold Machine.step at h
  split at h
  · cases h
    exact K.idle hp
  · rename_i c rest hc
    exact K.exec c (hsync rest) (fun received hr => hrun received rest (hr ▸ hc)) (K.beside rfl hp) h

end Sys2Proof.Machine
end

