-- ==== Sys2Proof/Proofs/ListsAgree.lean ====
section
/-! PROOFS. Every step keeps the agreement of the lists with the pool, their order, and the order of serials (R5 to R9). -/

namespace Sys2Proof.Machine

variable {k j : Prop} {C : Nat}

/-- Every event keeps a state settled, with credit for what the rules can allocate within it. -/
theorem keeps_settled (hs : Spans k j (C + 2362368)) : Keeps (Settled k j C) (Settled k j (C + 2362368)) where
  weaken h := h.mono (by omega)
  beside h hp := hp.congr (by rw [h]) (by rw [h]) (by rw [h]) (by rw [h]) (by rw [h])
  faulted hq hp := hp.noted (hs.mono (by omega)) (.inr ⟨hq, rfl⟩)
  besideAfter h hp := hp.congr (by rw [h]) (by rw [h]) (by rw [h]) (by rw [h]) (by rw [h])
  faultedAfter hq hp := hp.noted hs (.inr ⟨hq, rfl⟩)
  elapse hq hp := elapse_settled hp hq
  take i _ hp := (takeCommand_settled i hp (hs.mono (by omega))).mono (by omega)
  timeList hp := (expireTimeList_settled hp (hs.mono (by omega))).mono (by omega)
  edge l _ hp := acceptEdge_settled hp hs l
  sample l v _ hp := sampleInput_settled hp hs l v
  raw l _ _ hp := (hp.mono (by omega)).putInput l fun c => (hp.statics c).bounded l
  rawSync _ _ hp := (hp.mono (by omega)).timebase rfl rfl
  highEnd l _ hp := (endHigh_settled hp l).mono (by omega)
  periodEnd l _ hp := (endPeriod_settled hp (hs.mono (by omega)) l).mono (by omega)
  reset v s := resetBlocks_settled v s

/-- The events of SYNC keep a state settled, SYNC being armed only with the lists empty. -/
theorem syncKept_settled {s : State} (h : Settled k j C s) (hs : Spans k j C) (hr : k → SyncAtRest s) :
    SyncKept (Settled k j C) s where
  accept _ hq := acceptSync_settled (elapse_settled h hq) hs fun c => hr c
  sample _ v hq := sampleSync_settled (elapse_settled h hq) hs (fun c => hr c) v

theorem step_settled {s t : State} (hs : Spans k j (C + 2362368)) (hr : k → SyncAtRest s)
    (hrun : ¬ j ∨ ∀ received rest, s.pending = .badFrame received :: rest → received.length ≤ 1)
    (h : Settled k j C s) (ht : step s = .next t) : Settled k j (C + 2362368) t := by
  refine (keeps_settled hs).step (fun rest => ?_) (fun received rest hp => ?_) h ht
  · have h' : Settled k j (C + 2362368) { s with pending := rest } :=
      (h.mono (by omega)).congr rfl rfl rfl rfl rfl
    exact syncKept_settled h' hs fun c => hr c
  · rcases hrun with hj | hrun
    · exact .inl fun hu => ⟨⟨hu.order.agree, hu.order.held, hu.order.timely, fun c => absurd c hj⟩, hu.expired, hu.statics⟩
    · exact .inr (hrun received rest hp)

theorem holdersHeld_of_agree {s : State} (h : HoldersAgree s) : HoldersHeld s :=
  ⟨fun l b hb => (h.holding l b).mp hb, h.single⟩

theorem settled_of_agree {s : State} (h : ListsAgree s) : Settled False False 0 s :=
  ⟨⟨agreeBut_nil.mpr h, False.elim, False.elim, False.elim⟩, False.elim, False.elim⟩

theorem spans_unserialled (hj : ¬ j) : Spans k j C := ⟨fun c => absurd c hj, fun c => absurd c hj⟩

end Sys2Proof.Machine

open Sys2Proof.Machine in
/-- Settles O9: a state in which lists and pool agree, and their order rests on its bounds, is brought to such a state by every
chain of moves; what joins in one step is bounded by what the pool can still have and by what the rules allocate. -/
theorem listsAgreeKept : Obligations.ListsAgreeKept := by
  unfold Obligations.ListsAgreeKept
  refine ⟨fun s t ha h => ?_, fun s t ha hh hsync ho h => ?_⟩
  · have := step_settled (spans_unserialled not_false) False.elim (.inl not_false) (settled_of_agree ha) h
    exact agreeBut_nil.mp this.order.agree
  · have hheld := holdersHeld_of_agree hh
    have hrest : SyncAtRest s := fun c => (hsync c).2
    refine ⟨(step_settled (spans_unserialled not_false) (fun _ => hrest) (.inl not_false)
      (settled_of_ordered ha hheld ho) h).listsOrdered, fun hr hs hrun => ?_⟩
    exact (step_settled (k := True) (j := True) ⟨fun _ => trivial, fun _ => by norm_num⟩ (fun _ => hrest) (.inr hrun)
      (settled_of_serials ha hheld ho hr hs) h).serialsInOrder

end

