-- ==== Sys2Proof/Proofs/FaultedAtRest.lean ====
section
/-! PROOFS. Every step keeps FAULTED at rest (R25, R47, R122): what sequences does so on an action in use, on a rule while
ARMED, or on a request that FAULTED refuses, and what is created can only enter FAULTED anew. -/

namespace Sys2Proof.Machine

/-! ## What keeps FAULTED at rest -/

/-- Pool, lists and run state are what they were, and no line gained a holder or a train. -/
theorem FaultedAtRest.alike {s t : State} (h : FaultedAtRest s) (hs : t.sched = s.sched)
    (hr : t.run.state = s.run.state) (ho : ∀ l, (t.output l).holders = (s.output l).holders
      ∧ ((t.output l).running = (s.output l).running ∨ (t.output l).running = false)) : FaultedAtRest t := by
  intro hf
  obtain ⟨h1, h2, h3, h4⟩ := h (hr ▸ hf)
  refine ⟨fun i => by unfold State.slot; rw [hs]; exact h1 i, by rw [hs, h2], by rw [hs, h3], fun l => ?_⟩
  obtain ⟨hh, hrun⟩ := ho l
  rw [hh]
  refine ⟨(h4 l).1, ?_⟩
  rcases hrun with hrun | hrun
  · rw [hrun, (h4 l).2]
  · exact hrun

theorem FaultedAtRest.putOutput {s : State} (h : FaultedAtRest s) (l : OutLine) {x : Output}
    (hh : x.holders = (s.output l).holders) (hr : x.running = (s.output l).running ∨ x.running = false) :
    FaultedAtRest (s.putOutput l x) := by
  refine h.alike rfl rfl fun m => ?_
  by_cases hm : m = l
  · rw [hm, State.output_putOutput_self]
    exact ⟨hh, hr⟩
  · rw [State.output_putOutput_ne _ _ _ _ hm]
    exact ⟨rfl, .inl rfl⟩

theorem FaultedAtRest.noted {s t : State} (h : FaultedAtRest s) (n : Noted s t) : FaultedAtRest t :=
  (n.work (k := False) (V := [])).faultedAtRest h

theorem FaultedAtRest.createReport {s : State} (h : FaultedAtRest s) (b : ReportBody) : FaultedAtRest (createReport b s) :=
  h.noted (createReport_noted b s)

theorem FaultedAtRest.countFault {s : State} (h : FaultedAtRest s) (k : FaultKind) (d : Option FaultDetail) :
    FaultedAtRest (countFault k d s) :=
  h.noted (countFault_noted k d s)

/-- Entries leave the lists. -/
theorem FaultedAtRest.thinned {s t : State} (h : FaultedAtRest s) (hs : t.sched.slots = s.sched.slots)
    (ht : t.sched.timeList.Sublist s.sched.timeList) (hv : t.sched.travelList.Sublist s.sched.travelList)
    (ho : t.outputs = s.outputs) (hr : t.run.state = s.run.state) : FaultedAtRest t := by
  intro hf
  obtain ⟨h1, h2, h3, h4⟩ := h (hr ▸ hf)
  rw [h2] at ht
  rw [h3] at hv
  refine ⟨fun i => ?_, List.sublist_nil.mp ht, List.sublist_nil.mp hv, fun l => ?_⟩
  · unfold State.slot
    rw [hs]
    exact h1 i
  · unfold State.output
    rw [ho]
    exact h4 l

/-! ## The lists -/

theorem startAction_faultedAtRest {s : State} (h : FaultedAtRest s) (x : Handle) (tick : Tick) :
    FaultedAtRest (startAction x tick s).1 := by
  cases hw : s.waitingAction x with
  | none =>
    unfold startAction
    rw [hw]
    exact h
  | some a =>
    obtain ⟨J, w, hwork, -⟩ := startAction_carried (k := False) (V := []) (tick := tick) hw False.elim False.elim
      False.elim False.elim
    exact hwork.faultedAtRest h

theorem endAction_faultedAtRest {s : State} (h : FaultedAtRest s) (x : Handle) : FaultedAtRest (endAction x s).1 := by
  unfold endAction
  cases hh : s.holdingAction x with
  | none => exact h
  | some a =>
    have hlive : (s.actionOf x).isSome := by
      rw [State.actionOf_iff.mpr (.inr hh)]
      rfl
    dsimp only
    unfold proceed
    split
    · exact h.of_live hlive (by rw [joinStart_run]; rfl)
    · obtain ⟨w, hw⟩ := freeSlot_steps (V := []) x (if a.finishRequested then .completeEarly else .complete)
        (release a.line x s)
      exact hw.faultedAtRest (h.of_live (t := release a.line x s) hlive rfl)

theorem runLists_faultedAtRest {x : Expiry} {n : Nat} {hs : List Handle} {s : State} (h : FaultedAtRest s) :
    FaultedAtRest (runLists x n hs s) := by
  induction n generalizing x hs s with
  | zero => exact h
  | succ n ih =>
    have hremove : ∀ y, FaultedAtRest (removeEntry y s) := fun y =>
      h.thinned rfl List.filter_sublist List.filter_sublist rfl rfl
    have hpop : FaultedAtRest (popTime s) := h.thinned rfl (List.tail_sublist _) (.refl _) rfl rfl
    have hpop' : FaultedAtRest (popTravel s) := h.thinned rfl (.refl _) (List.tail_sublist _) rfl rfl
    cases hs with
    | cons y ys =>
      rw [runLists]
      split
      · exact ih (startAction_faultedAtRest (hremove y) _ _)
      · exact ih h
    | nil =>
      rw [runLists]
      split
      · rename_i e _
        refine ih ?_
        unfold carryOutTime
        split
        · exact startAction_faultedAtRest hpop _ _
        · exact endAction_faultedAtRest hpop _
      · split
        · exact h
        · split
          · exact h
          · exact ih (startAction_faultedAtRest hpop' _ _)

theorem joinAction_faultedAtRest {s : State} (h : FaultedAtRest s) (x : Handle) : FaultedAtRest (joinAction x s) := by
  unfold joinAction
  cases hw : s.waitingAction x with
  | none => exact h
  | some a =>
    refine runLists_faultedAtRest (h.of_live (x := x) ?_ (by rw [joinStart_run]))
    rw [State.actionOf_iff.mpr (.inl hw)]
    rfl

theorem joinAll_faultedAtRest {hs : List Handle} {s : State} (h : FaultedAtRest s) : FaultedAtRest (joinAll hs s) := by
  induction hs generalizing s with
  | nil => exact h
  | cons x hs ih => exact ih (joinAction_faultedAtRest h x)

/-! ## Rules and edges -/

theorem allocateAll_run (l : List (SlotNo × Action)) (s : State) : (allocateAll l s).run = s.run := by
  induction l generalizing s with
  | nil => rfl
  | cons p rest ih => exact ih _

theorem FaultedAtRest.putRule {s : State} (h : FaultedAtRest s) (r : RuleNo) (x : Rule) : FaultedAtRest (s.putRule r x) :=
  h.congr rfl rfl rfl

theorem testLimit_faultedAtRest {s : State} (h : FaultedAtRest s) (r : RuleNo) : FaultedAtRest (testLimit r s) := by
  unfold testLimit
  split
  · exact (h.putRule r _).createReport _
  · exact h

/-- A rule fires in ARMED. -/
theorem fireRule_faultedAtRest {s : State} (h : s.run.state = .armed) (r : RuleNo) (slots : List SlotNo) (e : EdgeEvent) :
    FaultedAtRest (fireRule r slots e s) := by
  have h1 : FaultedAtRest (allocateAll (slots.zip ((s.rule r).active.templates.map (templateAction r (s.rule r) e))) s) :=
    .of_not (by rw [allocateAll_run, h]; simp)
  have h3 := fun hs x => (joinAll_faultedAtRest (hs := hs) h1).putRule r x
  unfold fireRule
  refine testLimit_faultedAtRest ?_ r
  split
  · exact (h3 _ _).createReport _
  · exact h3 _ _

theorem evalRule_faultedAtRest {s : State} (h : s.run.state = .armed) (r : RuleNo) (e : EdgeEvent) :
    FaultedAtRest (evalRule r e s) := by
  have h0 : FaultedAtRest s := .of_not (by rw [h]; simp)
  unfold evalRule
  dsimp only
  split
  · exact h0
  · split
    · exact h0
    · split
      · exact h0.putRule r _
      · split
        · exact h0.putRule r _
        · unfold requestSlots
          dsimp only
          split
          · exact fireRule_faultedAtRest h r _ e
          · exact ((h0.countFault _ _).putRule r _).createReport _

theorem evalRules_faultedAtRest {e : EdgeEvent} {rs : List RuleNo} {s : State} (h : FaultedAtRest s) :
    FaultedAtRest (evalRules e rs s) := by
  induction rs generalizing s with
  | nil => exact h
  | cons r rs ih =>
    unfold evalRules
    split
    · exact ih (evalRule_faultedAtRest ‹_› r e)
    · exact h

theorem offerEdge_faultedAtRest {s : State} (h : FaultedAtRest s) (e : EdgeEvent) : FaultedAtRest (offerEdge e s) := by
  have hj : ∀ j, FaultedAtRest (s.withJournal j) := fun j => h.congr rfl rfl rfl
  unfold offerEdge
  split
  · unfold storeEdge
    dsimp only
    split
    · exact (hj _).createReport _
    · exact hj _
  · exact (hj _).countFault _ _

theorem acceptEdge_faultedAtRest {s : State} (h : FaultedAtRest s) (l : InLine) : FaultedAtRest (acceptEdge l s) := by
  unfold acceptEdge
  split
  · exact h
  · rename_i q _
    have h1 : FaultedAtRest (s.putInput l { s.input l with filtered := q.level, qual := none }) := h.congr rfl rfl rfl
    have h2 : FaultedAtRest (advanceTravel l q (s.putInput l { s.input l with filtered := q.level, qual := none })) := by
      unfold advanceTravel
      split
      · exact runLists_faultedAtRest (h1.congr rfl rfl rfl)
      · exact h1
    dsimp only
    split
    · refine evalRules_faultedAtRest ?_
      split
      · exact offerEdge_faultedAtRest h2 _
      · exact h2
    · exact h2

theorem sampleInput_faultedAtRest {s : State} (h : FaultedAtRest s) (l : InLine) (v : Level) :
    FaultedAtRest (sampleInput l v s) := by
  have hi : ∀ x, FaultedAtRest (s.putInput l x) := fun x => h.congr rfl rfl rfl
  unfold sampleInput
  dsimp only
  split
  · split
    · exact hi _
    · exact hi _
  · split
    · exact hi _
    · split
      · exact acceptEdge_faultedAtRest (hi _) l
      · exact hi _

/-! ## SYNC and trains -/

theorem FaultedAtRest.timebase {s : State} (h : FaultedAtRest s) (x : Timebase) : FaultedAtRest (s.withTimebase x) :=
  h.congr rfl rfl rfl

theorem acceptSync_faultedAtRest {s : State} (h : FaultedAtRest s) : FaultedAtRest (acceptSync s) := by
  unfold acceptSync
  split
  · exact h
  · rename_i q _
    dsimp only
    split
    · exact h.timebase _
    · unfold syncEdge
      split
      · unfold loadTimeline
        refine FaultedAtRest.createReport ?_ _
        refine h.alike rfl rfl fun l => ?_
        rw [State.output_withOutputs_tabulate]
        exact ⟨rfl, .inl rfl⟩
      · unfold timeSync
        refine FaultedAtRest.timebase ?_ _
        split
        · exact (h.timebase _).createReport _
        · exact h.timebase _

theorem sampleSync_faultedAtRest {s : State} (h : FaultedAtRest s) (v : Level) : FaultedAtRest (sampleSync v s) := by
  unfold sampleSync
  dsimp only
  split
  · exact h.timebase _
  · split
    · exact h.timebase _
    · split
      · exact acceptSync_faultedAtRest (h.timebase _)
      · exact h.timebase _

theorem Output.applyStaged_running (o : Output) : o.applyStaged.running = o.running := by
  unfold Output.applyStaged
  split <;> rfl

theorem endPeriod_faultedAtRest {s : State} (h : FaultedAtRest s) (l : OutLine) : FaultedAtRest (endPeriod l s) := by
  unfold endPeriod
  dsimp only
  split
  · refine FaultedAtRest.createReport ?_ _
    exact h.putOutput l rfl (.inr rfl)
  · exact h.putOutput l (Output.applyStaged_kept _).1 (.inl (Output.applyStaged_running _))

/-! ## Requests -/

theorem changeRunState_faultedAtRest {st : RunState} (hst : st ≠ .faulted) (silence : Option Nat) (n : Nat) (s : State) :
    FaultedAtRest (changeRunState st silence n s) :=
  FaultedAtRest.createReport (.of_not hst) _

theorem takeSchedulePulse_faultedAtRest {s : State} (h : FaultedAtRest s) {tag : Tag} {line base mode : Byte}
    {due : BitVec 48} {width : BitVec 24} {repeats : Byte} {interval : BitVec 32} {done : Byte} :
    FaultedAtRest (takeSchedulePulse tag line base mode due width repeats interval done s).1 := by
  unfold takeSchedulePulse
  split
  · exact h
  · rename_i hbar
    have hn : s.run.state ≠ .faulted := fun c => hbar (by simp [State.scheduleBarred, c])
    split
    · exact h
    · split
      · exact h
      · split
        · exact h
        · split
          · exact h
          · rename_i a _
            split
            · exact h.countFault _ _
            · rename_i i _ _
              exact joinAction_faultedAtRest (s := allocate i a s) (.of_not hn) _

theorem takeSetOutput_faultedAtRest {s : State} (h : FaultedAtRest s) {line mode idle safe policy : Byte} :
    FaultedAtRest (takeSetOutput line mode idle safe policy s).1 := by
  unfold takeSetOutput
  split
  · rename_i l m i f p _ _ _ _ _
    split
    · exact h
    · split
      · exact h
      · refine h.putOutput l (Output.configured_holders _ _ _ _ _) ?_
        unfold Output.configured
        dsimp only
        split
        · exact .inl rfl
        · exact .inr rfl
  · exact h

theorem takeTrainStart_faultedAtRest {s : State} (h : FaultedAtRest s) {line : Byte} {burst : BitVec 16} :
    FaultedAtRest (takeTrainStart line burst s).1 := by
  unfold takeTrainStart
  split
  · exact h
  · split
    · exact h
    · rename_i hn
      split
      · exact h
      · split
        · exact h
        · split
          · exact h
          · exact .of_not hn

theorem takeTrainStop_faultedAtRest {s : State} (h : FaultedAtRest s) {stop : Output → Output} {line : Byte}
    (hstop : ∀ o, (stop o).holders = o.holders ∧ ((stop o).running = o.running ∨ (stop o).running = false)) :
    FaultedAtRest (takeTrainStop stop line s).1 := by
  unfold takeTrainStop
  split
  · exact h
  · split
    · exact h
    · dsimp only
      split
      · exact h.putOutput _ (hstop _).1 (hstop _).2
      · exact h

theorem takeArm_faultedAtRest {s : State} (h : FaultedAtRest s) :
    FaultedAtRest (takeArm s).1 := by
  unfold takeArm
  split
  · split
    · exact h
    · exact changeRunState_faultedAtRest (by simp) _ _ _
  · exact h
  · exact h
  · exact h

theorem takeDisarmWait_faultedAtRest {s : State} (h : FaultedAtRest s) :
    FaultedAtRest (takeDisarmWait s).1 := by
  unfold takeDisarmWait
  split
  · split <;> exact changeRunState_faultedAtRest (by simp) _ _ _
  · exact h
  · exact h
  · exact h

theorem takeDisarmFlush_faultedAtRest {s : State} (h : FaultedAtRest s) :
    FaultedAtRest (takeDisarmFlush s).1 := by
  unfold takeDisarmFlush
  split
  · exact changeRunState_faultedAtRest (by simp) _ _ _
  · exact changeRunState_faultedAtRest (by simp) _ _ _
  · exact h
  · exact h

theorem takeRecover_faultedAtRest {s : State} (h : FaultedAtRest s) :
    FaultedAtRest (takeRecover s).1 := by
  unfold takeRecover
  split
  · exact changeRunState_faultedAtRest (by simp) _ _ _
  · exact h

theorem takeSetSupervision_faultedAtRest {s : State} {limit : BitVec 16} (h : FaultedAtRest s) :
    FaultedAtRest (takeSetSupervision limit s).1 := by
  unfold takeSetSupervision
  dsimp only
  split
  · exact h
  · exact h.congr rfl rfl rfl

theorem takeCancelAction_faultedAtRest {s : State} {mode : CancelMode} {slot : Byte} {gen : Gen} (h : FaultedAtRest s) :
    FaultedAtRest (takeCancelAction mode slot gen s).1 := by
  unfold takeCancelAction
  split
  · exact h
  · split
    · exact h
    · rename_i x hl
      obtain ⟨w, hw⟩ := cancelHandle_steps (k := False) (V := []) _ _ hl
      exact hw.faultedAtRest h

theorem takeCancelLine_faultedAtRest {s : State} {mode : CancelMode} {line : Byte} (h : FaultedAtRest s) :
    FaultedAtRest (takeCancelLine mode line s).1 := by
  unfold takeCancelLine
  split
  · exact h
  · obtain ⟨w, hw⟩ := cancelHandles_steps (k := False) (V := []) _ _ s
    exact hw.faultedAtRest h

theorem takeSetSchedule_faultedAtRest {s : State} {ticks : BitVec 16} {counts policy reserve : Byte} (h : FaultedAtRest s) :
    FaultedAtRest (takeSetSchedule ticks counts policy reserve s).1 := by
  unfold takeSetSchedule
  split
  · exact h
  · split
    · exact h
    · exact h.thinned rfl (.refl _) (.refl _) rfl rfl

theorem takeSetLevel_faultedAtRest {s : State} {line level : Byte} (h : FaultedAtRest s) :
    FaultedAtRest (takeSetLevel line level s).1 := by
  unfold takeSetLevel
  split
  · split
    · exact h
    · exact h.putOutput _ rfl (.inl rfl)
  · exact h

theorem takeTrainLoad_faultedAtRest {s : State} {line : Byte} {period high : BitVec 24} (h : FaultedAtRest s) :
    FaultedAtRest (takeTrainLoad line period high s).1 := by
  unfold takeTrainLoad
  split
  · exact h
  · split
    · exact h
    · split
      · exact h
      · exact h.putOutput _ rfl (.inl rfl)

theorem takeSetTravelSource_faultedAtRest {s : State} {source : Byte} (h : FaultedAtRest s) :
    FaultedAtRest (takeSetTravelSource source s).1 := by
  unfold takeSetTravelSource
  split
  · exact h
  · split
    · exact h.timebase _
    · exact h

theorem takeSetSync_faultedAtRest {s : State} {width : BitVec 16} {reporting : Byte} (h : FaultedAtRest s) :
    FaultedAtRest (takeSetSync width reporting s).1 := by
  unfold takeSetSync
  split
  · exact h
  · split
    · exact h
    · exact h.timebase _

theorem takeArmSync_faultedAtRest {s : State} {preset : Tick} (h : FaultedAtRest s) :
    FaultedAtRest (takeArmSync preset s).1 := by
  unfold takeArmSync
  split
  · exact h
  · split
    · exact h.timebase _
    · exact h

theorem takeSetInput_faultedAtRest {s : State} {line select : Byte} {width : BitVec 16} {enable : Byte} (h : FaultedAtRest s) :
    FaultedAtRest (takeSetInput line select width enable s).1 := by
  unfold takeSetInput
  split
  · split
    · exact h
    · exact h.congr rfl rfl rfl
  · exact h

theorem takeReadJournal_faultedAtRest {s : State} {count : Byte} (h : FaultedAtRest s) :
    FaultedAtRest (takeReadJournal count s).1 := by
  unfold takeReadJournal
  split
  · exact h
  · exact h.congr rfl rfl rfl

theorem takeSetJournal_faultedAtRest {s : State} {watermark empty : Byte} (h : FaultedAtRest s) :
    FaultedAtRest (takeSetJournal watermark empty s).1 := by
  unfold takeSetJournal
  split
  · exact h
  · split
    · exact h
    · exact h.congr rfl rfl rfl

theorem takeEditRule_faultedAtRest {s : State} {rule : Byte} {record : RawRule} (h : FaultedAtRest s) :
    FaultedAtRest (takeEditRule rule record s).1 := by
  unfold takeEditRule
  split
  · exact h.putRule _ _
  · exact h

theorem takeCommitRules_faultedAtRest {s : State} (h : FaultedAtRest s) :
    FaultedAtRest (takeCommitRules s).1 := by
  unfold takeCommitRules
  split
  · exact h
  · split
    · exact h
    · exact h.congr rfl rfl rfl

theorem takeSetReporting_faultedAtRest {s : State} {kinds interval : BitVec 16} {retries : Byte} (h : FaultedAtRest s) :
    FaultedAtRest (takeSetReporting kinds interval retries s).1 := by
  unfold takeSetReporting
  split
  · exact h.congr rfl rfl rfl
  · exact h

theorem takeClearFaults_faultedAtRest {s : State} {kinds : BitVec 16} (h : FaultedAtRest s) :
    FaultedAtRest (takeClearFaults kinds s).1 := by
  unfold takeClearFaults
  split
  · exact h.congr rfl rfl rfl
  · exact h

theorem takeSetFaultMasks_faultedAtRest {s : State} {fatal report : BitVec 16} (h : FaultedAtRest s) :
    FaultedAtRest (takeSetFaultMasks fatal report s).1 := by
  unfold takeSetFaultMasks
  split
  · exact h.congr rfl rfl rfl
  · exact h

/-- Every command that is taken keeps FAULTED at rest. -/
theorem takeCommand_faultedAtRest (i : Instr) {s : State} (h : FaultedAtRest s) : FaultedAtRest (takeCommand i s).1 := by
  cases i with
  | ping _ data => exact (takePing_state data s).symm ▸ h
  | setLinkRate _ rate => exact (takeSetLinkRate_state rate s).symm ▸ h
  | arm _ => exact takeArm_faultedAtRest h
  | disarmWait _ => exact takeDisarmWait_faultedAtRest h
  | disarmFlush _ => exact takeDisarmFlush_faultedAtRest h
  | recover _ => exact takeRecover_faultedAtRest h
  | setSupervision _ limit => exact takeSetSupervision_faultedAtRest h
  | restartKeep _ => exact .of_not (by simp [takeCommand, takeRestart, restartAll, restartRun, defaultRun])
  | restartClear _ => exact .of_not (by simp [takeCommand, takeRestart, restartAll, restartRun, defaultRun])
  | schedulePulse tag line base mode due width repeats interval done => exact takeSchedulePulse_faultedAtRest h
  | cancelActionAbort _ slot gen => exact takeCancelAction_faultedAtRest h
  | cancelActionFinish _ slot gen => exact takeCancelAction_faultedAtRest h
  | cancelLineAbort _ line => exact takeCancelLine_faultedAtRest h
  | cancelLineFinish _ line => exact takeCancelLine_faultedAtRest h
  | listSchedule _ list start maximum => exact (takeListSchedule_state list start maximum s).symm ▸ h
  | setSchedule _ ticks counts policy reserve => exact takeSetSchedule_faultedAtRest h
  | setOutput _ line mode idle safe policy => exact takeSetOutput_faultedAtRest h
  | setLevel _ line level => exact takeSetLevel_faultedAtRest h
  | trainLoad _ line period high => exact takeTrainLoad_faultedAtRest h
  | trainStart _ line burst => exact takeTrainStart_faultedAtRest h
  | trainStopNow _ line => exact takeTrainStop_faultedAtRest h fun _ => ⟨rfl, .inr rfl⟩
  | trainStopAtPeriodEnd _ line => exact takeTrainStop_faultedAtRest h fun _ => ⟨rfl, .inl rfl⟩
  | setTravelSource _ source => exact takeSetTravelSource_faultedAtRest h
  | setSync _ width reporting => exact takeSetSync_faultedAtRest h
  | armSync _ preset => exact takeArmSync_faultedAtRest h
  | cancelSync _ => exact h.timebase _
  | setInput _ line select width enable => exact takeSetInput_faultedAtRest h
  | readJournal _ count => exact takeReadJournal_faultedAtRest h
  | setJournal _ watermark empty => exact takeSetJournal_faultedAtRest h
  | editRule _ rule record => exact takeEditRule_faultedAtRest h
  | readRule _ rule copy => exact (takeReadRule_state rule copy s).symm ▸ h
  | readRuleStats _ first number => exact (takeReadRuleStats_state first number s).symm ▸ h
  | discardStaged _ => exact h.congr rfl rfl rfl
  | resetRuleCounts _ rules => exact h.congr rfl rfl rfl
  | commitRules _ => exact takeCommitRules_faultedAtRest h
  | setReporting _ kinds interval retries => exact takeSetReporting_faultedAtRest h
  | clearFaults _ kinds => exact takeClearFaults_faultedAtRest h
  | setFaultMasks _ fatal report => exact takeSetFaultMasks_faultedAtRest h
  | _ => exact h

theorem keeps_faultedAtRest : Keeps FaultedAtRest FaultedAtRest where
  weaken h := h
  beside h hp := hp.congr (by rw [h]) (by rw [h]) (by rw [h])
  faulted _ _ := enterFaulted_atRest _
  besideAfter h hp := hp.congr (by rw [h]) (by rw [h]) (by rw [h])
  faultedAfter _ _ := enterFaulted_atRest _
  elapse _ hp := hp.congr rfl rfl rfl
  take i _ hp := takeCommand_faultedAtRest i hp
  timeList hp := runLists_faultedAtRest hp
  edge l _ hp := acceptEdge_faultedAtRest hp l
  sample l v _ hp := sampleInput_faultedAtRest hp l v
  raw _ _ _ hp := hp.congr rfl rfl rfl
  rawSync _ _ hp := hp.timebase _
  highEnd l _ hp := hp.putOutput l rfl (.inl rfl)
  periodEnd l _ hp := endPeriod_faultedAtRest hp l
  reset v s := .of_not (by simp [resetBlocks, defaultRun])

end Sys2Proof.Machine

open Sys2Proof.Machine in
/-- Settles O8: in FAULTED nothing that sequences finds an action, an armed rule or a request that is not refused; and the entry
into FAULTED empties pool, lists and holder sets and stops every train. -/
theorem faultedAtRestKept : Obligations.FaultedAtRestKept := by
  unfold Obligations.FaultedAtRestKept
  intro s t h ht
  refine keeps_faultedAtRest.step (fun rest => ?_) (fun _ _ _ => .inl fun hu => hu) h ht
  have h' : ∀ n, FaultedAtRest (elapse n { s with pending := rest }) := fun n => h.congr rfl rfl rfl
  exact ⟨fun n _ => acceptSync_faultedAtRest (h' n), fun n v _ => sampleSync_faultedAtRest (h' n) v⟩

end

