-- ==== Sys2Proof/Proofs/Reset.lean ====
section
/-! PROOFS. The state after reset: every record at its full-reset value, and with them every invariant. -/

namespace Sys2Proof.Machine

theorem defaultScheduler_slot (i : SlotNo) : getAt defaultScheduler.slots i = ⟨0, .free⟩ := by
  simp [defaultScheduler, defaultSlot, getAt]

theorem reset_slot (i : SlotNo) : State.reset.slot i = ⟨0, .free⟩ := defaultScheduler_slot i

theorem reset_output (l : OutLine) : State.reset.output l = defaultOutput := by
  simp [State.output, State.reset, getAt]

theorem reset_rule (r : RuleNo) : State.reset.rule r = defaultRule := by
  simp [State.rule, State.reset, getAt]

theorem reset_input (l : InLine) : State.reset.input l = defaultInput .low := by
  simp [State.input, State.reset, getAt]

theorem reset_faultEntry (k : FaultKind) : State.reset.faultEntry k = defaultFaultEntry := by
  simp [State.faultEntry, State.reset, defaultFaults, getAt]

theorem reset_emptied : State.reset.emptied := ⟨fun i => by rw [reset_slot]; rfl, rfl, rfl⟩

theorem reset_settled : Settled True True 0 State.reset := by
  refine .of_emptied reset_emptied (fun _ l => by rw [reset_output]; rfl) fun _ => ⟨fun l => ?_, fun l q hq => ?_, fun r => ?_⟩
  · rw [reset_input]
    simp [defaultInput]
  · rw [reset_input] at hq
    cases hq
  · rw [reset_rule]
    exact defaultRule_templates

theorem reset_capacities : Capacities State.reset where
  window := by decide
  recent := by decide
  recentTags := by decide
  recentNonzero := by decide
  outbox := by decide
  flight := by decide
  journal := by decide
  faults k := by
    rw [reset_faultEntry]
    decide

theorem reset_holdersAgree : HoldersAgree State.reset where
  once l := by
    rw [reset_output]
    exact List.nodup_nil
  holding l h := by
    rw [reset_output, reset_emptied.holdingAction]
    simp [defaultOutput]
  single l _ := by
    rw [reset_output]
    simp [defaultOutput]

theorem reset_linesInUse : LinesInUse State.reset where
  actions i a ha := by
    rw [reset_slot] at ha
    cases ha
  templates r hr := by
    rw [reset_rule] at hr
    cases hr
  idle r := by
    rw [reset_rule]
    decide

theorem reset_yieldsInOrder : YieldsInOrder State.reset := by
  intro t r x ht hy
  cases ht
  cases hy

end Sys2Proof.Machine

open Sys2Proof.Machine in
/-- Settles O13, field by field from the full-reset values; the order of the lists is that of a settled state. -/
theorem resetMeetsInvariants : Obligations.ResetMeetsInvariants := by
  unfold Obligations.ResetMeetsInvariants
  refine ⟨reset_capacities, fun _ => ⟨rfl, rfl, rfl⟩, .of_not (by decide), agreeBut_nil.mp reset_settled.order.agree,
    fun r _ => by rw [reset_rule]; rfl, reset_holdersAgree, reset_linesInUse, ⟨.nil, by simp [State.reset, defaultReports]⟩,
    reset_yieldsInOrder, reset_settled.listsOrdered, reset_settled.serialsInOrder, ⟨?_, ?_⟩⟩ <;>
  simp [State.reset, defaultScheduler]

open Sys2Proof.Machine in
/-- Settles O2, by the number of events that are due: none, one, several. -/
theorem idleStep : Obligations.IdleStep := by
  unfold Obligations.IdleStep
  intro s hp
  have hstep : step s = .next (idle s) := by
    unfold step
    rw [hp]
  rw [hstep]
  refine ⟨fun hh => ?_, fun hh hd => ?_, fun i hh hd => ?_, fun hh hd => ?_⟩
  · rw [idle, if_pos hh]
  · rw [idle, if_neg (by simp [hh]), hd]
    rfl
  · rw [idle, if_neg (by simp [hh]), hd]
  · rw [idle, if_neg (by simp [hh])]
    match hl : dueNow s, hd with
    | x :: y :: rest, _ =>
      have hlt : Sys2Proof.Config.eventChoice s.choices % (x :: y :: rest).length < (x :: y :: rest).length :=
        Nat.mod_lt _ (by simp)
      refine ⟨(x :: y :: rest)[Sys2Proof.Config.eventChoice s.choices % (x :: y :: rest).length],
        List.getElem_mem hlt, ?_⟩
      dsimp only
      rw [chooseDue, List.drop_eq_getElem_cons hlt]
      rfl

end

