-- ==== Sys2Proof/Proofs/Freeing.lean ====
section
/-! PROOFS. Freeing a slot (R13, R119): the slot and its entry, the ACTION_DONE report, and the end of a drain. -/

namespace Sys2Proof.Machine

/-- What is in use is vacated, ACTION_DONE is created if it is wanted, and the notice of an empty pool is given (R13). -/
theorem freeSlot_eq {s : State} {h : Handle} {a : Action} (e : Ended) (ha : s.actionOf h = some a) :
    freeSlot h e s = poolNotice (if a.reportDone then
      createReport (.actionDone h a.origin a.fired a.skipped e) (vacate h s) else vacate h s) := by
  obtain ⟨hl, hx, -, -⟩ := actionOf_some ha
  unfold freeSlot
  rw [hl]
  simp only [hx]

/-- Outside DRAINING, and while a slot is in use, there is no notice of an empty pool (R119). -/
theorem poolNotice_quiet {s : State} (h : s.run.state ≠ .draining ∨ ∃ j, (s.slot j).isFree = false) :
    poolNotice s = s := by
  unfold poolNotice
  rw [if_neg]
  rintro ⟨hf, hd⟩
  rw [freeCount_eq_96] at hf
  rcases h with h | ⟨j, hj⟩
  · exact h hd
  · rw [hf j] at hj
    cases hj

/-- The pool empty in DRAINING, the drain ends with its RUN_STATE report (R119). -/
theorem poolNotice_drained {s : State} (hr : s.hasRoom 1) (hd : s.run.state = .draining)
    (hf : ∀ j, (s.slot j).isFree = true) : poolNotice s =
      (s.withRun { s.run with state := .standby, silence := none }).filing (.runState .standby .drainComplete 0) := by
  unfold poolNotice
  rw [if_pos ⟨(freeCount_eq_96 s).mpr hf, hd⟩]
  exact createReport_room _ hr

/-- The scheduler with the slot of a handle FREE, its gen kept, and its entry gone from its list (R13). -/
def Scheduler.without (x : Scheduler) (h : Handle) : Scheduler := { x with
  slots := setAt x.slots h.slot ⟨h.gen, .free⟩
  timeList := x.timeList.filter (fun e => e.handle ≠ h)
  travelList := x.travelList.filter (fun e => e.handle ≠ h) }

theorem vacate_of_gen {s : State} {h : Handle} (hg : (s.slot h.slot).gen = h.gen) :
    vacate h s = s.withSched (s.sched.without h) := vacate_eq hg

/-- The reports after an action is freed with room in the outbox (R13). -/
def ReportUnit.doneFiled (u : ReportUnit) (h : Handle) (a : Action) (e : Ended) : ReportUnit :=
  if a.reportDone then u.filed (.actionDone h a.origin a.fired a.skipped e) else u

/-- With room in the outbox a slot in use is freed and its report filed, before the notice of an empty pool. -/
theorem freeSlot_room {s : State} {h : Handle} {a : Action} (e : Ended) (hr : s.hasRoom 1)
    (ha : s.actionOf h = some a) : freeSlot h e s =
      poolNotice { s with sched := s.sched.without h, reports := s.reports.doneFiled h a e } := by
  obtain ⟨-, -, hg, -⟩ := actionOf_some ha
  have hv : (s.withSched (s.sched.without h)).hasRoom 1 := hr
  rw [freeSlot_eq e ha, vacate_of_gen hg]
  unfold ReportUnit.doneFiled
  split
  · rw [createReport_room _ hv]
    rfl
  · rfl

theorem doneFiled_room {s : State} {n : Nat} (h : Handle) (a : Action) (e : Ended) (hr : s.hasRoom (n + 1)) :
    (s.withReports (s.reports.doneFiled h a e)).hasRoom n := by
  unfold ReportUnit.doneFiled
  split
  · exact hasRoom_filing _ hr
  · exact hasRoom_mono hr (Nat.le_succ n)

/-- Outside DRAINING an action that wants no report is freed by vacating its slot (R13). -/
theorem freeSlot_silent {s : State} {h : Handle} {a : Action} (e : Ended) (ha : s.actionOf h = some a)
    (hn : a.reportDone = false) (hd : s.run.state ≠ .draining) : freeSlot h e s = vacate h s := by
  rw [freeSlot_eq e ha, if_neg (by simp [hn])]
  exact poolNotice_quiet (.inl hd)

end Sys2Proof.Machine

open Sys2Proof Sys2Proof.Machine in
/-- Settles O17, through what vacating leaves (`freeSlot_room`) and the two cases of the notice of an empty pool. -/
theorem freeingASlot : Obligations.FreeingASlot := by
  unfold Obligations.FreeingASlot
  intro h e a s hr
  refine ⟨fun hn => freeSlot_of_none e ?_, fun ha => ?_⟩
  · rw [← Option.not_isSome_iff_eq_none, actionOf_isSome]
    rintro ⟨hg, hf⟩
    rcases hn with hn | hn
    · rw [hn] at hf
      cases hf
    · exact hn hg
  have hslot (r : ReportUnit) (j : SlotNo) :
      State.slot { s with sched := s.sched.without h, reports := r } j =
        if j = h.slot then ⟨h.gen, .free⟩ else s.slot j :=
    getAt_setAt _ _ _ _
  have hroom : State.hasRoom { s with sched := s.sched.without h, reports := s.reports.doneFiled h a e } 1 :=
    doneFiled_room h a e hr
  dsimp only
  rw [freeSlot_room e (hasRoom_mono hr (by decide)) ha]
  refine ⟨fun hq => poolNotice_quiet (hq.imp_right ?_), fun hd hf => poolNotice_drained hroom hd fun j => ?_⟩
  · rintro ⟨j, hj, hf⟩
    exact ⟨j, by rw [hslot, if_neg hj, hf]⟩
  · rw [hslot]
    split
    · rfl
    · exact hf j ‹_›

end

