-- ==== Sys2Proof/Proofs/Collisions.lean ====
section
/-! PROOFS. Proceeding after an occurrence (R11) and a START that reaches a line with holders (R12, R32 to R34). -/

namespace Sys2Proof.Machine

/-- The record of an action replaced, its gen given. -/
theorem setWaiting_eq {s : State} {h : Handle} (b : Action) (hg : (s.slot h.slot).gen = h.gen) :
    setWaiting h b s = s.putSlot h.slot ⟨h.gen, .waiting b⟩ := by
  unfold setWaiting
  rw [← hg]

/-- Vacating forgets the record. -/
theorem vacate_setWaiting {s : State} {h : Handle} (b : Action) (hg : (s.slot h.slot).gen = h.gen) :
    vacate h (setWaiting h b s) = vacate h s := by
  have hg' : ((setWaiting h b s).slot h.slot).gen = h.gen := by rw [setWaiting_slot, if_pos rfl, hg]
  rw [vacate_of_gen hg, vacate_of_gen hg']
  simp [setWaiting, State.putSlot, State.withSched, Scheduler.without, setAt_setAt]

/-- Vacating takes the entry out of its list, whether or not it was taken out before. -/
theorem vacate_released_removed {s : State} {b : Handle} (l : OutLine) (hg : (s.slot b.slot).gen = b.gen) :
    vacate b (release l b (removeEntry b s)) = vacate b (release l b s) := by
  rw [vacate_of_gen (s := release l b s) hg, vacate_of_gen (s := release l b (removeEntry b s)) hg]
  simp [release, removeEntry, State.putOutput, State.withSched, State.withOutputs, Scheduler.without, State.output]

/-- With repeats left the next due is filed (R11). -/
theorem proceed_of_repeats {h : Handle} {a : Action} {n : Nat} {s : State} (hn : a.repeatsLeft = n + 1) :
    proceed h a s = (joinStart h (a.nextWith n).due (setWaiting h (a.nextWith n) s),
      travelUrgent h (a.nextWith n).due) := by
  unfold proceed
  rw [hn]
  rfl

/-- Outside DRAINING the last occurrence frees the slot of an action that wants no report (R11, R13). -/
theorem proceed_of_last {h : Handle} {a : Action} {s : State} (hn : a.repeatsLeft = 0)
    (ha : s.actionOf h = some a) (hb : a.reportDone = false) (hd : s.run.state ≠ .draining) :
    proceed h a s = (vacate h s, []) := by
  unfold proceed
  rw [hn]
  simp only [freeSlot_silent _ ha hb hd]

/-- The next occurrence of a TIME action is filed an interval after its due (R11). -/
theorem proceed_time {h : Handle} {a : Action} {n : Nat} {interval : BitVec 32} {t : Tick} {s : State}
    (hg : (s.slot h.slot).gen = h.gen) (hn : a.repeatsLeft = n + 1) (hi : a.interval = some interval)
    (ht : a.due = .time t) : proceed h a s = (joinTime h .start (t + interval.setWidth 48)
      (s.putSlot h.slot ⟨h.gen, .waiting { a with due := .time (t + interval.setWidth 48), repeatsLeft := n }⟩),
      []) := by
  rw [proceed_of_repeats hn, setWaiting_eq _ hg]
  simp [Action.nextWith, ht, hi, Due.next, joinStart, travelUrgent]

/-- The next occurrence of a TRAVEL action is filed an interval after its due, and tested at once (R9, R11). -/
theorem proceed_travel {h : Handle} {a : Action} {n : Nat} {interval : BitVec 32} {c : Count} {s : State}
    (hg : (s.slot h.slot).gen = h.gen) (hn : a.repeatsLeft = n + 1) (hi : a.interval = some interval)
    (ht : a.due = .travel c) : proceed h a s = (joinTravel h (c + interval)
      (s.putSlot h.slot ⟨h.gen, .waiting { a with due := .travel (c + interval), repeatsLeft := n }⟩), [h]) := by
  rw [proceed_of_repeats hn, setWaiting_eq _ hg]
  simp [Action.nextWith, ht, hi, Due.next, joinStart, travelUrgent]

theorem putSlot_setWaiting (s : State) (h : Handle) (a : Action) (x : Slot) :
    (setWaiting h a s).putSlot h.slot x = s.putSlot h.slot x := by
  simp [setWaiting, State.putSlot, State.withSched, setAt_setAt]

/-- An action of an empty line, or one that merges, is accepted (R30, R34). -/
theorem startOnLine_accepts {h : Handle} {a : Action} {tick : Tick} {s : State}
    (hp : (s.output a.line).holders = [] ∨ (s.output a.line).policy = .merge) :
    startOnLine h a tick s = (acceptStart h a tick s, []) := by
  unfold startOnLine
  split
  · rfl
  · rename_i first others hh
    rcases hp with hp | hp
    · rw [hp] at hh
      cases hh
    · rw [hp]

/-- A START refused, COLLISION being counted again and not fatal: reported, counted, and the action proceeds (R32). -/
theorem startOnLine_refused {h b : Handle} {a : Action} {tick : Tick} {s : State} (hr : s.hasRoom 1)
    (hw : s.slot h.slot = ⟨h.gen, .waiting a⟩) (hb : (s.output a.line).holders = [b])
    (hp : (s.output a.line).policy = .refuse) (hc : 0 < (s.faultEntry .collision).count)
    (hf : s.isFatal .collision = false) :
    startOnLine h a tick s = proceed h { a with skipped := a.skipped + 1 }
      (setWaiting h { a with skipped := a.skipped + 1 }
        (recordFault .collision (some (.output a.line)) (s.filing (.collision a.line h b)))) := by
  have ho : s.owner a.line = some b := by
    unfold State.owner
    rw [hb]
    rfl
  have hk (c : Action) : (setWaiting h c (s.filing (.collision a.line h b))).waitingAction h = some c :=
    setWaiting_waitingAction (a := a) c (State.waitingAction_eq.mpr hw)
  have hk' (c : Action) : (setWaiting h c (recordFault .collision (some (.output a.line))
      (s.filing (.collision a.line h b)))).waitingAction h = some c :=
    setWaiting_waitingAction (a := a) c (State.waitingAction_eq.mpr hw)
  unfold startOnLine
  simp only [hb, hp, ho, Option.getD_some]
  unfold refuseStart
  dsimp only
  rw [createReport_room (s := setWaiting h _ s) _ hr,
    show (setWaiting h { a with skipped := a.skipped + 1 } s).filing (.collision a.line h b)
      = setWaiting h { a with skipped := a.skipped + 1 } (s.filing (.collision a.line h b)) from rfl,
    countForAction_waiting (hk _), countFault_again (s := setWaiting h _ (s.filing _)) _ hc hf,
    show recordFault .collision (some (.output a.line)) (setWaiting h { a with skipped := a.skipped + 1 }
        (s.filing (.collision a.line h b)))
      = setWaiting h { a with skipped := a.skipped + 1 } (recordFault .collision (some (.output a.line))
        (s.filing (.collision a.line h b))) from rfl]
  simp only [hk']

/-- The one holder is cut and proceeds, and the START that cut it is accepted (R12, R33). -/
theorem startOnLine_retriggered {h b : Handle} {a x : Action} {tick finish : Tick} {s : State} {u : State}
    {next : List Handle} (hw : s.slot h.slot = ⟨h.gen, .waiting a⟩) (hb : (s.output a.line).holders = [b])
    (hx : s.slot b.slot = ⟨b.gen, .holding x finish⟩) (hp : (s.output a.line).policy = .retrigger)
    (hu : proceed b x (release a.line b (removeEntry b s)) = (u, next)) (hs : u.slot h.slot = s.slot h.slot) :
    startOnLine h a tick s = (acceptStart h a tick u, [b]) := by
  have hwu : u.waitingAction h = some a := State.waitingAction_eq.mpr (hs.trans hw)
  unfold startOnLine
  simp only [hb, hp, cutHolders, cutHolder, (holding_of_slot hx).2.1, hu, hwu, List.append_nil]

end Sys2Proof.Machine

open Sys2Proof Sys2Proof.Machine in
/-- Settles O18, policy by policy: the Output Stage's answer, then the two ways of proceeding after the occurrence skipped or
cut. -/
theorem startMeetsHolder : Obligations.StartMeetsHolder := by
  unfold Obligations.StartMeetsHolder
  intro h a tick s hr hd hw
  have hg : (s.slot h.slot).gen = h.gen := by rw [hw]
  refine ⟨fun _ hp => startOnLine_accepts (.inr hp), fun b hb hp hc hf => ?_,
    fun b x finish hne hb hx hp => ?_⟩
  · dsimp only
    rw [startOnLine_refused hr hw hb hp hc hf]
    have hgu : ((recordFault .collision (some (.output a.line))
        (s.filing (.collision a.line h b))).slot h.slot).gen = h.gen := hg
    have hwu : (recordFault .collision (some (.output a.line))
        (s.filing (.collision a.line h b))).waitingAction h = some a := State.waitingAction_eq.mpr hw
    have hdu : (recordFault .collision (some (.output a.line))
        (s.filing (.collision a.line h b))).run.state ≠ .draining := hd
    generalize recordFault .collision (some (.output a.line)) (s.filing (.collision a.line h b)) = u at *
    have hgw (c : Action) : ((setWaiting h c u).slot h.slot).gen = h.gen := by rw [setWaiting_slot, if_pos rfl, hgu]
    refine ⟨fun h0 hn => ?_, fun n interval h1 hi => ⟨fun t ht => ?_, fun c ht => ?_⟩⟩
    · rw [proceed_of_last (a := { a with skipped := a.skipped + 1 }) h0
        (State.actionOf_iff.mpr (.inl (setWaiting_waitingAction _ hwu))) hn hdu, vacate_setWaiting _ hgu]
    · rw [proceed_time (a := { a with skipped := a.skipped + 1 }) (hgw _) h1 hi ht, putSlot_setWaiting]
    · rw [proceed_travel (a := { a with skipped := a.skipped + 1 }) (hgw _) h1 hi ht, putSlot_setWaiting]
  · have hgb : (s.slot b.slot).gen = b.gen := by rw [hx]
    refine ⟨fun h0 hn => ?_, fun n interval h1 hi => ?_⟩
    · refine startOnLine_retriggered hw hb hx hp (next := []) ?_ ?_
      · rw [← vacate_released_removed a.line hgb]
        exact proceed_of_last h0 (holding_of_slot hx).2.2 hn hd
      · rw [vacate_slot, if_neg hne, release_slot]
    · dsimp only
      refine ⟨fun t ht => ?_, fun c ht => ?_⟩
      · exact startOnLine_retriggered hw hb hx hp (proceed_time (s := release a.line b (removeEntry b s)) hgb h1 hi ht)
          (State.slot_putSlot_ne _ _ _ _ hne)
      · exact startOnLine_retriggered hw hb hx hp (proceed_travel (s := release a.line b (removeEntry b s)) hgb h1 hi ht)
          (State.slot_putSlot_ne _ _ _ _ hne)

end

