-- ==== Sys2Proof/Proofs/Late.lean ====
section
/-! PROOFS. The lateness test and what follows a late START (R14 to R16). -/

namespace Sys2Proof.Machine

/-! ## The lateness test (R14) -/

theorem dueAhead_time_behind {now t : Tick} (h : (now - t).toNat < 2 ^ 40) : tickAhead now t = false := by
  rw [← Bool.not_eq_true]
  intro ha
  unfold tickAhead Config.tickWindow at ha
  simp only [Bool.and_eq_true, decide_eq_true_eq] at ha
  bv_omega

theorem dueAhead_travel_behind {n c : Count} (h : (n - c).toNat < 2 ^ 30) : countAhead n c = false := by
  rw [← Bool.not_eq_true]
  intro ha
  unfold countAhead Config.countWindow at ha
  simp only [Bool.and_eq_true, decide_eq_true_eq] at ha
  bv_omega

/-- What is reached or behind is not ahead (R51, R52). -/
theorem State.reached.notAhead {s : State} {d : Due} (h : s.reached d) : s.dueAhead d = false := by
  cases d with
  | time t => exact dueAhead_time_behind h
  | travel c => exact dueAhead_travel_behind h

theorem lateBy_of_ahead {s : State} {d : Due} (h : s.dueAhead d = true) : s.lateBy d = none := by
  unfold State.lateBy
  rw [if_pos h]

theorem lateBy_time {s : State} {t : Tick} (h : (s.now - t).toNat < 2 ^ 40) : s.lateBy (.time t) =
    if (s.now - t).toNat ≤ s.sched.lateTicks then none else some (s.now - t).toNat := by
  have ha : s.dueAhead (.time t) = false := dueAhead_time_behind h
  unfold State.lateBy
  rw [if_neg (by simp [ha])]

theorem lateBy_travel {s : State} {c : Count} (h : (s.timebase.travelCount - c).toNat < 2 ^ 30) :
    s.lateBy (.travel c) = if (s.timebase.travelCount - c).toNat ≤ s.sched.lateCounts then none
      else some (s.timebase.travelCount - c).toNat := by
  have ha : s.dueAhead (.travel c) = false := dueAhead_travel_behind h
  unfold State.lateBy
  rw [if_neg (by simp [ha])]

/-! ## Runs of occurrences (R11, R16) -/

/-- The due `j` intervals later, modulo 2^48 for TIME and 2^32 for TRAVEL. -/
def Due.after (d : Due) (interval : BitVec 32) (j : Nat) : Due :=
  match d with
  | .time t => .time (t + BitVec.ofNat 48 j * interval.setWidth 48)
  | .travel c => .travel (c + BitVec.ofNat 32 j * interval)

@[simp] theorem Due.after_one (d : Due) (interval : BitVec 32) : d.after interval 1 = d.next interval := by
  cases d <;> simp [Due.after, Due.next]

/-- The due `j + 1` intervals later is the due `j` intervals after the next. -/
theorem Due.next_after (d : Due) (interval : BitVec 32) (j : Nat) :
    (d.next interval).after interval j = d.after interval (j + 1) := by
  have expand (w : Nat) (x y : BitVec w) :
      x + y + BitVec.ofNat w j * y = x + BitVec.ofNat w (j + 1) * y := by
    rw [BitVec.add_assoc, BitVec.ofNat_add, BitVec.add_mul, BitVec.one_mul, BitVec.add_comm y]
  cases d <;> simp [Due.after, Due.next, expand]

/-- With every occurrence left late, all are skipped (R16). -/
theorem skipFrom_all {late : Due → Bool} {interval : BitVec 32} : ∀ {left n : Nat} {d : Due},
    (∀ j, 0 < j → j ≤ left → late (d.after interval j) = true) →
    skipFrom late interval left d n = ⟨n + left + 1, none⟩
  | 0, _, _, _ => rfl
  | left + 1, n, d, h => by
    have h1 : late (d.next interval) = true := by
      rw [← Due.after_one]
      exact h 1 (by omega) (by omega)
    unfold skipFrom
    rw [if_pos h1, skipFrom_all (left := left)]
    · simp [Nat.add_assoc, Nat.add_comm 1]
    · intro j hj hl
      rw [Due.next_after]
      exact h (j + 1) (by omega) (by omega)

/-- With the first `m` of the occurrences left late and the next not, the run ends before that one (R16). -/
theorem skipFrom_some {late : Due → Bool} {interval : BitVec 32} : ∀ {m left n : Nat} {d : Due}, m ≤ left →
    (∀ j, 0 < j → j ≤ m → late (d.after interval j) = true) → late (d.after interval (m + 1)) = false →
    skipFrom late interval (left + 1) d n = ⟨n + (m + 1), some (d.after interval (m + 1), left - m)⟩
  | 0, left, n, d, _, _, hn => by
    rw [Due.after_one] at *
    unfold skipFrom
    rw [if_neg (by simp [hn])]
    rfl
  | m + 1, 0, _, _, hm, _, _ => by omega
  | m + 1, left + 1, n, d, hm, h, hn => by
    have h1 : late (d.next interval) = true := by
      rw [← Due.after_one]
      exact h 1 (by omega) (by omega)
    unfold skipFrom
    rw [if_pos h1, skipFrom_some (m := m) (by omega)]
    · rw [Due.next_after]
      simp only [SkipRun.mk.injEq, Option.some.injEq, Prod.mk.injEq, true_and]
      omega
    · intro j hj hl
      rw [Due.next_after]
      exact h (j + 1) (by omega) (by omega)
    · rw [Due.next_after]
      exact hn

/-! ## A late START (R15, R16) -/

/-- The state in which a late START has been reported, and counted again. -/
def State.lateNoted (s : State) (h : Handle) (b : ReportBody) : State :=
  recordFault .actionLate (some (.handle h)) (s.filing b)

theorem lateNoted_setWaiting (s : State) (h : Handle) (a : Action) (b : ReportBody) :
    (setWaiting h a s).lateNoted h b = setWaiting h a (s.lateNoted h b) := rfl

/-- With room in the outbox, ACTION_LATE having been counted before and not being fatal, the lateness of a WAITING action is
noted and nothing else. -/
theorem noteLate {s : State} {h : Handle} {a : Action} (b : ReportBody) (hr : s.hasRoom 1)
    (hw : s.waitingAction h = some a) (hc : 0 < (s.faultEntry .actionLate).count)
    (hf : s.isFatal .actionLate = false) :
    countForAction .actionLate (.handle h) h (createReport b s) = s.lateNoted h b := by
  have hwf : (s.filing b).waitingAction h = some a := hw
  rw [createReport_room b hr, countForAction_waiting hwf]
  exact countFault_again _ hc hf

section
variable {s : State} {h : Handle} {a : Action} {lateness : Nat} (hr : s.hasRoom 1) (hw : s.waitingAction h = some a)
  (hc : 0 < (s.faultEntry .actionLate).count) (hf : s.isFatal .actionLate = false)
include hr hw hc hf

/-- Under FIRE a late START is noted and taken now (R15). -/
theorem fireLate_again : fireLate h a lateness s =
    startOnLine h a s.now (s.lateNoted h (.late h a.due.base lateness none)) := by
  have hwu : (s.lateNoted h (.late h a.due.base lateness none)).waitingAction h = some a := hw
  unfold fireLate
  dsimp only
  rw [noteLate _ hr hw hc hf]
  simp only [hwu]
  rfl

/-- Under SKIP with every occurrence late, the run is noted and the slot is freed (R16). -/
theorem skipLate_all (hd : s.run.state ≠ .draining) (hn : a.reportDone = false)
    (hl : ∀ j, 0 < j → j ≤ a.repeatsLeft → (s.lateBy (a.due.after (a.interval.getD 0) j)).isSome) :
    skipLate h a lateness s =
      (vacate h (s.lateNoted h (.late h a.due.base lateness (some (a.repeatsLeft + 1)))), []) := by
  have hw' (c : Action) : (setWaiting h c s).waitingAction h = some c := setWaiting_waitingAction c hw
  have hg : (s.slot h.slot).gen = h.gen := by rw [State.waitingAction_eq.mp hw]
  unfold skipLate
  rw [skipFrom_all hl]
  dsimp only
  rw [noteLate (s := setWaiting h _ s) _ hr (hw' _) hc hf, lateNoted_setWaiting]
  have hwu (c : Action) (b : ReportBody) : (setWaiting h c (s.lateNoted h b)).waitingAction h = some c := hw' c
  have hv (c : Action) (b : ReportBody) (hn : c.reportDone = false) :
      freeSlot h .complete (setWaiting h c (s.lateNoted h b)) = vacate h (s.lateNoted h b) := by
    rw [freeSlot_silent _ (State.actionOf_iff.mpr (.inl (hwu c b))) hn hd, vacate_setWaiting (s := s.lateNoted h b) _ hg]
  simp only [hwu]
  rw [hv _ _ (by exact hn), Nat.zero_add]

/-- Under SKIP with the first `m` of the occurrences left late and the next not, the run is noted and that one is filed
(R16). -/
theorem skipLate_some {m n : Nat} (hn : a.repeatsLeft = n + 1) (hm : m ≤ n)
    (hl : ∀ j, 0 < j → j ≤ m → (s.lateBy (a.due.after (a.interval.getD 0) j)).isSome)
    (ho : s.lateBy (a.due.after (a.interval.getD 0) (m + 1)) = none) :
    skipLate h a lateness s =
      let d := a.due.after (a.interval.getD 0) (m + 1)
      (joinStart h d ((setWaiting h { a with skipped := a.skipped + (m + 1), due := d, repeatsLeft := n - m } s).lateNoted h
        (.late h a.due.base lateness (some (m + 1)))), travelUrgent h d) := by
  have hw' (c : Action) : (setWaiting h c s).waitingAction h = some c := setWaiting_waitingAction c hw
  unfold skipLate
  rw [hn, skipFrom_some hm hl (by rw [ho]; rfl)]
  dsimp only
  rw [noteLate (s := setWaiting h _ s) _ hr (hw' _) hc hf]
  have hwu (c : Action) (b : ReportBody) : ((setWaiting h c s).lateNoted h b).waitingAction h = some c := hw' c
  simp only [hwu, Option.map_some, Option.getD_some, Nat.zero_add]

end

/-- A WAITING action whose due is on time reaches the Output Stage (R10). -/
theorem startAction_onTime {s : State} {h : Handle} {a : Action} (tick : Tick) (hw : s.waitingAction h = some a)
    (hl : s.lateBy a.due = none) : startAction h tick s = startOnLine h a tick s := by
  unfold startAction
  simp only [hw, hl]

/-- A late START is treated as the late policy says (R14). -/
theorem startAction_late {s : State} {h : Handle} {a : Action} {n : Nat} (tick : Tick) (hw : s.waitingAction h = some a)
    (hl : s.lateBy a.due = some n) :
    (s.sched.latePolicy = .fire → startAction h tick s = fireLate h a n s)
    ∧ (s.sched.latePolicy = .skip → startAction h tick s = skipLate h a n s) := by
  unfold startAction
  simp only [hw, hl]
  constructor <;> intro hp <;> rw [hp]

end Sys2Proof.Machine
end

