-- ==== Sys2Proof/Proofs/Joining.lean ====
section
/-! PROOFS. An action that joins its list with nothing else due: it waits there, or is taken or skipped at once (R3, R9,
R14 to R16). -/

namespace Sys2Proof.Machine

/-! ## Lists filed and thinned -/

theorem fileBy_first {α : Type} {before : α → α → Bool} {x : α} {l : List α} (h : ∀ y ∈ l, before x y = true) :
    fileBy before x l = x :: l := by
  cases l with
  | nil => rfl
  | cons y ys =>
    unfold fileBy
    rw [if_pos (h y List.mem_cons_self)]

/-- What a filter drops may be filed before. -/
theorem filter_fileBy {α : Type} (before : α → α → Bool) {p : α → Bool} {x : α} (hx : p x = false) (l : List α) :
    (fileBy before x l).filter p = l.filter p := by
  induction l with
  | nil => simp [fileBy, hx]
  | cons y ys ih =>
    unfold fileBy
    split
    · simp [hx]
    · simp only [List.filter_cons, ih]

/-- Entries of no listed handle stay. -/
theorem filter_handles {s : State} {h : Handle} (hn : h ∉ s.listedHandles) :
    s.sched.timeList.filter (fun e => e.handle ≠ h) = s.sched.timeList
      ∧ s.sched.travelList.filter (fun e => e.handle ≠ h) = s.sched.travelList := by
  unfold State.listedHandles at hn
  simp only [List.mem_append, List.mem_map, not_or, not_exists, not_and] at hn
  obtain ⟨h1, h2⟩ := hn
  constructor <;> rw [List.filter_eq_self] <;> intro e he
  · simpa using h1 e he
  · simpa using h2 e he

/-! ## The time list ahead -/

theorem timeListAhead_joinTime {s : State} (h : Handle) (p : Phase) {key : Tick} (ha : s.timeListAhead)
    (hk : tickAhead s.now key = true) : (joinTime h p key s).timeListAhead := by
  intro e he
  rcases (mem_fileBy _ _ _ _).mp he with rfl | he
  · exact hk
  · exact ha e he

theorem timeListAhead_joinStart {s : State} (h : Handle) {d : Due} (ha : s.timeListAhead)
    (hd : s.dueAhead d = true) : (joinStart h d s).timeListAhead := by
  cases d with
  | time t => exact timeListAhead_joinTime h _ ha hd
  | travel c => exact ha

theorem timeListAhead_acceptStart {s : State} (h : Handle) {a : Action} (ha : s.timeListAhead) (hw : a.width ≠ 0) :
    (acceptStart h a s.now s).timeListAhead :=
  timeListAhead_joinTime (s := (s.putOutput a.line { s.output a.line with
      holders := (s.output a.line).holders ++ [h] }).putSlot h.slot
    ⟨h.gen, .holding { a with fired := a.fired + 1 } (s.now + a.width.setWidth 48)⟩)
    h _ ha (tickAhead_add_width _ _ hw)

theorem timeListAhead_vacate {s : State} (h : Handle) (ha : s.timeListAhead) : (vacate h s).timeListAhead :=
  fun e he => ha e (List.mem_filter.mp he).1

/-- A head of a list is within the bound of what one event can carry out. -/
theorem expiryBound_of_time {s : State} {e : TimeEntry} {rest : List TimeEntry} (h : s.sched.timeList = e :: rest) :
    ∃ n, s.expiryBound + 0 = n + 1 := by
  unfold State.expiryBound
  rw [h, List.length_cons]
  exact Nat.exists_eq_succ_of_ne_zero (by omega)

theorem expiryBound_of_travel {s : State} {e : TravelEntry} {rest : List TravelEntry}
    (h : s.sched.travelList = e :: rest) : ∃ n, s.expiryBound + 0 = n + 1 := by
  unfold State.expiryBound
  rw [h, List.length_cons]
  exact Nat.exists_eq_succ_of_ne_zero (by omega)

/-- The head of the time list, expired, is carried out (R8). -/
theorem runLists_expired {x : Expiry} {s : State} {e : TimeEntry} (n : Nat) (h : expiredTime x s = some e) :
    runLists x (n + 1) [] s =
      runLists (x.without e.handle) n (carryOutTime e (popTime s)).2 (carryOutTime e (popTime s)).1 := by
  rw [runLists, h]

/-- A START to be taken at once is taken (R9, R12). -/
theorem runLists_start {x : Expiry} {s : State} {h : Handle} (n : Nat) (hs : List Handle) (hd : s.startDue h = true) :
    runLists x (n + 1) (h :: hs) s = runLists (x.without h) n ((startAction h s.now (removeEntry h s)).2 ++ hs)
      (startAction h s.now (removeEntry h s)).1 := by
  rw [runLists, if_pos hd]

/-- With nothing of the time list due and no START to take, the lists rest (R8, R9). -/
theorem runLists_waits {s : State} (ha : s.timeListAhead) : ∀ {n : Nat} {hs : List Handle} {x : Expiry},
    x.travelEdge = none → (∀ h ∈ hs, s.startDue h = false) → runLists x n hs s = s
  | 0, _, _, _, _ => by
    unfold runLists
    rfl
  | n + 1, [], _, hx, _ => runLists_at_rest _ ha (.inl hx)
  | n + 1, h :: hs, x, hx, hd => by
    unfold runLists
    rw [if_neg (by simp [hd h List.mem_cons_self])]
    exact runLists_waits ha hx (fun y hy => hd y (List.mem_cons_of_mem _ hy))

/-- What is filed with its due ahead is not to be taken at once. -/
theorem joinStart_notDue {s : State} {h : Handle} {a : Action} (hd : s.dueAhead a.due = true)
    (hw : s.waitingAction h = some a) : ∀ y ∈ travelUrgent h a.due, (joinStart h a.due s).startDue y = false := by
  intro y hy
  have hw' : (joinStart h a.due s).waitingAction h = some a := by
    rw [State.waitingAction_eq, joinStart_slot]
    exact State.waitingAction_eq.mp hw
  have hd' : (joinStart h a.due s).dueAhead a.due = true := by
    rwa [(joinStart_onlyWork h a.due s).dueAhead]
  rw [travelUrgent_next h a.due y hy]
  unfold State.startDue
  simp [hw', hd']

/-! ## Joining -/

/-- The state in which an action has joined its list and left it: an insertion serial is taken. -/
def State.joined (s : State) : State := s.withSched { s.sched with nextSerial := s.sched.nextSerial + 1 }

theorem removeEntry_joinStart {s : State} {h : Handle} (d : Due) (hn : h ∉ s.listedHandles) :
    removeEntry h (joinStart h d s) = s.joined := by
  obtain ⟨h1, h2⟩ := filter_handles hn
  cases d with
  | time t =>
    simp only [joinStart, joinTime, removeEntry, State.joined, State.withSched]
    rw [filter_fileBy _ (by simp), h1, h2]
  | travel c =>
    simp only [joinStart, joinTravel, removeEntry, State.joined, State.withSched]
    rw [filter_fileBy _ (by simp), h1, h2]

/-- A START that is reached or behind stands before all that is ahead (R5). -/
theorem before_of_reached {x y : TimeEntry} {now : Tick} (hx : (now - x.key).toNat < 2 ^ 40)
    (hy : tickAhead now y.key = true) : x.before y = true := by
  have h1 := tickAhead_near hy
  have h2 : ¬ x.key = y.key := by
    intro e
    rw [e] at hx
    rw [dueAhead_time_behind hx] at hy
    cases hy
  unfold TimeEntry.before
  rw [if_neg h2, decide_eq_true_eq]
  bv_omega

section
variable {s : State} {h : Handle} {a : Action} (hw : s.waitingAction h = some a) (ha : s.timeListAhead)
include hw ha

/-- Its due ahead, the action waits in its list (R3). -/
theorem joinAction_waits (hd : s.dueAhead a.due = true) : joinAction h s = joinStart h a.due s := by
  unfold joinAction
  simp only [hw]
  exact runLists_waits (timeListAhead_joinStart h ha hd) rfl (joinStart_notDue hd hw)

/-- Its due reached or behind, the action is started, or skipped, at this tick, and what that leaves to be taken is taken
(R3, R8, R9). -/
theorem joinAction_reached (hn : h ∉ s.listedHandles) (hr : s.reached a.due) : ∃ (x : Expiry) (n : Nat),
    x.travelEdge = none ∧ joinAction h s =
      runLists x n (startAction h s.now s.joined).2 (startAction h s.now s.joined).1 := by
  unfold joinAction
  simp only [hw]
  have hj := removeEntry_joinStart a.due hn
  have hdue := hr.notAhead
  cases hd : a.due with
  | time t =>
    rw [hd] at hr hj hdue
    have hfirst : (joinTime h .start t s).sched.timeList = ⟨h, .start, t, s.sched.nextSerial⟩ :: s.sched.timeList :=
      fileBy_first fun y hy => before_of_reached hr (ha y hy)
    have hpop : popTime (joinTime h .start t s) = s.joined := by
      unfold popTime
      rw [hfirst]
      rfl
    obtain ⟨n, hfuel⟩ := expiryBound_of_time hfirst
    refine ⟨Expiry.without ⟨false, s.listedHandles, none⟩ h, n, rfl, ?_⟩
    have hnow : tickAhead (joinTime h .start t s).now t = false := hdue
    have hexp : expiredTime ⟨false, s.listedHandles, none⟩ (joinTime h .start t s) =
        some ⟨h, .start, t, s.sched.nextSerial⟩ := by
      unfold expiredTime
      rw [hfirst]
      simp [hnow, Expiry.stood, hn]
    calc expireLists ⟨false, s.listedHandles, none⟩ [] (joinTime h .start t s)
      _ = runLists ⟨false, s.listedHandles, none⟩ (n + 1) [] (joinTime h .start t s) := by rw [← hfuel]; rfl
      _ = _ := by rw [runLists_expired n hexp, hpop]; rfl
  | travel c =>
    rw [hd] at hj hdue
    have hw' : (joinTravel h c s).waitingAction h = some a := hw
    have hstart : (joinTravel h c s).startDue h = true := by
      unfold State.startDue
      rw [hw']
      have : (joinTravel h c s).dueAhead a.due = false := hd ▸ hdue
      simp [this]
    refine ⟨Expiry.without ⟨false, s.listedHandles, none⟩ h, (joinTravel h c s).expiryBound, rfl, ?_⟩
    calc expireLists ⟨false, s.listedHandles, none⟩ [h] (joinTravel h c s)
      _ = runLists ⟨false, s.listedHandles, none⟩ ((joinTravel h c s).expiryBound + 1) [h] (joinTravel h c s) := rfl
      _ = _ := by
        rw [runLists_start _ _ hstart, show removeEntry h (joinTravel h c s) = s.joined from hj, List.append_nil]
        rfl

/-- An action that is started or skipped as it joins, nothing being due after it. -/
theorem joinAction_taken (hn : h ∉ s.listedHandles) (hr : s.reached a.due) {u : State} {hs : List Handle}
    (hu : startAction h s.now s.joined = (u, hs)) (hau : u.timeListAhead) (hsu : ∀ y ∈ hs, u.startDue y = false) :
    joinAction h s = u := by
  obtain ⟨x, n, hx, e⟩ := joinAction_reached hw ha hn hr
  rw [e, hu]
  exact runLists_waits hau hx hsu

end

end Sys2Proof.Machine

open Sys2Proof Sys2Proof.Machine in
/-- Settles O19: the lateness test by arithmetic, the late policies through the closed form of a run of skipped occurrences
(`skipFrom_all`, `skipFrom_some`), and joining through `joinAction_waits` and `joinAction_taken`. -/
theorem lateStart : Obligations.LateStart := by
  unfold Obligations.LateStart
  intro later
  have hlater (a : Sys2Proof.Machine.Action) (j : Nat) : later a j = a.due.after (a.interval.getD 0) j := rfl
  clear_value later
  simp only [hlater]
  refine ⟨fun s t => ⟨fun ha => lateBy_of_ahead ha, fun h1 h2 => ?_, fun h1 h2 => ?_⟩,
    fun s c => ⟨fun ha => lateBy_of_ahead ha, fun h1 h2 => ?_, fun h1 h2 => ?_⟩,
    fun h a tick s hw hl => startAction_onTime tick (State.waitingAction_eq.mpr hw) hl, ?_, ?_⟩
  · rw [lateBy_time h1, if_pos h2]
  · rw [lateBy_time h1, if_neg (by omega)]
  · rw [lateBy_travel h1, if_pos h2]
  · rw [lateBy_travel h1, if_neg (by omega)]
  · intro h a lateness tick s hr hd hs hl hc hf
    have hw := State.waitingAction_eq.mpr hs
    obtain ⟨hfire, hskip⟩ := startAction_late tick hw hl
    refine ⟨fun hp hh => ?_, fun hp hn hall => ?_, fun m n hp hn hm hall ho => ?_⟩
    · rw [hfire hp, fireLate_again hr hw hc hf]
      exact startOnLine_accepts (.inl hh)
    · rw [hskip hp, skipLate_all hr hw hc hf hd hn hall]
      rfl
    · rw [hskip hp, skipLate_some hr hw hc hf hn hm hall ho]
      cases a.due.after (a.interval.getD 0) (m + 1) <;> rfl
  · intro h a s hs hwidth ha hn
    have hw := State.waitingAction_eq.mpr hs
    have hwj : s.joined.waitingAction h = some a := hw
    refine ⟨fun t ht had => ?_, fun c hc had => ?_, fun hr hl hh => ?_, fun lateness hr hl hroom hd hc hf => ?_⟩
    · rw [joinAction_waits hw ha (ht ▸ had), ht]
      rfl
    · rw [joinAction_waits hw ha (hc ▸ had), hc]
      rfl
    · refine joinAction_taken hw ha hn hr (hs := []) ?_ (timeListAhead_acceptStart (s := s.joined) h ha hwidth) (by simp)
      rw [startAction_onTime _ hwj hl]
      exact startOnLine_accepts (.inl hh)
    · obtain ⟨hfire, hskip⟩ := startAction_late (s := s.joined) s.now hwj hl
      refine ⟨fun hp hh => ?_, fun hp hdone hall => ?_, fun m n hp hrep hm hall ho => ?_⟩
      · refine joinAction_taken hw ha hn hr (hs := []) ?_
          (timeListAhead_acceptStart (s := s.joined.lateNoted h _) h ha hwidth) (by simp)
        rw [hfire hp, fireLate_again (s := s.joined) hroom hwj hc hf]
        exact startOnLine_accepts (.inl hh)
      · refine joinAction_taken hw ha hn hr (hs := []) ?_
          (timeListAhead_vacate (s := s.joined.lateNoted h _) h ha) (by simp)
        rw [hskip hp, skipLate_all (s := s.joined) hroom hwj hc hf hd hdone hall]
        rfl
      · have hskipped := skipLate_some (s := s.joined) (lateness := lateness) hroom hwj hc hf hrep hm hall
          (lateBy_of_ahead ho)
        dsimp only at hskipped
        rw [joinAction_taken hw ha hn hr ((hskip hp).trans hskipped)]
        · cases a.due.after (a.interval.getD 0) (m + 1) <;> rfl
        · exact timeListAhead_joinStart h ha ho
        · exact joinStart_notDue (a := { a with
            skipped := a.skipped + (m + 1), due := a.due.after (a.interval.getD 0) (m + 1), repeatsLeft := n - m })
            (s := (setWaiting h _ s.joined).lateNoted h _) ho (setWaiting_waitingAction _ hwj)

end

