-- ==== Sys2Proof/Proofs/Answers.lean ====
section
/-! PROOFS. The answer to an admitted request from what its owner block makes of it, and requests given by their payload
(R141, R182). -/

namespace Sys2Proof.Machine

/-! ## What an owner block makes of a request is its answer -/

/-- A request command whose owner block makes `u` of the state, but for the Host Link, is answered with its reply. -/
theorem answers_command {i : Instr} {tag : Tag} {p : List Byte} {c : Option Byte} {s u : State} {r : Reply}
    (he : encodeRequest i = some (tag, p)) (hc : p.head? = c) (h : s.admits tag c = true)
    (hu : takeCommand i (taking tag s) = (u.withLink (taking tag s).link, r)) :
    Answers i tag c (responsePayload c r) r.after s u :=
  answers_of (fun s0 => by rw [exec_taken he, frameLength_request he, hc]) h hu

/-- A request command whose owner block changes nothing is answered with its reply, and the silence timer is restarted
alone (R125). -/
theorem answers_unchanged {i : Instr} {tag : Tag} {p : List Byte} {c : Option Byte} {s : State} {r : Reply}
    (he : encodeRequest i = some (tag, p)) (hc : p.head? = c) (h : s.admits tag c = true)
    (hu : takeCommand i (taking tag s) = (taking tag s, r)) :
    Answers i tag c (responsePayload c r) r.after s (restartSilence s) :=
  answers_command he hc h (by rw [hu, ← taking_eq])

/-- A payload that is no command's is answered without dispatch (R141). -/
theorem answers_payload {tag : Tag} {p : List Byte} {c : Option Byte} {s : State} {r : Reply} (hc : p.head? = c)
    (h : s.admits tag c = true) (hu : ∀ t, takePayload tag p t = (t, r)) :
    Answers (.unknownRequest tag p) tag c (responsePayload c r) r.after s (restartSilence s) :=
  answers_of (take := takePayload tag p) (fun s0 => by rw [← hc]; rfl) h (by rw [hu, ← taking_eq])

/-! ## Byte order (R181) -/

theorem ofLeBytes_leBytes (n v : Nat) : ofLeBytes (leBytes n v) = v % 256 ^ n := by
  induction n generalizing v with
  | zero => simp [leBytes, ofLeBytes, Nat.mod_one]
  | succ n ih =>
    unfold leBytes ofLeBytes
    rw [ih, BitVec.toNat_ofNat, Nat.pow_succ 256, Nat.mul_comm (256 ^ n), Nat.mod_mul]

/-- A field of whole bytes is read as it was written. -/
theorem read_leBytes {w : Nat} (n : Nat) (x : BitVec w) (hw : w = 8 * n) :
    BitVec.ofNat w (ofLeBytes (leBytes n x.toNat)) = x := by
  subst hw
  rw [ofLeBytes_leBytes, show 256 ^ n = 2 ^ (8 * n) by rw [Nat.pow_mul], Nat.mod_eq_of_lt x.isLt, BitVec.ofNat_toNat,
    BitVec.setWidth_eq]

/-! ## Request codes (10.3) -/

theorem codeOf_byte (c : Code) : codeOf c.byte = some c := by cases c <;> rfl

theorem codeOf_none {b : Byte} (h : ∀ c : Code, c.byte ≠ b) : codeOf b = none := by
  unfold codeOf
  rw [List.find?_eq_none]
  intro c _
  simpa using h c

/-- A payload of a known code and of a length that the code takes is read as its parameters. -/
theorem decodeRequest_code (tag : Tag) (c : Code) (rest : List Byte) :
    decodeRequest tag (c.byte :: rest) =
      if c.lengths.1 ≤ rest.length + 1 ∧ rest.length + 1 ≤ c.lengths.2 then readParameters tag c (c.byte :: rest)
      else .badLength c.byte := by
  unfold decodeRequest
  simp only [codeOf_byte, List.length_cons]

/-- A mode byte above 1 names no command. -/
theorem modeForm_bad {c : Code} {m : Byte} {zero one : Instr} (h : 1 < m.toNat) :
    modeForm c m zero one = .badMode c := by
  unfold modeForm
  rw [if_neg (by rintro rfl; simp at h), if_neg (by rintro rfl; simp at h)]

/-- The rule record of EDIT_RULE is read as it was written (10.6). -/
theorem readRecord_bytes (code rule : Byte) (r : RawRule) : readRecord (code :: rule :: r.bytes) 2 = r := by
  have read (offset width line repeats interval) : (⟨line, BitVec.ofNat 32 (ofLeBytes (leBytes 4 (BitVec.toNat offset))),
      BitVec.ofNat 24 (ofLeBytes (leBytes 3 (BitVec.toNat width))), repeats,
      BitVec.ofNat 32 (ofLeBytes (leBytes 4 (BitVec.toNat interval)))⟩ : RawTemplate) =
        ⟨line, offset, width, repeats, interval⟩ := by
    rw [read_leBytes 4 offset rfl, read_leBytes 3 width rfl, read_leBytes 4 interval rfl]
  have h0 : (readRecord (code :: rule :: r.bytes) 2).t0 = r.t0 := read _ _ _ _ _
  have h1 : (readRecord (code :: rule :: r.bytes) 2).t1 = r.t1 := read _ _ _ _ _
  have h2 : (readRecord (code :: rule :: r.bytes) 2).t2 = r.t2 := read _ _ _ _ _
  have h3 : (readRecord (code :: rule :: r.bytes) 2).t3 = r.t3 := read _ _ _ _ _
  have hh : (readRecord (code :: rule :: r.bytes) 2).holdoff = r.holdoff := read_leBytes 4 r.holdoff rfl
  have hl : (readRecord (code :: rule :: r.bytes) 2).limit = r.limit := read_leBytes 2 r.limit rfl
  calc readRecord (code :: rule :: r.bytes) 2
    _ = { r with
          holdoff := (readRecord (code :: rule :: r.bytes) 2).holdoff
          limit := (readRecord (code :: rule :: r.bytes) 2).limit
          t0 := (readRecord (code :: rule :: r.bytes) 2).t0
          t1 := (readRecord (code :: rule :: r.bytes) 2).t1
          t2 := (readRecord (code :: rule :: r.bytes) 2).t2
          t3 := (readRecord (code :: rule :: r.bytes) 2).t3 } := rfl
    _ = r := by rw [h0, h1, h2, h3, hh, hl]

/-- The payload that a request command is sent as is read as that command; PING carries at most 16 bytes (R146). -/
theorem decodeRequest_encoded {i : Instr} {tag : Tag} {p : List Byte} (h : encodeRequest i = some (tag, p))
    (hp : ∀ t d, i = .ping t d → d.length ≤ 16) : decodeRequest tag p = .command i := by
  cases i <;> simp only [encodeRequest, Option.some.injEq, Prod.mk.injEq, reduceCtorEq] at h <;>
    obtain ⟨rfl, rfl⟩ := h
  case ping t d =>
    rw [decodeRequest_code, if_pos ⟨Nat.le_add_left _ _, Nat.succ_le_succ (hp t d rfl)⟩]
    rfl
  case setLinkRate t r => exact congrArg (fun x => RequestForm.command (.setLinkRate t x)) (read_leBytes 4 r rfl)
  case setSupervision t l => exact congrArg (fun x => RequestForm.command (.setSupervision t x)) (read_leBytes 2 l rfl)
  case schedulePulse t line base mode due width repeats interval done =>
    calc RequestForm.command (.schedulePulse t line base mode (BitVec.ofNat 48 (ofLeBytes (leBytes 6 due.toNat)))
          (BitVec.ofNat 24 (ofLeBytes (leBytes 3 width.toNat))) repeats
          (BitVec.ofNat 32 (ofLeBytes (leBytes 4 interval.toNat))) done)
      _ = _ := by rw [read_leBytes 6 due rfl, read_leBytes 3 width rfl, read_leBytes 4 interval rfl]
  case setSchedule t ticks counts policy reserve =>
    exact congrArg (fun x => RequestForm.command (.setSchedule t x counts policy reserve)) (read_leBytes 2 ticks rfl)
  case trainLoad t line period high =>
    calc RequestForm.command (.trainLoad t line (BitVec.ofNat 24 (ofLeBytes (leBytes 3 period.toNat)))
          (BitVec.ofNat 24 (ofLeBytes (leBytes 3 high.toNat))))
      _ = _ := by rw [read_leBytes 3 period rfl, read_leBytes 3 high rfl]
  case trainStart t line burst =>
    exact congrArg (fun x => RequestForm.command (.trainStart t line x)) (read_leBytes 2 burst rfl)
  case setSync t width reporting =>
    exact congrArg (fun x => RequestForm.command (.setSync t x reporting)) (read_leBytes 2 width rfl)
  case armSync t preset => exact congrArg (fun x => RequestForm.command (.armSync t x)) (read_leBytes 6 preset rfl)
  case setInput t line select width enable =>
    exact congrArg (fun x => RequestForm.command (.setInput t line select x enable)) (read_leBytes 2 width rfl)
  case editRule t rule record =>
    exact congrArg (fun x => RequestForm.command (.editRule t rule x)) (readRecord_bytes _ rule record)
  case resetRuleCounts t rules =>
    exact congrArg (fun x => RequestForm.command (.resetRuleCounts t x)) (read_leBytes 2 rules rfl)
  case setReporting t kinds interval retries =>
    calc RequestForm.command (.setReporting t (BitVec.ofNat 16 (ofLeBytes (leBytes 2 kinds.toNat)))
          (BitVec.ofNat 16 (ofLeBytes (leBytes 2 interval.toNat))) retries)
      _ = _ := by rw [read_leBytes 2 kinds rfl, read_leBytes 2 interval rfl]
  case clearFaults t kinds => exact congrArg (fun x => RequestForm.command (.clearFaults t x)) (read_leBytes 2 kinds rfl)
  case setFaultMasks t fatal report =>
    calc RequestForm.command (.setFaultMasks t (BitVec.ofNat 16 (ofLeBytes (leBytes 2 fatal.toNat)))
          (BitVec.ofNat 16 (ofLeBytes (leBytes 2 report.toNat))))
      _ = _ := by rw [read_leBytes 2 fatal rfl, read_leBytes 2 report rfl]
  all_goals rfl

/-- A payload whose mode byte names no command is answered BAD_VALUE. -/
theorem takePayload_badMode {tag : Tag} {p : List Byte} {c : Code} (h : decodeRequest tag p = .badMode c) (t : State) :
    takePayload tag p t = (t, reply .badValue) := by
  unfold takePayload
  rw [h]

end Sys2Proof.Machine

open Sys2Proof Sys2Proof.Machine in
/-- Settles O25: the first four rows by what the payload decodes to, the last by reading back what was written. -/
theorem unknownRequestAnswers : Obligations.UnknownRequestAnswers := by
  unfold Obligations.UnknownRequestAnswers
  intro s tag
  refine ⟨fun h => answers_payload (r := reply .badLength) rfl h fun _ => rfl, fun b rest h hb => ?_,
    fun c rest h hl => ?_, fun m x gen hm p hp b hb h => ?_, fun i p he hp => ?_⟩
  · refine answers_payload (r := reply .badCode) rfl h fun t => ?_
    simp [takePayload, decodeRequest, codeOf_none hb]
  · refine answers_payload (r := reply .badLength) rfl h fun t => ?_
    unfold takePayload
    rw [decodeRequest_code, if_neg (by omega)]
  · have hd : ∃ c, decodeRequest tag p = .badMode c := by
      simp only [List.mem_cons, List.not_mem_nil, or_false] at hp
      rcases hp with rfl | rfl | rfl | rfl | rfl
      · exact ⟨.disarm, modeForm_bad hm⟩
      · exact ⟨.restart, modeForm_bad hm⟩
      · exact ⟨.cancelAction, modeForm_bad hm⟩
      · exact ⟨.cancelLine, modeForm_bad hm⟩
      · exact ⟨.trainStop, modeForm_bad hm⟩
    obtain ⟨c, hd⟩ := hd
    exact answers_payload (r := reply .badValue) hb h (takePayload_badMode hd)
  · have hd := decodeRequest_encoded he hp
    rw [exec_taken he]
    have ht : takePayload tag p = takeCommand i := by
      funext t
      unfold takePayload
      rw [hd]
    rw [← ht]
    rfl

end

