-- ==== Sys2Proof/Proofs/Settings.lean ====
section
/-! PROOFS. The requests that replace settings: SET_SUPERVISION, SET_SCHEDULE and SET_REPORTING (R23, R126, R166). -/

namespace Sys2Proof.Machine

/-! ## What a request's taking leaves the owner blocks (R125, R139) -/

theorem taking_withRun (tag : Tag) (s : State) (x : RunControl) :
    (taking tag s).withRun x = (s.withRun x).withLink (taking tag s).link := by
  conv_lhs => rw [taking_eq, restartSilence_eq]
  rfl

theorem taking_withSched (tag : Tag) (s : State) (x : Scheduler) :
    (taking tag s).withSched x = ((restartSilence s).withSched x).withLink (taking tag s).link := by
  conv_lhs => rw [taking_eq]
  rfl

theorem taking_withReports (tag : Tag) (s : State) (x : ReportUnit) :
    (taking tag s).withReports x = ((restartSilence s).withReports x).withLink (taking tag s).link := by
  conv_lhs => rw [taking_eq]
  rfl

/-! ## Two-valued bytes (R183) -/

theorem byte_above_one {b : Byte} (h : 1 < b.toNat) : b ≠ 0 ∧ b ≠ 1 := by
  constructor <;> rintro rfl <;> simp at h

theorem byte_two_valued {b : Byte} (h : b.toNat ≤ 1) : b = 0 ∨ b = 1 := by
  bv_omega

theorem latePolicyOf_bad {b : Byte} (h : 1 < b.toNat) : latePolicyOf b = none := by
  obtain ⟨h0, h1⟩ := byte_above_one h
  rw [latePolicyOf, if_neg h0, if_neg h1]

theorem latePolicyOf_good {b : Byte} (h : b.toNat ≤ 1) :
    latePolicyOf b = some (if b = 0 then .fire else .skip) := by
  rcases byte_two_valued h with rfl | rfl <;> rfl

/-! ## The settings -/

/-- A silence limit out of range changes nothing (R126). -/
theorem takeSetSupervision_bad {limit : BitVec 16} (h : (1 ≤ limit.toNat ∧ limit.toNat ≤ 9) ∨ 60000 < limit.toNat)
    (t : State) : takeSetSupervision limit t = (t, reply .badValue) := if_pos h

/-- A silence limit in range replaces the limit; the timer restarts, or stops, where it can run (R126). -/
theorem takeSetSupervision_good {limit : BitVec 16} (h : ¬ ((1 ≤ limit.toNat ∧ limit.toNat ≤ 9) ∨ 60000 < limit.toNat))
    (t : State) : takeSetSupervision limit t = (t.withRun ⟨t.run.state, limit.toNat,
      if t.run.state.sequencing then (if limit.toNat = 0 then none else some t.clock) else t.run.silence⟩,
      replyOk (leBytes 2 limit.toNat)) := if_neg h

theorem sequencing_iff (x : RunState) : x.sequencing = true ↔ x = .armed ∨ x = .draining := by
  cases x <;> simp [RunState.sequencing]

/-- The silence timer that SET_SUPERVISION leaves does not depend on its restart by the request's own frame (R125, R126). -/
theorem supervised_silence (s : State) (n : Nat) :
    (if (restartSilence s).run.state.sequencing then (if n = 0 then none else some s.clock)
      else (restartSilence s).run.silence) =
    if s.run.state = .armed ∨ s.run.state = .draining then (if n = 0 then none else some s.clock)
      else s.run.silence := by
  rw [restartSilence_state]
  by_cases h : s.run.state.sequencing = true
  · rw [if_pos h, if_pos ((sequencing_iff _).mp h)]
  · rw [if_neg h, if_neg (fun c => h ((sequencing_iff _).mpr c)), restartSilence_of_idle (by simpa using h)]

theorem takeSetSchedule_bad {ticks : BitVec 16} {counts policy reserve : Byte}
    (h : 1 < policy.toNat ∨ 32 < reserve.toNat) (t : State) :
    takeSetSchedule ticks counts policy reserve t = (t, reply .badValue) := by
  unfold takeSetSchedule
  rcases Nat.lt_or_ge 1 policy.toNat with hp | hp
  · rw [latePolicyOf_bad hp]
  · rw [latePolicyOf_good hp]
    simp only [if_pos (h.resolve_left (by omega))]

theorem takeSetSchedule_good {ticks : BitVec 16} {counts policy reserve : Byte} (hp : policy.toNat ≤ 1)
    (hr : reserve.toNat ≤ 32) (t : State) :
    takeSetSchedule ticks counts policy reserve t = (t.withSched { t.sched with
      lateTicks := ticks.toNat
      lateCounts := counts.toNat
      latePolicy := if policy = 0 then .fire else .skip
      reserve := reserve.toNat }, replyOk []) := by
  unfold takeSetSchedule
  rw [latePolicyOf_good hp]
  simp only [if_neg (Nat.not_lt.mpr hr)]

/-- The values that SET_REPORTING takes (R166, R183). -/
theorem reportingOk_iff (kinds interval : BitVec 16) (retries : Byte) :
    (kindsOk kinds ∧ 5 ≤ interval.toNat ∧ interval.toNat ≤ 1000 ∧ retries.toNat ≤ 15) ↔
      kinds.getLsbD 0 = true ∧ kinds.getLsbD 1 = true ∧ kinds.toNat < 2 ^ 12 ∧ 5 ≤ interval.toNat
        ∧ interval.toNat ≤ 1000 ∧ retries.toNat ≤ 15 := by
  simp only [kindsOk, Bool.and_eq_true, decide_eq_true_eq, and_assoc]

end Sys2Proof.Machine

open Sys2Proof Sys2Proof.Machine in
/-- Settles O44, request by request: values out of range leave the state at the taking, others replace the settings in it. -/
theorem settingRequests : Obligations.SettingRequests := by
  unfold Obligations.SettingRequests
  intro s tag
  refine ⟨fun limit h => ⟨fun hl => ?_, fun hl => ?_⟩,
    fun ticks counts policy reserve h => ⟨fun hv => ?_, fun hp hr => ?_⟩, fun kinds interval retries h => ?_⟩
  · exact answers_unchanged (r := reply .badValue) rfl rfl h (takeSetSupervision_bad hl _)
  · refine answers_command (r := replyOk (leBytes 2 limit.toNat)) rfl rfl h ?_
    refine (takeSetSupervision_good (by omega) _).trans ?_
    rw [taking_withRun, taking_run, taking_clock, supervised_silence, restartSilence_state]
    rfl
  · exact answers_unchanged (r := reply .badValue) rfl rfl h (takeSetSchedule_bad hv _)
  · refine answers_command (r := replyOk []) rfl rfl h ?_
    refine (takeSetSchedule_good hp hr _).trans ?_
    rw [taking_withSched, taking_sched]
    rfl
  · dsimp only
    rw [← reportingOk_iff]
    refine ⟨fun hv => answers_unchanged (r := reply .badValue) rfl rfl h (if_neg hv), fun hv => ?_⟩
    refine answers_command (r := replyOk (leBytes 2 kinds.toNat ++ leBytes 2 interval.toNat ++ [retries])) rfl rfl h ?_
    refine (if_pos hv).trans ?_
    rw [taking_withReports, taking_reports]
    rfl

end

