-- ==== Sys2Proof/Proofs/LinkApart.lean ====
section
/-! PROOFS. What the Scheduler, the reports and the faults do does not depend on the Host Link: each operation commutes with
putting another Host Link in the state. -/

namespace Sys2Proof.Machine

/-! ## Reports and faults -/

/-- An operation that commutes with putting another Host Link in the state. -/
def LinkFree (f : State → State) : Prop := ∀ (l : HostLink) (s : State), f (s.withLink l) = (f s).withLink l

/-- The same of an operation that answers something besides. -/
def LinkFreeWith {α : Type} (f : State → State × α) : Prop :=
  ∀ (l : HostLink) (s : State), f (s.withLink l) = ((f s).1.withLink l, (f s).2)

theorem createWith_linkFree {f : ReportKind → Bool → State → State} (hf : ∀ k q, LinkFree (f k q)) (b : ReportBody) :
    LinkFree (createWith f b) := by
  intro l s
  unfold createWith
  rw [State.withLink_reports]
  split
  · split
    · rfl
    · exact hf _ _ l (s.withReports _)
  · rfl

theorem countWith_linkFree {c : ReportBody → State → State} {f : FaultKind → State → State} (hc : ∀ b, LinkFree (c b))
    (hf : ∀ k, LinkFree (f k)) (q : Bool) (k : FaultKind) (d : Option FaultDetail) : LinkFree (countWith c f q k d) := by
  intro l s
  have hr : recordFault k d (s.withLink l) = (recordFault k d s).withLink l := rfl
  have he : (s.withLink l).faultEntry k = s.faultEntry k := rfl
  have hi (t : State) : (t.withLink l).isReported k = t.isReported k ∧ (t.withLink l).isFatal k = t.isFatal k := ⟨rfl, rfl⟩
  unfold countWith
  dsimp only
  rw [hr, he, (hi _).1]
  split
  · rw [hc, (hi _).2, State.withLink_run]
    split
    · rw [hf]
    · rfl
  · rw [(hi _).2, State.withLink_run]
    split
    · rw [hf]
    · rfl

theorem overflowFaulted_linkFree (k : ReportKind) (q : Bool) : LinkFree (overflowFaulted k q) :=
  countWith_linkFree (createWith_linkFree fun _ _ _ _ => rfl) (fun _ _ _ => rfl) _ _ _

theorem fatalEntry_linkFree (k : FaultKind) : LinkFree (fatalEntry k) :=
  fun l s => createWith_linkFree overflowFaulted_linkFree _ l (enterFaulted s)

theorem overflowOfFaultReport_linkFree (k : ReportKind) (q : Bool) : LinkFree (overflowOfFaultReport k q) :=
  countWith_linkFree (c := fun _ t => t) (fun _ _ _ => rfl) fatalEntry_linkFree true .reportOverflow (some (.report k))

theorem countOverflow_linkFree (k : ReportKind) (q : Bool) : LinkFree (countOverflow k q) :=
  countWith_linkFree (createWith_linkFree overflowOfFaultReport_linkFree) fatalEntry_linkFree _ _ _

theorem createReport_linkFree (b : ReportBody) : LinkFree (createReport b) :=
  createWith_linkFree countOverflow_linkFree b

theorem countFault_linkFree (k : FaultKind) (d : Option FaultDetail) : LinkFree (countFault k d) :=
  countWith_linkFree createReport_linkFree fatalEntry_linkFree _ _ _

theorem countForAction_linkFree (k : FaultKind) (d : FaultDetail) (h : Handle) : LinkFree (countForAction k d h) := by
  intro l s
  have hw : (s.withLink l).waitingAction h = s.waitingAction h := rfl
  unfold countForAction
  rw [hw]
  split
  · exact countFault_linkFree _ _ l s
  · rfl

/-! ## Freeing and proceeding -/

theorem poolNotice_linkFree : LinkFree poolNotice := by
  intro l s
  have hc : (s.withLink l).freeCount = s.freeCount := rfl
  unfold poolNotice
  rw [hc, State.withLink_run]
  split
  · exact createReport_linkFree _ l (s.withRun _)
  · rfl

theorem freeSlot_linkFree (h : Handle) (e : Ended) : LinkFree (freeSlot h e) := by
  intro l s
  have hl : (s.withLink l).live h = s.live h := rfl
  have hv : vacate h (s.withLink l) = (vacate h s).withLink l := rfl
  unfold freeSlot
  rw [hl]
  split
  · rfl
  · split
    · rfl
    · dsimp only
      rw [hv]
      split
      · rw [createReport_linkFree, poolNotice_linkFree]
      · rw [poolNotice_linkFree]

theorem joinStart_linkFree (h : Handle) (d : Due) : LinkFree (joinStart h d) := by
  intro l s
  cases d <;> rfl

theorem proceed_linkFree (h : Handle) (a : Action) : LinkFreeWith (proceed h a) := by
  intro l s
  unfold proceed
  split
  · exact Prod.ext (joinStart_linkFree _ _ l (setWaiting h _ s)) rfl
  · exact Prod.ext (freeSlot_linkFree _ _ l s) rfl

theorem endAction_linkFree (h : Handle) : LinkFreeWith (endAction h) := by
  intro l s
  have hh : (s.withLink l).holdingAction h = s.holdingAction h := rfl
  unfold endAction
  rw [hh]
  split
  · rfl
  · exact proceed_linkFree _ _ l (release _ h s)

/-! ## START -/

theorem refuseStart_linkFree (h owner : Handle) (a : Action) : LinkFreeWith (refuseStart h owner a) := by
  intro l s
  have hw (t : State) : (t.withLink l).waitingAction h = t.waitingAction h := rfl
  have hs (b : Action) : setWaiting h b (s.withLink l) = (setWaiting h b s).withLink l := rfl
  unfold refuseStart
  dsimp only
  rw [hs, createReport_linkFree, countForAction_linkFree, hw]
  split
  · rfl
  · exact proceed_linkFree _ _ l _

theorem cutHolder_linkFree (o : OutLine) (b : Handle) : LinkFreeWith (cutHolder o b) := by
  intro l s
  have hh : (s.withLink l).holdingAction b = s.holdingAction b := rfl
  unfold cutHolder
  rw [hh]
  split
  · rfl
  · rename_i a _
    rw [show release o b (removeEntry b (s.withLink l)) = (release o b (removeEntry b s)).withLink l from rfl,
      proceed_linkFree b a l]

theorem cutHolders_linkFree (o : OutLine) : ∀ bs : List Handle, LinkFreeWith (cutHolders o bs)
  | [], _, _ => rfl
  | b :: bs, l, s => by
    unfold cutHolders
    dsimp only
    rw [cutHolder_linkFree o b l, cutHolders_linkFree o bs l]

theorem startOnLine_linkFree (h : Handle) (a : Action) (tick : Tick) : LinkFreeWith (startOnLine h a tick) := by
  intro l s
  have hw (t : State) : (t.withLink l).waitingAction h = t.waitingAction h := rfl
  have ho : (s.withLink l).owner a.line = s.owner a.line := rfl
  unfold startOnLine
  rw [State.output_withLink, ho]
  split
  · rfl
  · split
    · exact refuseStart_linkFree _ _ _ l s
    · rfl
    · dsimp only
      rw [cutHolders_linkFree _ _ l, hw]
      split <;> rfl

theorem fireLate_linkFree (h : Handle) (a : Action) (n : Nat) : LinkFreeWith (fireLate h a n) := by
  intro l s
  have hw (t : State) : (t.withLink l).waitingAction h = t.waitingAction h := rfl
  unfold fireLate
  dsimp only
  rw [createReport_linkFree, countForAction_linkFree, hw]
  split
  · rfl
  · exact startOnLine_linkFree _ _ _ l _

theorem skipLate_linkFree (h : Handle) (a : Action) (n : Nat) : LinkFreeWith (skipLate h a n) := by
  intro l s
  have hw (t : State) : (t.withLink l).waitingAction h = t.waitingAction h := rfl
  have hs (b : Action) : setWaiting h b (s.withLink l) = (setWaiting h b s).withLink l := rfl
  have hl (d : Due) : (s.withLink l).lateBy d = s.lateBy d := rfl
  unfold skipLate
  simp only [hl]
  rw [hs, createReport_linkFree, countForAction_linkFree, hw]
  split
  · rfl
  · split
    · exact Prod.ext (joinStart_linkFree _ _ l _) rfl
    · exact Prod.ext (freeSlot_linkFree _ _ l _) rfl

theorem startAction_linkFree (h : Handle) (tick : Tick) : LinkFreeWith (startAction h tick) := by
  intro l s
  have hw : (s.withLink l).waitingAction h = s.waitingAction h := rfl
  have hl (d : Due) : (s.withLink l).lateBy d = s.lateBy d := rfl
  unfold startAction
  rw [hw, State.withLink_sched]
  split
  · rfl
  · rw [hl]
    split
    · exact startOnLine_linkFree _ _ _ l s
    · split
      · exact fireLate_linkFree _ _ _ l s
      · exact skipLate_linkFree _ _ _ l s

/-! ## Expiry -/

theorem carryOutTime_linkFree (e : TimeEntry) : LinkFreeWith (carryOutTime e) := by
  intro l s
  unfold carryOutTime
  split
  · exact startAction_linkFree _ _ l s
  · exact endAction_linkFree _ l s

theorem runLists_linkFree : ∀ (n : Nat) (x : Expiry) (hs : List Handle), LinkFree (runLists x n hs)
  | 0, x, hs, l, s => by
    rw [runLists, runLists]
  | n + 1, x, h :: hs, l, s => by
    have hd : (s.withLink l).startDue h = s.startDue h := rfl
    have hr : removeEntry h (s.withLink l) = (removeEntry h s).withLink l := rfl
    have hn : (s.withLink l).now = s.now := rfl
    rw [runLists, runLists, hd, hr, hn, startAction_linkFree h _ l]
    split
    · exact runLists_linkFree n _ _ l _
    · exact runLists_linkFree n _ _ l s
  | n + 1, x, [], l, s => by
    have he : expiredTime x (s.withLink l) = expiredTime x s := rfl
    have ht : expiredTravel (s.withLink l) = expiredTravel s := rfl
    have hp : popTime (s.withLink l) = (popTime s).withLink l := rfl
    have hq : popTravel (s.withLink l) = (popTravel s).withLink l := rfl
    have hk (edge : Tick) (e : TravelEntry) : travelTick x edge e (s.withLink l) = travelTick x edge e s := rfl
    rw [runLists, runLists, he, ht, hp, hq]
    cases expiredTime x s with
    | some e =>
      dsimp only
      rw [carryOutTime_linkFree e l, runLists_linkFree n _ _ l]
    | none =>
      cases x.travelEdge with
      | none => rfl
      | some edge =>
        cases expiredTravel s with
        | none => rfl
        | some e =>
          dsimp only
          rw [hk, startAction_linkFree _ _ l, runLists_linkFree n _ _ l]

theorem expireLists_linkFree (x : Expiry) (urgent : List Handle) : LinkFree (expireLists x urgent) :=
  fun l s => runLists_linkFree _ x urgent l s

theorem joinAction_linkFree (h : Handle) : LinkFree (joinAction h) := by
  intro l s
  have hw : (s.withLink l).waitingAction h = s.waitingAction h := rfl
  have hl : (s.withLink l).listedHandles = s.listedHandles := rfl
  unfold joinAction
  rw [hw, hl]
  split
  · rfl
  · rw [joinStart_linkFree h _ l]
    exact expireLists_linkFree _ _ l _

end Sys2Proof.Machine
end

