-- ==== Sys2Proof/Proofs/Pulses.lean ====
section
/-! PROOFS. SCHEDULE_PULSE: its checks in order, the lowest FREE slot, and the START that is filed or tested at once (R17,
R18). -/

namespace Sys2Proof.Machine

/-- A request command whose owner block does what does not depend on the Host Link. -/
theorem answers_linkFree {i : Instr} {tag : Tag} {p : List Byte} {c : Option Byte} {s : State} {r : Reply}
    {f : State → State} (hf : LinkFree f) (he : encodeRequest i = some (tag, p)) (hc : p.head? = c)
    (h : s.admits tag c = true) (hu : takeCommand i (taking tag s) = (f (taking tag s), r)) :
    Answers i tag c (responsePayload c r) r.after s (f (restartSilence s)) :=
  answers_command he hc h (by rw [hu, ← hf, ← taking_eq])

/-! ## The lowest FREE slots (R3) -/

/-- An initial part of an ascending list, given by its members, is what is taken of it. -/
theorem take_of_lowest {n : Nat} : ∀ {l m : List (Fin n)}, l.Pairwise (· < ·) → m.Pairwise (· < ·) →
    (∀ i ∈ m, i ∈ l) → (∀ i ∈ m, ∀ j ∈ l, j < i → j ∈ m) → l.take m.length = m
  | _, [], _, _, _, _ => List.take_zero
  | [], a :: _, _, _, hs, _ => absurd (hs a List.mem_cons_self) List.not_mem_nil
  | b :: l, a :: m, hl, hm, hs, hlow => by
    rw [List.pairwise_cons] at hl hm
    obtain ⟨hb, hl⟩ := hl
    obtain ⟨ha, hm⟩ := hm
    have hab : b = a := by
      by_contra hne
      have hal : a ∈ l := (List.mem_cons.mp (hs a List.mem_cons_self)).resolve_left (fun e => hne e.symm)
      have hlt := hb a hal
      rcases List.mem_cons.mp (hlow a List.mem_cons_self b List.mem_cons_self hlt) with e | e
      · exact hne e
      · exact absurd (ha b e) (not_lt_of_gt hlt)
    subst hab
    rw [List.length_cons, List.take_succ_cons, take_of_lowest hl hm]
    · intro i hi
      exact (List.mem_cons.mp (hs i (List.mem_cons_of_mem _ hi))).resolve_left (fun e => by
        subst e
        exact lt_irrefl _ (ha i hi))
    · intro i hi j hj hlt
      exact (List.mem_cons.mp (hlow i (List.mem_cons_of_mem _ hi) j (List.mem_cons_of_mem _ hj) hlt)).resolve_left
        (fun e => by
          subst e
          exact lt_irrefl _ (hb j hj))

/-- FREE slots below which every FREE slot is among them are the lowest ones. -/
theorem freeSlots_take {s : State} {slots : List SlotNo} (hp : slots.Pairwise (· < ·))
    (hf : ∀ i ∈ slots, (s.slot i).isFree = true)
    (hlow : ∀ i ∈ slots, ∀ j, j < i → (s.slot j).isFree = true → j ∈ slots) :
    s.freeSlots.take slots.length = slots :=
  take_of_lowest ((List.sortedLT_finRange 96).pairwise.sublist List.filter_sublist) hp
    (fun i hi => mem_freeSlots.mpr (hf i hi)) (fun i hi j hj hlt => hlow i hi j hlt (mem_freeSlots.mp hj))

/-- The lowest FREE slot stands first. -/
theorem freeSlots_first {s : State} {i : SlotNo} (hf : (s.slot i).isFree = true)
    (hlow : ∀ j, j < i → (s.slot j).isFree = false) : ∃ rest, s.freeSlots = i :: rest := by
  have h := freeSlots_take (s := s) (slots := [i]) (by simp) (by simpa using hf) fun k hk j hlt hj => by
    rw [List.mem_singleton.mp hk] at hlt
    rw [hlow j hlt] at hj
    cases hj
  cases hs : s.freeSlots with
  | nil =>
    rw [hs] at h
    cases h
  | cons a rest =>
    rw [hs] at h
    exact ⟨rest, by simpa using h⟩

theorem freeSlots_none {s : State} (h : ∀ j, (s.slot j).isFree = false) : s.freeSlots = [] := by
  rw [List.eq_nil_iff_forall_not_mem]
  intro i hi
  rw [mem_freeSlots, h i] at hi
  cases hi

/-! ## The values of a pulse (R17 check 3, R18) -/

/-- A byte is 0, is 1, or has no meaning of two. -/
theorem byte_cases (b : Byte) : b = 0 ∨ b = 1 ∨ 1 < b.toNat := by
  bv_omega

theorem baseOf_bad {b : Byte} (h : 1 < b.toNat) : baseOf b = none := by
  obtain ⟨h0, h1⟩ := byte_above_one h
  rw [baseOf, if_neg h0, if_neg h1]

theorem yesNoOf_bad {b : Byte} (h : 1 < b.toNat) : yesNoOf b = none := by
  obtain ⟨h0, h1⟩ := byte_above_one h
  rw [yesNoOf, if_neg h0, if_neg h1]

@[simp] theorem baseOf_zero : baseOf 0 = some .time := rfl
@[simp] theorem baseOf_one : baseOf 1 = some .travel := rfl
@[simp] theorem yesNoOf_zero : yesNoOf 0 = some false := rfl
@[simp] theorem yesNoOf_one : yesNoOf 1 = some true := rfl

theorem intervalOk_misfits {base : Byte} {b : Base} {width : BitVec 24} {repeats : Byte} {interval : BitVec 32}
    (hb : baseOf base = some b) (h : intervalMisfits base width repeats interval) :
    intervalOk b width repeats interval = false := by
  unfold intervalOk
  rcases h with ⟨h0, hi⟩ | ⟨h0, hi⟩
  · rw [if_pos h0]
    simpa using hi
  · rw [if_neg h0]
    cases b with
    | time =>
      simp only [decide_eq_false_iff_not, Nat.not_lt]
      rcases hi with rfl | ⟨-, hi⟩ | ⟨rfl, -⟩
      · simp
      · exact hi
      · cases hb
    | travel =>
      unfold Config.countWindow
      simp only [Bool.and_eq_false_iff, decide_eq_false_iff_not, Nat.not_lt]
      rcases hi with rfl | ⟨rfl, -⟩ | ⟨-, hi⟩
      · simp
      · cases hb
      · exact .inr hi

theorem resolveDue_outOfRange {s : State} {base mode : Byte} {due : BitVec 48} {b : Base} {relative : Bool}
    (hb : baseOf base = some b) (hm : yesNoOf mode = some relative) (h : s.outOfRange base mode due) :
    resolveDue b relative due s = none := by
  rcases h with ⟨rfl, rfl, h1, h2⟩ | ⟨rfl, rfl, h1⟩ | ⟨rfl, rfl, h1, h2⟩ | ⟨rfl, rfl, h1⟩ <;> cases hb <;> cases hm
  · refine if_neg ?_
    unfold tickInWindow Config.tickWindow
    simp only [Bool.or_eq_true, decide_eq_true_eq, not_or, Nat.not_lt]
    exact ⟨h1, h2⟩
  · exact if_neg (Nat.not_lt.mpr h1)
  · refine if_neg ?_
    unfold countInWindow Config.countWindow
    simp only [Bool.or_eq_true, decide_eq_true_eq, not_or, Nat.not_lt]
    exact ⟨h1, h2⟩
  · exact if_neg (Nat.not_lt.mpr h1)

/-- The base and due mode of a due point, and the due point resolved from them (R18). -/
structure Resolves (s : State) (base mode : Byte) (due : BitVec 48) (d : Due) : Prop where
  reserved : travelDueReserved base due = false
  base : baseOf base = some d.base
  mode : ∃ relative, yesNoOf mode = some relative ∧ resolveDue d.base relative due s = some d
  source : ¬ (d.base = .travel ∧ s.timebase.source = none)

theorem tickInWindow_of_ahead {now t : Tick} (h : tickAhead now t = true) : tickInWindow now t = true := by
  unfold tickInWindow
  rw [Bool.or_eq_true]
  exact .inl (decide_eq_true (tickAhead_near h))

theorem countInWindow_of_ahead {n c : Count} (h : countAhead n c = true) : countInWindow n c = true := by
  unfold countAhead at h
  unfold countInWindow
  rw [Bool.and_eq_true] at h
  rw [Bool.or_eq_true]
  exact .inl h.2

theorem baseOf_travel_iff (b : Byte) : baseOf b = some .travel ↔ b = 1 := by
  rcases byte_cases b with rfl | rfl | h
  · constructor <;> intro h <;> cases h
  · exact iff_of_true rfl rfl
  · rw [baseOf_bad h]
    exact iff_of_false (by simp) (byte_above_one h).2

theorem travelDueReserved_iff (base : Byte) (due : BitVec 48) :
    travelDueReserved base due = true ↔ base = 1 ∧ 2 ^ 32 ≤ due.toNat := by
  rw [travelDueReserved, Bool.and_eq_true, decide_eq_true_eq, decide_eq_true_eq, baseOf_travel_iff]

theorem travelDueReserved_time (due : BitVec 48) : travelDueReserved 0 due = false := by
  rw [← Bool.not_eq_true, travelDueReserved_iff]
  rintro ⟨h, -⟩
  cases h

theorem travelDueReserved_travel {due : BitVec 48} (h : due.toNat < 2 ^ 32) : travelDueReserved 1 due = false := by
  rw [← Bool.not_eq_true, travelDueReserved_iff]
  exact fun e => Nat.not_le.mpr h e.2

theorem resolves_of_ahead {s : State} {base mode : Byte} {due : BitVec 48} {d : Due}
    (h : s.resolvesAhead base mode due d) : Resolves s base mode due d := by
  cases d with
  | time t =>
    obtain ⟨rfl, hm⟩ := h
    refine ⟨travelDueReserved_time due, rfl, ?_, by simp [Due.base]⟩
    rcases hm with ⟨rfl, rfl, ha⟩ | ⟨rfl, h0, h1, rfl⟩
    · exact ⟨false, rfl, if_pos (tickInWindow_of_ahead ha)⟩
    · exact ⟨true, rfl, if_pos h1⟩
  | travel c =>
    obtain ⟨rfl, hs, hm⟩ := h
    refine ⟨travelDueReserved_travel ?_, rfl, ?_, fun e => hs e.2⟩
    rotate_left
    · rcases hm with ⟨rfl, -, rfl, ha⟩ | ⟨rfl, h0, h1, rfl⟩
      · exact ⟨false, rfl, if_pos (countInWindow_of_ahead ha)⟩
      · exact ⟨true, rfl, if_pos h1⟩
    · rcases hm with ⟨-, h, -⟩ | ⟨-, -, h, -⟩ <;> omega

theorem resolves_of_reached {s : State} {base mode : Byte} {due : BitVec 48} {d : Due}
    (h : s.resolvesReached base mode due d) : Resolves s base mode due d := by
  obtain ⟨hr, h⟩ := h
  cases d with
  | time t =>
    obtain ⟨rfl, hm⟩ := h
    refine ⟨travelDueReserved_time due, rfl, ?_, by simp [Due.base]⟩
    rcases hm with ⟨rfl, rfl⟩ | ⟨rfl, rfl, rfl⟩
    · refine ⟨false, rfl, if_pos ?_⟩
      unfold tickInWindow Config.tickWindow
      rw [Bool.or_eq_true, decide_eq_true_eq, decide_eq_true_eq]
      exact .inr hr
    · exact ⟨true, rfl, by simp [resolveDue, Due.base, Config.tickWindow]⟩
  | travel c =>
    obtain ⟨rfl, hs, hlt, hm⟩ := h
    refine ⟨travelDueReserved_travel hlt, rfl, ?_, fun e => hs e.2⟩
    rcases hm with ⟨rfl, rfl⟩ | ⟨rfl, rfl, rfl⟩
    · refine ⟨false, rfl, if_pos ?_⟩
      unfold countInWindow Config.countWindow
      rw [Bool.or_eq_true, decide_eq_true_eq, decide_eq_true_eq]
      exact .inr hr
    · exact ⟨true, rfl, by simp [resolveDue, Due.base, Config.countWindow]⟩

theorem Resolves.taken {s : State} {base mode : Byte} {due : BitVec 48} {d : Due} (h : Resolves s base mode due d)
    (tag : Tag) : Resolves (taking tag s) base mode due d where
  base := h.base
  mode := by
    obtain ⟨relative, hm, hd⟩ := h.mode
    refine ⟨relative, hm, ?_⟩
    unfold resolveDue at *
    rwa [taking_now, taking_timebase]
  source := by
    rw [taking_timebase]
    exact h.source
  reserved := h.reserved

theorem intervalOk_fits {d : Due} {width : BitVec 24} {repeats : Byte} {interval : BitVec 32}
    (h : intervalFits d width repeats interval) : intervalOk d.base width repeats interval = true := by
  unfold intervalOk
  rcases h with ⟨h0, h1⟩ | ⟨h0, h1⟩
  · rw [if_pos h0]
    simpa using h1
  · rw [if_neg h0]
    cases d with
    | time t => exact decide_eq_true h1
    | travel c =>
      obtain ⟨h1, h2⟩ := h1
      exact Bool.and_eq_true_iff.mpr ⟨decide_eq_true h1, decide_eq_true h2⟩

/-- The record that a pulse of good values leaves in its slot (R18). -/
def pulseAction (tag : Tag) (l : OutLine) (d : Due) (width : BitVec 24) (repeats : Byte) (interval : BitVec 32)
    (wanted : Bool) : Action :=
  ⟨.host tag, l, d, width, repeats.toNat, if repeats = 0 then none else some interval, 0, 0, wanted, false⟩

theorem scheduledAction_good {s : State} {tag : Tag} {l : OutLine} {base mode done : Byte} {due : BitVec 48}
    {width : BitVec 24} {repeats : Byte} {interval : BitVec 32} {wanted : Bool} {d : Due}
    (hr : Resolves s base mode due d) (hw : width ≠ 0) (hi : intervalFits d width repeats interval)
    (hd : yesNoOf done = some wanted) :
    scheduledAction tag l base mode due width repeats interval done s =
      some (pulseAction tag l d width repeats interval wanted) := by
  obtain ⟨relative, hm, hres⟩ := hr.mode
  unfold scheduledAction
  rw [hr.base, hm, hd]
  dsimp only
  rw [if_pos ⟨hw, intervalOk_fits hi, hr.source⟩, hres]
  rfl

/-- Values that SCHEDULE_PULSE refuses (R17 check 3). -/
def State.pulseBad (s : State) (base mode done : Byte) (due : BitVec 48) (width : BitVec 24) (repeats : Byte)
    (interval : BitVec 32) : Prop :=
  1 < base.toNat ∨ 1 < mode.toNat ∨ 1 < done.toNat ∨ width = 0 ∨ intervalMisfits base width repeats interval
    ∨ (base = 1 ∧ s.timebase.source = none) ∨ s.outOfRange base mode due

theorem scheduledAction_bad {s : State} {tag : Tag} {l : OutLine} {base mode done : Byte} {due : BitVec 48}
    {width : BitVec 24} {repeats : Byte} {interval : BitVec 32}
    (h : s.pulseBad base mode done due width repeats interval) :
    scheduledAction tag l base mode due width repeats interval done s = none := by
  unfold scheduledAction
  split
  · rename_i b relative wanted hb hm hd
    rcases h with h | h | h | h | h | ⟨rfl, h⟩ | h
    · rw [baseOf_bad h] at hb
      cases hb
    · rw [yesNoOf_bad h] at hm
      cases hm
    · rw [yesNoOf_bad h] at hd
      cases hd
    · exact if_neg fun e => e.1 h
    · exact if_neg fun e => by simp [intervalOk_misfits hb h] at e
    · cases hb
      exact if_neg fun e => e.2.2 ⟨rfl, h⟩
    · rw [resolveDue_outOfRange hb hm h]
      exact ite_self _
  · rfl

/-! ## The checks in order (R17) -/

section
variable {tag : Tag} {line base mode done : Byte} {due : BitVec 48} {width : BitVec 24} {repeats : Byte}
  {interval : BitVec 32} {t : State}

theorem takeSchedulePulse_barred (h : t.scheduleBarred = true) :
    takeSchedulePulse tag line base mode due width repeats interval done t = (t, reply .state) := by
  unfold takeSchedulePulse
  rw [if_pos h]

theorem takeSchedulePulse_badLine (h : t.scheduleBarred = false) (hl : outLineOf line = none) :
    takeSchedulePulse tag line base mode due width repeats interval done t = (t, reply .badValue) := by
  unfold takeSchedulePulse
  rw [if_neg (by simp [h]), hl]

theorem takeSchedulePulse_reserved {l : OutLine} (h : t.scheduleBarred = false) (hl : outLineOf line = some l)
    (hr : travelDueReserved base due = true) :
    takeSchedulePulse tag line base mode due width repeats interval done t = (t, reply .badValue) := by
  unfold takeSchedulePulse
  rw [if_neg (by simp [h]), hl]
  exact if_pos hr

theorem takeSchedulePulse_mode {l : OutLine} (h : t.scheduleBarred = false) (hl : outLineOf line = some l)
    (hr : travelDueReserved base due = false) (hm : (t.output l).mode ≠ .sequenced) :
    takeSchedulePulse tag line base mode due width repeats interval done t = (t, reply .lineMode) := by
  unfold takeSchedulePulse
  rw [if_neg (by simp [h]), hl]
  dsimp only
  rw [if_neg (by simp [hr]), if_pos hm]

theorem takeSchedulePulse_badAction {l : OutLine} (h : t.scheduleBarred = false) (hl : outLineOf line = some l)
    (hr : travelDueReserved base due = false) (hm : (t.output l).mode = .sequenced)
    (ha : scheduledAction tag l base mode due width repeats interval done t = none) :
    takeSchedulePulse tag line base mode due width repeats interval done t = (t, reply .badValue) := by
  unfold takeSchedulePulse
  rw [if_neg (by simp [h]), hl]
  dsimp only
  rw [if_neg (by simp [hr]), if_neg (by simp [hm]), ha]

theorem takeSchedulePulse_noSlot {l : OutLine} {a : Action} (h : t.scheduleBarred = false) (hl : outLineOf line = some l)
    (hr : travelDueReserved base due = false) (hm : (t.output l).mode = .sequenced)
    (ha : scheduledAction tag l base mode due width repeats interval done t = some a) (hf : t.freeSlots = []) :
    takeSchedulePulse tag line base mode due width repeats interval done t =
      (countFault .poolExhausted (some (.hostOrigin tag)) t, reply .noSlot) := by
  unfold takeSchedulePulse
  rw [if_neg (by simp [h]), hl]
  dsimp only
  rw [if_neg (by simp [hr]), if_neg (by simp [hm]), ha, hf]

theorem takeSchedulePulse_allocates {l : OutLine} {a : Action} {i : SlotNo} {rest : List SlotNo}
    (h : t.scheduleBarred = false) (hl : outLineOf line = some l)
    (hr : travelDueReserved base due = false) (hm : (t.output l).mode = .sequenced)
    (ha : scheduledAction tag l base mode due width repeats interval done t = some a) (hf : t.freeSlots = i :: rest) :
    takeSchedulePulse tag line base mode due width repeats interval done t =
      (joinAction ((allocate i a t).handleOf i) (allocate i a t),
        replyOk (((allocate i a t).handleOf i).bytes ++ a.due.bytes)) := by
  unfold takeSchedulePulse
  rw [if_neg (by simp [h]), hl]
  dsimp only
  rw [if_neg (by simp [hr]), if_neg (by simp [hm]), ha, hf]

end

theorem scheduleBarred_iff (s : State) : s.scheduleBarred = true ↔
    s.run.state = .faulted ∨ s.run.state = .draining ∨ s.syncArmed = true := by
  unfold State.scheduleBarred
  simp [or_assoc]

theorem taking_scheduleBarred (tag : Tag) (s : State) : (taking tag s).scheduleBarred = s.scheduleBarred := by
  unfold State.scheduleBarred
  rw [taking_run, restartSilence_state, taking_syncArmed]

theorem not_scheduleBarred {s : State} (tag : Tag) (h : s.run.state = .standby ∨ s.run.state = .armed)
    (hs : s.syncArmed = false) : (taking tag s).scheduleBarred = false := by
  rw [taking_scheduleBarred]
  unfold State.scheduleBarred
  rcases h with h | h <;> simp [h, hs]

theorem taking_freeSlots (tag : Tag) (s : State) : (taking tag s).freeSlots = s.freeSlots := by
  unfold State.freeSlots
  simp only [taking_slot]

/-- A due point resolved ahead is ahead. -/
theorem dueAhead_of_resolves {s : State} {base mode : Byte} {due : BitVec 48} {d : Due}
    (h : s.resolvesAhead base mode due d) : s.dueAhead d = true := by
  cases d with
  | time t =>
    obtain ⟨-, ⟨-, -, h⟩ | ⟨-, h0, h1, rfl⟩⟩ := h
    · exact h
    · unfold State.dueAhead tickAhead Config.tickWindow
      dsimp only
      rw [show s.now + due - s.now = due by simp, Bool.and_eq_true]
      exact ⟨decide_eq_true h0, decide_eq_true h1⟩
  | travel c =>
    obtain ⟨-, -, ⟨-, -, -, h⟩ | ⟨-, h0, h1, rfl⟩⟩ := h
    · exact h
    · have hw : (due.setWidth 32).toNat = due.toNat := by
        rw [BitVec.toNat_setWidth]
        omega
      unfold State.dueAhead countAhead Config.countWindow
      dsimp only
      rw [show s.timebase.travelCount + due.setWidth 32 - s.timebase.travelCount = due.setWidth 32 by simp, hw,
        Bool.and_eq_true]
      exact ⟨decide_eq_true h0, decide_eq_true h1⟩

end Sys2Proof.Machine

open Sys2Proof Sys2Proof.Machine in
/-- Settles O32, check by check, the state at the taking agreeing with `s` in all that the checks read. -/
theorem schedulePulseRefused : Obligations.SchedulePulseRefused := by
  unfold Obligations.SchedulePulseRefused
  intro s tag line base mode due width repeats interval done h
  dsimp only
  refine ⟨fun hb => answers_unchanged (r := reply .state) rfl rfl h (takeSchedulePulse_barred ?_), fun hst hsy =>
    ⟨fun hv => answers_unchanged (r := reply .badValue) rfl rfl h ?_, fun l hl hres => ⟨fun hm => ?_, fun hm hv => ?_,
      fun d hm hw hi hd hdone hfull => ?_⟩⟩⟩
  · rw [taking_scheduleBarred, scheduleBarred_iff]
    exact hb
  · have hbar := not_scheduleBarred tag hst hsy
    rcases Nat.lt_or_ge 11 line.toNat with hline | hline
    · exact takeSchedulePulse_badLine hbar (outLineOf_none hline)
    · refine takeSchedulePulse_reserved hbar (l := ⟨line.toNat, by omega⟩) (outLineOf_some rfl) ?_
      exact (travelDueReserved_iff _ _).mpr (hv.resolve_left (by omega))
  all_goals
    have hbar := not_scheduleBarred tag hst hsy
    have hlo := outLineOf_some hl
    have hnr : travelDueReserved base due = false := by
      rw [← Bool.not_eq_true, travelDueReserved_iff]
      exact hres
  · refine answers_unchanged (r := reply .lineMode) rfl rfl h (takeSchedulePulse_mode hbar hlo hnr ?_)
    rwa [taking_output]
  all_goals have hmt : ((taking tag s).output l).mode = .sequenced := by rwa [taking_output]
  · refine answers_unchanged (r := reply .badValue) rfl rfl h 
      (takeSchedulePulse_badAction hbar hlo hnr hmt (scheduledAction_bad ?_))
    have hbad : (taking tag s).pulseBad base mode done due width repeats interval := by
      unfold State.pulseBad State.outOfRange at *
      rwa [taking_now, taking_timebase]
    exact hbad
  · have hr : Resolves s base mode due d := hd.elim resolves_of_ahead resolves_of_reached
    obtain ⟨wanted, hwant⟩ : ∃ wanted, yesNoOf done = some wanted := by
      rcases hdone with rfl | rfl
      · exact ⟨false, rfl⟩
      · exact ⟨true, rfl⟩
    refine answers_linkFree (r := reply .noSlot) (countFault_linkFree _ _) rfl rfl h
      (takeSchedulePulse_noSlot hbar hlo hnr hmt (scheduledAction_good (hr.taken tag) hw hi hwant) ?_)
    rw [taking_freeSlots, freeSlots_none hfull]

open Sys2Proof Sys2Proof.Machine in
/-- Settles O31: the checks passed, the lowest FREE slot is allocated and its action joins. -/
theorem schedulePulseFiled : Obligations.SchedulePulseFiled := by
  unfold Obligations.SchedulePulseFiled
  intro s tag l base mode due width repeats interval done wanted d i h hst hsy hm hw hi hdone hfree hlow
  obtain ⟨rest, hrest⟩ := freeSlots_first hfree hlow
  have hwant : yesNoOf done = some wanted := by
    rcases hdone with ⟨rfl, rfl⟩ | ⟨rfl, rfl⟩ <;> rfl
  have hline : (BitVec.ofNat 8 l.val).toNat = l.val := by
    have := l.isLt
    simp only [BitVec.toNat_ofNat]
    omega
  have hmt : ((taking tag s).output l).mode = .sequenced := by rwa [taking_output]
  have key (hr : Resolves s base mode due d) :
      Answers (.schedulePulse tag (BitVec.ofNat 8 l.val) base mode due width repeats interval done) tag (some 0x20)
        ([0x20, 0x00, BitVec.ofNat 8 i.val, (s.slot i).gen + 1] ++ d.bytes) .nothing s
        (joinAction ⟨i, (s.slot i).gen + 1⟩ ((restartSilence s).putSlot i
          ⟨(s.slot i).gen + 1, .waiting (pulseAction tag l d width repeats interval wanted)⟩)) := by
    have hf : LinkFree (fun u => joinAction ⟨i, (s.slot i).gen + 1⟩ (u.putSlot i
        ⟨(s.slot i).gen + 1, .waiting (pulseAction tag l d width repeats interval wanted)⟩)) :=
      fun k u => joinAction_linkFree _ k (u.putSlot _ _)
    refine answers_linkFree (r := replyOk ((⟨i, (s.slot i).gen + 1⟩ : Handle).bytes ++ d.bytes)) hf rfl rfl h
      ((takeSchedulePulse_allocates (not_scheduleBarred tag hst hsy) (outLineOf_some hline) hr.reserved hmt
        (scheduledAction_good (hr.taken tag) hw hi hwant) ((taking_freeSlots tag s).trans hrest)).trans ?_)
    rw [allocate_handleOf, taking_slot]
    unfold allocate
    rw [taking_slot]
    rfl
  dsimp only
  refine ⟨fun hd ha => ?_, fun hd => ?_⟩
  · have ht := key (resolves_of_ahead hd)
    have hau : ((restartSilence s).putSlot i ⟨(s.slot i).gen + 1,
        .waiting (pulseAction tag l d width repeats interval wanted)⟩).timeListAhead := by
      rw [restartSilence_eq]
      exact ha
    have hdu : ((restartSilence s).putSlot i ⟨(s.slot i).gen + 1,
        .waiting (pulseAction tag l d width repeats interval wanted)⟩).dueAhead d = true := by
      rw [restartSilence_eq]
      exact dueAhead_of_resolves hd
    rw [joinAction_waits (State.waitingAction_eq.mpr (State.slot_putSlot_self _ _ _)) hau hdu] at ht
    unfold State.putSlot at ht
    rw [restartSilence_sched] at ht
    cases d <;> exact ht
  · have ht := key (resolves_of_reached hd)
    cases d <;> exact ht

end

