-- ==== Sys2Proof/Proofs/Told.lean ====
section
/-! PROOFS. Many actions freed together: what each leaves of the pool and the lists, and the reports of them all (R13, R21,
R25). -/

namespace Sys2Proof.Machine

/-! ## Reports that enter no FAULTED -/

/-- No overflow of a report brings the part into FAULTED: it is neither ARMED nor DRAINING, or REPORT_OVERFLOW is not
fatal (R174). -/
def State.calm (s : State) : Prop := s.run.state.sequencing = false ∨ s.isFatal .reportOverflow = false

/-- From `s` to `t` reports were created, and REPORT_OVERFLOW may have been counted. -/
structure Apart (s t : State) : Prop where
  notes : OnlyNotes s t
  fatal : t.faults.fatal = s.faults.fatal
  report : t.faults.report = s.faults.report
  entries : ∀ k, k ≠ .reportOverflow → t.faultEntry k = s.faultEntry k

theorem Apart.refl (s : State) : Apart s s := ⟨rfl, rfl, rfl, fun _ _ => rfl⟩

theorem Apart.trans {s t u : State} (h : Apart s t) (k : Apart t u) : Apart s u :=
  ⟨OnlyNotes.trans h.notes k.notes, k.fatal.trans h.fatal, k.report.trans h.report,
    fun x hx => (k.entries x hx).trans (h.entries x hx)⟩

theorem Apart.calm {s t : State} (h : Apart s t) (hs : s.calm) : t.calm := by
  unfold State.calm State.isFatal at *
  rwa [h.notes.run, h.fatal]

theorem recordFault_apart (d : Option FaultDetail) (s : State) : Apart s (recordFault .reportOverflow d s) :=
  ⟨rfl, rfl, rfl, fun k hk => by rw [faultEntry_recordFault, if_neg hk]⟩

theorem countWith_apart {c : ReportBody → State → State} (hc : ∀ b {t : State}, t.calm → Apart t (c b t)) (q : Bool)
    (d : Option FaultDetail) {s : State} (hs : s.calm) :
    Apart s (countWith c fatalEntry q .reportOverflow d s) := by
  have h1 := recordFault_apart d s
  have quiet {u : State} (h : Apart s u) :
      (if u.isFatal .reportOverflow ∧ u.run.state.sequencing then fatalEntry .reportOverflow u else u) = u := by
    refine if_neg fun hf => ?_
    rcases h.calm hs with hq | hq
    · rw [hq] at hf
      exact absurd hf.2 (by simp)
    · rw [hq] at hf
      exact absurd hf.1 (by simp)
  unfold countWith
  dsimp only
  split
  · have h2 := h1.trans (hc (.fault .reportOverflow 1 d) (h1.calm hs))
    rw [quiet h2]
    exact h2
  · rw [quiet h1]
    exact h1

theorem createWith_apart {f : ReportKind → Bool → State → State}
    (hf : ∀ k q {t : State}, t.calm → Apart t (f k q t)) (b : ReportBody) {s : State} (hs : s.calm) :
    Apart s (createWith f b s) := by
  have filed (u : ReportUnit) : Apart s (s.withReports u) := ⟨rfl, rfl, rfl, fun _ _ => rfl⟩
  unfold createWith
  split
  · split
    · exact filed _
    · exact (filed _).trans (hf _ _ hs)
  · exact .refl s

/-- A report created where no overflow can enter FAULTED (R157, R173). -/
theorem createReport_apart (b : ReportBody) {s : State} (hs : s.calm) : Apart s (createReport b s) :=
  createWith_apart (fun _ _ _ h => countWith_apart (fun b _ h =>
    createWith_apart (fun _ _ _ h => countWith_apart (c := fun _ t => t) (fun _ t _ => .refl t) _ _ h) b h) _ _ h) b hs

/-! ## The ACTION_DONE reports of actions freed one after another -/

theorem dones_append (s : State) (e : Ended) (xs ys : List Handle) (u : ReportUnit) :
    ReportUnit.dones s e (xs ++ ys) u = ReportUnit.dones s e ys (ReportUnit.dones s e xs u) :=
  List.foldl_append

theorem dones_congr {s t : State} {e : Ended} {hs : List Handle} (h : ∀ x ∈ hs, t.actionOf x = s.actionOf x)
    (u : ReportUnit) : ReportUnit.dones t e hs u = ReportUnit.dones s e hs u := by
  induction hs generalizing u with
  | nil => rfl
  | cons x xs ih =>
    unfold ReportUnit.dones
    simp only [List.foldl_cons, h x List.mem_cons_self]
    exact ih (fun y hy => h y (List.mem_cons_of_mem _ hy)) _

theorem wanting_congr {s t : State} {hs : List Handle} (h : ∀ x ∈ hs, t.actionOf x = s.actionOf x) :
    t.wanting hs = s.wanting hs :=
  List.filter_congr fun x hx => by rw [h x hx]

theorem wanting_append (s : State) (xs ys : List Handle) : s.wanting (xs ++ ys) = s.wanting xs ++ s.wanting ys :=
  List.filter_append _ _

theorem dones_single {s : State} {h : Handle} {a : Action} (e : Ended) (ha : s.actionOf h = some a) (u : ReportUnit) :
    ReportUnit.dones s e [h] u = u.doneFiled h a e := by
  unfold ReportUnit.dones ReportUnit.doneFiled
  simp only [List.foldl_cons, List.foldl_nil, ha]

/-- The reports of the actions that want one take as many places of the outbox. -/
theorem dones_room (s0 : State) (e : Ended) (hs : List Handle) : ∀ {s : State} {n : Nat},
    s.hasRoom ((s0.wanting hs).length + n) → (s.withReports (s.reports.dones s0 e hs)).hasRoom n := by
  induction hs with
  | nil =>
    intro s n h
    simp only [State.wanting, List.filter_nil, List.length_nil, Nat.zero_add] at h
    exact h
  | cons x xs ih =>
    intro s n h
    have hcons : s0.wanting (x :: xs) = s0.wanting [x] ++ s0.wanting xs := wanting_append s0 [x] xs
    rw [hcons, List.length_append] at h
    cases ha : s0.actionOf x with
    | none =>
      have h' : s.hasRoom ((s0.wanting xs).length + n) := hasRoom_mono h (by omega)
      have he : s.reports.dones s0 e (x :: xs) = s.reports.dones s0 e xs := by
        rw [show x :: xs = [x] ++ xs from rfl, dones_append]
        simp [ReportUnit.dones, ha]
      rw [he]
      exact ih h'
    | some a =>
      have he : s.reports.dones s0 e (x :: xs) = (s.reports.doneFiled x a e).dones s0 e xs := by
        rw [show x :: xs = [x] ++ xs from rfl, dones_append, dones_single e ha]
      have h' : (s.withReports (s.reports.doneFiled x a e)).hasRoom ((s0.wanting xs).length + n) := by
        unfold ReportUnit.doneFiled
        cases hd : a.reportDone with
        | false =>
          rw [if_neg (by simp)]
          exact hasRoom_mono h (by omega)
        | true =>
          rw [if_pos rfl]
          have hw : s0.wanting [x] = [x] := by simp [State.wanting, ha, hd]
          rw [hw] at h
          exact hasRoom_filing _ (hasRoom_mono h (by simp))
      rw [he]
      exact ih h'

/-- From `s` to `t` the actions `freed` were freed: beyond the schedule and the outputs only their reports were created, and
with them REPORT_OVERFLOW may have been counted. -/
structure Told (e : Ended) (s : State) (freed : List Handle) (t : State) : Prop where
  run : t.run = s.run
  fatal : t.faults.fatal = s.faults.fatal
  report : t.faults.report = s.faults.report
  entries : ∀ k, k ≠ .reportOverflow → t.faultEntry k = s.faultEntry k
  room : s.hasRoom (s.wanting freed).length → t.reports = s.reports.dones s e freed ∧ t.faults = s.faults

theorem Told.silent {s t : State} (e : Ended) (hr : t.run = s.run) (hp : t.reports = s.reports)
    (hf : t.faults = s.faults) : Told e s [] t :=
  ⟨hr, hf ▸ rfl, hf ▸ rfl, fun k _ => by unfold State.faultEntry; rw [hf], fun _ => ⟨hp, hf⟩⟩

theorem Told.calm {e : Ended} {s t : State} {freed : List Handle} (h : Told e s freed t) (hs : s.calm) : t.calm := by
  unfold State.calm State.isFatal at *
  rwa [h.run, h.fatal]

theorem Told.append {e : Ended} {s t u : State} {xs ys : List Handle} (h : Told e s xs t) (k : Told e t ys u)
    (ha : ∀ y ∈ ys, t.actionOf y = s.actionOf y) : Told e s (xs ++ ys) u := by
  refine ⟨k.run.trans h.run, k.fatal.trans h.fatal, k.report.trans h.report,
    fun x hx => (k.entries x hx).trans (h.entries x hx), fun hroom => ?_⟩
  rw [wanting_append, List.length_append] at hroom
  obtain ⟨h1, h2⟩ := h.room (hasRoom_mono hroom (Nat.le_add_right _ _))
  have ht : t.hasRoom (t.wanting ys).length := by
    have := dones_room s e xs (s := s) (n := (s.wanting ys).length) hroom
    rw [wanting_congr ha]
    unfold State.hasRoom at *
    rwa [h1]
  obtain ⟨k1, k2⟩ := k.room ht
  exact ⟨by rw [k1, h1, dones_append, dones_congr ha], k2.trans h2⟩

/-! ## One action freed, the notice of an empty pool apart -/

/-- A slot in use is freed and its report created, without the notice of an empty pool (R13). -/
def quietly (e : Ended) (h : Handle) (s : State) : State :=
  match s.actionOf h with
  | none => s
  | some a => if a.reportDone then createReport (.actionDone h a.origin a.fired a.skipped e) (vacate h s) else vacate h s

theorem freeSlot_quietly {s : State} {h : Handle} (e : Ended) (ha : (s.actionOf h).isSome) :
    freeSlot h e s = poolNotice (quietly e h s) := by
  obtain ⟨a, ha⟩ := Option.isSome_iff_exists.mp ha
  rw [freeSlot_eq e ha]
  unfold quietly
  rw [ha]

theorem quietly_notes {s : State} {h : Handle} {a : Action} (e : Ended) (hs : s.calm) (ha : s.actionOf h = some a) :
    Apart (s.withSched (s.sched.without h)) (quietly e h s) := by
  obtain ⟨-, -, hg, -⟩ := actionOf_some ha
  unfold quietly
  rw [ha, ← vacate_of_gen hg]
  dsimp only
  split
  · exact createReport_apart _ (show (vacate h s).calm from hs)
  · exact .refl _

theorem quietly_told {s : State} {h : Handle} {a : Action} (e : Ended) (hs : s.calm) (ha : s.actionOf h = some a) :
    Told e s [h] (quietly e h s) := by
  have n := quietly_notes e hs ha
  refine ⟨n.notes.run, n.fatal, n.report, n.entries, fun hroom => ?_⟩
  obtain ⟨-, -, hg, -⟩ := actionOf_some ha
  rw [dones_single e ha]
  unfold quietly ReportUnit.doneFiled
  rw [ha]
  dsimp only
  rw [vacate_of_gen hg]
  split
  · rename_i hd
    have hw : s.wanting [h] = [h] := by simp [State.wanting, ha, hd]
    rw [hw] at hroom
    have hv : (s.withSched (s.sched.without h)).hasRoom 1 := hroom
    rw [createReport_room _ hv]
    exact ⟨rfl, rfl⟩
  · exact ⟨rfl, rfl⟩

/-! ## Many actions treated -/

/-- From `s` to `t` the actions `hs` were treated: those that `frees` names were freed, their entries gone, and the slot of
each is as `leaves` says. -/
structure Treated (e : Ended) (frees : Handle → Bool) (leaves : Slot → Slot) (hs : List Handle) (s t : State) : Prop where
  told : Told e s (hs.filter frees) t
  slots : ∀ i, t.slot i = if i ∈ hs.map Handle.slot then leaves (s.slot i) else s.slot i
  sched : t.sched = { s.sched with
    slots := t.sched.slots
    timeList := s.sched.timeList.filter (fun y => !(hs.filter frees).contains y.handle)
    travelList := s.sched.travelList.filter (fun y => !(hs.filter frees).contains y.handle) }

theorem Treated.nil (e : Ended) (frees : Handle → Bool) (leaves : Slot → Slot) (s : State) :
    Treated e frees leaves [] s s :=
  ⟨.silent e rfl rfl rfl, by simp, by simp⟩

theorem Treated.cons {e : Ended} {frees : Handle → Bool} {leaves : Slot → Slot} {h : Handle} {hs : List Handle}
    {s t u : State} (x : Treated e frees leaves [h] s t) (y : Treated e frees leaves hs t u)
    (hd : h.slot ∉ hs.map Handle.slot) : Treated e frees leaves (h :: hs) s u := by
  have hsplit : (h :: hs).filter frees = [h].filter frees ++ hs.filter frees := List.filter_append [h] hs
  have hkeep (z : Handle) (hz : z ∈ hs.filter frees) : t.actionOf z = s.actionOf z := by
    refine State.actionOf_congr z ?_
    rw [x.slots, if_neg]
    intro e
    rw [List.map_singleton, List.mem_singleton] at e
    exact hd (e ▸ List.mem_map_of_mem (List.mem_of_mem_filter hz))
  refine ⟨?_, fun i => ?_, ?_⟩
  · rw [hsplit]
    exact x.told.append y.told hkeep
  · rw [y.slots, x.slots]
    simp only [List.map_cons, List.map_nil, List.mem_cons, List.not_mem_nil, or_false]
    by_cases hi : i = h.slot
    · subst hi
      rw [if_neg hd, if_pos rfl, if_pos (.inl rfl)]
    · simp only [hi, false_or, if_false]
  · have htime := congrArg Scheduler.timeList x.sched
    have htravel := congrArg Scheduler.travelList x.sched
    rw [y.sched, hsplit]
    conv_lhs => rw [x.sched]
    dsimp only at htime htravel ⊢
    rw [List.filter_filter, List.filter_filter]
    simp only [List.contains_eq_mem, List.mem_append, Bool.decide_or, Bool.not_or, Bool.and_comm]

/-- Actions of slots of their own that are treated one after another. -/
theorem treated_foldl {e : Ended} {frees : Handle → Bool} {leaves : Slot → Slot} {f : Handle → State → State} {P : State → Prop}
    (hstep : ∀ {h : Handle} {s t : State}, P s → s.calm → (t.actionOf h).isSome → t.slot h.slot = s.slot h.slot → t.calm →
      Treated e frees leaves [h] t (f h t)) {s0 : State} (hp : P s0) (hc0 : s0.calm) : ∀ {hs : List Handle} {s : State},
    s.calm → (∀ h ∈ hs, (s.actionOf h).isSome ∧ s.slot h.slot = s0.slot h.slot) → (hs.map Handle.slot).Nodup →
    Treated e frees leaves hs s (hs.foldl (fun u h => f h u) s)
  | [], s, _, _, _ => .nil _ _ _ s
  | h :: hs, s, hc, ha, hn => by
    rw [List.map_cons, List.nodup_cons] at hn
    obtain ⟨hd, hn⟩ := hn
    obtain ⟨h1, h2⟩ := ha h List.mem_cons_self
    have hx := hstep hp hc0 h1 h2 hc
    refine hx.cons (treated_foldl hstep hp hc0 (hx.told.calm hc) (fun z hz => ?_) hn) hd
    obtain ⟨hz1, hz2⟩ := ha z (List.mem_cons_of_mem _ hz)
    have hkeep : (f h s).slot z.slot = s.slot z.slot := by
      rw [hx.slots, if_neg]
      intro e
      rw [List.map_singleton, List.mem_singleton] at e
      exact hd (e ▸ List.mem_map_of_mem hz)
    exact ⟨State.actionOf_congr z hkeep ▸ hz1, hkeep.trans hz2⟩

end Sys2Proof.Machine
end

