-- ==== Sys2Proof/Proofs/Flush.lean ====
section
/-! PROOFS. DISARM FLUSH: every action freed in the order of the lists, then the change of run state (R25, R36, R120). -/

namespace Sys2Proof.Machine

/-! ## A request whose owner works on the schedule -/

theorem onlyWork_taken {s t v : State} {tag : Tag} (h : OnlyWork (taking tag s) v) (k : SameButLink v t) :
    OnlyWork s { t with link := s.link } := by
  unfold OnlyWork SameButLink at *
  rw [k, h, taking_eq, restartSilence_eq]
  rfl

/-- A request command whose owner block works on schedule, outputs, run control, reports and faults alone completes. -/
theorem completes_command {i : Instr} {tag : Tag} {p : List Byte} {c : Option Byte} {s v : State} {r : Reply}
    (he : encodeRequest i = some (tag, p)) (hc : p.head? = c) (h : s.admits tag c = true)
    (hv : takeCommand i (taking tag s) = (v, r)) (hw : OnlyWork (taking tag s) v) :
    ∃ t, Completes i s t ∧ Answered tag c (responsePayload c r) r.after s t ∧ SameButLink v t
      ∧ OnlyWork s { t with link := s.link } := by
  obtain ⟨t, h1, h2, h3⟩ := requestFrame_answered h hv (by rw [hw])
  exact ⟨t, completes_of fun s0 hb => by
    rw [exec_taken he, hc]
    exact h1 _ s0 (by rw [← hb, frameLength_request he]), h2, h3, onlyWork_taken hw h3⟩

theorem SameButLink.run {s t : State} (h : SameButLink s t) : t.run = s.run := by rw [h]
theorem SameButLink.sched {s t : State} (h : SameButLink s t) : t.sched = s.sched := by rw [h]
theorem SameButLink.outputs {s t : State} (h : SameButLink s t) : t.outputs = s.outputs := by rw [h]
theorem SameButLink.reports {s t : State} (h : SameButLink s t) : t.reports = s.reports := by rw [h]
theorem SameButLink.faults {s t : State} (h : SameButLink s t) : t.faults = s.faults := by rw [h]

theorem SameButLink.output {s t : State} (h : SameButLink s t) (l : OutLine) : t.output l = s.output l := by
  unfold State.output
  rw [h.outputs]

theorem SameButLink.faultEntry {s t : State} (h : SameButLink s t) (k : FaultKind) :
    t.faultEntry k = s.faultEntry k := by
  unfold State.faultEntry
  rw [h.faults]

/-! ## One action freed among many -/

/-- What is freed is treated: its slot FREE, its gen kept. -/
theorem treated_freed {e : Ended} {frees : Handle → Bool} {leaves : Slot → Slot} {h : Handle} {t : State}
    (hf : frees h = true) (hl : leaves (t.slot h.slot) = ⟨h.gen, .free⟩) (hc : t.calm) (ha : (t.actionOf h).isSome) :
    Treated e frees leaves [h] t (quietly e h t) := by
  obtain ⟨a, ha⟩ := Option.isSome_iff_exists.mp ha
  have n := quietly_notes e hc ha
  have hfilter : [h].filter frees = [h] := by simp [hf]
  refine ⟨by rw [hfilter]; exact quietly_told e hc ha, fun i => ?_, ?_⟩
  · rw [n.notes.slot, List.map_singleton]
    simp only [List.mem_singleton]
    refine (getAt_setAt _ _ _ _).trans ?_
    split
    · rename_i hi
      rw [hi, hl]
    · rfl
  · rw [hfilter, n.notes.sched]
    unfold Scheduler.without
    simp only [State.withSched_sched, List.contains_eq_mem, List.mem_singleton, decide_not]

/-! ## The flush -/

/-- In STANDBY freeing gives no notice of an empty pool (R119). -/
theorem flushHandles_quietly (hs : List Handle) : ∀ {s : State}, s.run.state = .standby →
    flushHandles hs s = hs.foldl (fun u h => quietly .flushed h u) s := by
  induction hs with
  | nil => exact fun _ => rfl
  | cons h hs ih =>
    intro s hst
    have hcalm : s.calm := .inl (by rw [hst]; rfl)
    unfold flushHandles
    rw [List.foldl_cons]
    cases ha : s.actionOf h with
    | none =>
      have hq : quietly .flushed h s = s := by
        unfold quietly
        rw [ha]
      rw [freeSlot_of_none _ ha, hq]
      exact ih hst
    | some a =>
      have hrun : (quietly .flushed h s).run.state = .standby := by rw [(quietly_told .flushed hcalm ha).run, hst]
      rw [freeSlot_quietly _ (by rw [ha]; rfl), poolNotice_quiet (.inl (by rw [hrun]; simp))]
      exact ih hrun

/-- The lists agreeing with the pool, what is freed together is what the lists hold, in their order (R25). -/
theorem freeingOrder_of_agree {s : State} (h : ListsAgree s) : s.freeingOrder = s.listedHandles := by
  unfold State.freeingOrder
  dsimp only
  refine (congrArg _ (List.filter_eq_nil_iff.mpr ?_)).trans (List.append_nil _)
  intro x hx
  obtain ⟨i, hi, rfl⟩ := List.mem_map.mp hx
  have hm : s.handleOf i ∈ s.listedHandles := h.listed i (by simpa using (List.mem_filter.mp hi).2)
  simpa using hm

/-- The listed actions are in use, each in a slot of its own. -/
theorem listed_slots {s : State} (h : ListsAgree s) :
    (∀ x ∈ s.listedHandles, (s.actionOf x).isSome) ∧ (s.listedHandles.map Handle.slot).Nodup := by
  have ag := agreeBut_nil.mpr h
  refine ⟨fun x hx => ag.live hx, ag.once.map_on fun x hx y hy e => live_unique (ag.live hy) (ag.live hx) e⟩

/-- A slot in use is that of a listed action. -/
theorem mem_listed_slots {s : State} (h : ListsAgree s) (i : SlotNo) :
    i ∈ s.listedHandles.map Handle.slot ↔ (s.slot i).isFree = false := by
  constructor
  · intro hi
    obtain ⟨x, hx, rfl⟩ := List.mem_map.mp hi
    exact (actionOf_isSome.mp ((listed_slots h).1 x hx)).2
  · intro hi
    exact List.mem_map.mpr ⟨s.handleOf i, h.listed i hi, rfl⟩

/-- The flush in STANDBY: every slot FREE with its gen kept, both lists empty, and the reports told (R25). -/
theorem flushHandles_all {s : State} (h : ListsAgree s) (hst : s.run.state = .standby) :
    Told .flushed s s.listedHandles (flushHandles s.freeingOrder s)
      ∧ (flushHandles s.freeingOrder s).sched = { s.sched with
          slots := tabulate (fun i => ⟨(s.slot i).gen, .free⟩), timeList := [], travelList := [] }
      ∧ (flushHandles s.freeingOrder s).outputs = s.outputs := by
  have hcalm : s.calm := .inl (by rw [hst]; rfl)
  obtain ⟨hlive, hnd⟩ := listed_slots h
  have hout (hs : List Handle) : ∀ {u : State}, u.run.state = .standby → (flushHandles hs u).outputs = u.outputs := by
    induction hs with
    | nil => exact fun _ => rfl
    | cons x hs ih =>
      intro u hu
      have hc : u.calm := .inl (by rw [hu]; rfl)
      cases ha : u.actionOf x with
      | none =>
        unfold flushHandles
        rw [freeSlot_of_none _ ha]
        exact ih hu
      | some a =>
        have hq := quietly_notes .flushed hc ha
        have hrun : (quietly .flushed x u).run.state = .standby := by rw [hq.notes.run]; exact hu
        unfold flushHandles
        rw [freeSlot_quietly _ (by rw [ha]; rfl), poolNotice_quiet (.inl (by rw [hrun]; simp)), ih hrun, hq.notes.outputs]
        rfl
  have ht : Treated .flushed (fun _ => true) (fun x => ⟨x.gen, .free⟩) s.listedHandles s
      (flushHandles s.freeingOrder s) := by
    rw [freeingOrder_of_agree h, flushHandles_quietly _ hst]
    refine treated_foldl (P := fun _ => True) (fun _ _ ha _ hc => treated_freed rfl ?_ hc ha) trivial hcalm hcalm
      (fun x hx => ⟨hlive x hx, rfl⟩) hnd
    rw [(actionOf_isSome.mp ha).1]
  have hall : s.listedHandles.filter (fun _ => true) = s.listedHandles := List.filter_true _
  refine ⟨hall ▸ ht.told, ?_, hout _ hst⟩
  have hslots : (flushHandles s.freeingOrder s).sched.slots = tabulate (fun i => ⟨(s.slot i).gen, .free⟩) := by
    apply table_ext
    intro i
    rw [getAt_tabulate]
    refine (ht.slots i).trans ?_
    split
    · rfl
    · rename_i hi
      rw [mem_listed_slots h, Bool.not_eq_false] at hi
      exact slot_of_free _ hi
  rw [ht.sched, hall, hslots]
  have htime : s.sched.timeList.filter (fun y => !s.listedHandles.contains y.handle) = [] := by
    rw [List.filter_eq_nil_iff]
    intro y hy
    simp only [List.contains_eq_mem, Bool.not_eq_true', decide_eq_false_iff_not, not_not]
    exact List.mem_append_left _ (List.mem_map_of_mem hy)
  have htravel : s.sched.travelList.filter (fun y => !s.listedHandles.contains y.handle) = [] := by
    rw [List.filter_eq_nil_iff]
    intro y hy
    simp only [List.contains_eq_mem, Bool.not_eq_true', decide_eq_false_iff_not, not_not]
    exact List.mem_append_right _ (List.mem_map_of_mem hy)
  rw [htime, htravel]

theorem listsAgree_congr {s t : State} (h : ListsAgree s) (hs : t.sched = s.sched) : ListsAgree t :=
  agreeBut_nil.mp ((agreeBut_nil.mpr h).congr hs)

/-! ## What depends on the schedule alone -/

theorem actionOf_of_sched {s t : State} (h : t.sched = s.sched) (x : Handle) : t.actionOf x = s.actionOf x :=
  State.actionOf_congr x (by unfold State.slot; rw [h])

theorem listedHandles_of_sched {s t : State} (h : t.sched = s.sched) : t.listedHandles = s.listedHandles := by
  unfold State.listedHandles
  rw [h]

theorem dones_of_sched {s t : State} (h : t.sched = s.sched) (e : Ended) (hs : List Handle) (u : ReportUnit) :
    ReportUnit.dones t e hs u = ReportUnit.dones s e hs u := dones_congr (fun x _ => actionOf_of_sched h x) u

theorem wanting_of_sched {s t : State} (h : t.sched = s.sched) (hs : List Handle) : t.wanting hs = s.wanting hs :=
  wanting_congr fun x _ => actionOf_of_sched h x

theorem freeCount_of_sched {s t : State} (h : t.sched = s.sched) : t.freeCount = s.freeCount := by
  unfold State.freeCount State.freeSlots State.slot
  rw [h]

theorem flushAll_onlyWork (s : State) : OnlyWork s (flushAll s) := by
  unfold flushAll changeRunState
  refine OnlyWork.trans ?_ (createReport_onlyWork _ _)
  refine OnlyWork.trans (t := flushHandles s.freeingOrder (s.withRun { s.run with state := .standby, silence := none })) ?_ rfl
  exact OnlyWork.trans (t := s.withRun { s.run with state := .standby, silence := none }) rfl (flushHandles_onlyWork _ _)

/-- DISARM FLUSH of the state at the taking (R120). -/
theorem flushAll_all {s : State} (h : ListsAgree s) :
    (flushAll s).run = ⟨.standby, s.run.silenceLimit, none⟩
      ∧ (flushAll s).sched = { s.sched with
          slots := tabulate (fun i => ⟨(s.slot i).gen, .free⟩), timeList := [], travelList := [] }
      ∧ (∀ l, (flushAll s).output l = { s.output l with holders := [] })
      ∧ (flushAll s).faults.fatal = s.faults.fatal ∧ (flushAll s).faults.report = s.faults.report
      ∧ (∀ k, k ≠ .reportOverflow → (flushAll s).faultEntry k = s.faultEntry k)
      ∧ (s.hasRoom ((s.wanting s.listedHandles).length + 1) →
          (flushAll s).reports = (s.reports.dones s .flushed s.listedHandles).filed
            (.runState .standby .request (96 - s.freeCount))
          ∧ (flushAll s).faults = s.faults) := by
  obtain ⟨told, hsched, hout⟩ := flushHandles_all (listsAgree_congr h (t := s.withRun ⟨.standby, s.run.silenceLimit, none⟩) rfl)
    rfl
  unfold flushAll changeRunState
  dsimp only
  change Told .flushed _ s.listedHandles (flushHandles s.freeingOrder _) at told
  change (flushHandles s.freeingOrder _).sched = _ at hsched
  change (flushHandles s.freeingOrder _).outputs = s.outputs at hout
  generalize flushHandles s.freeingOrder (s.withRun ⟨.standby, s.run.silenceLimit, none⟩) = u at *
  have hcalm : ((emptyHolders u).withRun { (emptyHolders u).run with state := .standby, silence := none }).calm := .inl rfl
  have n := createReport_apart (.runState .standby .request s.inUse) hcalm
  have hu : u.run = ⟨.standby, s.run.silenceLimit, none⟩ := told.run
  refine ⟨?_, n.notes.sched.trans hsched, fun l => ?_, n.fatal.trans told.fatal, n.report.trans told.report,
    fun k hk => (n.entries k hk).trans (told.entries k hk), fun hroom => ?_⟩
  · rw [n.notes.run]
    change { u.run with state := .standby, silence := none } = _
    rw [hu]
  · rw [n.notes.output, State.output_withRun, emptyHolders_output]
    unfold State.output
    rw [hout]
  · obtain ⟨h1, h2⟩ := told.room (hasRoom_mono hroom (Nat.le_succ _))
    have hr : ((emptyHolders u).withRun { (emptyHolders u).run with state := .standby, silence := none }).hasRoom 1 := by
      have := dones_room s .flushed s.listedHandles (n := 1) hroom
      unfold State.hasRoom at *
      change u.reports.outboxCount + 1 ≤ _
      rwa [h1]
    rw [createReport_room _ hr]
    exact ⟨congrArg (fun v => ReportUnit.filed v _) h1, h2⟩

end Sys2Proof.Machine

open Sys2Proof Sys2Proof.Machine in
/-- Settles O27, through what the flush makes of the state at the taking (`flushAll_all`). -/
theorem disarmFlush : Obligations.DisarmFlush := by
  unfold Obligations.DisarmFlush
  intro s tag h
  have hst : (taking tag s).run.state = s.run.state := by rw [taking_run, restartSilence_state]
  refine ⟨fun hrun hag => ?_, fun hrun => ?_, fun hrun => ?_⟩
  · have hsch := taking_sched tag s
    have htake : takeDisarmFlush (taking tag s) = (flushAll (taking tag s),
        replyOk [runStateByte .standby, BitVec.ofNat 8 (taking tag s).inUse]) := by
      unfold takeDisarmFlush
      rw [hst]
      rcases hrun with hrun | hrun <;> rw [hrun]
    have hin : (taking tag s).inUse = 96 - s.freeCount := by
      unfold State.inUse
      rw [freeCount_of_sched hsch]
    obtain ⟨t, hcomp, hans, hsame, hw⟩ := completes_command (i := .disarmFlush tag) rfl rfl h htake (flushAll_onlyWork _)
    obtain ⟨hr, hs, ho, hf, hp, he, hroom⟩ := flushAll_all (listsAgree_congr hag hsch)
    rw [hin] at hans
    refine ⟨t, hcomp, hans, ?_, ?_, fun l => ?_, ?_, ?_, fun k hk => ?_, hw, fun hrm => ?_⟩
    · rw [hsame.run, hr, taking_run, restartSilence_silenceLimit]
    · rw [hsame.sched, hs, hsch]
      simp only [taking_slot]
    · rw [hsame.output, ho, taking_output]
    · rw [hsame.faults, hf, taking_faults]
    · rw [hsame.faults, hp, taking_faults]
    · rw [hsame.faultEntry, he k hk, taking_faultEntry]
    · have hlh := listedHandles_of_sched hsch
      obtain ⟨h1, h2⟩ := hroom (by
        unfold State.hasRoom at *
        rwa [taking_reports, hlh, wanting_of_sched hsch])
      rw [hsame.reports, hsame.faults, h1, h2, taking_reports, hlh, dones_of_sched hsch, freeCount_of_sched hsch,
        taking_faults]
      exact ⟨rfl, rfl⟩
  · have hq := answers_unchanged (i := .disarmFlush tag) (r := replyOk [runStateByte .standby, 0]) rfl rfl h (by
      change takeDisarmFlush (taking tag s) = _
      unfold takeDisarmFlush
      rw [hst, hrun])
    rwa [restartSilence_of_idle (by rw [hrun]; rfl)] at hq
  · have hq := answers_unchanged (i := .disarmFlush tag) (r := reply .state) rfl rfl h (by
      change takeDisarmFlush (taking tag s) = _
      unfold takeDisarmFlush
      rw [hst, hrun])
    rwa [restartSilence_of_idle (by rw [hrun]; rfl)] at hq

end

