-- ==== Sys2Proof/Proofs/Cancel.lean ====
section
/-! PROOFS. CANCEL_ACTION and CANCEL_LINE (R19, R21, R35). -/

namespace Sys2Proof.Machine

/-! ## CANCEL_ACTION (R19) -/

theorem slotNoOf_none {b : Byte} (h : 95 < b.toNat) : slotNoOf b = none := by
  unfold slotNoOf
  rw [dif_neg (by omega)]

theorem slotNoOf_some {b : Byte} {i : SlotNo} (h : b.toNat = i.val) : slotNoOf b = some i := by
  unfold slotNoOf
  rw [dif_pos (by rw [h]; exact i.isLt)]
  congr

theorem takeCancelAction_stale {mode : CancelMode} {slot : Byte} {gen : Gen} {i : SlotNo} {t : State}
    (hi : slot.toNat = i.val) (h : (t.slot i).gen ≠ gen ∨ (t.slot i).isFree = true) :
    takeCancelAction mode slot gen t = (t, reply .notFound) := by
  have hl : t.live ⟨i, gen⟩ = none := by
    unfold State.live
    refine if_neg ?_
    rintro ⟨hg, hf⟩
    rcases h with h | h
    · exact h hg
    · rw [h] at hf
      cases hf
  unfold takeCancelAction
  rw [slotNoOf_some hi]
  simp only [hl]

theorem takeCancelAction_found {mode : CancelMode} {slot : Byte} {gen : Gen} {i : SlotNo} {t : State}
    (hi : slot.toNat = i.val) (hg : (t.slot i).gen = gen) (hf : (t.slot i).isFree = false) :
    takeCancelAction mode slot gen t = (cancelHandle mode ⟨i, gen⟩ t, replyOk [(t.slot i).foundByte]) := by
  have hl : t.live ⟨i, gen⟩ = some (t.slot i) := if_pos ⟨hg, hf⟩
  unfold takeCancelAction
  rw [slotNoOf_some hi]
  simp only [hl]

theorem takeCancelAction_waiting {mode : CancelMode} {slot : Byte} {gen : Gen} {i : SlotNo} {t : State} {a : Action}
    (hi : slot.toNat = i.val) (hx : t.slot i = ⟨gen, .waiting a⟩) :
    takeCancelAction mode slot gen t = (freeSlot ⟨i, gen⟩ .cancelled t, replyOk [1]) := by
  rw [takeCancelAction_found hi (by rw [hx]) (by rw [hx]; rfl), hx]
  unfold cancelHandle
  simp only [hx]
  rfl

theorem takeCancelAction_aborted {slot : Byte} {gen : Gen} {i : SlotNo} {t : State} {a : Action} {finish : Tick}
    (hi : slot.toNat = i.val) (hx : t.slot i = ⟨gen, .holding a finish⟩) :
    takeCancelAction .abort slot gen t =
      (freeSlot ⟨i, gen⟩ .cancelled (release a.line ⟨i, gen⟩ t), replyOk [2]) := by
  rw [takeCancelAction_found hi (by rw [hx]) (by rw [hx]; rfl), hx]
  unfold cancelHandle
  simp only [hx]
  rfl

theorem takeCancelAction_finishing {slot : Byte} {gen : Gen} {i : SlotNo} {t : State} {a : Action} {finish : Tick}
    (hi : slot.toNat = i.val) (hx : t.slot i = ⟨gen, .holding a finish⟩) :
    takeCancelAction .finish slot gen t = (t.putSlot i
      ⟨gen, .holding { a with repeatsLeft := 0, finishRequested := true } finish⟩, replyOk [2]) := by
  rw [takeCancelAction_found hi (by rw [hx]) (by rw [hx]; rfl), hx]
  unfold cancelHandle
  simp only [hx]
  rfl

/-! ## One action cancelled, the notice of an empty pool apart (R19, R21) -/

/-- A cancel without the notice of an empty pool. -/
def cancelQuietly (mode : CancelMode) (h : Handle) (s : State) : State :=
  match (s.slot h.slot).state, mode with
  | .free, _ => s
  | .waiting _, _ => quietly .cancelled h s
  | .holding a _, .abort => quietly .cancelled h (release a.line h s)
  | .holding a e, .finish =>
    s.putSlot h.slot ⟨h.gen, .holding { a with repeatsLeft := 0, finishRequested := true } e⟩

/-- The actions that a cancel frees: all under ABORT, the WAITING ones under FINISH. -/
def CancelMode.frees (mode : CancelMode) (s : State) (h : Handle) : Bool :=
  match mode with
  | .abort => true
  | .finish => (s.waitingAction h).isSome

/-- What a cancel leaves of a slot in use. -/
def CancelMode.leaves (mode : CancelMode) (x : Slot) : Slot :=
  ⟨x.gen, match mode, x.state with
    | .finish, .holding a e => .holding { a with repeatsLeft := 0, finishRequested := true } e
    | _, _ => .free⟩

/-- A slot in use is WAITING or HOLDING. -/
theorem slot_of_actionOf {s : State} {h : Handle} (ha : (s.actionOf h).isSome) :
    (∃ a, s.slot h.slot = ⟨h.gen, .waiting a⟩) ∨ ∃ a e, s.slot h.slot = ⟨h.gen, .holding a e⟩ := by
  obtain ⟨a, ha⟩ := Option.isSome_iff_exists.mp ha
  rcases State.actionOf_iff.mp ha with hw | hh
  · exact .inl ⟨a, State.waitingAction_eq.mp hw⟩
  · obtain ⟨e, he⟩ := State.holdingAction_eq.mp hh
    exact .inr ⟨a, e, he⟩

theorem live_of_actionOf {s : State} {h : Handle} (ha : (s.actionOf h).isSome) : s.live h = some (s.slot h.slot) :=
  if_pos (actionOf_isSome.mp ha)

/-- An action that runs to its END is treated: its slot stays in use, with no repeats left (R19). -/
theorem treated_finishing {e : Ended} {frees : Handle → Bool} {leaves : Slot → Slot} {h : Handle} {t : State} (x : Slot)
    (hf : frees h = false) (hl : leaves (t.slot h.slot) = x) : Treated e frees leaves [h] t (t.putSlot h.slot x) := by
  have hfilter : [h].filter frees = [] := by simp [hf]
  refine ⟨by rw [hfilter]; exact .silent e rfl rfl rfl, fun i => ?_, ?_⟩
  · rw [State.slot_putSlot, List.map_singleton]
    simp only [List.mem_singleton]
    split
    · rename_i hi
      rw [hi, hl]
    · rfl
  · rw [hfilter]
    simp [State.putSlot]

theorem cancelQuietly_treated {mode : CancelMode} {frees : Handle → Bool} {h : Handle} {t : State}
    (hf : frees h = mode.frees t h) (hc : t.calm) (ha : (t.actionOf h).isSome) :
    Treated .cancelled frees mode.leaves [h] t (cancelQuietly mode h t) := by
  rcases slot_of_actionOf ha with ⟨a, hx⟩ | ⟨a, e, hx⟩
  · have hq : cancelQuietly mode h t = quietly .cancelled h t := by
      unfold cancelQuietly
      rw [hx]
    have hfrees : frees h = true := by
      rw [hf]
      cases mode
      · rfl
      · exact Option.isSome_iff_exists.mpr ⟨a, (waiting_of_slot hx).1⟩
    rw [hq]
    refine treated_freed hfrees ?_ hc ha
    rw [hx]
    cases mode <;> rfl
  · cases mode with
    | abort =>
      have hq : cancelQuietly .abort h t = quietly .cancelled h (release a.line h t) := by
        unfold cancelQuietly
        rw [hx]
      rw [hq]
      have hr : Treated .cancelled frees (CancelMode.leaves .abort) [h] (release a.line h t)
          (quietly .cancelled h (release a.line h t)) :=
        treated_freed hf (by rw [release_slot, hx]; rfl) hc ha
      exact ⟨⟨hr.told.run, hr.told.fatal, hr.told.report, hr.told.entries, hr.told.room⟩, hr.slots, hr.sched⟩
    | finish =>
      have hq : cancelQuietly .finish h t = t.putSlot h.slot
          ⟨h.gen, .holding { a with repeatsLeft := 0, finishRequested := true } e⟩ := by
        unfold cancelQuietly
        rw [hx]
      rw [hq]
      refine treated_finishing _ ?_ (by rw [hx]; rfl)
      rw [hf]
      change (t.waitingAction h).isSome = false
      rw [(holding_of_slot hx).1]
      rfl

/-- A cancel of an action in use is a quiet one and then the notice of an empty pool. -/
theorem cancelHandle_quietly {mode : CancelMode} {h : Handle} {s : State} (ha : (s.actionOf h).isSome) :
    cancelHandle mode h s = poolNotice (cancelQuietly mode h s) := by
  unfold cancelHandle cancelQuietly
  rcases slot_of_actionOf ha with ⟨a, hx⟩ | ⟨a, e, hx⟩
  · rw [hx]
    exact freeSlot_quietly _ ha
  · rw [hx]
    cases mode with
    | abort => exact freeSlot_quietly (s := release a.line h s) _ ha
    | finish =>
      refine (poolNotice_quiet (.inr ⟨h.slot, ?_⟩)).symm
      rw [State.slot_putSlot_self]
      rfl

/-! ## The actions of a line cancelled one after another (R21) -/

/-- The actions `hs` cancelled one after another, without the notice of an empty pool. -/
def cancelAll (mode : CancelMode) (hs : List Handle) (s : State) : State :=
  hs.foldl (fun u h => cancelQuietly mode h u) s

section
variable {mode : CancelMode} {s : State} {hs : List Handle}

/-- A handle of another slot is not touched. -/
theorem cancelQuietly_slot_ne {h x : Handle} (hc : s.calm) (ha : (s.actionOf h).isSome) (hx : x.slot ≠ h.slot) :
    (cancelQuietly mode h s).slot x.slot = s.slot x.slot := by
  rw [(cancelQuietly_treated (frees := mode.frees s) rfl hc ha).slots, if_neg]
  simpa using hx

theorem cancelQuietly_calm {h : Handle} (hc : s.calm) (ha : (s.actionOf h).isSome) : (cancelQuietly mode h s).calm :=
  (cancelQuietly_treated (frees := mode.frees s) rfl hc ha).told.calm hc

theorem cancelAll_treated (hc : s.calm) (ha : ∀ h ∈ hs, (s.actionOf h).isSome) (hn : (hs.map Handle.slot).Nodup) :
    Treated .cancelled (mode.frees s) mode.leaves hs s (cancelAll mode hs s) := by
  refine treated_foldl (P := fun u => u = s) (fun {h u t} hu _ hh hslot hct => ?_) rfl hc hc (fun h hm => ⟨ha h hm, rfl⟩) hn
  subst hu
  refine cancelQuietly_treated ?_ hct hh
  unfold CancelMode.frees State.waitingAction
  rw [hslot]

/-- The cancels of a list of actions in use are quiet ones and then the notice of an empty pool. -/
theorem cancelHandles_quietly (hc : s.calm) (ha : ∀ h ∈ hs, (s.actionOf h).isSome) (hn : (hs.map Handle.slot).Nodup)
    (hne : hs ≠ []) : cancelHandles mode hs s = (poolNotice (cancelAll mode hs s), hs.length) := by
  induction hs generalizing s with
  | nil => exact absurd rfl hne
  | cons h hs ih =>
    rw [List.map_cons, List.nodup_cons] at hn
    obtain ⟨hd, hn⟩ := hn
    have hh := ha h List.mem_cons_self
    have hkeep (x : Handle) (hx : x ∈ hs) : (cancelQuietly mode h s).slot x.slot = s.slot x.slot :=
      cancelQuietly_slot_ne hc hh fun e => hd (e ▸ List.mem_map_of_mem hx)
    unfold cancelHandles
    rw [live_of_actionOf hh, cancelHandle_quietly hh]
    cases hs with
    | nil => rfl
    | cons y ys =>
      have hy := ha y (List.mem_cons_of_mem _ List.mem_cons_self)
      have hquiet : poolNotice (cancelQuietly mode h s) = cancelQuietly mode h s := by
        refine poolNotice_quiet (.inr ⟨y.slot, ?_⟩)
        rw [hkeep y List.mem_cons_self]
        exact (actionOf_isSome.mp hy).2
      rw [hquiet]
      dsimp only
      rw [ih (cancelQuietly_calm hc hh) (fun x hx => State.actionOf_congr x (hkeep x hx) ▸ ha x (List.mem_cons_of_mem _ hx))
        hn (by simp)]
      rfl

/-- FINISH leaves the outputs as they are. -/
theorem cancelAll_finish_outputs (hc : s.calm) (ha : ∀ h ∈ hs, (s.actionOf h).isSome) (hn : (hs.map Handle.slot).Nodup) :
    (cancelAll .finish hs s).outputs = s.outputs := by
  induction hs generalizing s with
  | nil => rfl
  | cons h hs ih =>
    rw [List.map_cons, List.nodup_cons] at hn
    obtain ⟨hd, hn⟩ := hn
    have hh := ha h List.mem_cons_self
    have hone : (cancelQuietly .finish h s).outputs = s.outputs := by
      unfold cancelQuietly
      rcases slot_of_actionOf hh with ⟨a, hx⟩ | ⟨a, e, hx⟩
      · rw [hx]
        exact (quietly_notes .cancelled hc (waiting_of_slot hx).2.2).notes.outputs
      · rw [hx]
        rfl
    refine (ih (cancelQuietly_calm hc hh) (fun x hx => ?_) hn).trans hone
    have hkeep := cancelQuietly_slot_ne (mode := .finish) hc hh (x := x) fun e => hd (e ▸ List.mem_map_of_mem hx)
    exact State.actionOf_congr x hkeep ▸ ha x (List.mem_cons_of_mem _ hx)

/-- A holder of a line that is among the actions given. -/
def State.heldAmong (s : State) (hs : List Handle) (m : OutLine) (x : Handle) : Bool :=
  hs.contains x && (s.holdingAction x).any (fun a => a.line = m)

theorem cancelQuietly_abort_output {h : Handle} (hc : s.calm) (ha : (s.actionOf h).isSome) (m : OutLine) :
    (cancelQuietly .abort h s).output m = { s.output m with
      holders := (s.output m).holders.filter (fun x => !s.heldAmong [h] m x) } := by
  unfold cancelQuietly
  rcases slot_of_actionOf ha with ⟨a, hx⟩ | ⟨a, e, hx⟩
  · rw [hx]
    obtain ⟨-, hh, hact⟩ := waiting_of_slot hx
    dsimp only
    rw [(quietly_notes .cancelled hc hact).notes.output, State.output_withSched]
    have hall : (s.output m).holders.filter (fun x => !s.heldAmong [h] m x) = (s.output m).holders := by
      rw [List.filter_eq_self]
      intro x _
      by_cases hxh : x = h
      · simp [State.heldAmong, hxh, hh]
      · simp [State.heldAmong, hxh]
    rw [hall]
  · rw [hx]
    obtain ⟨-, hh, hact⟩ := holding_of_slot hx
    dsimp only
    rw [(quietly_notes (s := release a.line h s) .cancelled hc hact).notes.output, State.output_withSched, release_output]
    have hpred (hm : a.line = m) (x : Handle) : (!s.heldAmong [h] m x) = decide (x ≠ h) := by
      by_cases hxh : x = h
      · simp [State.heldAmong, hxh, hh, hm]
      · simp [State.heldAmong, hxh]
    split
    · rename_i hm
      subst hm
      simp only [hpred rfl]
    · rename_i hm
      have hall : (s.output m).holders.filter (fun x => !s.heldAmong [h] m x) = (s.output m).holders := by
        rw [List.filter_eq_self]
        intro x _
        by_cases hxh : x = h
        · simpa [State.heldAmong, hxh, hh] using fun c : a.line = m => hm c.symm
        · simp [State.heldAmong, hxh]
      rw [hall]

/-- ABORT takes the HOLDING actions it cancels out of their lines' holder sets (R35). -/
theorem cancelAll_abort_output (hc : s.calm) (ha : ∀ h ∈ hs, (s.actionOf h).isSome) (hn : (hs.map Handle.slot).Nodup)
    (m : OutLine) : (cancelAll .abort hs s).output m = { s.output m with
      holders := (s.output m).holders.filter (fun x => !s.heldAmong hs m x) } := by
  induction hs generalizing s with
  | nil => simp [cancelAll, State.heldAmong]
  | cons h hs ih =>
    rw [List.map_cons, List.nodup_cons] at hn
    obtain ⟨hd, hn⟩ := hn
    have hh := ha h List.mem_cons_self
    have hkeep (x : Handle) (hx : x ∈ hs) : (cancelQuietly .abort h s).slot x.slot = s.slot x.slot :=
      cancelQuietly_slot_ne hc hh fun e => hd (e ▸ List.mem_map_of_mem hx)
    refine (ih (cancelQuietly_calm hc hh)
      (fun x hx => State.actionOf_congr x (hkeep x hx) ▸ ha x (List.mem_cons_of_mem _ hx)) hn).trans ?_
    have hpred (x : Handle) : (!(cancelQuietly .abort h s).heldAmong hs m x && !s.heldAmong [h] m x) =
        !s.heldAmong (h :: hs) m x := by
      by_cases hx : x ∈ hs
      · have hhold : (cancelQuietly .abort h s).holdingAction x = s.holdingAction x := by
          unfold State.holdingAction
          rw [hkeep x hx]
        have hxh : x ≠ h := by
          rintro rfl
          exact hd (List.mem_map_of_mem hx)
        simp [State.heldAmong, hx, hxh, hhold]
      · simp [State.heldAmong, hx]
    rw [cancelQuietly_abort_output hc hh m]
    simp only [List.filter_filter, hpred]

end

/-! ## CANCEL_LINE of the state at the taking -/

/-- The actions of a line that a cancel frees. -/
def CancelMode.gone (mode : CancelMode) (s : State) (l : OutLine) (h : Handle) : Bool :=
  match mode with
  | .abort => (s.actionOf h).any (fun a => a.line = l)
  | .finish => (s.waitingAction h).any (fun a => a.line = l)

theorem lineHandles_freed (mode : CancelMode) (s : State) (l : OutLine) :
    (s.lineHandles l).filter (mode.frees s) = s.listedHandles.filter (mode.gone s l) := by
  unfold State.lineHandles
  rw [List.filter_filter]
  refine List.filter_congr fun h _ => ?_
  cases mode with
  | abort => exact Bool.true_and _
  | finish =>
    unfold CancelMode.frees CancelMode.gone
    cases hw : s.waitingAction h with
    | none => rfl
    | some a =>
      rw [State.actionOf_iff.mpr (.inl hw)]
      rfl

section
variable {s : State} (h : ListsAgree s) (l : OutLine)
include h

theorem lineHandles_live : (∀ x ∈ s.lineHandles l, (s.actionOf x).isSome) ∧ ((s.lineHandles l).map Handle.slot).Nodup := by
  obtain ⟨h1, h2⟩ := listed_slots h
  exact ⟨fun x hx => h1 x (List.mem_of_mem_filter hx), h2.sublist (List.filter_sublist.map _)⟩

/-- The slots of the actions of a line. -/
theorem mem_lineHandles_slots (i : SlotNo) : i ∈ (s.lineHandles l).map Handle.slot ↔ (s.slot i).targets l = true := by
  have hact {x : Handle} (hx : (s.actionOf x).isSome) : s.actionOf x = (s.slot x.slot).action := by
    obtain ⟨a, ha⟩ := Option.isSome_iff_exists.mp hx
    rw [ha, (actionOf_some ha).2.1]
  unfold Slot.targets
  constructor
  · intro hi
    obtain ⟨x, hx, rfl⟩ := List.mem_map.mp hi
    obtain ⟨hm, hl⟩ := List.mem_filter.mp hx
    rw [← hact ((listed_slots h).1 x hm)]
    exact hl
  · intro hi
    have hf : (s.slot i).isFree = false := by
      unfold Slot.action at hi
      unfold Slot.isFree
      cases hst : (s.slot i).state with
      | free =>
        rw [hst] at hi
        cases hi
      | waiting a => rfl
      | holding a e => rfl
    refine List.mem_map.mpr ⟨s.handleOf i, List.mem_filter.mpr ⟨h.listed i hf, ?_⟩, rfl⟩
    rw [hact (actionOf_isSome.mpr ⟨rfl, hf⟩)]
    exact hi

/-- The number of actions of a line. -/
theorem lineHandles_length : (s.lineHandles l).length = (allSlots.filter (fun i => (s.slot i).targets l)).length := by
  obtain ⟨-, hn⟩ := lineHandles_live h l
  rw [← List.length_map (f := Handle.slot)]
  refine List.Perm.length_eq ((List.perm_ext_iff_of_nodup hn ((List.nodup_finRange 96).filter _)).mpr fun i => ?_)
  rw [mem_lineHandles_slots h, List.mem_filter]
  exact ⟨fun e => ⟨List.mem_finRange i, e⟩, fun e => e.2⟩

/-- The schedule after CANCEL_LINE: the slots of the line treated, the entries of the freed actions gone (R21). -/
theorem cancelAll_sched (mode : CancelMode) (hc : s.calm) : (cancelAll mode (s.lineHandles l) s).sched = { s.sched with
    slots := tabulate (fun i => if (s.slot i).targets l then mode.leaves (s.slot i) else s.slot i)
    timeList := s.sched.timeList.filter (fun e => !mode.gone s l e.handle)
    travelList := s.sched.travelList.filter (fun e => !mode.gone s l e.handle) } := by
  obtain ⟨hlive, hn⟩ := lineHandles_live h l
  have ht := cancelAll_treated (mode := mode) hc hlive hn
  have hslots : (cancelAll mode (s.lineHandles l) s).sched.slots =
      tabulate (fun i => if (s.slot i).targets l then mode.leaves (s.slot i) else s.slot i) := by
    apply table_ext
    intro i
    rw [getAt_tabulate]
    refine (ht.slots i).trans ?_
    simp only [mem_lineHandles_slots h]
  have hgone {x : Handle} (hx : x ∈ s.listedHandles) :
      (!((s.lineHandles l).filter (mode.frees s)).contains x) = !mode.gone s l x := by
    rw [lineHandles_freed]
    cases hg : mode.gone s l x <;> simp [hx, hg, List.mem_filter]
  rw [ht.sched, hslots, List.filter_congr fun e he => hgone (List.mem_append_left _ (List.mem_map_of_mem he)),
    List.filter_congr fun e he => hgone (List.mem_append_right _ (List.mem_map_of_mem he))]

end

/-- The notice of an empty pool after a cancel: nothing, or the end of a drain with its report. -/
theorem poolNotice_cases (s : State) : poolNotice s = s ∨ (s.run.state = .draining ∧ (∀ j, (s.slot j).isFree = true)
    ∧ Apart (s.withRun { s.run with state := .standby, silence := none }) (poolNotice s)
    ∧ (s.hasRoom 1 → poolNotice s =
      (s.withRun { s.run with state := .standby, silence := none }).filing (.runState .standby .drainComplete 0))) := by
  by_cases hd : s.run.state = .draining ∧ ∀ j, (s.slot j).isFree = true
  · obtain ⟨hd, hf⟩ := hd
    refine .inr ⟨hd, hf, ?_, fun hr => poolNotice_drained hr hd hf⟩
    unfold poolNotice
    rw [if_pos ⟨(freeCount_eq_96 s).mpr hf, hd⟩]
    exact createReport_apart _ (.inl rfl)
  · rw [not_and_or, not_forall] at hd
    exact .inl (poolNotice_quiet (hd.imp_right fun ⟨j, hj⟩ => ⟨j, by simpa using hj⟩))

/-- What is told after actions were cancelled: their reports, and at the end of a drain its RUN_STATE report; else the run
control is `r` (R13, R119). -/
structure CancelTold (s : State) (r : RunControl) (freed : List Handle) (t : State) : Prop where
  fatal : t.faults.fatal = s.faults.fatal
  report : t.faults.report = s.faults.report
  entries : ∀ k, k ≠ .reportOverflow → t.faultEntry k = s.faultEntry k
  stays : s.run.state ≠ .draining ∨ (∃ i, (t.slot i).isFree = false) → t.run = r
    ∧ (s.hasRoom (s.wanting freed).length → t.reports = s.reports.dones s .cancelled freed ∧ t.faults = s.faults)
  drained : s.run.state = .draining → freed ≠ [] → (∀ i, (t.slot i).isFree = true) →
    t.run = ⟨.standby, s.run.silenceLimit, none⟩
    ∧ (s.hasRoom ((s.wanting freed).length + 1) →
      t.reports = (s.reports.dones s .cancelled freed).filed (.runState .standby .drainComplete 0)
      ∧ t.faults = s.faults)

/-- The notice of an empty pool after the cancels. -/
theorem cancelTold_notice {s q : State} {freed : List Handle} (h : Told .cancelled s freed q) :
    CancelTold s s.run freed (poolNotice q) ∧ (poolNotice q).sched = q.sched ∧ (poolNotice q).outputs = q.outputs := by
  have hslots (hs : (poolNotice q).sched = q.sched) (i : SlotNo) : (poolNotice q).slot i = q.slot i := by
    unfold State.slot
    rw [hs]
  rcases poolNotice_cases q with e | ⟨hd, hf, n, hfile⟩
  · rw [e]
    refine ⟨⟨h.fatal, h.report, h.entries, fun _ => ⟨h.run, h.room⟩, fun hd _ hf => ?_⟩, rfl, rfl⟩
    have hdq : q.run.state = .draining := by rw [h.run]; exact hd
    have hrun : (poolNotice q).run.state = .draining := by rw [e]; exact hdq
    have hn : (poolNotice q).run.state = .standby := by
      unfold poolNotice
      rw [if_pos ⟨(freeCount_eq_96 q).mpr hf, hdq⟩]
      rw [(createReport_apart _ (.inl rfl)).notes.run]
      rfl
    rw [hrun] at hn
    cases hn
  · have hs : (poolNotice q).sched = q.sched := n.notes.sched
    refine ⟨⟨n.fatal.trans h.fatal, n.report.trans h.report, fun k hk => (n.entries k hk).trans (h.entries k hk),
      fun hq => ?_, fun _ _ _ => ⟨?_, fun hroom => ?_⟩⟩, hs, n.notes.outputs⟩
    · exfalso
      rcases hq with hq | ⟨i, hi⟩
      · exact hq (h.run ▸ hd)
      · rw [hslots hs, hf i] at hi
        cases hi
    · rw [n.notes.run]
      change { q.run with state := .standby, silence := none } = _
      rw [h.run]
    · obtain ⟨h1, h2⟩ := h.room (hasRoom_mono hroom (Nat.le_succ _))
      have hr : q.hasRoom 1 := by
        have := dones_room s .cancelled freed (n := 1) hroom
        unfold State.hasRoom at *
        rwa [h1]
      rw [hfile hr]
      exact ⟨congrArg (fun v => ReportUnit.filed v _) h1, h2⟩

/-- CANCEL_LINE of a state whose lists agree with its pool (R21). -/
theorem cancelLine_all {s : State} (h : ListsAgree s) (hc : s.calm) (mode : CancelMode) (l : OutLine) :
    ∃ t, cancelHandles mode (s.lineHandles l) s =
        (t, (allSlots.filter (fun i => (s.slot i).targets l)).length)
      ∧ t.sched = (cancelAll mode (s.lineHandles l) s).sched ∧ t.outputs = (cancelAll mode (s.lineHandles l) s).outputs
      ∧ CancelTold s s.run (s.listedHandles.filter (mode.gone s l)) t := by
  obtain ⟨hlive, hn⟩ := lineHandles_live h l
  have ht := (cancelAll_treated (mode := mode) hc hlive hn).told
  rw [lineHandles_freed] at ht
  rw [← lineHandles_length h l]
  by_cases hne : s.lineHandles l = []
  · have hfreed : s.listedHandles.filter (mode.gone s l) = [] := by
      rw [← lineHandles_freed, hne]
      rfl
    rw [hfreed, hne]
    refine ⟨s, rfl, rfl, rfl, rfl, rfl, fun _ _ => rfl, fun _ => ⟨rfl, fun _ => ⟨rfl, rfl⟩⟩, fun _ hf => absurd rfl hf⟩
  · obtain ⟨h1, h2, h3⟩ := cancelTold_notice ht
    exact ⟨_, cancelHandles_quietly hc hlive hn hne, h2, h3, h1⟩

end Sys2Proof.Machine

open Sys2Proof Sys2Proof.Machine in
/-- Settles O33, by the state of the slot that the handle names. -/
theorem cancelActionBothModes : Obligations.CancelActionBothModes := by
  unfold Obligations.CancelActionBothModes
  intro s tag slot gen h
  refine ⟨fun hs => ?_, fun i hi => ⟨fun hx => ?_, fun a hx => ?_, fun a finish hx => ?_⟩⟩
  · have hb (mode : CancelMode) : takeCancelAction mode slot gen (taking tag s) = (taking tag s, reply .badValue) := by
      unfold takeCancelAction
      rw [slotNoOf_none hs]
    exact ⟨answers_unchanged (r := reply .badValue) rfl rfl h (hb _),
      answers_unchanged (r := reply .badValue) rfl rfl h (hb _)⟩
  all_goals rw [← taking_slot tag] at hx
  · exact ⟨answers_unchanged (r := reply .notFound) rfl rfl h (takeCancelAction_stale hi hx),
      answers_unchanged (r := reply .notFound) rfl rfl h (takeCancelAction_stale hi hx)⟩
  · exact ⟨answers_linkFree (r := replyOk [1]) (freeSlot_linkFree _ _) rfl rfl h (takeCancelAction_waiting hi hx),
      answers_linkFree (r := replyOk [1]) (freeSlot_linkFree _ _) rfl rfl h (takeCancelAction_waiting hi hx)⟩
  · refine ⟨answers_linkFree (r := replyOk [2]) (f := fun u => freeSlot ⟨i, gen⟩ .cancelled (release a.line ⟨i, gen⟩ u)) ?_
        rfl rfl h (takeCancelAction_aborted hi hx),
      answers_linkFree (r := replyOk [2]) (f := fun u => u.putSlot i _) (fun _ _ => rfl) rfl rfl h
        (takeCancelAction_finishing hi hx)⟩
    exact fun k u => freeSlot_linkFree _ _ k (release a.line ⟨i, gen⟩ u)

end

