-- ==== Sys2Proof/Proofs/CancelLine.lean ====
section
/-! PROOFS. CANCEL_LINE as its answer and the state after it (R21, R35). -/

namespace Sys2Proof.Machine

theorem gone_of_sched {s t : State} (h : t.sched = s.sched) (mode : CancelMode) (l : OutLine) :
    mode.gone t l = mode.gone s l := by
  funext x
  cases mode with
  | abort =>
    change Option.any _ (t.actionOf x) = Option.any _ (s.actionOf x)
    rw [actionOf_of_sched h]
  | finish =>
    change Option.any _ (t.waitingAction x) = Option.any _ (s.waitingAction x)
    unfold State.waitingAction State.slot
    rw [h]

theorem holdingAction_of_sched {s t : State} (h : t.sched = s.sched) (x : Handle) :
    t.holdingAction x = s.holdingAction x := by
  unfold State.holdingAction State.slot
  rw [h]

/-- What is told after a request's taking, in terms of the state that the request found. -/
theorem CancelTold.taken {s v t : State} {tag : Tag} {freed : List Handle}
    (h : CancelTold (taking tag s) (taking tag s).run freed v) (k : SameButLink v t) :
    CancelTold s (restartSilence s).run freed t := by
  have hsch := taking_sched tag s
  have hslot (i : SlotNo) : t.slot i = v.slot i := by
    unfold State.slot
    rw [k.sched]
  have hroom (n : Nat) : (taking tag s).hasRoom n ↔ s.hasRoom n := by
    unfold State.hasRoom
    rw [taking_reports]
  obtain ⟨h1, h2, h3, h4, h5⟩ := h
  rw [taking_faults] at h1 h2
  simp only [taking_faultEntry] at h3
  simp only [taking_run, restartSilence_state, hroom, wanting_of_sched hsch, dones_of_sched hsch, taking_reports, taking_faults,
    restartSilence_silenceLimit] at h4 h5
  refine ⟨by rw [k.faults, h1], by rw [k.faults, h2], fun x hx => by rw [k.faultEntry, h3 x hx], fun hq => ?_,
    fun hd hf hall => ?_⟩
  · rw [k.run, k.reports, k.faults]
    simp only [hslot] at hq
    exact h4 hq
  · rw [k.run, k.reports, k.faults]
    simp only [hslot] at hall
    exact h5 hd hf hall

/-- The holders of a line that are actions of that line are all among the line's actions, and no holder of another line is. -/
theorem heldAmong_lineHandles {s : State} (h : ListsAgree s) (l m : OutLine) (x : Handle) :
    s.heldAmong (s.lineHandles l) m x = (decide (m = l) && (s.holdingAction x).any (fun a => a.line = l)) := by
  unfold State.heldAmong
  cases hx : s.holdingAction x with
  | none => simp
  | some a =>
    have hact : s.actionOf x = some a := State.actionOf_iff.mpr (.inr hx)
    obtain ⟨hg, hf⟩ := actionOf_isSome.mp (Option.isSome_iff_exists.mpr ⟨a, hact⟩)
    have hlisted : x ∈ s.listedHandles := by
      rw [← handleOf_eq (s := s) (h := x) (by rw [hact]; rfl)]
      exact h.listed x.slot hf
    have hmem : x ∈ s.lineHandles l ↔ a.line = l := by
      unfold State.lineHandles
      rw [List.mem_filter, hact]
      simp [hlisted]
    simp only [Option.any_some, List.contains_eq_mem, hmem]
    by_cases hm : m = l
    · subst hm
      simp
    · by_cases hl : a.line = l
      · simpa [hl, hm] using fun e : l = m => hm e.symm
      · simp [hl]

theorem takeCancelLine_good {mode : CancelMode} {line : Byte} {l : OutLine} {t v : State} {n : Nat}
    (hl : line.toNat = l.val) (h : cancelHandles mode (t.lineHandles l) t = (v, n)) :
    takeCancelLine mode line t = (v, replyOk [BitVec.ofNat 8 n]) := by
  unfold takeCancelLine
  rw [outLineOf_some hl]
  dsimp only
  rw [h]

theorem takeCancelLine_bad {mode : CancelMode} {line : Byte} (h : 11 < line.toNat) (t : State) :
    takeCancelLine mode line t = (t, reply .badValue) := by
  unfold takeCancelLine
  rw [outLineOf_none h]

/-- CANCEL_LINE as the request finds the part: the state after it, but for the Host Link (R21). -/
theorem cancelLine_taken {s : State} {tag : Tag} {line : Byte} {l : OutLine} (mode : CancelMode) (hl : line.toNat = l.val)
    (h : ListsAgree s) (hc : s.calm) : ∃ v,
      takeCancelLine mode line (taking tag s) =
        (v, replyOk [BitVec.ofNat 8 (allSlots.filter (fun i => (s.slot i).targets l)).length])
      ∧ OnlyWork (taking tag s) v
      ∧ v.sched = { s.sched with
          slots := tabulate (fun i => if (s.slot i).targets l then mode.leaves (s.slot i) else s.slot i)
          timeList := s.sched.timeList.filter (fun e => !mode.gone s l e.handle)
          travelList := s.sched.travelList.filter (fun e => !mode.gone s l e.handle) }
      ∧ v.outputs = (cancelAll mode ((taking tag s).lineHandles l) (taking tag s)).outputs
      ∧ ∀ t, SameButLink v t → CancelTold s (restartSilence s).run (s.listedHandles.filter (mode.gone s l)) t := by
  have hsch := taking_sched tag s
  have hag := listsAgree_congr h hsch
  have hct : (taking tag s).calm := by
    unfold State.calm State.isFatal at *
    rwa [taking_run, restartSilence_state, taking_faults]
  obtain ⟨v, hv, h1, h2, h3⟩ := cancelLine_all hag hct mode l
  rw [cancelAll_sched hag l mode hct, gone_of_sched hsch, hsch] at h1
  rw [gone_of_sched hsch, listedHandles_of_sched hsch] at h3
  simp only [taking_slot] at hv h1
  refine ⟨v, takeCancelLine_good hl hv, ?_, h1, h2, fun t ht => h3.taken ht⟩
  have hw := cancelHandles_onlyWork mode ((taking tag s).lineHandles l) (taking tag s)
  rwa [hv] at hw

end Sys2Proof.Machine

open Sys2Proof Sys2Proof.Machine in
/-- Settles O34: the actions of the line are treated one after another (`cancelAll_treated`), with one notice of an empty pool
at the end (`cancelHandles_quietly`). -/
theorem cancelLineBothModes : Obligations.CancelLineBothModes := by
  unfold Obligations.CancelLineBothModes
  intro s tag line h
  refine ⟨fun hline => ⟨answers_unchanged (r := reply .badValue) rfl rfl h (takeCancelLine_bad hline _),
    answers_unchanged (r := reply .badValue) rfl rfl h (takeCancelLine_bad hline _)⟩, fun l hl hag hc => ?_⟩
  intro n finished told
  have htold {freed : List Handle} {t : State} (k : CancelTold s (restartSilence s).run freed t) : told freed t :=
    ⟨k.fatal, k.report, k.entries, k.stays, k.drained⟩
  have hsch := taking_sched tag s
  have hagt := listsAgree_congr hag hsch
  have hct : (taking tag s).calm := by
    unfold State.calm State.isFatal at *
    rwa [taking_run, restartSilence_state, taking_faults]
  obtain ⟨hlive, hnd⟩ := lineHandles_live hagt l
  constructor
  · obtain ⟨v, hv, hw, hs, ho, hk⟩ := cancelLine_taken (tag := tag) .abort hl hag hc
    obtain ⟨t, hcomp, hans, hsame, hwork⟩ := completes_command (i := .cancelLineAbort tag line) rfl rfl h hv hw
    have hout (m : OutLine) : t.output m = { s.output m with
        holders := (s.output m).holders.filter
          (fun x => !(decide (m = l) && (s.holdingAction x).any (fun a => a.line = l))) } := by
      have hm := cancelAll_abort_output hct hlive hnd m
      simp only [heldAmong_lineHandles hagt, holdingAction_of_sched hsch, taking_output] at hm
      rw [hsame.output, ← hm]
      unfold State.output
      rw [ho]
    refine ⟨t, hcomp, hans, ⟨hsame.sched.trans hs, htold (hk t hsame)⟩, ?_, fun m hm => ?_, hwork⟩
    · rw [hout]
      simp only [decide_true, Bool.true_and]
    · rw [hout]
      simp [hm]
  · obtain ⟨v, hv, hw, hs, ho, hk⟩ := cancelLine_taken (tag := tag) .finish hl hag hc
    obtain ⟨t, hcomp, hans, hsame, hwork⟩ := completes_command (i := .cancelLineFinish tag line) rfl rfl h hv hw
    have hfin (x : Slot) : CancelMode.leaves .finish x = finished x := by
      rcases x with ⟨g, st⟩
      cases st <;> rfl
    simp only [hfin] at hs
    refine ⟨t, hcomp, hans, ⟨hsame.sched.trans hs, htold (hk t hsame)⟩, ?_, hwork⟩
    rw [hsame.outputs, ho, cancelAll_finish_outputs hct hlive hnd, taking_outputs]

end

