-- ==== Sys2Proof/Proofs/Listings.lean ====
section
/-! PROOFS. The readings that answer with a list, byte for byte (R22, R29, R46, R63, R73, R111, 10.7). -/

namespace Sys2Proof.Machine

/-! ## Bytes -/

/-- A weighted bit. -/
def weighed (b : Bool) (n : Nat) : Nat := if b then n else 0

theorem weighed_eq (b : Bool) (n : Nat) : weighed b n = (if b then 1 else 0) * n := by
  cases b <;> simp [weighed]

theorem flagsByte_four (b0 b1 b2 b3 : Bool) : flagsByte [b0, b1, b2, b3] =
    BitVec.ofNat 8 (weighed b0 1 + weighed b1 2 + weighed b2 4 + weighed b3 8) := by
  unfold flagsByte
  simp only [List.foldr_cons, List.foldr_nil, weighed_eq]
  congr 1
  ring

theorem flagsByte_eight (b0 b1 b2 b3 b4 b5 b6 b7 : Bool) : flagsByte [b0, b1, b2, b3, b4, b5, b6, b7] =
    BitVec.ofNat 8 (weighed b0 1 + weighed b1 2 + weighed b2 4 + weighed b3 8 + weighed b4 16 + weighed b5 32
      + weighed b6 64 + weighed b7 128) := by
  unfold flagsByte
  simp only [List.foldr_cons, List.foldr_nil, weighed_eq]
  congr 1
  ring

theorem levelHigh_eq (v : Level) : levelHigh v = decide (v = .high) := by cases v <;> rfl

/-- A count in a field of six bytes: its four, and two zeros (R181). -/
theorem leBytes_six_count (c : Count) : leBytes 6 c.toNat = leBytes 4 c.toNat ++ [0, 0] := by
  have h : c.toNat / 256 / 256 / 256 / 256 = 0 := by
    have := c.isLt
    omega
  simp [leBytes, h]

/-! ## The owner of a line (R29) -/

theorem foldl_owner_mem (s : State) (hs : List Handle) : ∀ h : Handle,
    hs.foldl (fun best x => if laterEnd (s.endOf x) (s.endOf best) then x else best) h ∈ h :: hs := by
  induction hs with
  | nil => simp
  | cons x xs ih =>
    intro h
    rw [List.foldl_cons]
    split
    · exact List.mem_cons_of_mem _ (ih x)
    · rcases List.mem_cons.mp (ih h) with e | e
      · exact List.mem_cons.mpr (.inl e)
      · exact List.mem_cons_of_mem _ (List.mem_cons_of_mem _ e)

/-- An end that is later than another (R29). -/
theorem laterEnd_of {a b : Tick} (hne : a ≠ b) (h : (a - b).toNat < 2 ^ 47) : laterEnd a b = true := by
  unfold laterEnd
  rw [decide_eq_true h, Bool.true_and, bne_iff_ne]
  exact hne

/-- A holder that no later one ends after stays the owner. -/
theorem foldl_owner_stays (s : State) {h : Handle} {hs : List Handle}
    (hl : ∀ x ∈ hs, s.endOf x = s.endOf h ∨ 2 ^ 47 ≤ (s.endOf x - s.endOf h).toNat) :
    hs.foldl (fun best x => if laterEnd (s.endOf x) (s.endOf best) then x else best) h = h := by
  induction hs with
  | nil => rfl
  | cons x xs ih =>
    rw [List.foldl_cons, if_neg]
    · exact ih fun y hy => hl y (List.mem_cons_of_mem _ hy)
    · unfold laterEnd
      rcases hl x List.mem_cons_self with e | e
      · simp [e]
      · rw [decide_eq_false (Nat.not_lt.mpr e)]
        simp

theorem owner_latest {s : State} {l : OutLine} {pre post : List Handle} {h : Handle}
    (hh : (s.output l).holders = pre ++ h :: post)
    (hpre : ∀ x ∈ pre, s.endOf h ≠ s.endOf x ∧ (s.endOf h - s.endOf x).toNat < 2 ^ 47)
    (hpost : ∀ x ∈ post, s.endOf x = s.endOf h ∨ 2 ^ 47 ≤ (s.endOf x - s.endOf h).toNat) : s.owner l = some h := by
  unfold State.owner State.ownerAmong
  rw [hh]
  cases pre with
  | nil =>
    rw [List.nil_append]
    exact congrArg some (foldl_owner_stays s hpost)
  | cons p ps =>
    rw [List.cons_append]
    refine congrArg some ?_
    rw [List.foldl_append, List.foldl_cons, if_pos, foldl_owner_stays s hpost]
    obtain ⟨h1, h2⟩ := hpre _ (foldl_owner_mem s ps p)
    exact laterEnd_of h1 h2

/-! ## What the readings read is as the request found it -/

section
variable (tag : Tag) (s : State)

theorem taking_listed (b : Base) : (taking tag s).listed b = s.listed b := by
  rw [taking_eq, restartSilence_eq]
  cases b <;> rfl

theorem taking_pinLevel (l : OutLine) : (taking tag s).pinLevel l = s.pinLevel l := by
  unfold State.pinLevel
  rw [taking_held, taking_run, restartSilence_state, taking_output]

theorem taking_owner (l : OutLine) : (taking tag s).owner l = s.owner l := by
  rw [taking_eq, restartSilence_eq]
  rfl

theorem taking_outputBytes (l : OutLine) : outputBytes l (taking tag s) = outputBytes l s := by
  unfold outputBytes
  rw [taking_output, taking_pinLevel, taking_owner]

end

/-! ## The readings -/

theorem takeListSchedule_bad {list start maximum : Byte}
    (h : 1 < list.toNat ∨ maximum.toNat < 1 ∨ 12 < maximum.toNat) (t : State) :
    takeListSchedule list start maximum t = (t, reply .badValue) := by
  unfold takeListSchedule
  split
  · rfl
  · rename_i b hb
    rcases h with h | h
    · rw [baseOf_bad h] at hb
      cases hb
    · exact if_pos h

theorem takeListSchedule_good {list start maximum : Byte} {b : Base} {t : State} {all : List (List Byte)}
    (hb : baseOf list = some b) (h1 : 1 ≤ maximum.toNat) (h2 : maximum.toNat ≤ 12) (ha : t.listed b = all) :
    takeListSchedule list start maximum t = (t, replyOk (BitVec.ofNat 8 all.length
      :: BitVec.ofNat 8 (min maximum.toNat (all.length - start.toNat))
      :: ((all.drop start.toNat).take maximum.toNat).flatten)) := by
  unfold takeListSchedule
  rw [hb]
  dsimp only
  rw [if_neg (by omega), ha, List.length_take, List.length_drop]

theorem takeReadRuleStats_good {first number : Byte} {t : State} (h1 : first.toNat ≤ 15) (h2 : 1 ≤ number.toNat)
    (h3 : number.toNat ≤ 8) : takeReadRuleStats first number t = (t, replyOk
      (BitVec.ofNat 8 (min number.toNat (16 - first.toNat))
        :: ((allRules.drop first.toNat).take number.toNat).flatMap (fun r => ruleStatsBytes r (t.rule r)))) := by
  unfold takeReadRuleStats
  rw [if_neg (by omega)]
  dsimp only
  rw [List.length_take, List.length_drop]
  simp [allRules]

end Sys2Proof.Machine

open Sys2Proof Sys2Proof.Machine in
/-- Settles O35: the bytes of each record field by field, the readings as lists of them, and the owner by the fold over the
holders (`owner_latest`). -/
theorem listingsRead : Obligations.ListingsRead := by
  unfold Obligations.ListingsRead
  intro s tag bit high handle listed entries output input stats
  have hbit : bit = weighed := rfl
  have hhigh (v : Level) : high v = levelHigh v := (levelHigh_eq v).symm
  have hlisted (h : Handle) (phase : Phase) (key : List Byte) (serial : Serial) :
      entryBytes h phase key serial s = listed h phase key serial := by
    unfold entryBytes
    cases hx : (s.slot h.slot).action with
    | none => simp only [listed, hx]
    | some a =>
      rcases a with ⟨origin, line, due, width, left, interval, fired, skipped, done, finish⟩
      cases origin <;> cases due <;> simp [listed, hx, listEntryFlags, hbit, weighed, Origin.isRule, Due.base,
        Origin.listBytes, Handle.bytes, handle]
  have hentries (b : Base) : s.listed b = entries b := by
    cases b with
    | time => exact List.map_congr_left fun e _ => hlisted _ _ _ _
    | travel =>
      refine List.map_congr_left fun e _ => ?_
      rw [leBytes_six_count]
      exact hlisted _ _ _ _
  have houtput (l : OutLine) : outputBytes l s = output l := by
    have hmode : modePolicyByte (s.output l) = (output l).getD 0 0 := by
      cases hm : (s.output l).mode <;> cases hp : (s.output l).policy <;>
        simp [modePolicyByte, output, hm, hp, outModeNumber, policyNumber]
    have hflags : outputFlags (s.pinLevel l) (s.output l) = (output l).getD 1 0 := by
      unfold outputFlags
      rw [flagsByte_eight]
      simp [output, hbit, hhigh]
    unfold outputBytes
    dsimp only
    rw [hmode, hflags]
    cases ho : s.owner l <;> cases ha : (s.output l).applied <;>
      simp [output, ho, ha, ownerBytes, handle, Handle.bytes, leBytes]
  have hinput (l : InLine) : inputBytes (s.input l) = input l := by
    have hflags : inputFlags (s.input l) = (input l).getD 3 0 := by
      unfold inputFlags
      rw [flagsByte_four]
      simp [input, hbit, hhigh, leBytes]
    unfold inputBytes
    rw [hflags]
    cases he : (s.input l).edgeSelect <;> cases hq : (s.input l).qual <;>
      simp [input, he, hq, edgeSelectByte, tickBytes, leBytes]
  have hstats (r : RuleNo) : ruleStatsBytes r (s.rule r) = stats r := by
    have hflags : ruleFlags (s.rule r) = (stats r).getD 1 0 := by
      cases hs : (s.rule r).state <;> simp [ruleFlags, stats, hs, hbit, weighed, ruleStateNumber]
    unfold ruleStatsBytes
    rw [hflags]
    cases hl : (s.rule r).lastFiring <;> simp [stats, hl, tickBytes, leBytes]
  refine ⟨fun list start maximum b h => ⟨fun hv => ?_, fun hb h1 h2 => ?_⟩, fun h => ?_, fun l hl => ?_,
    fun l pre h post hh hpre hpost => owner_latest hh hpre hpost, fun h => ?_,
    fun first number h => ⟨fun hv => ?_, fun h1 h2 h3 => ?_⟩, fun h => ?_⟩
  · exact answers_unchanged (r := reply .badValue) rfl rfl h (takeListSchedule_bad hv _)
  · have hbase : baseOf list = some b := by rcases hb with ⟨rfl, rfl⟩ | ⟨rfl, rfl⟩ <;> rfl
    exact answers_unchanged (r := replyOk (BitVec.ofNat 8 (entries b).length
        :: BitVec.ofNat 8 (min maximum.toNat ((entries b).length - start.toNat))
        :: (((entries b).drop start.toNat).take maximum.toNat).flatten)) rfl rfl h
      (takeListSchedule_good hbase h1 h2 ((taking_listed tag s b).trans (hentries b)))
  · refine answers_unchanged (r := replyOk (allOutputs.flatMap output)) rfl rfl h ?_
    change (taking tag s, replyOk (allOutputs.flatMap (fun l => outputBytes l (taking tag s)))) = _
    simp only [taking_outputBytes, houtput]
  · unfold State.owner
    rw [hl]
    rfl
  · refine answers_unchanged (r := replyOk (allInputs.flatMap input)) rfl rfl h ?_
    change (taking tag s, replyOk (allInputs.flatMap (fun l => inputBytes ((taking tag s).input l)))) = _
    simp only [taking_input, hinput]
  · exact answers_unchanged (r := reply .badValue) rfl rfl h (if_pos hv)
  · refine answers_unchanged (r := replyOk (BitVec.ofNat 8 (min number.toNat (16 - first.toNat))
      :: ((allRules.drop first.toNat).take number.toNat).flatMap stats)) rfl rfl h ?_
    refine (takeReadRuleStats_good h1 h2 h3).trans ?_
    simp only [taking_rule, hstats]
  · have ht : takeGetTime (taking tag s) = (taking tag s, (takeGetTime s).2) := by
      unfold takeGetTime
      rw [taking_timebase]
    have hbytes : (takeGetTime s).2 = replyOk (leBytes 6 s.now.toNat ++ leBytes 4 s.timebase.travelCount.toNat
        ++ [sourceByte s.timebase.source, BitVec.ofNat 8 (bit s.syncArmed 3 + bit s.timebase.lastSync.isSome 4
          + bit (high s.timebase.syncFiltered) 8)]
        ++ leBytes 6 ((s.timebase.preset.getD 0).toNat) ++ leBytes 6 ((s.timebase.lastSync.getD 0).toNat)) := by
      have hflags : timeFlags s.timebase = BitVec.ofNat 8 (bit s.syncArmed 3 + bit s.timebase.lastSync.isSome 4
          + bit (high s.timebase.syncFiltered) 8) := by
        unfold timeFlags
        rw [flagsByte_four, hbit, hhigh]
        cases hp : s.timebase.preset <;> simp [State.syncArmed, hp, weighed]
      unfold takeGetTime
      rw [← hflags]
      rfl
    rw [hbytes] at ht
    have hanswer := answers_unchanged (i := .getTime tag) (c := some 0x40) rfl rfl h ht
    cases hs : s.timebase.source <;> rw [hs] at hanswer <;> simpa [hs, responsePayload, replyOk, statusByte, sourceByte]
      using hanswer

end

