-- ==== Sys2Proof/Proofs/Restart.lean ====
section
/-! PROOFS. RESTART in both modes, the full reset, and the part held in reset (R26, R49, R64, R82, R83, R115, R128, R129,
R149, R150, R169, R180). -/

namespace Sys2Proof.Machine

/-! ## The full-reset values (R26, R49, R83, R115, R129, R169, R180) -/

/-- Blocks that hold their default values hold the values of the manual's tables. -/
theorem resetValues_of {t : State} (hsched : t.sched = defaultScheduler)
    (houtputs : t.outputs = Vector.replicate 12 defaultOutput) (hjournal : t.journal = defaultJournal)
    (hrules : t.rules = Vector.replicate 16 defaultRule) (hrun : t.run = defaultRun) (hfaults : t.faults = defaultFaults)
    (hqueue : t.reports.queue = []) (hinterval : t.reports.retryInterval = 50) (hretries : t.reports.maxRetries = 3)
    (henabled : t.reports.enabled = 0xFFF) : ResetValues t where
  slots i := by
    unfold State.slot
    rw [hsched, defaultScheduler_slot]
  lists := by
    rw [hsched]
    exact ⟨rfl, rfl, rfl⟩
  settings := by
    rw [hsched]
    exact ⟨rfl, rfl, rfl, rfl⟩
  outputs l := by
    simp [State.output, houtputs, getAt, defaultOutput]
  journal := hjournal
  rules r := by
    simp [State.rule, hrules, getAt, defaultRule, defaultRecord, defaultTemplate]
  run := hrun
  faults k := by
    simp [State.faultEntry, hfaults, defaultFaults, getAt, defaultFaultEntry]
  sets := by
    unfold State.isFatal State.isReported
    rw [hfaults]
    exact ⟨fun k => by cases k <;> decide, fun k => by cases k <;> rfl⟩
  reporting := ⟨hqueue, hinterval, hretries⟩
  enabled k := by
    unfold ReportUnit.enables
    rw [henabled]
    cases k <;> rfl

/-! ## The taking of a RESTART (R128, R149) -/

/-- The Host Link in which the owner block takes an admitted request (R139). -/
theorem taking_link (tag : Tag) (s : State) : (taking tag s).link = { s.link with
    assembler := .hunting, byteStarted := false
    recent := if tag = 0 then s.link.recent else s.link.recent.filter (fun e => e.tag ≠ tag) } := by
  simp [taking, frameArrived_eq]

/-- A RESTART has been taken, and the arbiter has not chosen yet. -/
def restartTaken (m : RestartMode) (tag : Tag) (s : State) : State :=
  takeRequest tag (some 0x15) (takeRestart m) (taking tag s)

theorem restartTaken_eq (m : RestartMode) (tag : Tag) (s : State) :
    restartTaken m tag s = (restartAll m (taking tag s)).withLink { s.link with
      assembler := .hunting
      byteStarted := false
      recent := []
      window := (s.link.window.filter (fun e => e.state = .sending)).map (fun e => { e with record := false })
        ++ [answeredEntry tag (some 0x15) [0x15, 0x00, restartModeByte m] (.restarted m)] } := by
  unfold restartTaken takeRequest takeRestart
  dsimp only [restartAll, restartLink]
  rw [taking_link]
  rfl

/-- Behind entries whose responses are in transmission, the arbiter takes the response of the newest request, if the
transmitter is idle; it chooses no report (R144). -/
theorem arbitrate_last {s : State} {pre : List WindowEntry} {e : WindowEntry} (hw : s.link.window = pre ++ [e])
    (hpre : ∀ x ∈ pre, x.state = .sending) (he : e.state = .answered) :
    (arbitrate s).reports = s.reports ∧ (arbitrate s).link.recent = s.link.recent
      ∧ (arbitrate s).link.linkType = s.link.linkType ∧ (arbitrate s).link.rate = s.link.rate
      ∧ (arbitrate s).link.window.map WindowEntry.content = pre.map WindowEntry.content ++ [e]
      ∧ (s.link.tx.isSome → (arbitrate s).link.tx = s.link.tx)
      ∧ (s.link.tx = none → (arbitrate s).link.tx = some ⟨responseFrame e, s.clock, 0, none⟩) := by
  have hc : e.content = e := by
    unfold WindowEntry.content
    rw [← he]
  cases htx : s.link.tx with
  | some x =>
    have ha : arbitrate s = s := by
      unfold arbitrate
      rw [htx]
    rw [ha, hw, List.map_append, List.map_singleton, hc]
    exact ⟨rfl, rfl, rfl, rfl, rfl, fun _ => htx, fun h => by cases h⟩
  | none =>
    have ha : arbitrate s = startTx (responseFrame e) none
        (s.withLink { s.link with window := pre ++ [{ e with state := .sending }] }) := by
      unfold arbitrate
      rw [htx]
      dsimp only
      rw [hw, takeResponse_first hpre (by rw [he]; decide)]
    rw [ha]
    refine ⟨rfl, rfl, rfl, rfl, ?_, fun h => (by cases h), fun _ => rfl⟩
    show (pre ++ [{ e with state := .sending }]).map WindowEntry.content = _
    rw [List.map_append, List.map_singleton]
    exact congrArg (fun x => pre.map WindowEntry.content ++ [x]) hc

/-- What a RESTART leaves of the Host Link, of its reports, and of the part beyond its blocks (R149). -/
theorem restart_linked (m : RestartMode) (tag : Tag) (s : State) :
    (arbitrate (restartTaken m tag s)).reports = restartReports m s
      ∧ (arbitrate (restartTaken m tag s)).link.recent = []
      ∧ (arbitrate (restartTaken m tag s)).link.linkType = s.link.linkType
      ∧ (arbitrate (restartTaken m tag s)).link.rate = s.link.rate
      ∧ (arbitrate (restartTaken m tag s)).link.window.map WindowEntry.content =
          ((s.link.window.filter (fun e => e.state = .sending)).map (fun e => { e.content with record := false }))
            ++ [answeredEntry tag (some 0x15) [0x15, 0x00, restartModeByte m] (.restarted m)]
      ∧ (s.link.tx.isSome → (arbitrate (restartTaken m tag s)).link.tx = s.link.tx)
      ∧ (s.link.tx = none → (arbitrate (restartTaken m tag s)).link.tx =
          some ⟨⟨.response, tag, [0x15, 0x00, restartModeByte m]⟩, s.clock, 0, none⟩)
      ∧ (arbitrate (restartTaken m tag s)).clock = s.clock ∧ (arbitrate (restartTaken m tag s)).held = s.held := by
  have heq := restartTaken_eq m tag s
  have hpre : ∀ x ∈ (s.link.window.filter (fun e => e.state = .sending)).map (fun e => { e with record := false }),
      x.state = .sending := by
    intro x hx
    obtain ⟨e, he, rfl⟩ := List.mem_map.mp hx
    simpa using (List.mem_filter.mp he).2
  have hreports : (restartTaken m tag s).reports = restartReports m s := by
    rw [heq]
    cases m
    · exact congrArg (fun u : ReportUnit => { u with queue := [], flight := [], nextSeq := 1, nextCreation := 0 })
        (taking_reports tag s)
    · rfl
  have hclock : (restartTaken m tag s).clock = s.clock := by
    rw [heq]
    exact taking_clock tag s
  have hheld : (restartTaken m tag s).held = s.held := by
    rw [heq]
    exact taking_held tag s
  obtain ⟨ha, hb, hc, hd, he, hf, hg⟩ := arbitrate_last (s := restartTaken m tag s)
    (e := answeredEntry tag (some 0x15) [0x15, 0x00, restartModeByte m] (.restarted m)) (by rw [heq]; rfl) hpre rfl
  refine ⟨ha.trans hreports, hb.trans (by rw [heq]; rfl), hc.trans (by rw [heq]; rfl), hd.trans (by rw [heq]; rfl),
    he.trans (by rw [List.map_map]; rfl), fun h => ?_, fun h => ?_, (arbitrate_clock _).trans hclock,
    (arbitrate_held _).trans hheld⟩
  · rw [hf (by rw [heq]; exact h), heq]
    rfl
  · rw [hg (by rw [heq]; exact h), hclock]
    rfl

/-- RESTART completes with the arbiter's choice on the state at its taking. -/
theorem completes_restart {i : Instr} {m : RestartMode} {tag : Tag} {s : State}
    (he : encodeRequest i = some (tag, [0x15, restartModeByte m])) (ht : takeCommand i = takeRestart m)
    (h : s.admits tag (some 0x15) = true) : Completes i s (arbitrate (restartTaken m tag s)) :=
  completes_of fun s0 hs => by
    rw [exec_taken he, ht]
    exact requestFrame_admits (by rw [← frameLength_request he]; exact hs) h _

theorem taking_restartScheduler (m : RestartMode) (tag : Tag) (s : State) :
    restartScheduler m (taking tag s) = restartScheduler m s := by
  cases m
  · unfold restartScheduler
    simp only [taking_sched, taking_slot]
  · rfl

/-! ## A full reset (R129, R168) -/

/-- RESET_DONE as the first report in flight. -/
def resetDoneSent (cause : ResetCause) : Report := ⟨.resetDone (resetCauseOf cause), 0, .sending, some 1, 0, some 3⟩

/-- With every block at its full-reset values the outbox has room for RESET_DONE, and the idle transmitter begins it. -/
theorem fullReset_sends (cause : ResetCause) (sel : Level) (s : State) :
    (arbitrate (createReport (.resetDone (resetCauseOf cause)) (resetBlocks sel s))).firm =
      ((resetBlocks sel s).withLink { defaultLink (linkOf sel) with
        tx := some ⟨reportFrame (resetDoneSent cause) false, 0, 0, none⟩ }).withReports
        { defaultReports with flight := [resetDoneSent cause], nextSeq := 2, nextCreation := 1 } := by
  have hroom : (resetBlocks sel s).hasRoom 1 := by
    show 0 + 1 ≤ Config.outboxCap
    decide
  have henabled : (resetBlocks sel s).reports.enables (ReportBody.resetDone (resetCauseOf cause)).kind = true := by
    show defaultReports.enables .resetDone = true
    decide
  rw [createReport_room _ hroom, State.filing, ReportUnit.filed, if_pos henabled]
  rfl

end Sys2Proof.Machine

open Sys2Proof Sys2Proof.Machine in
/-- Settles O30, block by block from the restart values; the Host Link as the arbiter leaves it. -/
theorem restartBothModes : Obligations.RestartBothModes := by
  unfold Obligations.RestartBothModes
  intro s tag h
  refine ⟨⟨arbitrate (restartTaken .keep tag s), completes_restart rfl rfl h, ?_⟩,
    ⟨arbitrate (restartTaken .clear tag s), completes_restart rfl rfl h, ?_⟩⟩
  · obtain ⟨hreports, hlink⟩ := restart_linked .keep tag s
    refine ⟨?_, ?_, fun l => ?_, ?_, fun l => ?_, ?_, fun r => ?_, hreports, ?_, ?_, fun k => ?_, hlink⟩
    · rw [arbitrate_run, restartTaken_eq]
      simp [restartAll, restartRun, defaultRun]
    · rw [arbitrate_sched, restartTaken_eq]
      exact taking_restartScheduler .keep tag s
    · unfold State.output
      rw [arbitrate_outputs, restartTaken_eq]
      simp [restartAll, restartOutputs, State.output, Output.restarted, Output.stopTrain]
    · rw [arbitrate_timebase, restartTaken_eq]
      simp [restartAll, restartTimebase, requalify, taking_now]
    · unfold State.input
      rw [arbitrate_inputs, restartTaken_eq]
      simp [restartAll, restartTimebase, Input.restarted, requalify, State.input, State.now]
    · rw [arbitrate_journal, restartTaken_eq]
      simp [restartAll, restartJournal, defaultJournal]
    · unfold State.rule
      rw [arbitrate_rules, restartTaken_eq]
      simp [restartAll, restartRules, Rule.zeroed, State.rule]
    · rw [arbitrate_faults, restartTaken_eq]
      simp [restartAll, restartFaults]
    · rw [arbitrate_faults, restartTaken_eq]
      simp [restartAll, restartFaults]
    · unfold State.faultEntry
      rw [arbitrate_faults, restartTaken_eq]
      simp [restartAll, restartFaults, getAt, defaultFaultEntry]
  · obtain ⟨hreports, hlink⟩ := restart_linked .clear tag s
    have hblocks := restartTaken_eq .clear tag s
    refine ⟨resetValues_of ?_ ?_ ?_ ?_ ?_ ?_ ?_ ?_ ?_ ?_, ?_, ?_, ?_, ?_, fun l => ?_, hlink⟩
    · rw [arbitrate_sched, hblocks]; rfl
    · rw [arbitrate_outputs, hblocks]; rfl
    · rw [arbitrate_journal, hblocks]; rfl
    · rw [arbitrate_rules, hblocks]; rfl
    · rw [arbitrate_run, hblocks]; rfl
    · rw [arbitrate_faults, hblocks]; rfl
    iterate 7 · rw [hreports]; rfl
    · rw [arbitrate_timebase, hblocks]
      simp [restartAll, restartTimebase, requalify, defaultTimebase]
    · unfold State.input
      rw [arbitrate_inputs, hblocks]
      simp [restartAll, restartTimebase, Input.restarted, requalify, defaultTimebase, defaultInput,
        State.input]

open Sys2Proof Sys2Proof.Machine in
/-- Settles O60: a full reset makes the default blocks and sends RESET_DONE; held in reset, the part is the state with its
transmitter emptied. -/
theorem resets : Obligations.Resets := by
  unfold Obligations.Resets
  refine ⟨fun cause sel s => ⟨_, rfl, ?_⟩, fun s => ⟨_, rfl, rfl, fun l => rfl, rfl, rfl, rfl, rfl⟩⟩
  rw [fullReset_sends]
  refine ⟨resetValues_of rfl rfl rfl rfl rfl rfl rfl rfl rfl rfl, rfl, fun l => getAt_tabulate _ l, ?_, ?_, rfl, rfl, rfl,
    rfl, fun l => ?_⟩
  · cases cause <;> cases sel <;> rfl
  · cases cause <;> rfl
  · have hl : ((resetBlocks sel s).output l) = defaultOutput := by
      simp [State.output, resetBlocks, getAt]
    exact congrArg Output.modeLevel hl

end

