-- ==== Sys2Proof/Proofs/Fatal.lean ====
section
/-! PROOFS. The silence timer's expiry and the entry into FAULTED (R25, R47, R122, R125). -/

namespace Sys2Proof.Machine

/-- The FAULT report of a counting, with room for it: filed for the first counting of a kind in the report set, and for no
other (R172). -/
def ReportUnit.toldFault (s : State) (k : FaultKind) (d : Option FaultDetail) : ReportUnit :=
  if (s.faultEntry k).count = 0 ∧ s.isReported k = true then s.reports.filed (.fault k 1 d) else s.reports

/-- A counting of a fatal kind in ARMED or DRAINING, with room for its report, is recorded and told, and fatal entry
follows (R172). -/
theorem countFault_fatal {k : FaultKind} (d : Option FaultDetail) {s : State} (hr : s.hasRoom 1)
    (hf : s.isFatal k = true) (hs : s.run.state.sequencing = true) :
    countFault k d s = fatalEntry k { s with
      faults := (recordFault k d s).faults, reports := ReportUnit.toldFault s k d } := by
  have hc : createReport (.fault k 1 d) (recordFault k d s) = (recordFault k d s).filing (.fault k 1 d) :=
    createReport_room _ hr
  unfold countFault countWith ReportUnit.toldFault
  have hrep : (recordFault k d s).isReported k = s.isReported k := rfl
  simp only [and_true, hc, hrep]
  by_cases hn : (s.faultEntry k).count = 0 ∧ s.isReported k = true
  · rw [if_pos hn, if_pos hn, if_pos ⟨hf, hs⟩]
    rfl
  · rw [if_neg hn, if_neg hn, if_pos ⟨hf, hs⟩]
    rfl

/-- Fatal entry with room for its report: the four steps, and nothing else (R122). -/
theorem fatalEntry_room (k : FaultKind) {s : State} (hr : s.hasRoom 1) :
    fatalEntry k s = (enterFaulted s).filing (.runState .faulted (.fatal k) (96 - s.freeCount)) :=
  createWith_room _ _ hr

theorem toldFault_room {k : FaultKind} (d : Option FaultDetail) {s : State} {n : Nat} (hr : s.hasRoom (n + 1)) :
    (s.withReports (ReportUnit.toldFault s k d)).hasRoom n := by
  unfold ReportUnit.toldFault
  split
  · exact hasRoom_filing _ hr
  · exact hasRoom_mono hr (Nat.le_succ n)

/-- In FAULTED every pin shows its safe level (R122). -/
theorem pinLevel_faulted {s : State} (hh : s.held = false) (hs : s.run.state = .faulted) (l : OutLine) :
    s.pinLevel l = (s.output l).safe := by
  unfold State.pinLevel
  rw [if_neg (by simp [hh]), if_pos hs]

end Sys2Proof.Machine

open Sys2Proof Sys2Proof.Machine in
/-- Settles O52: the expiry runs when its ticks have passed; a counting with room is recorded, told, and followed by the four
steps of fatal entry. -/
theorem silenceAndFatalEntry : Obligations.SilenceAndFatalEntry := by
  unfold Obligations.SilenceAndFatalEntry
  refine ⟨fun s start n hh hs hn hq => ?_, fun k d s hr hf hrun => ?_⟩
  · subst hn
    refine whenDue_eq (event := expireSilence) hh ?_ hq
    unfold silenceDue msLeft
    rw [hs]
    rfl
  · have heq : countFault k d s = (enterFaulted { s with
        faults := (recordFault k d s).faults, reports := ReportUnit.toldFault s k d }).filing
          (.runState .faulted (.fatal k) (96 - s.freeCount)) :=
      (countFault_fatal d (hasRoom_mono hr (by decide)) hf ((sequencing_iff _).mpr hrun)).trans
        (fatalEntry_room k (toldFault_room d hr))
    refine ⟨heq, fun l hh => ?_⟩
    have hsafe := congrArg Output.safe (enterFaulted_output { s with
      faults := (recordFault k d s).faults, reports := ReportUnit.toldFault s k d } l)
    rw [pinLevel_faulted (by rw [heq]; exact hh) (by rw [heq]; rfl), heq]
    exact hsafe

end

