-- ==== Sys2Proof/Proofs/Expiry.lean ====
section
/-! PROOFS. The head of the time list expires (R8, R10, R11, R30, R31). -/

namespace Sys2Proof.Machine

/-! ## The time list ahead, once more -/

theorem timeListAhead_freeSlot {s : State} (h : Handle) (e : Ended) (ha : s.timeListAhead) :
    (freeSlot h e s).timeListAhead := by
  obtain ⟨w, hw⟩ := freeSlot_steps (V := []) h e s
  intro y hy
  rw [(freeSlot_onlyWork h e s).now]
  exact ha y ((hw.entriesFrom.time y hy).resolve_right (by simp))

/-! ## The head of the time list is reached -/

section
variable {s : State} {e : TimeEntry} {rest : List TimeEntry} (hl : s.sched.timeList = e :: rest)
include hl

/-- The head of the time list, reached or behind, is carried out; when that leaves nothing due the lists rest (R8). -/
theorem expireTimeList_head (hd : tickAhead s.now e.key = false) {u : State} {hs : List Handle}
    (hu : carryOutTime e (s.withSched { s.sched with timeList := rest }) = (u, hs)) (ha : u.timeListAhead)
    (hn : ∀ y ∈ hs, u.startDue y = false) : expireTimeList s = u := by
  have hpop : popTime s = s.withSched { s.sched with timeList := rest } := by
    unfold popTime
    rw [hl]
    rfl
  have hexp : expiredTime ⟨true, s.listedHandles, none⟩ s = some e := by
    unfold expiredTime
    rw [hl]
    simp [hd]
  obtain ⟨n, hfuel⟩ := expiryBound_of_time hl
  calc expireLists ⟨true, s.listedHandles, none⟩ [] s
    _ = runLists ⟨true, s.listedHandles, none⟩ (n + 1) [] s := by rw [← hfuel]; rfl
    _ = u := by
      rw [runLists_expired n hexp, hpop, hu]
      exact runLists_waits ha rfl hn

theorem timeListDue_head (hk : e.key = s.now ∨ tickAhead s.now e.key = true) :
    timeListDue s = some (e.key - s.now).toNat := by
  unfold timeListDue
  rw [hl]
  dsimp only
  rcases hk with hk | hk
  · rw [hk]
    simp
  · rw [if_pos hk]

end

/-- The time left to a key runs on to it. -/
theorem elapse_toKey (key : Tick) (s : State) : (elapse (key - s.now).toNat s).now = key := by
  rw [elapse_now, BitVec.ofNat_toNat, BitVec.setWidth_eq]
  bv_omega

theorem tickAhead_self (t : Tick) : tickAhead t t = false := by
  simp [tickAhead]

/-- The tick at which the head of the time list is reached, the head taken out. -/
def State.atHead (s : State) (e : TimeEntry) (rest : List TimeEntry) : State :=
  (elapse (e.key - s.now).toNat s).withSched { s.sched with timeList := rest }

theorem State.atHead_now (s : State) (e : TimeEntry) (rest : List TimeEntry) : (s.atHead e rest).now = e.key :=
  elapse_toKey e.key s

/-- Time runs on to the head of the time list, which is carried out; when that leaves nothing due the lists rest. -/
theorem exec_timeListExpiry {s : State} {e : TimeEntry} {rest : List TimeEntry} (hh : s.held = false)
    (hl : s.sched.timeList = e :: rest) (hk : e.key = s.now ∨ tickAhead s.now e.key = true)
    (hq : s.quietFor (e.key - s.now).toNat) {u : State} {hs : List Handle}
    (hu : carryOutTime e (s.atHead e rest) = (u, hs)) (ha : u.timeListAhead) (hn : ∀ y ∈ hs, u.startDue y = false) :
    exec .timeListExpiry s = .next (arbitrate u) := by
  refine (whenDue_eq (event := expireTimeList) hh (timeListDue_head hl hk) hq).trans ?_
  rw [expireTimeList_head (s := elapse (e.key - s.now).toNat s) hl (by rw [elapse_toKey]; exact tickAhead_self _) hu
    ha hn]

/-- The START of a WAITING action at its due, on its idle line, is accepted (R10, R30). -/
theorem carryOutTime_start {s : State} {e : TimeEntry} {a : Action} (hnow : s.now = e.key) (hp : e.phase = .start)
    (hw : s.waitingAction e.handle = some a) (hd : a.due = .time e.key) (hh : (s.output a.line).holders = []) :
    carryOutTime e s = (acceptStart e.handle a s.now s, []) := by
  have hl : s.lateBy a.due = none := by
    rw [hd, lateBy_time (by simp [hnow]), if_pos (by simp [hnow])]
  unfold carryOutTime
  rw [hp]
  exact (startAction_onTime s.now hw hl).trans (startOnLine_accepts (.inl hh))

/-- The END of a HOLDING action releases its line, and the action proceeds (R11, R31). -/
theorem carryOutTime_finish {s : State} {e : TimeEntry} {a : Action} (hp : e.phase = .finish)
    (ha : s.holdingAction e.handle = some a) :
    carryOutTime e s = proceed e.handle a (release a.line e.handle s) := by
  unfold carryOutTime endAction
  rw [hp]
  simp only [ha]

/-- A START taken on its idle line: HOLDING, the line's only holder, its END filed its width after the START tick (R10,
R30). -/
theorem acceptStart_idle {s : State} {h : Handle} {a : Action} (tick : Tick) (hh : (s.output a.line).holders = []) :
    acceptStart h a tick s = (s.putOutput a.line { s.output a.line with holders := [h] }).withSched { s.sched with
      slots := setAt s.sched.slots h.slot
        ⟨h.gen, .holding { a with fired := a.fired + 1 } (tick + a.width.setWidth 48)⟩
      timeList := fileBy TimeEntry.before
        ⟨h, .finish, tick + a.width.setWidth 48, s.sched.nextSerial⟩ s.sched.timeList
      nextSerial := s.sched.nextSerial + 1 } := by
  unfold acceptStart
  rw [hh]
  rfl

end Sys2Proof.Machine

open Sys2Proof Sys2Proof.Machine in
/-- Settles O53: the head is carried out in the state with the rest of the list, by its phase and, for an END, by what is left
of its repeats. -/
theorem timeListExpires : Obligations.TimeListExpires := by
  unfold Obligations.TimeListExpires
  intro s e rest n hh hl hk hrest hn hq
  subst hn
  have hrun := @exec_timeListExpiry s e rest hh hl hk hq
  have hnow := s.atHead_now e rest
  have hau : (s.atHead e rest).timeListAhead := by
    intro y hy
    rw [hnow]
    exact hrest y hy
  refine ⟨fun a hp hs hd hwidth hholders => ?_, fun a finish hp hs => ?_⟩
  · have hstart := carryOutTime_start hnow hp (State.waitingAction_eq.mpr hs) hd hholders
    rw [hrun hstart (timeListAhead_acceptStart e.handle hau hwidth) (by simp),
      acceptStart_idle (s := s.atHead e rest) _ hholders, hnow]
    rfl
  · have hend := carryOutTime_finish (s := s.atHead e rest) hp (State.holdingAction_eq.mpr ⟨finish, hs⟩)
    have har : (release a.line e.handle (s.atHead e rest)).timeListAhead := hau
    have hg : ((release a.line e.handle (s.atHead e rest)).slot e.handle.slot).gen = e.handle.gen :=
      congrArg Slot.gen hs
    refine ⟨fun hrep => ?_, fun m interval t hrep hi hd hta => ?_, fun m interval c hrep hi hd hca => ?_⟩
    · refine hrun (hs := []) (hend.trans ?_) (timeListAhead_freeSlot _ _ har) (by simp)
      unfold proceed
      rw [hrep]
      rfl
    · rw [← hnow] at hta
      rw [hrun (hend.trans (proceed_time hg hrep hi hd)) (timeListAhead_joinTime _ _ har hta) (by simp)]
      rfl
    · rw [hrun (hend.trans (proceed_travel hg hrep hi hd)) har ?_]
      · rfl
      · exact joinStart_notDue (a := { a with due := .travel (c + interval), repeatsLeft := m }) hca
          (State.waitingAction_eq.mpr (State.slot_putSlot_self _ _ _))

end

