-- ==== Sys2Proof/Proofs/Firing.lean ====
section
/-! PROOFS. A rule fires (R3, R4, R104 to R107). -/

namespace Sys2Proof.Machine

/-! ## The slots granted (R4, R105) -/

/-- One slot takes the action of one template, with the gen after the one it had in `s` (R4). -/
def grant (s : State) (f : Template → Action) (u : State) (p : SlotNo × Template) : State :=
  u.putSlot p.1 ⟨(s.slot p.1).gen + 1, .waiting (f p.2)⟩

theorem grant_slot (s : State) (f : Template → Action) (u : State) (p : SlotNo × Template) {i : SlotNo} (hi : i ≠ p.1) :
    (grant s f u p).slot i = u.slot i :=
  State.slot_putSlot_ne _ _ _ _ hi

/-- Slots taken one after another each take the gen after the one they had. -/
theorem allocateAll_grants {s : State} (f : Template → Action) {slots : List SlotNo} {ts : List Template} {u : State}
    (hd : slots.Nodup) (hu : ∀ i ∈ slots, u.slot i = s.slot i) :
    allocateAll (slots.zip (ts.map f)) u = (slots.zip ts).foldl (grant s f) u := by
  induction slots generalizing ts u with
  | nil => rfl
  | cons i slots ih =>
    cases ts with
    | nil => rfl
    | cons t ts =>
      obtain ⟨hi, hd'⟩ := List.nodup_cons.mp hd
      have hput : allocate i (f t) u = grant s f u (i, t) := by
        unfold allocate grant
        rw [hu i List.mem_cons_self]
      rw [List.map_cons, List.zip_cons_cons, List.zip_cons_cons, List.foldl_cons, allocateAll, hput]
      exact ih hd' fun j hj => (grant_slot s f u (i, t) (by rintro rfl; exact hi hj)).trans
        (hu j (List.mem_cons_of_mem _ hj))

/-- A slot granted has the gen after the one it had, and another keeps its own. -/
theorem grants_gen (s : State) (f : Template → Action) (l : List (SlotNo × Template)) (u : State) (i : SlotNo) :
    ((l.foldl (grant s f) u).slot i).gen = if i ∈ l.map Prod.fst then (s.slot i).gen + 1 else (u.slot i).gen := by
  induction l generalizing u with
  | nil => rfl
  | cons p l ih =>
    rw [List.foldl_cons, ih]
    by_cases hl : i ∈ l.map Prod.fst
    · rw [if_pos hl, if_pos (by simp only [List.map_cons, List.mem_cons, hl, or_true])]
    · rw [if_neg hl]
      by_cases hi : i = p.1
      · subst hi
        rw [if_pos (by simp)]
        exact congrArg Slot.gen (State.slot_putSlot_self _ _ _)
      · rw [if_neg (by simpa [hi] using hl), grant_slot _ _ _ _ hi]

/-- The handles of the actions allocated (R4). -/
theorem grants_handles (s : State) (f : Template → Action) {slots : List SlotNo} {ts : List Template} (u : State)
    (hl : slots.length = ts.length) :
    slots.map ((slots.zip ts).foldl (grant s f) u).handleOf = slots.map (fun i => ⟨i, (s.slot i).gen + 1⟩) := by
  refine List.map_congr_left fun i hi => ?_
  unfold State.handleOf
  rw [grants_gen, if_pos (by rwa [List.map_fst_zip (le_of_eq hl)])]

theorem grants_onlyWork (s : State) (f : Template → Action) (l : List (SlotNo × Template)) (u : State) :
    OnlyWork u (l.foldl (grant s f) u) := by
  induction l generalizing u with
  | nil => exact .refl u
  | cons p l ih => exact OnlyWork.trans (t := grant s f u p) rfl (ih (grant s f u p))

theorem joinAll_eq_foldl (hs : List Handle) (s : State) : joinAll hs s = hs.foldl (fun u h => joinAction h u) s := by
  induction hs generalizing s with
  | nil => rfl
  | cons h hs ih => exact ih (joinAction h s)

/-! ## The firing (R104, R106, R107) -/

/-- A LISTENING rule that an edge matches, its gate and holdoff passed and its slots free, fires in the lowest FREE
slots (R99, R103, R104). -/
theorem evalRule_fires {s : State} {r : RuleNo} {e : EdgeEvent} (hl : (s.rule r).state = .listening)
    (hm : (s.rule r).active.matchesEdge e = true) (hg : s.gateMet (s.rule r).active = true)
    (hh : (s.rule r).heldOff e.timestamp = false)
    (hr : (s.rule r).active.templates.length + s.sched.reserve ≤ s.freeCount) :
    evalRule r e s = fireRule r (s.freeSlots.take (s.rule r).active.templates.length) e s := by
  unfold evalRule
  simp only [hl, hm, hg, hh, ne_eq, not_true_eq_false, Bool.true_eq_false, Bool.false_eq_true, if_false]
  unfold requestSlots
  exact if_pos hr

/-- The test of the limit, from what the firing left in the rule's record (R107). -/
theorem testLimit_of {s : State} {r : RuleNo} {x : Rule} (h : s.rule r = x) : testLimit r s =
    if x.active.limit = some x.fired then
      createReport (.ruleSpent r x.generation) (s.putRule r { s.rule r with state := .spent })
    else s := by
  subst h
  rfl

/-- Counting a firing and telling of it leaves in the rule's record the serial and the tick (R105, R106). -/
theorem told_rule {s u : State} {r : RuleNo} (w : OnlyWork s u) (n : Nat) (t : Tick) (tell : Bool) (b : ReportBody) :
    (if tell then createReport b (u.putRule r { u.rule r with fired := n, lastFiring := some t })
      else u.putRule r { u.rule r with fired := n, lastFiring := some t }).rule r =
      { s.rule r with fired := n, lastFiring := some t } := by
  have hu : u.rule r = s.rule r := by
    unfold State.rule
    rw [w.rules]
  have hput : (u.putRule r { u.rule r with fired := n, lastFiring := some t }).rule r =
      { s.rule r with fired := n, lastFiring := some t } := by
    rw [State.rule_putRule_self, hu]
  split
  · unfold State.rule
    rw [(createReport_onlyWork _ _).rules]
    exact hput
  · exact hput

end Sys2Proof.Machine

open Sys2Proof Sys2Proof.Machine in
/-- Settles O59: the slots asked for are the lowest FREE ones, and the firing is followed step by step; with one template whose
due is ahead, the first clause and `joinAction_waits`. -/
theorem ruleFires : Obligations.RuleFires := by
  unfold Obligations.RuleFires
  refine (and_iff_left_of_imp fun hfirst => ?_).mpr fun s r e slots => ?_
  · intro s r e t i
    dsimp only
    intro hl hm hg hh ht hb hlim hahead hres hfree hlow hta
    have h := hfirst s r e [i] hl hm hg hh (by rw [ht]; exact hres) (by rw [ht]; rfl) (List.pairwise_singleton _ _)
      (by simpa using hfree) fun k hk j hlt hj => by
        rw [List.mem_singleton.mp hk] at hlt
        rw [hlow j hlt] at hj
        cases hj
    dsimp only at h
    rw [if_neg (by rw [hlim]; simp)] at h
    simp only [ht, hb, List.zip_cons_cons, List.zip_nil_right, List.foldl_cons, List.foldl_nil, List.map_cons,
      List.map_nil] at h
    have hjoin (a : Machine.Action) (hd : s.dueAhead a.due = true) :
        joinAction ⟨i, (s.slot i).gen + 1⟩ (s.putSlot i ⟨(s.slot i).gen + 1, .waiting a⟩) =
          joinStart ⟨i, (s.slot i).gen + 1⟩ a.due (s.putSlot i ⟨(s.slot i).gen + 1, .waiting a⟩) :=
      joinAction_waits (State.waitingAction_eq.mpr (State.slot_putSlot_self _ _ _)) hta hd
    rw [h, hjoin]
    · rfl
    · exact hahead
  · intro x serial action handles hl hm hg hh hr hlen hp hf hlow granted joined counted told
    have hnd : slots.Nodup := hp.imp ne_of_lt
    rw [evalRule_fires hl hm hg hh hr, ← hlen, freeSlots_take hp hf hlow]
    unfold fireRule
    dsimp only
    rw [allocateAll_grants (templateAction r x e) hnd fun _ _ => rfl, grants_handles s _ s hlen, joinAll_eq_foldl]
    have hwork : OnlyWork s joined :=
      (grants_onlyWork s (templateAction r x e) _ s).trans (joinAll_eq_foldl handles granted ▸ joinAll_onlyWork handles _)
    exact testLimit_of (told_rule hwork serial e.timestamp _ _)

end

