-- ==== Sys2Proof/Proofs/InputEdges.lean ====
section
/-! PROOFS. An input edge is accepted and handed on (R9, R10, R53, R67, R69, R70, R75, R76, R79, R98). -/

namespace Sys2Proof.Machine

/-! ## The edge is handed on (R70) -/

/-- An edge is handed on: one of a selected kind to the journal, if it is enabled, and to the rules (R69, R70). -/
def passOn (e : EdgeEvent) (u : State) : State :=
  if (u.input e.line).edgeSelect.passes e.kind then
    evaluateEdge e (if (u.input e.line).journalEnable then offerEdge e u else u)
  else u

/-- An edge kind passes the edge select that names it, or both (R69). -/
theorem passes_iff (x : EdgeSelect) (k : EdgeKind) :
    x.passes k = true ↔ x = .both ∨ (x = .rising ∧ k = .rising) ∨ (x = .falling ∧ k = .falling) := by
  cases x <;> cases k <;> simp [EdgeSelect.passes]

theorem offerEdge_stores {e : EdgeEvent} {u : State} (hc : u.journal.records.length < Config.journalCap)
    (hw : u.journal.watermarkArmed = false ∨ u.journal.records.length + 1 ≠ u.journal.watermark) :
    offerEdge e u = u.withJournal { u.journal with
      records := u.journal.records ++ [u.journal.recordOf e], nextSerial := u.journal.nextSerial + 1, lostRun := 0 } := by
  unfold offerEdge
  rw [if_pos hc]
  unfold storeEdge
  dsimp only
  rw [if_neg]
  rintro ⟨ha, hl⟩
  rw [List.length_append, List.length_singleton] at hl
  rcases hw with hw | hw
  · rw [hw] at ha
    cases ha
  · exact hw hl

theorem offerEdge_watermark {e : EdgeEvent} {u : State} (hc : u.journal.records.length < Config.journalCap)
    (ha : u.journal.watermarkArmed = true) (hl : u.journal.records.length + 1 = u.journal.watermark) :
    offerEdge e u = createReport (.journalLevel u.journal.watermark) (u.withJournal { u.journal with
      records := u.journal.records ++ [u.journal.recordOf e], nextSerial := u.journal.nextSerial + 1, lostRun := 0
      watermarkArmed := false }) := by
  unfold offerEdge
  rw [if_pos hc]
  unfold storeEdge
  dsimp only
  rw [List.length_append, List.length_singleton, hl, if_pos ⟨ha, rfl⟩]

theorem offerEdge_loses {e : EdgeEvent} {u : State} (hc : Config.journalCap ≤ u.journal.records.length) :
    offerEdge e u = countFault .journalLost (some (.input e.line)) (u.withJournal { u.journal with
      lostRun := if u.journal.lostRun < 65535 then u.journal.lostRun + 1 else u.journal.lostRun }) := by
  unfold offerEdge
  rw [if_neg (Nat.not_lt.mpr hc)]
  rfl

/-- What handing an edge on comes to, case by case. -/
theorem passOn_handedOn {l : InLine} {k : EdgeKind} {ts : Tick} {u : State} {selected : Prop}
    (hs : (u.input l).edgeSelect.passes k = true ↔ selected) :
    EdgeHandedOn l k ts selected u (passOn ⟨l, k, ts, u.timebase.travelCount⟩ u) := by
  have hoff (h : ¬ selected) : passOn ⟨l, k, ts, u.timebase.travelCount⟩ u = u := if_neg (fun c => h (hs.mp c))
  have hon (h : selected) (hj : (u.input l).journalEnable = true) : passOn ⟨l, k, ts, u.timebase.travelCount⟩ u =
      evaluateEdge ⟨l, k, ts, u.timebase.travelCount⟩ (offerEdge ⟨l, k, ts, u.timebase.travelCount⟩ u) := by
    unfold passOn
    rw [if_pos (hs.mpr h), if_pos hj]
  refine ⟨hoff, fun h hj => ?_, fun h hj hc hw => ?_, fun h hj hc ha hl => ?_, fun h hj hc => ?_⟩
  · unfold passOn
    rw [if_pos (hs.mpr h), if_neg (by simp [hj])]
  · rw [hon h hj, offerEdge_stores hc hw]
    rfl
  · rw [hon h hj, offerEdge_watermark hc ha hl]
    rfl
  · rw [hon h hj, offerEdge_loses hc]

/-! ## The travel count advances (R9, R52, R53) -/

/-- The qualification of a line gone, its filtered level changed (R67). -/
def settleInput (l : InLine) (q : Qualification) (s : State) : State :=
  s.putInput l { s.input l with filtered := q.level, qual := none }

/-- The edge of an accepted qualification is handed on, with the travel count as the edge leaves it (R70). -/
theorem acceptEdge_eq {l : InLine} {q : Qualification} {s : State} (h : (s.input l).qual = some q) :
    acceptEdge l s = passOn ⟨l, edgeKindOf q.level, q.rawTick,
      (advanceTravel l q (settleInput l q s)).timebase.travelCount⟩ (advanceTravel l q (settleInput l q s)) := by
  unfold acceptEdge
  simp only [h]
  rfl

theorem advanceTravel_off {l : InLine} {q : Qualification} {s : State}
    (h : s.timebase.source ≠ some l ∨ q.level = .low) : advanceTravel l q s = s := by
  unfold advanceTravel
  rw [if_neg]
  rintro ⟨h1, h2⟩
  rcases h with h | h
  · exact h h1
  · rw [h] at h2
    cases h2

/-- The state with the travel count advanced (R53). -/
def State.counted (s : State) : State :=
  s.withTimebase { s.timebase with travelCount := s.timebase.travelCount + 1 }

theorem advanceTravel_on {l : InLine} {q : Qualification} {s : State} (hs : s.timebase.source = some l)
    (hq : q.level = .high) : advanceTravel l q s = expireTravelList q.rawTick s.counted :=
  if_pos ⟨hs, hq⟩

/-- Nothing of the lists being due, the travel list waits (R9). -/
theorem expireTravelList_waits {s : State} (edge : Tick) (ha : s.timeListAhead)
    (ht : ∀ e ∈ s.sched.travelList, countAhead s.timebase.travelCount e.key = true) : expireTravelList edge s = s :=
  runLists_at_rest _ ha (.inr ht)

/-- A START due at the new count on its idle line is taken, its START tick the timestamp of the travel edge (R9, R10). -/
theorem expireTravelList_start {s : State} {edge : Tick} {e : TravelEntry} {rest : List TravelEntry} {a : Action}
    (ha : s.timeListAhead) (hl : s.sched.travelList = e :: rest) (hk : e.key = s.timebase.travelCount)
    (hr : ∀ y ∈ rest, countAhead e.key y.key = true) (hw : s.waitingAction e.handle = some a)
    (hd : a.due = .travel e.key) (hh : (s.output a.line).holders = [])
    (hf : tickAhead s.now (edge + a.width.setWidth 48) = true) :
    expireTravelList edge s = acceptStart e.handle a edge (s.withSched { s.sched with travelList := rest }) := by
  have hpop : popTravel s = s.withSched { s.sched with travelList := rest } := by
    unfold popTravel
    rw [hl]
    rfl
  have hexp : expiredTravel s = some e := by
    unfold expiredTravel
    rw [hl]
    simp [hk, countAhead]
  have htick : travelTick ⟨false, s.listedHandles, some edge⟩ edge e s = edge := by
    unfold travelTick Expiry.stood
    rw [if_pos (by simp [State.listedHandles, hl])]
  have hlate : (popTravel s).lateBy a.due = none := by
    rw [hd, lateBy_travel (s := popTravel s) (by rw [hk]; simp [popTravel]), if_pos (by rw [hk]; simp [popTravel])]
  have hstart : startAction e.handle edge (popTravel s) = (acceptStart e.handle a edge (popTravel s), []) :=
    (startAction_onTime (s := popTravel s) edge hw hlate).trans (startOnLine_accepts (.inl hh))
  obtain ⟨n, hfuel⟩ := expiryBound_of_travel hl
  have hrest : runLists (Expiry.without ⟨false, s.listedHandles, some edge⟩ e.handle) n []
      (acceptStart e.handle a edge (popTravel s)) = acceptStart e.handle a edge (popTravel s) := by
    refine runLists_at_rest _ (timeListAhead_joinTime _ _ ha hf) (.inr fun y hy => ?_)
    rw [hpop] at hy
    exact hk ▸ hr y hy
  calc expireLists ⟨false, s.listedHandles, some edge⟩ [] s
    _ = runLists ⟨false, s.listedHandles, some edge⟩ (n + 1) [] s := by rw [← hfuel]; rfl
    _ = acceptStart e.handle a edge (popTravel s) := by
      rw [runLists, expiredTime_none ha]
      simp only [hexp, htick, hstart]
      exact hrest
    _ = _ := by rw [hpop]

/-- Time runs on to the end of a qualification, and its edge is accepted (R67). -/
theorem exec_inputEdgeAccepted {s : State} {l : InLine} {q : Qualification} {n : Nat} (hh : s.held = false)
    (hq : (s.input l).qual = some q) (hn : n = (s.input l).width - (s.now - q.rawTick).toNat) (hquiet : s.quietFor n) :
    exec (.inputEdgeAccepted l) s = .next (arbitrate (acceptEdge l (elapse n s))) := by
  subst hn
  refine whenDue_eq (event := acceptEdge l) hh ?_ hquiet
  unfold edgeDue
  rw [hq]
  rfl

end Sys2Proof.Machine

open Sys2Proof Sys2Proof.Machine in
/-- Settles O56, by what the travel count does: it stays, it advances with nothing due, or it reaches the head of the travel
list. -/
theorem edgesAccepted : Obligations.EdgesAccepted := by
  unfold Obligations.EdgesAccepted
  intro s l q n hh hq hn hquiet kind selected u counted
  have hkind : edgeKindOf q.level = kind := by
    show edgeKindOf q.level = if q.level = .high then .rising else .falling
    cases q.level <;> rfl
  have hexec := exec_inputEdgeAccepted hh hq hn hquiet
  rw [acceptEdge_eq (s := elapse n s) hq, hkind] at hexec
  have hsel : (u.input l).edgeSelect.passes kind = true ↔ selected := by
    rw [State.input_putInput_self]
    exact passes_iff _ _
  refine ⟨fun hoff => ?_, fun hsrc hhigh hta => ⟨fun hahead => ?_, fun e rest a hl hk hr hs hd hidle hf => ?_⟩⟩
  · rw [advanceTravel_off (s := settleInput l q (elapse n s)) hoff] at hexec
    exact ⟨_, passOn_handedOn hsel, hexec⟩
  · have hadv : advanceTravel l q (settleInput l q (elapse n s)) = counted :=
      (advanceTravel_on (s := settleInput l q (elapse n s)) hsrc hhigh).trans
        (expireTravelList_waits (s := counted) _ hta hahead)
    rw [hadv] at hexec
    exact ⟨_, passOn_handedOn hsel, hexec⟩
  · have hadv : advanceTravel l q (settleInput l q (elapse n s)) =
        acceptStart e.handle a q.rawTick (counted.withSched { counted.sched with travelList := rest }) :=
      (advanceTravel_on (s := settleInput l q (elapse n s)) hsrc hhigh).trans
        (expireTravelList_start (s := counted) hta hl hk hr (State.waitingAction_eq.mpr hs) hd hidle hf)
    rw [hadv, acceptStart_idle (s := counted.withSched { counted.sched with travelList := rest }) _ hidle] at hexec
    exact ⟨_, passOn_handedOn hsel, hexec⟩

end

