-- ==== Sys2Proof/Proofs/InUse.lean ====
section
/-! PROOFS. What is in use: the holder sets agree with the pool (R29), and the lines in use are SEQUENCED (R43, R94, R113).
Both invariants are carried through the operations of Chapter 1 together, each by itself: `k` and `j` say which of them is
known. -/

namespace Sys2Proof.Machine

variable {k j : Prop} {s t : State}

/-- Where `k`, the holder sets agree with the pool; where `j`, the lines in use are SEQUENCED. -/
structure InUse (k j : Prop) (s : State) : Prop where
  agree : k → HoldersAgree s
  lines : j → LinesInUse s

/-! ## Holder sets and pool (R29) -/

/-- The action of a handle is HOLDING on a line. -/
def State.holdsOn (s : State) (h : Handle) (l : OutLine) : Prop := ∃ a, s.holdingAction h = some a ∧ a.line = l

/-- A HOLDING action is on one line. -/
theorem State.holdsOn.line {h : Handle} {l : OutLine} {a : Action} (hl : s.holdsOn h l)
    (ha : s.holdingAction h = some a) : a.line = l := by
  obtain ⟨b, hb, hbl⟩ := hl
  rw [ha] at hb
  cases hb
  exact hbl

/-- What is HOLDING in a slot is named by one handle. -/
theorem holdingAction_unique {b h : Handle} {a : Action} {l : OutLine} (hb : s.holdingAction b = some a)
    (hl : s.holdsOn h l) (e : h.slot = b.slot) : h = b := by
  obtain ⟨c, hc, -⟩ := hl
  exact live_unique (s := s) (by rw [State.actionOf_iff.mpr (.inr hb)]; rfl)
    (by rw [State.actionOf_iff.mpr (.inr hc)]; rfl) e

/-- A slot comes to hold nothing: what is HOLDING is what was so in the other slots. -/
theorem holdsOn_cleared {i : SlotNo} (hi : (t.slot i).notHolding) (ho : ∀ x, x ≠ i → t.slot x = s.slot x) (h : Handle)
    (l : OutLine) : t.holdsOn h l ↔ h.slot ≠ i ∧ s.holdsOn h l := by
  unfold State.holdsOn
  by_cases e : h.slot = i
  · refine ⟨fun ⟨a, ha, _⟩ => ?_, fun c => absurd e c.1⟩
    obtain ⟨f, hf⟩ := State.holdingAction_eq.mp ha
    exact absurd (by rw [← e, hf]) (hi a f)
  · rw [holdingAction_of_slot_eq (ho _ e)]
    simp [e]

/-- A slot that holds nothing is replaced by one that holds nothing: the same actions are HOLDING. -/
theorem holdsOn_replaced {i : SlotNo} (hs : (s.slot i).notHolding) (hi : (t.slot i).notHolding)
    (ho : ∀ x, x ≠ i → t.slot x = s.slot x) (h : Handle) (l : OutLine) : t.holdsOn h l ↔ s.holdsOn h l := by
  rw [holdsOn_cleared hi ho, ← holdsOn_cleared hs (fun _ _ => rfl)]

theorem HoldersAgree.congr (h : HoldersAgree s) (hh : ∀ l, (t.output l).holders = (s.output l).holders)
    (hp : ∀ l, (t.output l).policy = (s.output l).policy) (hs : ∀ x l, t.holdsOn x l ↔ s.holdsOn x l) :
    HoldersAgree t where
  once l := hh l ▸ h.once l
  holding l x := by
    rw [hh]
    exact (h.holding l x).trans (hs x l).symm
  single l hl := by
    rw [hh]
    exact h.single l (hp l ▸ hl)

/-- With every slot FREE and no holders, holder sets and pool agree. -/
theorem HoldersAgree.of_free (hf : ∀ i, (s.slot i).isFree = true) (hh : ∀ l, (s.output l).holders = []) :
    HoldersAgree s where
  once l := by simp [hh]
  holding l x := by
    rw [hh]
    refine ⟨by simp, fun ⟨a, ha, _⟩ => ?_⟩
    obtain ⟨e, he⟩ := State.holdingAction_eq.mp ha
    exact absurd (by rw [he]) (Slot.notHolding_of_isFree (hf x.slot) a e)
  single l _ := by simp [hh]

theorem release_kept (l : OutLine) (b : Handle) (s : State) (m : OutLine) :
    ((release l b s).output m).policy = (s.output m).policy ∧ ((release l b s).output m).mode = (s.output m).mode
      ∧ ((release l b s).output m).holders.Sublist (s.output m).holders := by
  rw [release_output]
  split
  · rename_i e
    subst e
    exact ⟨rfl, rfl, List.filter_sublist⟩
  · exact ⟨rfl, rfl, .refl _⟩

theorem mem_release_holders {l m : OutLine} {b x : Handle} :
    x ∈ ((release l b s).output m).holders ↔ x ∈ (s.output m).holders ∧ (m = l → x ≠ b) := by
  rw [release_output]
  split
  · rename_i e
    subst e
    simp
  · rename_i e
    simp [e]

/-- A HOLDING action leaves its line and is HOLDING no more (R31). -/
theorem HoldersAgree.released {l : OutLine} {b : Handle} {a : Action} (h : HoldersAgree s)
    (hb : s.holdingAction b = some a) (hl : a.line = l) (hout : ∀ m, t.output m = (release l b s).output m)
    (hslot : ∀ i, i ≠ b.slot → t.slot i = s.slot i) (hfree : (t.slot b.slot).notHolding) : HoldersAgree t where
  once m := by
    rw [hout]
    exact (h.once m).sublist (release_kept l b s m).2.2
  holding m x := by
    rw [hout, mem_release_holders, h.holding]
    refine Iff.trans ?_ (holdsOn_cleared hfree hslot x m).symm
    refine ⟨fun ⟨hx, hne⟩ => ⟨fun e => ?_, hx⟩, fun ⟨hne, hx⟩ => ⟨hx, fun _ e => hne (e ▸ rfl)⟩⟩
    have hxb := holdingAction_unique hb hx e
    rw [hxb] at hx
    exact hne ((State.holdsOn.line hx hb).symm.trans hl) hxb
  single m hm := by
    obtain ⟨hp, -, hs⟩ := release_kept l b s m
    rw [hout] at hm ⊢
    exact hs.length_le.trans (h.single m (hp ▸ hm))

theorem acceptStart_output (x : Handle) (a : Action) (tick : Tick) (s : State) (m : OutLine) :
    (acceptStart x a tick s).output m = if m = a.line then
      { s.output a.line with holders := (s.output a.line).holders ++ [x] } else s.output m := by
  show (s.putOutput a.line _).output m = _
  split
  · rename_i e
    rw [e, State.output_putOutput_self]
  · rename_i e
    rw [State.output_putOutput_ne _ _ _ _ e]

theorem acceptStart_mode (x : Handle) (a : Action) (tick : Tick) (s : State) (m : OutLine) :
    ((acceptStart x a tick s).output m).mode = (s.output m).mode := by
  rw [acceptStart_output]
  split
  · rename_i e
    rw [e]
  · rfl

theorem not_holdsOn_of_waiting {x : Handle} {a : Action} (hw : s.waitingAction x = some a) (m : OutLine) :
    ¬ s.holdsOn x m := by
  rintro ⟨c, hc, -⟩
  rw [(waiting_of_slot (State.waitingAction_eq.mp hw)).2.1] at hc
  cases hc

/-- What is HOLDING after a START: what was so, and the action on its line (R30). -/
theorem acceptStart_holdsOn {x : Handle} {a : Action} (tick : Tick) (hw : s.waitingAction x = some a) (y : Handle)
    (m : OutLine) : (acceptStart x a tick s).holdsOn y m ↔ s.holdsOn y m ∨ y = x ∧ m = a.line := by
  have hx : (acceptStart x a tick s).holdingAction x = some { a with fired := a.fired + 1 } :=
    State.holdingAction_eq.mpr ⟨_, by rw [acceptStart_slot, if_pos rfl]⟩
  by_cases e : y.slot = x.slot
  · have hs : ¬ s.holdsOn y m := fun ⟨c, hc, hl⟩ => by
      have hyx := live_unique (s := s) (by rw [State.actionOf_iff.mpr (.inl hw)]; rfl)
        (by rw [State.actionOf_iff.mpr (.inr hc)]; rfl) e
      exact not_holdsOn_of_waiting hw m ⟨c, hyx ▸ hc, hl⟩
    rw [or_iff_right hs]
    constructor
    · intro hy
      obtain rfl := holdingAction_unique hx hy e
      exact ⟨rfl, (State.holdsOn.line hy hx).symm⟩
    · rintro ⟨rfl, rfl⟩
      exact ⟨_, hx, rfl⟩
  · have hne : y ≠ x := fun c => e (c ▸ rfl)
    unfold State.holdsOn
    rw [holdingAction_of_slot_eq (s := s) (by rw [acceptStart_slot, if_neg e])]
    simp [hne]

/-- A WAITING action becomes HOLDING and joins its line's holders (R30). -/
theorem HoldersAgree.accepted {x : Handle} {a : Action} (tick : Tick) (h : HoldersAgree s)
    (hw : s.waitingAction x = some a) (ho : (s.output a.line).holders = [] ∨ (s.output a.line).policy = .merge) :
    HoldersAgree (acceptStart x a tick s) := by
  refine ⟨fun m => ?_, fun m y => Iff.trans ?_ (acceptStart_holdsOn tick hw y m).symm, fun m hm => ?_⟩
  · rw [acceptStart_output]
    split
    · have hx : x ∉ (s.output a.line).holders := fun c =>
        not_holdsOn_of_waiting hw a.line ((h.holding a.line x).mp c)
      exact List.nodup_append.mpr ⟨h.once a.line, List.nodup_singleton x,
        fun y hy z hz e => hx (List.mem_singleton.mp hz ▸ e ▸ hy)⟩
    · exact h.once m
  · rw [acceptStart_output]
    split
    · rename_i e
      subst e
      simp [h.holding, State.holdsOn]
    · rename_i e
      simp [h.holding, State.holdsOn, e]
  · rw [acceptStart_output] at hm ⊢
    split
    · rename_i e
      rw [if_pos e] at hm
      simp [ho.resolve_right hm]
    · rename_i e
      rw [if_neg e] at hm
      exact h.single m hm

/-! ## Lines in use (R43, R88, R94, R113) -/

/-- No slot has gained an action, nor an action another line; the modes, the active copies and the IDLE rules are what they
were. -/
theorem LinesInUse.narrowed (h : LinesInUse s)
    (hs : ∀ i a, (t.slot i).action = some a → ∃ b, (s.slot i).action = some b ∧ b.line = a.line)
    (hm : ∀ l, (t.output l).mode = (s.output l).mode)
    (hr : ∀ r, (t.rule r).active = (s.rule r).active ∧ ((t.rule r).state = .idle ↔ (s.rule r).state = .idle)) :
    LinesInUse t where
  actions i a ha := by
    obtain ⟨b, hb, hl⟩ := hs i a ha
    rw [hm, ← hl]
    exact h.actions i b hb
  templates r he x hx := by
    rw [(hr r).1] at he hx
    rw [hm]
    exact h.templates r he x hx
  idle r := by
    rw [(hr r).2, (hr r).1]
    exact h.idle r

/-- One slot is replaced, by one that is FREE or whose action is on the line that its action was on. -/
theorem LinesInUse.slotReplaced {i : SlotNo} {b : Action} (h : LinesInUse s) (hb : (s.slot i).action = some b)
    (hi : ∀ a, (t.slot i).action = some a → a.line = b.line) (ho : ∀ x, x ≠ i → t.slot x = s.slot x)
    (hm : ∀ l, (t.output l).mode = (s.output l).mode) (hr : t.rules = s.rules) : LinesInUse t := by
  refine h.narrowed (fun x a ha => ?_) hm fun r => by simp [State.rule, hr]
  by_cases e : x = i
  · subst e
    exact ⟨b, hb, (hi a ha).symm⟩
  · exact ⟨a, by rwa [← ho x e], rfl⟩

/-- No move changes a line's mode. -/
theorem Move.modes {p : Prop} {J w} {c d : Config} (m : Move p J w c d) (l : OutLine) :
    (d.2.output l).mode = (c.2.output l).mode := by
  cases m with
  | notes n => rw [n.output]
  | strike _ => rw [enterFaulted_output]; rfl
  | file _ _ => simp only [State.output, joinStart_outputs]
  | finish _ _ _ => exact (release_kept _ _ _ l).2.1
  | freeHeld _ _ => exact (release_kept _ _ _ l).2.1
  | leave _ => exact (release_kept _ _ _ l).2.1
  | accept _ _ _ _ => exact acceptStart_mode _ _ _ _ l
  | _ => rfl

theorem Work.modes {p : Prop} {J w} {c d : Config} (h : Work p J w c d) (l : OutLine) :
    (d.2.output l).mode = (c.2.output l).mode := by
  induction h with
  | done => rfl
  | step m _ ih => exact ih.trans (m.modes l)

/-! ## What leaves the use as it is -/

/-- From `s` to `t` the pool is what it was, and so are the holders, the policies and the modes of the lines, the active copies
of the rules and which of them are IDLE. -/
structure SameUse (s t : State) : Prop where
  slots : t.sched.slots = s.sched.slots
  outputs : ∀ l, (t.output l).holders = (s.output l).holders ∧ (t.output l).policy = (s.output l).policy
    ∧ (t.output l).mode = (s.output l).mode
  rules : ∀ r, (t.rule r).active = (s.rule r).active ∧ ((t.rule r).state = .idle ↔ (s.rule r).state = .idle)

theorem SameUse.of_eq (hs : t.sched.slots = s.sched.slots) (ho : t.outputs = s.outputs) (hr : t.rules = s.rules) :
    SameUse s t :=
  ⟨hs, fun l => by simp [State.output, ho], fun r => by simp [State.rule, hr]⟩

theorem SameUse.trans {u : State} (h : SameUse s t) (n : SameUse t u) : SameUse s u where
  slots := n.slots.trans h.slots
  outputs l := by
    obtain ⟨h1, h2, h3⟩ := h.outputs l
    obtain ⟨n1, n2, n3⟩ := n.outputs l
    exact ⟨n1.trans h1, n2.trans h2, n3.trans h3⟩
  rules r := ⟨(n.rules r).1.trans (h.rules r).1, (n.rules r).2.trans (h.rules r).2⟩

theorem SameUse.slot (h : SameUse s t) (i : SlotNo) : t.slot i = s.slot i := by
  unfold State.slot
  rw [h.slots]

/-- An output record is replaced, its holders, its policy and its mode as they were. -/
theorem putOutput_sameUse (s : State) (l : OutLine) {x : Output} (hh : x.holders = (s.output l).holders)
    (hp : x.policy = (s.output l).policy) (hm : x.mode = (s.output l).mode) : SameUse s (s.putOutput l x) := by
  refine ⟨rfl, fun m => ?_, fun _ => ⟨rfl, .rfl⟩⟩
  by_cases e : m = l
  · rw [e, State.output_putOutput_self]
    exact ⟨hh, hp, hm⟩
  · rw [State.output_putOutput_ne _ _ _ _ e]
    exact ⟨rfl, rfl, rfl⟩

/-- A rule's record is replaced, its active copy as it was, and IDLE if it was. -/
theorem putRule_sameUse (s : State) (r : RuleNo) {x : Rule} (ha : x.active = (s.rule r).active)
    (hi : x.state = .idle ↔ (s.rule r).state = .idle) : SameUse s (s.putRule r x) := by
  refine ⟨rfl, fun _ => ⟨rfl, rfl, rfl⟩, fun q => ?_⟩
  by_cases e : q = r
  · rw [e, State.rule_putRule_self]
    exact ⟨ha, hi⟩
  · rw [State.rule_putRule_ne _ _ _ _ e]
    exact ⟨rfl, .rfl⟩

/-- Every rule's record is replaced, its active copy as it was, and IDLE if it was. -/
theorem withRules_sameUse (s : State) {f : RuleNo → Rule} (hf : ∀ r, (f r).active = (s.rule r).active
    ∧ ((f r).state = .idle ↔ (s.rule r).state = .idle)) : SameUse s (s.withRules (tabulate f)) :=
  ⟨rfl, fun _ => ⟨rfl, rfl, rfl⟩, fun r => by rw [State.rule_withRules_tabulate]; exact hf r⟩

theorem InUse.sameUse (h : InUse k j s) (n : SameUse s t) : InUse k j t where
  agree c := (h.agree c).congr (fun l => (n.outputs l).1) (fun l => (n.outputs l).2.1) fun x l => by
    unfold State.holdsOn
    rw [holdingAction_of_slot_eq (n.slot _)]
  lines c := (h.lines c).narrowed (fun i a ha => ⟨a, n.slot i ▸ ha, rfl⟩) (fun l => (n.outputs l).2.2) n.rules

theorem InUse.congr (h : InUse k j s) (hs : t.sched.slots = s.sched.slots) (ho : t.outputs = s.outputs)
    (hr : t.rules = s.rules) : InUse k j t :=
  h.sameUse (.of_eq hs ho hr)

/-- Every slot is freed and every holder set emptied. -/
theorem InUse.emptied (h : InUse k j s) (hf : ∀ i, (t.slot i).isFree = true) (hh : ∀ l, (t.output l).holders = [])
    (hm : ∀ l, (t.output l).mode = (s.output l).mode)
    (hr : ∀ r, (t.rule r).active = (s.rule r).active ∧ ((t.rule r).state = .idle ↔ (s.rule r).state = .idle)) :
    InUse k j t where
  agree _ := .of_free hf hh
  lines c := (h.lines c).narrowed (fun i a ha => by
    rw [slot_of_free _ (hf i)] at ha
    cases ha) hm hr

/-! ## Reports, faults and the freeing of slots (R13, R25, R119, R122) -/

theorem enterFaulted_inUse (h : InUse k j s) : InUse k j (enterFaulted s) :=
  h.emptied (enterFaulted_emptied s).1 (fun l => by rw [enterFaulted_output]) (fun l => by rw [enterFaulted_output]; rfl)
    fun _ => ⟨rfl, .rfl⟩

theorem InUse.noted (h : InUse k j s) (n : Noted s t) : InUse k j t := by
  rcases n with n | ⟨-, n⟩
  · exact h.congr (by rw [n.sched]) n.outputs n.rules
  · exact (enterFaulted_inUse h).congr (by rw [n.sched]) n.outputs n.rules

theorem InUse.createReport (h : InUse k j s) (b : ReportBody) : InUse k j (createReport b s) :=
  h.noted (createReport_noted b s)

theorem poolNotice_inUse (h : InUse k j s) : InUse k j (poolNotice s) := by
  unfold poolNotice
  split
  · exact InUse.createReport (s := s.withRun { s.run with state := .standby, silence := none }) (h.congr rfl rfl rfl) _
  · exact h

/-- A slot in use is freed, where vacating it keeps the use in order. -/
theorem freeSlot_inUse {x : Handle} {a : Action} (e : Ended) (ha : s.actionOf x = some a) (h : InUse k j (vacate x s)) :
    InUse k j (freeSlot x e s) := by
  obtain ⟨u, n, hu⟩ := freeSlot_of_vacate e ha
  rw [hu]
  exact poolNotice_inUse (h.noted n)

theorem Slot.action_of_waiting {x : Handle} {a : Action} (hw : s.waitingAction x = some a) :
    (s.slot x.slot).action = some a := by
  rw [State.waitingAction_eq.mp hw]
  rfl

theorem Slot.action_of_holding {x : Handle} {a : Action} (hh : s.holdingAction x = some a) :
    (s.slot x.slot).action = some a := by
  obtain ⟨e, he⟩ := State.holdingAction_eq.mp hh
  rw [he]
  rfl

/-- The slot of a WAITING action is freed, or holds it on with another record for the same line. -/
theorem InUse.waitingReplaced {x : Handle} {a : Action} (h : InUse k j s) (hw : s.waitingAction x = some a)
    (hi : (t.slot x.slot).notHolding) (hl : ∀ b, (t.slot x.slot).action = some b → b.line = a.line)
    (hs : ∀ i, i ≠ x.slot → t.slot i = s.slot i) (ho : t.outputs = s.outputs) (hr : t.rules = s.rules) : InUse k j t where
  agree c := (h.agree c).congr (fun l => by simp [State.output, ho]) (fun l => by simp [State.output, ho])
    (holdsOn_replaced (Slot.notHolding_of_waiting hw) hi hs)
  lines c := (h.lines c).slotReplaced (Slot.action_of_waiting hw) hl hs (fun l => by simp [State.output, ho]) hr

theorem setWaiting_inUse {x : Handle} {a b : Action} (h : InUse k j s) (hw : s.waitingAction x = some a)
    (hl : b.line = a.line) : InUse k j (setWaiting x b s) := by
  refine h.waitingReplaced hw ?_ (fun c hc => ?_) (fun i hi => by rw [setWaiting_slot, if_neg hi]) rfl rfl
  · exact Slot.notHolding_of_waiting (setWaiting_waitingAction b hw)
  · rw [Slot.action_of_waiting (setWaiting_waitingAction b hw)] at hc
    cases hc
    exact hl

theorem vacate_slot_isFree (x : Handle) (s : State) : ((vacate x s).slot x.slot).isFree = true := by
  rw [vacate_slot, if_pos rfl]
  rfl

theorem vacate_slot_action (x : Handle) (s : State) (a : Action) : ((vacate x s).slot x.slot).action ≠ some a := by
  rw [vacate_slot, if_pos rfl]
  exact fun c => nomatch c

theorem vacate_inUse {x : Handle} {a : Action} (h : InUse k j s) (hw : s.waitingAction x = some a) :
    InUse k j (vacate x s) :=
  h.waitingReplaced hw (Slot.notHolding_of_isFree (vacate_slot_isFree x s))
    (fun b hb => absurd hb (vacate_slot_action x s b)) (fun i hi => by rw [vacate_slot, if_neg hi]) rfl rfl

/-- A WAITING action is freed. -/
theorem freeSlot_waiting_inUse {x : Handle} {a : Action} (e : Ended) (h : InUse k j s)
    (hw : s.waitingAction x = some a) : InUse k j (freeSlot x e s) :=
  freeSlot_inUse e (State.actionOf_iff.mpr (.inl hw)) (vacate_inUse h hw)

/-- A HOLDING action leaves its line, and its slot is freed or holds it WAITING for the same line (R31). -/
theorem InUse.released {l : OutLine} {b : Handle} {a : Action} (h : InUse k j s) (hb : s.holdingAction b = some a)
    (hl : k → a.line = l) (hi : (t.slot b.slot).notHolding)
    (hline : ∀ c, (t.slot b.slot).action = some c → c.line = a.line)
    (hs : ∀ i, i ≠ b.slot → t.slot i = s.slot i) (ho : t.outputs = (release l b s).outputs) (hr : t.rules = s.rules) :
    InUse k j t where
  agree c := (h.agree c).released hb (hl c) (fun m => by simp [State.output, ho]) hs hi
  lines c := (h.lines c).slotReplaced (Slot.action_of_holding hb) hline hs (fun m => by
    rw [State.output, ho]
    exact (release_kept l b s m).2.1) hr

/-- A HOLDING action is released and freed. -/
theorem freeSlot_released_inUse {l : OutLine} {b : Handle} {a : Action} (e : Ended) (h : InUse k j s)
    (hb : s.holdingAction b = some a) (hl : k → a.line = l) : InUse k j (freeSlot b e (release l b s)) :=
  freeSlot_inUse e (State.actionOf_iff.mpr (.inr hb))
    (h.released hb hl (Slot.notHolding_of_isFree (vacate_slot_isFree b (release l b s)))
      (fun c hc => absurd hc (vacate_slot_action b (release l b s) c)) (fun i hi => by rw [vacate_slot, if_neg hi]; rfl) rfl rfl)

/-- A HOLDING action gives up its repeats: it is HOLDING on its line as before (R19). -/
theorem giveUp_inUse {b : Handle} {a : Action} {e : Tick} (h : InUse k j s)
    (hs : s.slot b.slot = ⟨b.gen, .holding a e⟩) : InUse k j (s.putSlot b.slot
      ⟨b.gen, .holding { a with repeatsLeft := 0, finishRequested := true } e⟩) := by
  have hb : s.holdingAction b = some a := (holding_of_slot hs).2.1
  have hb' := holding_of_slot (State.slot_putSlot_self s b.slot
    ⟨b.gen, .holding { a with repeatsLeft := 0, finishRequested := true } e⟩)
  refine ⟨fun c => (h.agree c).congr (fun _ => rfl) (fun _ => rfl) fun x l => ?_, fun c =>
    (h.lines c).slotReplaced (Slot.action_of_holding hb) (fun y hy => ?_) (fun i hi => State.slot_putSlot_ne _ _ _ _ hi)
      (fun _ => rfl) rfl⟩
  · by_cases e : x.slot = b.slot
    · constructor
      · intro hx
        obtain rfl := holdingAction_unique hb'.2.1 hx e
        have hline := State.holdsOn.line hx hb'.2.1
        exact ⟨a, hb, hline⟩
      · intro hx
        obtain rfl := holdingAction_unique hb hx e
        have hline := State.holdsOn.line hx hb
        exact ⟨_, hb'.2.1, hline⟩
    · unfold State.holdsOn
      rw [holdingAction_of_slot_eq (State.slot_putSlot_ne _ _ _ _ e)]
  · rw [Slot.action_of_holding hb'.2.1] at hy
    cases hy
    rfl

/-! ## START and END (R10 to R16, R30 to R34) -/

theorem joinStart_sameUse (x : Handle) (d : Due) (s : State) : SameUse s (joinStart x d s) := by
  cases d <;> exact .of_eq rfl rfl rfl

/-- A WAITING action proceeds (R11). -/
theorem proceed_inUse {x : Handle} {a : Action} (h : InUse k j s) (hw : s.waitingAction x = some a) :
    InUse k j (proceed x a s).1 := by
  unfold proceed
  split
  · refine InUse.sameUse ?_ (joinStart_sameUse _ _ _)
    exact setWaiting_inUse h hw rfl
  · exact freeSlot_waiting_inUse _ h hw

/-- A HOLDING action is released and proceeds (R11, R31). -/
theorem proceed_released_inUse {l : OutLine} {b : Handle} {a : Action} (h : InUse k j s)
    (hb : s.holdingAction b = some a) (hl : k → a.line = l) : InUse k j (proceed b a (release l b s)).1 := by
  unfold proceed
  split
  · refine InUse.sameUse ?_ (joinStart_sameUse _ _ _)
    refine h.released hb hl ?_ (fun c hc => ?_) (fun i hi => by rw [setWaiting_slot, if_neg hi]; rfl) rfl rfl <;>
      rw [setWaiting_slot, if_pos rfl] at *
    · exact fun x e c => nomatch c
    · cases hc
      rfl
  · exact freeSlot_released_inUse _ h hb hl

theorem removeEntry_inUse (h : InUse k j s) (x : Handle) : InUse k j (removeEntry x s) := h.congr rfl rfl rfl

theorem endAction_inUse (h : InUse k j s) (x : Handle) : InUse k j (endAction x s).1 := by
  unfold endAction
  cases hx : s.holdingAction x with
  | none => exact h
  | some a => exact proceed_released_inUse h hx fun _ => rfl

/-- The report and the fault of a START that is late or refused (R15, R16, R32, R175). -/
theorem countForAction_report_noted (r : ReportBody) (f : FaultKind) (d : FaultDetail) (x : Handle) (s : State) :
    Noted s (countForAction f d x (Machine.createReport r s)) :=
  (createReport_noted r s).trans (countForAction_noted f d x _)

theorem refuseStart_inUse {x : Handle} {a : Action} (owner : Handle) (h : InUse k j s)
    (hw : s.waitingAction x = some a) : InUse k j (refuseStart x owner a s).1 := by
  have h1 : InUse k j (setWaiting x { a with skipped := a.skipped + 1 } s) := setWaiting_inUse h hw rfl
  have h2 := h1.noted (countForAction_report_noted (.collision a.line x owner) .collision (.output a.line) x _)
  unfold refuseStart
  dsimp only
  split
  · exact h2
  · exact proceed_inUse h2 ‹_›

/-- What is not HOLDING is in no holder set, and leaves it as it is. -/
theorem release_notHolding_inUse {b : Handle} (h : InUse k j s) (l : OutLine) (hb : s.holdingAction b = none) :
    InUse k j (release l b s) := by
  refine ⟨fun c => (h.agree c).congr (fun m => ?_) (fun m => (release_kept l b s m).1) (fun _ _ => .rfl),
    fun c => (h.lines c).narrowed (fun i a ha => ⟨a, ha, rfl⟩) (fun m => (release_kept l b s m).2.1) fun _ => ⟨rfl, .rfl⟩⟩
  rw [release_output]
  split
  · rename_i e
    rw [e]
    refine List.filter_eq_self.mpr fun x hx => decide_eq_true fun hxb => ?_
    obtain ⟨a, ha, -⟩ := ((h.agree c).holding l x).mp hx
    rw [hxb, hb] at ha
    cases ha
  · rfl

/-- A holder of a line is cut (R12, R33). -/
theorem cutHolder_inUse {l : OutLine} {b : Handle} (h : InUse k j s)
    (hl : k → ∀ a, s.holdingAction b = some a → a.line = l) : InUse k j (cutHolder l b s).1 := by
  unfold cutHolder
  cases hb : s.holdingAction b with
  | none => exact release_notHolding_inUse h l hb
  | some a => exact proceed_released_inUse (removeEntry_inUse h b) hb fun c => hl c a hb

theorem cutHolders_inUse {l : OutLine} {bs : List Handle} (h : InUse k j s)
    (hl : k → ∀ b ∈ bs, ∀ a, s.holdingAction b = some a → a.line = l) : InUse k j (cutHolders l bs s).1 := by
  induction bs generalizing s with
  | nil => exact h
  | cons b bs ih =>
    refine ih (cutHolder_inUse h fun c => hl c b List.mem_cons_self) fun c x hx a ha => ?_
    refine hl c x (List.mem_cons_of_mem _ hx) a ?_
    obtain ⟨e, he⟩ := State.holdingAction_eq.mp ha
    rcases cutHolder_noNewHolder l b s x.slot with n | n
    · exact absurd (by rw [he]) (n a e)
    · exact State.holdingAction_eq.mpr ⟨e, n ▸ he⟩

theorem acceptStart_inUse {x : Handle} {a : Action} (tick : Tick) (h : InUse k j s) (hw : s.waitingAction x = some a)
    (ho : k → (s.output a.line).holders = [] ∨ (s.output a.line).policy = .merge) :
    InUse k j (acceptStart x a tick s) := by
  refine ⟨fun c => (h.agree c).accepted tick hw (ho c), fun c => ?_⟩
  refine (h.lines c).slotReplaced (Slot.action_of_waiting hw) (fun b hb => ?_)
    (fun i hi => by rw [acceptStart_slot, if_neg hi]) (fun l => acceptStart_mode x a tick s l) rfl
  rw [acceptStart_slot, if_pos rfl] at hb
  cases hb
  rfl

/-- A START reaches the Output Stage (R30 to R34). -/
theorem startOnLine_inUse {x : Handle} {a : Action} (tick : Tick) (h : InUse k j s) (hw : s.waitingAction x = some a) :
    InUse k j (startOnLine x a tick s).1 := by
  unfold startOnLine
  split
  · exact acceptStart_inUse tick h hw fun _ => .inl ‹_›
  · rename_i first others hbs
    split
    · exact refuseStart_inUse _ h hw
    · exact acceptStart_inUse tick h hw fun _ => .inr ‹_›
    · rename_i hpol
      have hone : k → others = [] := fun c => by
        have := (h.agree c).single a.line (by simp [hpol])
        rw [hbs] at this
        exact List.length_eq_zero_iff.mp (by simpa using this)
      have hcut : InUse k j (cutHolders a.line (first :: others) s).1 := by
        refine cutHolders_inUse h fun c b hb y hy => ?_
        exact State.holdsOn.line (((h.agree c).holding a.line b).mp (hbs ▸ hb)) hy
      dsimp only
      split
      · exact hcut
      · rename_i a1 hw1
        rcases (cutHolders_spared a.line (first :: others) (Slot.notHolding_of_waiting hw)).waiting hw with hu | he
        · rw [hu] at hw1
          cases hw1
          refine acceptStart_inUse tick hcut hu fun c => .inl ?_
          rw [hone c] at hbs ⊢
          exact cutHolders_onlyHolder a.line first hbs
        · have := he.actionOf x
          rw [State.actionOf_iff.mpr (.inl hw1)] at this
          cases this

theorem fireLate_inUse (x : Handle) (a : Action) (n : Nat) (h : InUse k j s) : InUse k j (fireLate x a n s).1 := by
  have h1 := h.noted (countForAction_report_noted (.late x a.due.base n none) .actionLate (.handle x) x s)
  unfold fireLate
  dsimp only
  split
  · exact h1
  · exact startOnLine_inUse _ h1 ‹_›

theorem skipLate_inUse {x : Handle} {a : Action} (n : Nat) (h : InUse k j s) (hw : s.waitingAction x = some a) :
    InUse k j (skipLate x a n s).1 := by
  unfold skipLate
  generalize skipFrom (fun d => (s.lateBy d).isSome) (a.interval.getD 0) a.repeatsLeft a.due 0 = run
  dsimp only
  have h1 : InUse k j (setWaiting x { a with
      skipped := a.skipped + run.skipped, due := (run.next.map Prod.fst).getD a.due,
      repeatsLeft := (run.next.map Prod.snd).getD 0 } s) := setWaiting_inUse h hw rfl
  have h2 := h1.noted (countForAction_report_noted (.late x a.due.base n (some run.skipped)) .actionLate (.handle x) x _)
  split
  · exact h2
  · rename_i a2 hw2
    split
    · exact h2.sameUse (joinStart_sameUse _ _ _)
    · exact freeSlot_waiting_inUse _ h2 hw2

theorem startAction_inUse (h : InUse k j s) (x : Handle) (tick : Tick) : InUse k j (startAction x tick s).1 := by
  unfold startAction
  split
  · exact h
  · rename_i a hw
    split
    · exact startOnLine_inUse tick h hw
    · split
      · exact fireLate_inUse x a _ h
      · exact skipLate_inUse _ h hw

/-! ## Expiry and joining (R3, R8, R9) -/

theorem carryOutTime_inUse (h : InUse k j s) (e : TimeEntry) : InUse k j (carryOutTime e s).1 := by
  unfold carryOutTime
  split
  · exact startAction_inUse h _ _
  · exact endAction_inUse h _

theorem popTime_inUse (h : InUse k j s) : InUse k j (popTime s) := h.congr rfl rfl rfl

theorem popTravel_inUse (h : InUse k j s) : InUse k j (popTravel s) := h.congr rfl rfl rfl

theorem runLists_inUse {x : Expiry} {n : Nat} {hs : List Handle} (h : InUse k j s) : InUse k j (runLists x n hs s) := by
  induction n generalizing x hs s with
  | zero => exact h
  | succ n ih =>
    cases hs with
    | cons y ys =>
      rw [runLists]
      split
      · exact ih (startAction_inUse (removeEntry_inUse h y) _ _)
      · exact ih h
    | nil =>
      rw [runLists]
      split
      · exact ih (carryOutTime_inUse (popTime_inUse h) _)
      · split
        · exact h
        · split
          · exact h
          · exact ih (startAction_inUse (popTravel_inUse h) _ _)

theorem joinAction_inUse (h : InUse k j s) (x : Handle) : InUse k j (joinAction x s) := by
  unfold joinAction
  split
  · exact h
  · exact runLists_inUse (h.sameUse (joinStart_sameUse _ _ _))

theorem joinAll_inUse {hs : List Handle} (h : InUse k j s) : InUse k j (joinAll hs s) := by
  induction hs generalizing s with
  | nil => exact h
  | cons x hs ih => exact ih (joinAction_inUse h x)

/-- A FREE slot is allocated to an action on a SEQUENCED line (R3). -/
theorem allocate_inUse {i : SlotNo} {a : Action} (h : InUse k j s) (hf : (s.slot i).isFree = true)
    (hm : j → (s.output a.line).mode = .sequenced) : InUse k j (allocate i a s) := by
  have hs : ∀ x, x ≠ i → (allocate i a s).slot x = s.slot x := fun x hx => by rw [allocate_slot, if_neg hx]
  have hi : (allocate i a s).slot i = ⟨(s.slot i).gen + 1, .waiting a⟩ := by rw [allocate_slot, if_pos rfl]
  refine ⟨fun c => (h.agree c).congr (fun _ => rfl) (fun _ => rfl)
    (holdsOn_replaced (Slot.notHolding_of_isFree hf) ?_ hs), fun c => ⟨fun x b hb => ?_, (h.lines c).templates,
      (h.lines c).idle⟩⟩
  · rw [hi]
    exact fun y e c => nomatch c
  · by_cases e : x = i
    · rw [e, hi] at hb
      cases hb
      exact hm c
    · rw [hs x e] at hb
      exact (h.lines c).actions x b hb

theorem allocateAll_inUse {l : List (SlotNo × Action)} (h : InUse k j s) (hn : (l.map Prod.fst).Nodup)
    (hf : ∀ p ∈ l, (s.slot p.1).isFree = true) (hm : j → ∀ p ∈ l, (s.output p.2.line).mode = .sequenced) :
    InUse k j (allocateAll l s) := by
  induction l generalizing s with
  | nil => exact h
  | cons p rest ih =>
    obtain ⟨hni, hn'⟩ := List.nodup_cons.mp hn
    refine ih (allocate_inUse h (hf p List.mem_cons_self) fun c => hm c p List.mem_cons_self) hn' (fun q hq => ?_)
      fun c q hq => hm c q (List.mem_cons_of_mem _ hq)
    rw [allocate_slot, if_neg fun e : q.1 = p.1 => hni (e ▸ List.mem_map_of_mem hq)]
    exact hf q (List.mem_cons_of_mem _ hq)

/-! ## Rules and edges (R98 to R108) -/

theorem testLimit_inUse {r : RuleNo} (h : InUse k j s) (hr : (s.rule r).state ≠ .idle) : InUse k j (testLimit r s) := by
  unfold testLimit
  split
  · exact (h.sameUse (putRule_sameUse s r (x := { s.rule r with state := .spent }) rfl
      ⟨fun c => (nomatch c), fun c => absurd c hr⟩)).createReport _
  · exact h

/-- A LISTENING rule fires in slots that are FREE: its active copy is enabled, so the lines of its templates are SEQUENCED
(R88, R104 to R107). -/
theorem fireRule_inUse {r : RuleNo} {slots : List SlotNo} {e : EdgeEvent} (h : InUse k j s)
    (hr : (s.rule r).state = .listening) (hlen : slots.length = (s.rule r).active.templates.length) (hn : slots.Nodup)
    (hf : ∀ i ∈ slots, (s.slot i).isFree = true) : InUse k j (fireRule r slots e s) := by
  let l := slots.zip ((s.rule r).active.templates.map (templateAction r (s.rule r) e))
  have hfst : l.map Prod.fst = slots := zip_map_fst (by rw [List.length_map, hlen])
  have h1 : InUse k j (allocateAll l s) := by
    refine allocateAll_inUse h (hfst ▸ hn) (fun p hp => hf _ (hfst ▸ List.mem_map_of_mem hp)) fun c p hp => ?_
    obtain ⟨x, hx, hxe⟩ := List.mem_map.mp (List.of_mem_zip (a := p.1) (b := p.2) hp).2
    have hen : (s.rule r).active.enabled = true := by
      rw [← Bool.not_eq_false, ← (h.lines c).idle r, hr]
      exact fun c => nomatch c
    rw [← hxe]
    exact (h.lines c).templates r hen x hx
  have hrules : ∀ hs, (joinAll hs (allocateAll l s)).rules = s.rules := fun hs =>
    ((allocateAll_onlyWork l s).trans (joinAll_onlyWork hs _)).rules
  have hstate : ∀ hs, ((joinAll hs (allocateAll l s)).rule r).state ≠ .idle := fun hs => by
    rw [State.rule, hrules, ← State.rule, hr]
    exact fun c => nomatch c
  unfold fireRule
  dsimp only
  generalize hu : joinAll (slots.map (allocateAll l s).handleOf) (allocateAll l s) = u
  have h2 : InUse k j u := hu ▸ joinAll_inUse h1
  have hur : (u.rule r).state ≠ .idle := hu ▸ hstate _
  have h3 : InUse k j (u.putRule r { u.rule r with fired := (s.rule r).nextFiring, lastFiring := some e.timestamp }) :=
    h2.sameUse (putRule_sameUse u r rfl .rfl)
  split
  · refine testLimit_inUse (h3.createReport _) ?_
    rw [State.rule, (createReport_onlyWork _ _).rules, ← State.rule, State.rule_putRule_self]
    exact hur
  · refine testLimit_inUse h3 ?_
    rw [State.rule_putRule_self]
    exact hur

theorem dropFiring_inUse (h : InUse k j s) (r : RuleNo) (asked free : Nat) (e : EdgeEvent) :
    InUse k j (dropFiring r asked free e s) := by
  have h1 := h.noted (countFault_noted .poolExhausted (some (.ruleOrigin r)) s)
  unfold dropFiring
  refine InUse.createReport ?_ _
  exact h1.sameUse (putRule_sameUse _ r rfl .rfl)

theorem evalRule_inUse (h : InUse k j s) (r : RuleNo) (e : EdgeEvent) : InUse k j (evalRule r e s) := by
  unfold evalRule
  dsimp only
  split
  · exact h
  · rename_i hr
    split
    · exact h
    · split
      · exact h.sameUse (putRule_sameUse s r rfl .rfl)
      · split
        · exact h.sameUse (putRule_sameUse s r rfl .rfl)
        · unfold requestSlots
          dsimp only
          split
          · refine fireRule_inUse h (by simpa using hr) ?_ ((freeSlots_nodup s).sublist (List.take_sublist _ _))
              fun i hi => mem_freeSlots.mp (List.mem_of_mem_take hi)
            rw [List.length_take, freeSlots_length]
            omega
          · exact dropFiring_inUse h r _ _ e

theorem evalRules_inUse {e : EdgeEvent} {rs : List RuleNo} (h : InUse k j s) : InUse k j (evalRules e rs s) := by
  induction rs generalizing s with
  | nil => exact h
  | cons r rs ih =>
    unfold evalRules
    split
    · exact ih (evalRule_inUse h r e)
    · exact h

theorem offerEdge_inUse (h : InUse k j s) (e : EdgeEvent) : InUse k j (offerEdge e s) := by
  have hj : ∀ x, InUse k j (s.withJournal x) := fun x => h.congr rfl rfl rfl
  unfold offerEdge
  split
  · unfold storeEdge
    dsimp only
    split
    · exact (hj _).createReport _
    · exact hj _
  · exact (hj _).noted (countFault_noted _ _ _)

theorem acceptEdge_inUse (h : InUse k j s) (l : InLine) : InUse k j (acceptEdge l s) := by
  unfold acceptEdge
  split
  · exact h
  · rename_i q _
    have h1 : InUse k j (advanceTravel l q (s.putInput l { s.input l with filtered := q.level, qual := none })) := by
      unfold advanceTravel
      split
      · exact runLists_inUse (h.congr rfl rfl rfl)
      · exact h.congr rfl rfl rfl
    dsimp only
    split
    · refine evalRules_inUse ?_
      split
      · exact offerEdge_inUse h1 _
      · exact h1
    · exact h1

theorem sampleInput_inUse (h : InUse k j s) (l : InLine) (v : Level) : InUse k j (sampleInput l v s) := by
  have hi : ∀ x, InUse k j (s.putInput l x) := fun x => h.congr rfl rfl rfl
  unfold sampleInput
  dsimp only
  split
  · split
    · exact hi _
    · exact hi _
  · split
    · exact hi _
    · split
      · exact acceptEdge_inUse (hi _) l
      · exact hi _

/-! ## SYNC and trains (R37, R38, R55, R57, R60, R61) -/

theorem loadTimeline_inUse (h : InUse k j s) (p x : Tick) : InUse k j (loadTimeline p x s) := by
  unfold loadTimeline
  refine InUse.createReport ?_ _
  refine h.sameUse ⟨rfl, fun l => ?_, fun _ => ⟨rfl, .rfl⟩⟩
  rw [State.output_withOutputs_tabulate]
  exact ⟨rfl, rfl, rfl⟩

theorem timeSync_inUse (h : InUse k j s) (x : Tick) : InUse k j (timeSync x s) := by
  unfold timeSync
  split
  · exact InUse.congr (h.createReport _) rfl rfl rfl
  · exact h.congr rfl rfl rfl

theorem acceptSync_inUse (h : InUse k j s) : InUse k j (acceptSync s) := by
  unfold acceptSync
  split
  · exact h
  · rename_i q _
    have h1 : InUse k j (s.withTimebase { s.timebase with syncFiltered := q.level, syncQual := none }) :=
      h.congr rfl rfl rfl
    dsimp only
    split
    · exact h1
    · unfold syncEdge
      split
      · exact loadTimeline_inUse h1 _ _
      · exact timeSync_inUse h1 _

theorem sampleSync_inUse (h : InUse k j s) (v : Level) : InUse k j (sampleSync v s) := by
  unfold sampleSync
  dsimp only
  split
  · exact h.congr rfl rfl rfl
  · split
    · exact h.congr rfl rfl rfl
    · split
      · exact acceptSync_inUse (h.congr rfl rfl rfl)
      · exact h.congr rfl rfl rfl

theorem Output.applyStaged_mode (o : Output) : o.applyStaged.mode = o.mode := by
  unfold Output.applyStaged
  split <;> rfl

theorem endHigh_sameUse (l : OutLine) (s : State) : SameUse s (endHigh l s) := putOutput_sameUse s l rfl rfl rfl

theorem endPeriod_inUse (h : InUse k j s) (l : OutLine) : InUse k j (endPeriod l s) := by
  unfold endPeriod
  dsimp only
  split
  · refine InUse.createReport ?_ _
    exact h.sameUse (putOutput_sameUse s l rfl rfl rfl)
  · exact h.sameUse (putOutput_sameUse s l (Output.applyStaged_kept _).1 (Output.applyStaged_kept _).2
      (Output.applyStaged_mode _))

end Sys2Proof.Machine

end

