-- ==== Sys2Proof/Proofs/InUseKept.lean ====
section
/-! PROOFS. Every request that is taken, and with it every step, keeps the holder sets in agreement with the pool and the lines
in use SEQUENCED (R29, R43, R88, R94, R113). -/

namespace Sys2Proof.Machine

variable {k j : Prop} {s : State}

/-! ## Run Control (R25, R118 to R120, R124, R128, R129) -/

theorem clearLastFirings_sameUse (s : State) : SameUse s (clearLastFirings s) :=
  withRules_sameUse s fun _ => ⟨rfl, .rfl⟩

theorem changeRunState_inUse (h : InUse k j s) (st : RunState) (silence : Option Nat) (n : Nat) :
    InUse k j (changeRunState st silence n s) := by
  unfold changeRunState
  refine InUse.createReport ?_ _
  exact h.congr rfl rfl rfl

/-- The flush frees every slot in use before the holder sets are emptied (R25, R36). -/
theorem flushAll_inUse (h : InUse k j s) : InUse k j (flushAll s) := by
  let s1 := s.withRun { s.run with state := .standby, silence := none }
  have hfree : ∀ i, ((flushHandles s.freeingOrder s1).slot i).isFree = true := fun i => flushHandles_isFree _ (by
    by_cases hf : (s.slot i).isFree = true
    · exact .inl hf
    · exact .inr (handleOf_mem_freeingOrder (by simpa using hf)))
  obtain ⟨w, hw⟩ := flushHandles_steps (V := []) s.freeingOrder s1
  have hmode := hw.modes
  have hrules := (flushHandles_onlyWork s.freeingOrder s1).rules
  unfold flushAll
  refine changeRunState_inUse ?_ _ _ _
  refine h.emptied hfree (emptyHolders_holders _) (fun l => ?_) fun r => ?_
  · rw [emptyHolders_output]
    exact hmode l
  · rw [show (emptyHolders (flushHandles s.freeingOrder s1)).rule r = s.rule r by
      rw [State.rule, State.rule, ← show s1.rules = s.rules from rfl, ← hrules]
      rfl]
    exact ⟨rfl, .rfl⟩

theorem takeArm_inUse (h : InUse k j s) : InUse k j (takeArm s).1 := by
  unfold takeArm
  split
  · split
    · exact h
    · exact changeRunState_inUse (h.sameUse (clearLastFirings_sameUse s)) _ _ _
  · exact h
  · exact h
  · exact h

theorem takeDisarmWait_inUse (h : InUse k j s) : InUse k j (takeDisarmWait s).1 := by
  unfold takeDisarmWait
  split
  · split <;> exact changeRunState_inUse h _ _ _
  · exact h
  · exact h
  · exact h

theorem takeDisarmFlush_inUse (h : InUse k j s) : InUse k j (takeDisarmFlush s).1 := by
  unfold takeDisarmFlush
  split
  · exact flushAll_inUse h
  · exact flushAll_inUse h
  · exact h
  · exact h

theorem takeRecover_inUse (h : InUse k j s) : InUse k j (takeRecover s).1 := by
  unfold takeRecover
  split
  · exact changeRunState_inUse h _ _ _
  · exact h

theorem defaultRules_linesInUse {t : State} (hf : ∀ i, (t.slot i).isFree = true)
    (hr : ∀ r, t.rule r = defaultRule) : LinesInUse t where
  actions i a ha := by
    rw [slot_of_free _ (hf i)] at ha
    cases ha
  templates r he := by
    rw [hr] at he
    cases he
  idle r := by
    rw [hr]
    decide

theorem restartAll_rule_keep (s : State) (r : RuleNo) : (restartAll .keep s).rule r =
    { (s.rule r).zeroed with state := if (s.rule r).active.enabled then .listening else .idle } := by
  simp [restartAll, restartRules, State.rule]

/-- RESTART frees every slot and empties every holder set; KEEP keeps the modes and the active copies, and makes IDLE the rules
whose active copy is disabled (R26, R49, R115). -/
theorem restartAll_inUse (h : InUse k j s) (m : RestartMode) : InUse k j (restartAll m s) := by
  have hf := (restartAll_emptied m s).1
  cases m with
  | keep =>
    refine ⟨fun _ => .of_free hf (restartAll_holders .keep s), fun c => (h.lines c).narrowed (fun i a ha => ?_)
      (fun l => ?_) fun r => ?_⟩
    · rw [slot_of_free _ (hf i)] at ha
      cases ha
    · simp [restartAll, restartOutputs, State.output, Output.restarted, Output.stopTrain]
    · rw [restartAll_rule_keep, (h.lines c).idle r]
      refine ⟨rfl, ?_⟩
      cases (s.rule r).active.enabled <;> simp
  | clear =>
    exact ⟨fun _ => .of_free hf (restartAll_holders .clear s), fun _ => defaultRules_linesInUse hf fun r => by
      simp [restartAll, restartRules, State.rule, getAt]⟩

theorem resetBlocks_inUse (linkSel : Level) (s : State) : InUse k j (resetBlocks linkSel s) := by
  have hf : ∀ i, ((resetBlocks linkSel s).slot i).isFree = true := fun i => by
    simp [resetBlocks, defaultScheduler, defaultSlot, State.slot, getAt, Slot.isFree]
  refine ⟨fun _ => .of_free hf fun l => ?_, fun _ => defaultRules_linesInUse hf fun r => ?_⟩
  · simp [resetBlocks, State.output, getAt, defaultOutput]
  · simp [resetBlocks, State.rule, getAt]

/-! ## The Action Scheduler (R17 to R21) -/

/-- The action of a SCHEDULE_PULSE is for the line that was checked. -/
theorem scheduledAction_line {tag : Tag} {line : OutLine} {base mode : Byte} {due : BitVec 48} {width : BitVec 24}
    {repeats : Byte} {interval : BitVec 32} {done : Byte} {a : Action}
    (h : scheduledAction tag line base mode due width repeats interval done s = some a) : a.line = line := by
  unfold scheduledAction at h
  split at h
  · split at h
    · obtain ⟨d, -, rfl⟩ := Option.map_eq_some_iff.mp h
      rfl
    · cases h
  · cases h

theorem takeSchedulePulse_inUse {tag : Tag} {line base mode : Byte} {due : BitVec 48} {width : BitVec 24} {repeats : Byte}
    {interval : BitVec 32} {done : Byte} (h : InUse k j s) :
    InUse k j (takeSchedulePulse tag line base mode due width repeats interval done s).1 := by
  unfold takeSchedulePulse
  split
  · exact h
  · split
    · exact h
    · split
      · exact h
      · split
        · exact h
        · rename_i hmode
          split
          · exact h
          · rename_i a ha
            split
            · exact h.noted (countFault_noted _ _ _)
            · rename_i i is hfree
              have hf : (s.slot i).isFree = true := mem_freeSlots.mp (by rw [hfree]; exact List.mem_cons_self)
              refine joinAction_inUse (allocate_inUse h hf fun _ => ?_) _
              rw [scheduledAction_line ha]
              exact not_not.mp hmode

/-- A cancel treats a live action by its state (R19, R35). -/
theorem cancelHandle_inUse {x : Handle} {y : Slot} (mode : CancelMode) (h : InUse k j s) (hl : s.live x = some y) :
    InUse k j (cancelHandle mode x s) := by
  have hg : (s.slot x.slot).gen = x.gen := by
    unfold State.live at hl
    dsimp only at hl
    split at hl
    · rename_i hc
      exact hc.1
    · cases hl
  unfold cancelHandle
  rcases hst : (s.slot x.slot).state with _ | a | ⟨a, f⟩
  · exact h
  · exact freeSlot_waiting_inUse _ h (State.waitingAction_eq.mpr (by rw [← hg, ← hst]))
  · have hs : s.slot x.slot = ⟨x.gen, .holding a f⟩ := by rw [← hg, ← hst]
    have hh : s.holdingAction x = some a := State.holdingAction_eq.mpr ⟨f, hs⟩
    cases mode with
    | abort => exact freeSlot_released_inUse _ h hh fun _ => rfl
    | finish => exact giveUp_inUse h hs

theorem cancelHandles_inUse {mode : CancelMode} {hs : List Handle} (h : InUse k j s) :
    InUse k j (cancelHandles mode hs s).1 := by
  induction hs generalizing s with
  | nil => exact h
  | cons x hs ih =>
    unfold cancelHandles
    split
    · exact ih h
    · exact ih (cancelHandle_inUse mode h ‹_›)

theorem takeCancelAction_inUse {mode : CancelMode} {slot : Byte} {gen : Gen} (h : InUse k j s) :
    InUse k j (takeCancelAction mode slot gen s).1 := by
  unfold takeCancelAction
  split
  · exact h
  · split
    · exact h
    · exact cancelHandle_inUse mode h ‹_›

theorem takeCancelLine_inUse {mode : CancelMode} {line : Byte} (h : InUse k j s) :
    InUse k j (takeCancelLine mode line s).1 := by
  unfold takeCancelLine
  split
  · exact h
  · exact cancelHandles_inUse h

/-! ## The Output Stage (R39 to R45) -/

theorem Output.configured_mode (o : Output) (m : OutMode) (i f : Level) (p : Policy) :
    (o.configured m i f p).mode = m := by
  unfold Output.configured
  dsimp only
  split <;> rfl

theorem lineTargeted_false {l : OutLine} :
    s.lineTargeted l = false ↔ ∀ i a, (s.slot i).action = some a → a.line ≠ l := by
  unfold State.lineTargeted allSlots
  simp only [List.any_eq_false, List.mem_finRange, true_implies]
  refine forall_congr' fun i => ?_
  cases (s.slot i).action <;> simp

theorem ruleUses_false {l : OutLine} :
    s.ruleUses l = false ↔ ∀ r, (s.rule r).active.enabled = true → ∀ t ∈ (s.rule r).active.templates, t.line ≠ l := by
  unfold State.ruleUses allRules
  simp

/-- A line that no action targets is configured; it stays SEQUENCED if an enabled rule uses it (R43, R44). -/
theorem configured_inUse {l : OutLine} {m : OutMode} {i f : Level} {p : Policy} (h : InUse k j s)
    (ht : s.lineTargeted l = false) (hu : ¬ ((s.output l).mode = .sequenced ∧ m ≠ .sequenced ∧ s.ruleUses l = true)) :
    InUse k j (s.putOutput l ((s.output l).configured m i f p)) := by
  rw [lineTargeted_false] at ht
  have hne : ∀ x, x ≠ l → (s.putOutput l ((s.output l).configured m i f p)).output x = s.output x := fun x hx =>
    State.output_putOutput_ne _ _ _ _ hx
  refine ⟨fun c => ?_, fun c => ⟨fun x a ha => ?_, fun r hr t hmem => ?_, (h.lines c).idle⟩⟩
  · have hempty : (s.output l).holders = [] := List.eq_nil_iff_forall_not_mem.mpr fun b hb => by
      obtain ⟨a, ha, hal⟩ := ((h.agree c).holding l b).mp hb
      exact ht _ a (Slot.action_of_holding ha) hal
    have hh : ∀ x, ((s.putOutput l ((s.output l).configured m i f p)).output x).holders = (s.output x).holders := by
      intro x
      by_cases e : x = l
      · rw [e, State.output_putOutput_self, Output.configured_holders]
      · rw [hne x e]
    refine ⟨fun x => hh x ▸ (h.agree c).once x, fun x b => by rw [hh]; exact (h.agree c).holding x b, fun x hx => ?_⟩
    rw [hh]
    by_cases e : x = l
    · simp [e, hempty]
    · exact (h.agree c).single x (hne x e ▸ hx)
  · rw [hne _ (ht x a ha)]
    exact (h.lines c).actions x a ha
  · have hs := (h.lines c).templates r hr t hmem
    by_cases e : t.line = l
    · rw [e, State.output_putOutput_self, Output.configured_mode]
      by_contra hm
      have huses : s.ruleUses l ≠ true := fun x => hu ⟨e ▸ hs, hm, x⟩
      exact (ruleUses_false (s := s)).mp (by simpa using huses) r hr t hmem e
    · rw [hne _ e]
      exact hs

theorem takeSetOutput_inUse {line mode idle safe policy : Byte} (h : InUse k j s) :
    InUse k j (takeSetOutput line mode idle safe policy s).1 := by
  unfold takeSetOutput
  split
  · split
    · exact h
    · rename_i ht
      split
      · exact h
      · exact configured_inUse h (by simpa using ht) ‹_›
  · exact h

theorem takeSetLevel_sameUse (line level : Byte) (s : State) : SameUse s (takeSetLevel line level s).1 := by
  unfold takeSetLevel
  split
  · split
    · exact .of_eq rfl rfl rfl
    · exact putOutput_sameUse s _ rfl rfl rfl
  · exact .of_eq rfl rfl rfl

theorem takeTrainLoad_sameUse (line : Byte) (period high : BitVec 24) (s : State) :
    SameUse s (takeTrainLoad line period high s).1 := by
  unfold takeTrainLoad
  split
  · exact .of_eq rfl rfl rfl
  · split
    · exact .of_eq rfl rfl rfl
    · split
      · exact .of_eq rfl rfl rfl
      · exact putOutput_sameUse s _ rfl rfl rfl

theorem takeTrainStart_sameUse (line : Byte) (burst : BitVec 16) (s : State) :
    SameUse s (takeTrainStart line burst s).1 := by
  unfold takeTrainStart
  split
  · exact .of_eq rfl rfl rfl
  · split_ifs
    · exact .of_eq rfl rfl rfl
    · exact .of_eq rfl rfl rfl
    · exact .of_eq rfl rfl rfl
    · exact .of_eq rfl rfl rfl
    · exact putOutput_sameUse s _ (Output.applyStaged_kept _).1 (Output.applyStaged_kept _).2 (Output.applyStaged_mode _)

theorem takeTrainStop_sameUse {stop : Output → Output} (line : Byte) (s : State)
    (hstop : ∀ o, (stop o).holders = o.holders ∧ (stop o).policy = o.policy ∧ (stop o).mode = o.mode) :
    SameUse s (takeTrainStop stop line s).1 := by
  unfold takeTrainStop
  split
  · exact .of_eq rfl rfl rfl
  · rename_i l _
    split
    · exact .of_eq rfl rfl rfl
    · dsimp only
      split
      · obtain ⟨hh, hp, hm⟩ := hstop (s.output l)
        exact putOutput_sameUse s l hh hp hm
      · exact .of_eq rfl rfl rfl

/-! ## The Rule Engine (R91, R93 to R95, R112) -/

theorem takeEditRule_sameUse (rule : Byte) (record : RawRule) (s : State) : SameUse s (takeEditRule rule record s).1 := by
  unfold takeEditRule
  split
  · exact putRule_sameUse s _ rfl .rfl
  · exact .of_eq rfl rfl rfl

theorem takeDiscardStaged_sameUse (s : State) : SameUse s (takeDiscardStaged s).1 :=
  withRules_sameUse s fun _ => ⟨rfl, .rfl⟩

theorem Rule.countsReset_idle (x : Rule) : x.countsReset.state = .idle ↔ x.state = .idle := by
  unfold Rule.countsReset
  dsimp only
  split
  · rename_i h
    simp [h]
  · exact .rfl

theorem takeResetRuleCounts_sameUse (rules : BitVec 16) (s : State) : SameUse s (takeResetRuleCounts rules s).1 :=
  withRules_sameUse s fun r => by
    split
    · exact ⟨rfl, Rule.countsReset_idle _⟩
    · exact ⟨rfl, .rfl⟩

/-- Where no template of a list has a fault, their lines are SEQUENCED (R94). -/
theorem firstFault_none {base : Base} {n : Nat} {l : List Template} (h : firstFault base s n l = none) :
    ∀ t ∈ l, (s.output t.line).mode = .sequenced := by
  induction l generalizing n with
  | nil => simp
  | cons x xs ih =>
    unfold firstFault at h
    split at h
    · cases h
    · rename_i hx
      refine List.forall_mem_cons.mpr ⟨?_, ih h⟩
      unfold templateFault at hx
      by_contra hm
      rw [if_pos hm] at hx
      cases hx

/-- Where no rule of a list is invalid, the lines of the dirty ones' enabled staged copies are SEQUENCED (R94). -/
theorem firstInvalid_none {rs : List RuleNo} (h : firstInvalid s rs = none) : ∀ r ∈ rs, (s.rule r).dirty = true →
    (s.rule r).staged.enabled = true → ∀ t ∈ (s.rule r).staged.templates, (s.output t.line).mode = .sequenced := by
  induction rs with
  | nil => simp
  | cons r rs ih =>
    unfold firstInvalid at h
    dsimp only at h
    split at h
    · cases h
    · rename_i hr
      refine List.forall_mem_cons.mpr ⟨fun hd he => ?_, ih h⟩
      rw [hd, he] at hr
      exact firstFault_none hr

/-- A commit makes active what was checked, LISTENING where it is enabled and IDLE where it is not (R94, R95). -/
theorem takeCommitRules_inUse (h : InUse k j s) : InUse k j (takeCommitRules s).1 := by
  unfold takeCommitRules
  split
  · exact h
  · split
    · exact h
    · rename_i hvalid
      refine ⟨fun c => (h.agree c).congr (fun _ => rfl) (fun _ => rfl) fun _ _ => .rfl,
        fun c => ⟨(h.lines c).actions, fun r => ?_, fun r => ?_⟩⟩ <;>
        rw [State.rule_withRules_tabulate] <;> split
      · rename_i hd
        exact firstInvalid_none hvalid r (List.mem_finRange r) hd
      · exact (h.lines c).templates r
      · show (if (s.rule r).staged.enabled = true then RuleState.listening else RuleState.idle) = .idle ↔
          (s.rule r).staged.enabled = false
        cases (s.rule r).staged.enabled <;> simp
      · exact (h.lines c).idle r

/-! ## Requests that leave the use as it is -/

theorem takeSetSupervision_sameUse (limit : BitVec 16) (s : State) : SameUse s (takeSetSupervision limit s).1 := by
  unfold takeSetSupervision
  dsimp only
  split <;> exact .of_eq rfl rfl rfl

theorem takeSetSchedule_sameUse (ticks : BitVec 16) (counts policy reserve : Byte) (s : State) :
    SameUse s (takeSetSchedule ticks counts policy reserve s).1 := by
  unfold takeSetSchedule
  split
  · exact .of_eq rfl rfl rfl
  · split <;> exact .of_eq rfl rfl rfl

theorem takeSetTravelSource_sameUse (source : Byte) (s : State) : SameUse s (takeSetTravelSource source s).1 := by
  unfold takeSetTravelSource
  split
  · exact .of_eq rfl rfl rfl
  · split <;> exact .of_eq rfl rfl rfl

theorem takeSetSync_sameUse (width : BitVec 16) (reporting : Byte) (s : State) :
    SameUse s (takeSetSync width reporting s).1 := by
  unfold takeSetSync
  split
  · exact .of_eq rfl rfl rfl
  · split <;> exact .of_eq rfl rfl rfl

theorem takeArmSync_sameUse (preset : Tick) (s : State) : SameUse s (takeArmSync preset s).1 := by
  unfold takeArmSync
  split
  · exact .of_eq rfl rfl rfl
  · split <;> exact .of_eq rfl rfl rfl

theorem takeSetInput_sameUse (line select : Byte) (width : BitVec 16) (enable : Byte) (s : State) :
    SameUse s (takeSetInput line select width enable s).1 := by
  unfold takeSetInput
  split
  · split <;> exact .of_eq rfl rfl rfl
  · exact .of_eq rfl rfl rfl

theorem takeReadJournal_sameUse (count : Byte) (s : State) : SameUse s (takeReadJournal count s).1 := by
  unfold takeReadJournal
  split <;> exact .of_eq rfl rfl rfl

theorem takeSetJournal_sameUse (watermark empty : Byte) (s : State) : SameUse s (takeSetJournal watermark empty s).1 := by
  unfold takeSetJournal
  split
  · exact .of_eq rfl rfl rfl
  · split <;> exact .of_eq rfl rfl rfl

theorem takeSetReporting_sameUse (kinds interval : BitVec 16) (retries : Byte) (s : State) :
    SameUse s (takeSetReporting kinds interval retries s).1 := by
  unfold takeSetReporting
  split <;> exact .of_eq rfl rfl rfl

theorem takeClearFaults_sameUse (kinds : BitVec 16) (s : State) : SameUse s (takeClearFaults kinds s).1 := by
  unfold takeClearFaults
  split <;> exact .of_eq rfl rfl rfl

theorem takeSetFaultMasks_sameUse (fatal report : BitVec 16) (s : State) :
    SameUse s (takeSetFaultMasks fatal report s).1 := by
  unfold takeSetFaultMasks
  split <;> exact .of_eq rfl rfl rfl

/-! ## Every request, every step -/

/-- Every command that is taken keeps what is in use in order. -/
theorem takeCommand_inUse (i : Instr) (h : InUse k j s) : InUse k j (takeCommand i s).1 := by
  cases i with
  | ping _ data => exact (takePing_state data s).symm ▸ h
  | setLinkRate _ rate => exact (takeSetLinkRate_state rate s).symm ▸ h
  | arm _ => exact takeArm_inUse h
  | disarmWait _ => exact takeDisarmWait_inUse h
  | disarmFlush _ => exact takeDisarmFlush_inUse h
  | recover _ => exact takeRecover_inUse h
  | setSupervision _ limit => exact h.sameUse (takeSetSupervision_sameUse limit s)
  | restartKeep _ => exact restartAll_inUse h .keep
  | restartClear _ => exact restartAll_inUse h .clear
  | schedulePulse tag line base mode due width repeats interval done => exact takeSchedulePulse_inUse h
  | cancelActionAbort _ slot gen => exact takeCancelAction_inUse h
  | cancelActionFinish _ slot gen => exact takeCancelAction_inUse h
  | cancelLineAbort _ line => exact takeCancelLine_inUse h
  | cancelLineFinish _ line => exact takeCancelLine_inUse h
  | listSchedule _ list start maximum => exact (takeListSchedule_state list start maximum s).symm ▸ h
  | setSchedule _ ticks counts policy reserve => exact h.sameUse (takeSetSchedule_sameUse ticks counts policy reserve s)
  | setOutput _ line mode idle safe policy => exact takeSetOutput_inUse h
  | setLevel _ line level => exact h.sameUse (takeSetLevel_sameUse line level s)
  | trainLoad _ line period high => exact h.sameUse (takeTrainLoad_sameUse line period high s)
  | trainStart _ line burst => exact h.sameUse (takeTrainStart_sameUse line burst s)
  | trainStopNow _ line => exact h.sameUse (takeTrainStop_sameUse line s fun _ => ⟨rfl, rfl, rfl⟩)
  | trainStopAtPeriodEnd _ line => exact h.sameUse (takeTrainStop_sameUse line s fun _ => ⟨rfl, rfl, rfl⟩)
  | setTravelSource _ source => exact h.sameUse (takeSetTravelSource_sameUse source s)
  | setSync _ width reporting => exact h.sameUse (takeSetSync_sameUse width reporting s)
  | armSync _ preset => exact h.sameUse (takeArmSync_sameUse preset s)
  | cancelSync _ => exact h.congr rfl rfl rfl
  | setInput _ line select width enable => exact h.sameUse (takeSetInput_sameUse line select width enable s)
  | readJournal _ count => exact h.sameUse (takeReadJournal_sameUse count s)
  | setJournal _ watermark empty => exact h.sameUse (takeSetJournal_sameUse watermark empty s)
  | editRule _ rule record => exact h.sameUse (takeEditRule_sameUse rule record s)
  | readRule _ rule copy => exact (takeReadRule_state rule copy s).symm ▸ h
  | readRuleStats _ first number => exact (takeReadRuleStats_state first number s).symm ▸ h
  | discardStaged _ => exact h.sameUse (takeDiscardStaged_sameUse s)
  | resetRuleCounts _ rules => exact h.sameUse (takeResetRuleCounts_sameUse rules s)
  | commitRules _ => exact takeCommitRules_inUse h
  | setReporting _ kinds interval retries => exact h.sameUse (takeSetReporting_sameUse kinds interval retries s)
  | clearFaults _ kinds => exact h.sameUse (takeClearFaults_sameUse kinds s)
  | setFaultMasks _ fatal report => exact h.sameUse (takeSetFaultMasks_sameUse fatal report s)
  | _ => exact h

theorem keeps_inUse : Keeps (InUse k j) (InUse k j) where
  weaken h := h
  beside h hp := hp.congr (by rw [h]) (by rw [h]) (by rw [h])
  faulted _ hp := enterFaulted_inUse hp
  besideAfter h hp := hp.congr (by rw [h]) (by rw [h]) (by rw [h])
  faultedAfter _ hp := enterFaulted_inUse hp
  elapse _ hp := hp.congr rfl rfl rfl
  take i _ hp := takeCommand_inUse i hp
  timeList hp := runLists_inUse hp
  edge l _ hp := acceptEdge_inUse hp l
  sample l v _ hp := sampleInput_inUse hp l v
  raw _ _ _ hp := hp.congr rfl rfl rfl
  rawSync _ _ hp := hp.congr rfl rfl rfl
  highEnd l s hp := hp.sameUse (endHigh_sameUse l s)
  periodEnd l _ hp := endPeriod_inUse hp l
  reset v s := resetBlocks_inUse v s

/-- Every step keeps what is in use in order. -/
theorem step_inUse {t : State} (h : InUse k j s) (ht : step s = .next t) : InUse k j t := by
  refine keeps_inUse.step (fun rest => ?_) (fun _ _ _ => .inl fun hu => hu) h ht
  have h' : ∀ n, InUse k j (elapse n { s with pending := rest }) := fun n => h.congr rfl rfl rfl
  exact ⟨fun n _ => acceptSync_inUse (h' n), fun n v _ => sampleSync_inUse (h' n) v⟩

/-! ## The level of a SEQUENCED line (R28) -/

theorem pinLevel_running {l : OutLine} (hh : s.held = false) (hs : s.run.state ≠ .faulted) :
    s.pinLevel l = (s.output l).modeLevel := by
  unfold State.pinLevel
  rw [if_neg (by simp [hh]), if_neg hs]

theorem modeLevel_sequenced {o : Output} (h : o.mode = .sequenced) :
    o.modeLevel = if o.holders = [] then o.idle else flipLevel o.idle := by
  unfold Output.modeLevel
  rw [h]
  simp [Output.assertedLevel]

end Sys2Proof.Machine

open Sys2Proof Sys2Proof.Machine in
/-- Settles O11: every operation of the Scheduler keeps the agreement (`step_inUse`); and a line's holder set, being its HOLDING
actions, is empty exactly when there is none. -/
theorem holdersAgreeKept : Obligations.HoldersAgreeKept := by
  unfold Obligations.HoldersAgreeKept
  refine ⟨fun s t h ht => (step_inUse (k := True) (j := False) ⟨fun _ => h, False.elim⟩ ht).agree trivial,
    fun s l h hh hs hm => ?_⟩
  rw [pinLevel_running hh hs, modeLevel_sequenced hm]
  refine ⟨fun ⟨x, a, ha, hl⟩ => if_neg fun c => ?_, fun hn => if_pos ?_⟩
  · have hx := (h.holding l x).mpr ⟨a, ha, hl⟩
    rw [c] at hx
    cases hx
  · refine List.eq_nil_iff_forall_not_mem.mpr fun x hx => ?_
    obtain ⟨a, ha, hl⟩ := (h.holding l x).mp hx
    exact hn x a ha hl

open Sys2Proof Sys2Proof.Machine in
/-- Settles O12: an action keeps its line, a slot is granted for a SEQUENCED line alone, and SET_OUTPUT and COMMIT_RULES check
the lines in use (`step_inUse`). -/
theorem linesInUseKept : Obligations.LinesInUseKept := by
  unfold Obligations.LinesInUseKept
  intro s t h ht
  exact (step_inUse (k := False) (j := True) ⟨False.elim, fun _ => h⟩ ht).lines trivial

end

