-- ==== Sys2Proof/Proofs/OutputRequests.lean ====
section
/-! PROOFS. RECOVER, and the requests of the Output Stage that set levels, modes and trains: the record that each leaves, and
the level on the pin (R28, R39 to R41, R43 to R45, R48, R124). -/

namespace Sys2Proof.Machine

variable {s : State} {tag : Tag} {c : Option Byte}

/-! ## The pin when a request has been answered (R28, R47) -/

theorem held_of_admits (h : s.admits tag c = true) : s.held = false := by
  unfold State.admits at h
  simp only [Bool.and_eq_true, Bool.not_eq_true'] at h
  exact h.1.1.1.1

theorem SameButLink.pinLevel {u t : State} (h : SameButLink u t) (l : OutLine) : t.pinLevel l = u.pinLevel l := by
  have hh : t.held = u.held := by rw [h]
  unfold State.pinLevel
  rw [hh, h.run, h.output]

/-- A request that is answered completes with the pins as its owner block left them. -/
theorem Answers.completes_pins {i : Instr} {p : List Byte} {a : AfterSent} {u : State} (h : Answers i tag c p a s u) :
    ∃ t, Completes i s t ∧ ∀ l, t.pinLevel l = u.pinLevel l := by
  obtain ⟨t, ht, -, hu⟩ := h
  exact ⟨t, ht, hu.pinLevel⟩

theorem taking_putOutput (tag : Tag) (s : State) (l : OutLine) (o : Output) :
    (taking tag s).putOutput l o = ((restartSilence s).putOutput l o).withLink (taking tag s).link := by
  conv_lhs => rw [taking_eq]
  rfl

/-- A request whose owner block replaces the record of one line. -/
theorem answers_putOutput {i : Instr} {p : List Byte} {r : Reply} {l : OutLine} {o : Output}
    (he : encodeRequest i = some (tag, p)) (hc : p.head? = c) (h : s.admits tag c = true)
    (hu : takeCommand i (taking tag s) = ((taking tag s).putOutput l o, r)) :
    Answers i tag c (responsePayload c r) r.after s ((restartSilence s).putOutput l o) :=
  answers_command he hc h (by rw [hu, taking_putOutput])

/-- Outside reset a pin shows the safe level in FAULTED, and else what the mode says (R28, R47). -/
theorem pinLevel_outside_reset (h : s.held = false) (l : OutLine) :
    s.pinLevel l = if s.run.state = .faulted then (s.output l).safe else (s.output l).modeLevel := by
  unfold State.pinLevel
  rw [if_neg (by simp [h])]

/-- The pin of a line whose record a request has replaced (R28, R47). -/
theorem pinLevel_replaced (h : s.held = false) (l : OutLine) (o : Output) :
    ((restartSilence s).putOutput l o).pinLevel l = if s.run.state = .faulted then o.safe else o.modeLevel := by
  have hh : ((restartSilence s).putOutput l o).held = false := (restartSilence_held s).trans h
  have hr : ((restartSilence s).putOutput l o).run.state = s.run.state := restartSilence_state s
  rw [pinLevel_outside_reset hh, hr, State.output_putOutput_self]

/-! ## The level of a TRAIN line and of a line at rest (R28) -/

theorem modeLevel_train {o : Output} (h : o.mode = .train) :
    o.modeLevel = if o.running = true ∧ o.inHigh = true then flipLevel o.idle else o.idle := by
  unfold Output.modeLevel
  rw [h]
  simp [Output.assertedLevel]

theorem modeLevel_at_rest {o : Output} (hh : o.holders = []) (hr : o.running = false) :
    o.modeLevel = match o.mode with
      | .static => o.setLevel
      | _ => o.idle := by
  unfold Output.modeLevel
  cases o.mode <;> simp [hh, hr]

/-! ## RECOVER (R48, R124) -/

/-- RECOVER in FAULTED with room for its report: STANDBY is entered and told, and nothing else changes. -/
theorem answers_recover (h : s.admits tag (some 0x12) = true) (hs : s.run.state = .faulted) (hr : s.hasRoom 1) :
    Answers (.recover tag) tag (some 0x12) [0x12, 0x00, 0] .nothing s { s with
      run := { s.run with state := .standby }
      reports := s.reports.filed (.runState .standby .request 0) } := by
  refine answers_command (r := replyOk [runStateByte .standby]) rfl rfl h ?_
  have hidle : restartSilence s = s := restartSilence_of_idle (by rw [hs]; rfl)
  have hroom : ((taking tag s).withRun { s.run with state := .standby }).hasRoom 1 := by
    unfold State.hasRoom
    rwa [show ((taking tag s).withRun { s.run with state := .standby }).reports = s.reports from taking_reports tag s]
  refine (if_pos (by rw [taking_run, hidle, hs])).trans ?_
  unfold changeRunState
  rw [taking_run, hidle, createReport_room _ hroom, taking_withRun]
  rfl

/-! ## Bytes read as modes, levels and policies (10.4, R183) -/

theorem levelOf_bad {b : Byte} (h : 1 < b.toNat) : levelOf b = none := by
  obtain ⟨h0, h1⟩ := byte_above_one h
  rw [levelOf, if_neg h0, if_neg h1]

theorem byte_above_two {b : Byte} (h : 2 < b.toNat) : b ≠ 0 ∧ b ≠ 1 ∧ b ≠ 2 := by
  refine ⟨?_, ?_, ?_⟩ <;> rintro rfl <;> simp at h

theorem outModeOf_bad {b : Byte} (h : 2 < b.toNat) : outModeOf b = none := by
  obtain ⟨h0, h1, h2⟩ := byte_above_two h
  rw [outModeOf, if_neg h0, if_neg h1, if_neg h2]

theorem policyOf_bad {b : Byte} (h : 2 < b.toNat) : policyOf b = none := by
  obtain ⟨h0, h1, h2⟩ := byte_above_two h
  rw [policyOf, if_neg h0, if_neg h1, if_neg h2]

theorem levelOf_levelByte (v : Level) : levelOf (levelByte v) = some v := by cases v <;> rfl

theorem outModeOf_number (m : OutMode) : outModeOf (BitVec.ofNat 8 (outModeNumber m)) = some m := by cases m <;> rfl

theorem policyOf_number (p : Policy) : policyOf (BitVec.ofNat 8 (policyNumber p)) = some p := by cases p <;> rfl

/-! ## SET_OUTPUT (R43, R44) -/

/-- A value outside its set changes nothing, whatever the other bytes are. -/
theorem takeSetOutput_bad {line m i f p : Byte}
    (h : 11 < line.toNat ∨ 2 < m.toNat ∨ 1 < i.toNat ∨ 1 < f.toNat ∨ 2 < p.toNat) (t : State) :
    takeSetOutput line m i f p t = (t, reply .badValue) := by
  unfold takeSetOutput
  split
  · rename_i hl hm hi hf hp
    exfalso
    rcases h with h | h | h | h | h
    · simp [outLineOf_none h] at hl
    · simp [outModeOf_bad h] at hm
    · simp [levelOf_bad h] at hi
    · simp [levelOf_bad h] at hf
    · simp [policyOf_bad h] at hp
  · rfl

/-- SET_OUTPUT with every value in its set: the checks of R43 in order, then the record (R44). -/
theorem takeSetOutput_good {line : Byte} {l : OutLine} (hl : line.toNat = l.val) (m : OutMode) (i f : Level) (p : Policy)
    (t : State) :
    takeSetOutput line (BitVec.ofNat 8 (outModeNumber m)) (levelByte i) (levelByte f) (BitVec.ofNat 8 (policyNumber p)) t =
      if t.lineTargeted l then (t, reply .busy)
      else if (t.output l).mode = .sequenced ∧ m ≠ .sequenced ∧ t.ruleUses l then (t, reply .lineInUse)
      else (t.putOutput l ((t.output l).configured m i f p), replyOk []) := by
  unfold takeSetOutput
  simp only [outLineOf_some hl, outModeOf_number, levelOf_levelByte, policyOf_number]

theorem taking_lineTargeted (tag : Tag) (s : State) (l : OutLine) :
    (taking tag s).lineTargeted l = s.lineTargeted l := by
  unfold State.lineTargeted
  simp only [taking_slot]

theorem taking_ruleUses (tag : Tag) (s : State) (l : OutLine) : (taking tag s).ruleUses l = s.ruleUses l := by
  unfold State.ruleUses
  simp only [taking_rule]

theorem Slot.targets_false {x : Slot} {l : OutLine} :
    x.targets l = false ↔ ∀ a, x.action = some a → a.line ≠ l := by
  unfold Slot.targets
  cases x.action <;> simp

theorem lineTargeted_false_iff {l : OutLine} : s.lineTargeted l = false ↔ ∀ i, (s.slot i).targets l = false := by
  simp only [lineTargeted_false, Slot.targets_false]

/-! ## SET_LEVEL (R45) -/

theorem takeSetLevel_bad {line level : Byte} (h : 11 < line.toNat ∨ 1 < level.toNat) (t : State) :
    takeSetLevel line level t = (t, reply .badValue) := by
  unfold takeSetLevel
  split
  · rename_i hl hv
    exfalso
    rcases h with h | h
    · simp [outLineOf_none h] at hl
    · simp [levelOf_bad h] at hv
  · rfl

theorem takeSetLevel_good {line : Byte} {l : OutLine} (hl : line.toNat = l.val) (v : Level) (t : State) :
    takeSetLevel line (levelByte v) t =
      if (t.output l).mode ≠ .static then (t, reply .lineMode)
      else (t.putOutput l { t.output l with setLevel := v }, replyOk []) := by
  unfold takeSetLevel
  simp only [outLineOf_some hl, levelOf_levelByte]

/-! ## The train requests (R39 to R41) -/

theorem takeTrainLoad_bad {line : Byte} {period high : BitVec 24}
    (h : 11 < line.toNat ∨ period.toNat < 2 ∨ period.toNat < high.toNat) (t : State) :
    takeTrainLoad line period high t = (t, reply .badValue) := by
  unfold takeTrainLoad
  split
  · rfl
  · rename_i hl
    rcases h with h | h
    · simp [outLineOf_none h] at hl
    · exact if_pos h

theorem takeTrainLoad_good {line : Byte} {l : OutLine} {period high : BitVec 24} (hl : line.toNat = l.val)
    (hp : 2 ≤ period.toNat) (hh : high.toNat ≤ period.toNat) (t : State) :
    takeTrainLoad line period high t =
      if (t.output l).mode ≠ .train then (t, reply .lineMode)
      else (t.putOutput l { t.output l with staged := some ⟨period, high⟩, stagedPending := true }, replyOk []) := by
  unfold takeTrainLoad
  simp only [outLineOf_some hl]
  rw [if_neg (by omega)]

theorem takeTrainStart_bad {line : Byte} (h : 11 < line.toNat) (burst : BitVec 16) (t : State) :
    takeTrainStart line burst t = (t, reply .badValue) := by
  unfold takeTrainStart
  rw [outLineOf_none h]

theorem takeTrainStart_good {line : Byte} {l : OutLine} (hl : line.toNat = l.val) (burst : BitVec 16) (t : State) :
    takeTrainStart line burst t =
      if t.run.state = .faulted then (t, reply .state)
      else if (t.output l).mode ≠ .train then (t, reply .lineMode)
      else if (t.output l).running then (t, reply .busy)
      else if (t.output l).stagedPending = false ∧ (t.output l).applied = none then (t, reply .state)
      else (t.putOutput l ((t.output l).startTrain burst.toNat t.now), replyOk (tickBytes t.now)) := by
  unfold takeTrainStart
  simp only [outLineOf_some hl]

theorem applyStaged_pending {o : Output} {v : TrainValues} (hp : o.stagedPending = true) (hs : o.staged = some v) :
    o.applyStaged = { o with applied := some v, staged := none, stagedPending := false } := by
  unfold Output.applyStaged
  rw [hp, hs]

theorem applyStaged_not_pending {o : Output} (hp : o.stagedPending = false) : o.applyStaged = o := by
  unfold Output.applyStaged
  rw [hp]

/-- A train starts with the values `v`, whether they were staged or applied (R40). -/
theorem startTrain_eq {o : Output} {v : TrainValues}
    (h : o.stagedPending = true ∧ o.staged = some v ∨ o.stagedPending = false ∧ o.staged = none ∧ o.applied = some v)
    (burst : Nat) (t : Tick) :
    o.startTrain burst t = { o with
      staged := none, stagedPending := false, applied := some v, running := true, burst := burst
      periodsCompleted := 0, periodStart := some t, stopAtEnd := false, inHigh := decide (v.high ≠ 0) } := by
  have happ : o.applyStaged = { o with applied := some v, staged := none, stagedPending := false } := by
    rcases h with ⟨hp, hs⟩ | ⟨hp, hs, ha⟩
    · exact applyStaged_pending hp hs
    · rw [applyStaged_not_pending hp, ← ha, ← hs, ← hp]
  unfold Output.startTrain
  rw [happ]
  rfl

theorem takeTrainStop_bad {line : Byte} (h : 11 < line.toNat) (stop : Output → Output) (t : State) :
    takeTrainStop stop line t = (t, reply .badValue) := by
  unfold takeTrainStop
  rw [outLineOf_none h]

theorem takeTrainStop_good {line : Byte} {l : OutLine} (hl : line.toNat = l.val) (stop : Output → Output) (t : State) :
    takeTrainStop stop line t =
      if (t.output l).mode ≠ .train then (t, reply .lineMode)
      else (if (t.output l).running then t.putOutput l (stop (t.output l)) else t,
        replyOk (yesNoByte (t.output l).running :: leBytes 4 (t.output l).periodsCompleted)) := by
  unfold takeTrainStop
  simp only [outLineOf_some hl]

/-- What TRAIN_STOP answers, `i` being one of its two forms, is the same for both: only what it makes of a running train's
record differs (R41). -/
theorem answers_trainStop {i : Instr} {line : Byte} {p : List Byte} {stop : Output → Output}
    (he : encodeRequest i = some (tag, p)) (hc : p.head? = some 0x34) (h : s.admits tag (some 0x34) = true)
    (ht : takeCommand i = takeTrainStop stop line) :
    (11 < line.toNat → Answers i tag (some 0x34) [0x34, 0x03] .nothing s (restartSilence s))
    ∧ ∀ l : OutLine, line.toNat = l.val →
      ((s.output l).mode ≠ .train → Answers i tag (some 0x34) [0x34, 0x08] .nothing s (restartSilence s))
      ∧ ((s.output l).mode = .train → (s.output l).running = false →
        Answers i tag (some 0x34) ([0x34, 0x00, 0] ++ leBytes 4 (s.output l).periodsCompleted) .nothing s
          (restartSilence s))
      ∧ ((s.output l).mode = .train → (s.output l).running = true →
        Answers i tag (some 0x34) ([0x34, 0x00, 1] ++ leBytes 4 (s.output l).periodsCompleted) .nothing s
          ((restartSilence s).putOutput l (stop (s.output l)))) := by
  refine ⟨fun hl => ?_, fun l hl => ⟨fun hm => ?_, fun hm hr => ?_, fun hm hr => ?_⟩⟩
  · exact answers_unchanged (r := reply .badValue) he hc h (by rw [ht, takeTrainStop_bad hl])
  · refine answers_unchanged (r := reply .lineMode) he hc h ?_
    rw [ht, takeTrainStop_good hl, taking_output, if_pos hm]
  · refine answers_unchanged (r := replyOk (0 :: leBytes 4 (s.output l).periodsCompleted)) he hc h ?_
    rw [ht, takeTrainStop_good hl, taking_output, if_neg (not_not.mpr hm), hr]
    rfl
  · refine answers_putOutput (r := replyOk (1 :: leBytes 4 (s.output l).periodsCompleted)) he hc h ?_
    rw [ht, takeTrainStop_good hl, taking_output, if_neg (not_not.mpr hm), hr]
    rfl

end Sys2Proof.Machine

open Sys2Proof Sys2Proof.Machine in
/-- Settles O28: in FAULTED the silence timer does not restart, so the change of run state is all; with no holder and no
running train every line shows its resting level. -/
theorem recoverReturnsToStandby : Obligations.RecoverReturnsToStandby := by
  unfold Obligations.RecoverReturnsToStandby
  intro s tag h
  refine ⟨fun hs hr => answers_recover h hs hr, fun hs hrest hr => ?_, fun hs => ?_⟩
  · obtain ⟨t, ht, hp⟩ := (answers_recover h hs hr).completes_pins
    obtain ⟨-, -, -, hout⟩ := hrest hs
    refine ⟨t, ht, fun l => ?_⟩
    obtain ⟨hh, hrun⟩ := hout l
    refine (hp l).trans ((pinLevel_running ?_ ?_).trans (modeLevel_at_rest ?_ ?_))
    · exact held_of_admits h
    · exact fun hf => nomatch hf
    · exact hh
    · exact hrun
  · refine answers_unchanged (r := reply .state) rfl rfl h (if_neg ?_)
    rwa [taking_run, restartSilence_state]

open Sys2Proof Sys2Proof.Machine in
/-- Settles O36, by the checks of R43 and of R45 in their order. -/
theorem setOutputAndSetLevel : Obligations.SetOutputAndSetLevel := by
  unfold Obligations.SetOutputAndSetLevel
  intro s tag line mode idle safe level policy
  dsimp only
  refine ⟨fun m' i' s' p' level' => ⟨fun h hv => ?_, fun h hv => ?_⟩, fun h => ⟨fun hl => ?_, fun l hl => ?_⟩,
    fun h => ⟨fun hl => ?_, fun l hl => ?_⟩⟩
  · exact answers_unchanged (r := reply .badValue) rfl rfl h (takeSetOutput_bad (.inr hv) _)
  · exact answers_unchanged (r := reply .badValue) rfl rfl h (takeSetLevel_bad (.inr hv) _)
  · exact answers_unchanged (r := reply .badValue) rfl rfl h (takeSetOutput_bad (.inl hl) _)
  · have htake := takeSetOutput_good hl mode idle safe policy (taking tag s)
    rw [taking_lineTargeted, taking_ruleUses, taking_output] at htake
    refine ⟨fun ⟨i, hi⟩ => ?_, fun ht hm hne ⟨r, hr, x, hx, hxl⟩ => ?_, fun ht hok => ?_⟩
    · have hbusy : s.lineTargeted l = true := by
        by_contra hn
        rw [lineTargeted_false_iff.mp (by simpa using hn) i] at hi
        cases hi
      exact answers_unchanged (r := reply .busy) rfl rfl h (htake.trans (if_pos hbusy))
    · have huses : s.ruleUses l = true := by
        by_contra hn
        exact ruleUses_false.mp (by simpa using hn) r hr x hx hxl
      rw [if_neg (by simp [lineTargeted_false_iff.mpr ht]), if_pos ⟨hm, hne, huses⟩] at htake
      exact answers_unchanged (r := reply .lineInUse) rfl rfl h htake
    · have hfree : ¬ ((s.output l).mode = .sequenced ∧ mode ≠ .sequenced ∧ s.ruleUses l = true) := by
        rintro ⟨hm, hne, hu⟩
        rw [ruleUses_false.mpr ((hok hm).resolve_left hne)] at hu
        cases hu
      rw [if_neg (by simp [lineTargeted_false_iff.mpr ht]), if_neg hfree] at htake
      exact answers_putOutput (r := replyOk []) rfl rfl h htake
  · exact answers_unchanged (r := reply .badValue) rfl rfl h (takeSetLevel_bad (.inl hl) _)
  · have htake := takeSetLevel_good hl level (taking tag s)
    rw [taking_output] at htake
    refine ⟨fun hm => answers_unchanged (r := reply .lineMode) rfl rfl h (htake.trans (if_pos hm)), fun hm => ?_⟩
    have ha := answers_putOutput (i := .setLevel tag line (levelByte level)) (r := replyOk []) rfl rfl h
      (htake.trans (if_neg (not_not.mpr hm)))
    refine ⟨ha, ?_⟩
    obtain ⟨t, ht, hp⟩ := ha.completes_pins
    refine ⟨t, ht, ?_⟩
    rw [hp, pinLevel_replaced (held_of_admits h)]
    unfold Output.modeLevel
    rw [hm]

open Sys2Proof Sys2Proof.Machine in
/-- Settles O37, request by request along the checks of R39 to R41; the pin follows from the record that is left. -/
theorem trainRequests : Obligations.TrainRequests := by
  unfold Obligations.TrainRequests
  refine ⟨fun s tag line period high burst => ⟨fun h => ⟨fun hv => ?_, fun l hl hp hh => ?_⟩,
    fun h => ⟨fun hl => ?_, fun l hl => ?_⟩⟩, fun s tag line h => ?_⟩
  · exact answers_unchanged (r := reply .badValue) rfl rfl h (takeTrainLoad_bad hv _)
  · have htake := takeTrainLoad_good hl hp hh (taking tag s)
    rw [taking_output] at htake
    exact ⟨fun hm => answers_unchanged (r := reply .lineMode) rfl rfl h (htake.trans (if_pos hm)),
      fun hm => answers_putOutput (r := replyOk []) rfl rfl h (htake.trans (if_neg (not_not.mpr hm)))⟩
  · exact answers_unchanged (r := reply .badValue) rfl rfl h (takeTrainStart_bad hl _ _)
  · have htake := takeTrainStart_good hl burst (taking tag s)
    rw [taking_output, taking_run, restartSilence_state, taking_now] at htake
    refine ⟨fun hf => ?_, fun hf hm => ?_, fun hf hm hr => ?_, fun hf hm hr hp ha => ?_, fun v hf hm hr hv => ?_⟩
    · rw [if_pos hf] at htake
      exact answers_unchanged (r := reply .state) rfl rfl h htake
    · rw [if_neg hf, if_pos hm] at htake
      exact answers_unchanged (r := reply .lineMode) rfl rfl h htake
    · rw [if_neg hf, if_neg (not_not.mpr hm), if_pos hr] at htake
      exact answers_unchanged (r := reply .busy) rfl rfl h htake
    · rw [if_neg hf, if_neg (not_not.mpr hm), if_neg (by simp [hr]), if_pos ⟨hp, ha⟩] at htake
      exact answers_unchanged (r := reply .state) rfl rfl h htake
    · have hvalues : ¬ ((s.output l).stagedPending = false ∧ (s.output l).applied = none) := by
        rintro ⟨hp, ha⟩
        rcases hv with ⟨hp', -⟩ | ⟨-, -, ha'⟩
        · exact absurd (hp.symm.trans hp') (by simp)
        · exact absurd (ha.symm.trans ha') (by simp)
      rw [if_neg hf, if_neg (not_not.mpr hm), if_neg (by simp [hr]), if_neg hvalues, startTrain_eq hv] at htake
      have ha := answers_putOutput (i := .trainStart tag line burst) (r := replyOk (tickBytes s.now)) rfl rfl h htake
      refine ⟨ha, ?_⟩
      obtain ⟨t, ht, hp⟩ := ha.completes_pins
      refine ⟨t, ht, ?_⟩
      rw [hp, pinLevel_replaced (held_of_admits h), if_neg hf]
      refine (modeLevel_train ?_).trans ?_
      · exact hm
      by_cases hz : v.high = 0 <;> simp [hz]
  · obtain ⟨nowBad, now⟩ := answers_trainStop (i := .trainStopNow tag line) (stop := Output.stopTrain) rfl rfl h rfl
    obtain ⟨endBad, atEnd⟩ :=
      answers_trainStop (i := .trainStopAtPeriodEnd tag line) (stop := Output.stopAtPeriodEnd) rfl rfl h rfl
    refine ⟨fun hl => ⟨nowBad hl, endBad hl⟩, fun l hl => ?_⟩
    obtain ⟨nowMode, nowIdle, nowStops⟩ := now l hl
    obtain ⟨endMode, endIdle, endStops⟩ := atEnd l hl
    refine ⟨fun hm => ⟨nowMode hm, endMode hm⟩, fun hm hr => ⟨nowIdle hm hr, endIdle hm hr⟩, fun hm hr =>
      ⟨nowStops hm hr, endStops hm hr, fun hf => ?_, ?_⟩⟩
    · obtain ⟨t, ht, hp⟩ := (nowStops hm hr).completes_pins
      refine ⟨t, ht, ?_⟩
      rw [hp, pinLevel_replaced (held_of_admits h), if_neg hf, modeLevel_train (o := (s.output l).stopTrain) hm]
      exact if_neg fun hrun => nomatch hrun.1
    · obtain ⟨t, ht, hp⟩ := (endStops hm hr).completes_pins
      refine ⟨t, ht, ?_⟩
      rw [hp, pinLevel_replaced (held_of_admits h), pinLevel_outside_reset (held_of_admits h)]
      rfl

end

