-- ==== Sys2Proof/Proofs/TrainEvents.lean ====
section
/-! PROOFS. The events of a running train: its high time runs out and its period ends (R28, R37, R38). -/

namespace Sys2Proof.Machine

variable {s : State} {l : OutLine}

/-! ## When the events of a running train are due (R37) -/

section
variable {start : Tick} {v : TrainValues}

theorem highDue_running (hr : (s.output l).running = true) (hs : (s.output l).periodStart = some start)
    (hv : (s.output l).applied = some v) (hin : (s.output l).inHigh = true) (hlt : v.high.toNat < v.period.toNat) :
    highDue l s = some (v.high.toNat - (s.now - start).toNat) := by
  unfold highDue
  simp only [hr, hs, hv]
  exact if_pos ⟨hin, hlt⟩

theorem periodDue_running (hr : (s.output l).running = true) (hs : (s.output l).periodStart = some start)
    (hv : (s.output l).applied = some v) : periodDue l s = some (v.period.toNat - (s.now - start).toNat) := by
  unfold periodDue
  simp only [hr, hs, hv]
  rfl

end

/-! ## What the end of a period makes of the record (R38) -/

/-- The periods completed once the current one is counted (R38). -/
def Output.counted (o : Output) : Nat := satInc Config.countCap o.periodsCompleted

/-- The train stops with its current period: its burst is complete with it, or it was to stop (R38). -/
def Output.endsWithPeriod (o : Output) : Prop := (0 < o.burst ∧ o.counted = o.burst) ∨ o.stopAtEnd = true

theorem endPeriod_ends (h : (s.output l).endsWithPeriod) :
    endPeriod l s = createReport (.trainDone l (s.output l).counted)
      (s.putOutput l { s.output l with periodsCompleted := (s.output l).counted }.stopTrain) := if_pos h

/-- A period begins with its high part in progress unless the high time is 0 (R37). -/
theorem beginPeriod_eq {o : Output} {v : TrainValues} (h : o.applied = some v) (t : Tick) :
    o.beginPeriod t = { o with periodStart := some t, inHigh := decide (v.high ≠ 0) } := by
  unfold Output.beginPeriod
  simp [h]

/-- The next period begins with the values applied before, none being pending (R38). -/
theorem endPeriod_goes_on {v : TrainValues} (h : ¬ (s.output l).endsWithPeriod)
    (hp : (s.output l).stagedPending = false) (hv : (s.output l).applied = some v) :
    endPeriod l s = s.putOutput l { s.output l with
      periodsCompleted := (s.output l).counted, periodStart := some s.now, inHigh := decide (v.high ≠ 0) } := by
  refine (if_neg h).trans (congrArg (s.putOutput l) ?_)
  rw [applyStaged_not_pending (by exact hp)]
  refine beginPeriod_eq ?_ s.now
  exact hv

/-- The next period begins with the values that are pending (R38). -/
theorem endPeriod_goes_on_with_staged {w : TrainValues} (h : ¬ (s.output l).endsWithPeriod)
    (hp : (s.output l).stagedPending = true) (hw : (s.output l).staged = some w) :
    endPeriod l s = s.putOutput l { s.output l with
      periodsCompleted := (s.output l).counted, periodStart := some s.now, inHigh := decide (w.high ≠ 0)
      applied := some w, staged := none, stagedPending := false } := by
  refine (if_neg h).trans (congrArg (s.putOutput l) ?_)
  rw [applyStaged_pending (v := w) (by exact hp) (by exact hw)]
  exact beginPeriod_eq rfl s.now

/-! ## The pin after an event (R28) -/

theorem pinLevel_arbitrate (s : State) (l : OutLine) : (arbitrate s).pinLevel l = s.pinLevel l := by
  unfold State.pinLevel State.output
  rw [arbitrate_held, arbitrate_run, arbitrate_outputs]

/-- A report created with room shows on no pin. -/
theorem pinLevel_reported (b : ReportBody) (l : OutLine) (h : s.hasRoom 1) :
    (arbitrate (createReport b s)).pinLevel l = (arbitrate s).pinLevel l := by
  rw [createReport_room b h, pinLevel_arbitrate, pinLevel_arbitrate]
  rfl

/-- The pin of a TRAIN line whose record an event has replaced. -/
theorem pinLevel_train_event {o : Output} (n : Nat) (hh : s.held = false) (hs : s.run.state ≠ .faulted)
    (hm : o.mode = .train) : (arbitrate ((elapse n s).putOutput l o)).pinLevel l =
      if o.running = true ∧ o.inHigh = true then flipLevel o.idle else o.idle := by
  have hpin := pinLevel_running (s := (elapse n s).putOutput l o) (l := l) hh hs
  rw [pinLevel_arbitrate, hpin, State.output_putOutput_self, modeLevel_train hm]

/-- The pin of a TRAIN line at the start of a period (R37). -/
theorem pinLevel_period_start {o : Output} {x : BitVec 24} (n : Nat) (hh : s.held = false) (hs : s.run.state ≠ .faulted)
    (hm : o.mode = .train) (hr : o.running = true) (hin : o.inHigh = decide (x ≠ 0)) :
    (arbitrate ((elapse n s).putOutput l o)).pinLevel l = if x = 0 then o.idle else flipLevel o.idle := by
  rw [pinLevel_train_event n hh hs hm]
  by_cases hx : x = 0 <;> simp [hr, hin, hx]

end Sys2Proof.Machine

open Sys2Proof Sys2Proof.Machine in
/-- Settles O54: each event runs when its ticks have passed, and the pin follows from the record that it leaves. -/
theorem trainEvents : Obligations.TrainEvents := by
  unfold Obligations.TrainEvents
  refine ⟨fun s l hh hs hm => ?_, fun s l start v n hh hr hstart hv hq => ⟨fun hin hlt hn => ?_, fun hn =>
    ⟨fun he => ?_, fun he hp => ?_, fun w he hp hw => ?_⟩⟩⟩
  · rw [pinLevel_running hh hs, modeLevel_train hm]
    refine ⟨fun hr hin => if_pos ⟨hr, hin⟩, fun h => if_neg fun ⟨hr, hin⟩ => ?_⟩
    rcases h with h | h
    · exact absurd (hr.symm.trans h) (by simp)
    · exact absurd (hin.symm.trans h) (by simp)
  · refine ⟨_, rfl, ?_, fun hm hs => ?_⟩
    · exact whenDue_eq (event := endHigh l) hh (hn ▸ highDue_running hr hstart hv hin hlt) hq
    · refine (pinLevel_train_event n hh hs ?_).trans (if_neg fun h => nomatch h.2)
      exact hm
  all_goals
    have hdue : exec (.trainPeriodEnd l) s = .next (arbitrate (endPeriod l (elapse n s))) :=
      whenDue_eq (event := endPeriod l) hh (hn ▸ periodDue_running hr hstart hv) hq
  · refine ⟨_, rfl, hdue.trans (congrArg _ (congrArg arbitrate (endPeriod_ends (s := elapse n s) he))),
      fun hroom hm hs => (pinLevel_reported _ l ?_).trans
        ((pinLevel_train_event n hh hs ?_).trans (if_neg fun h => nomatch h.1))⟩
    · exact hroom
    · exact hm
  · refine ⟨_, rfl, hdue.trans (congrArg _ (congrArg arbitrate (endPeriod_goes_on (s := elapse n s) he hp hv))),
      fun hm hs => pinLevel_period_start n hh hs ?_ ?_ rfl⟩
    · exact hm
    · exact hr
  · refine ⟨_, rfl,
      hdue.trans (congrArg _ (congrArg arbitrate (endPeriod_goes_on_with_staged (s := elapse n s) he hp hw))),
      fun hm hs => pinLevel_period_start n hh hs ?_ ?_ rfl⟩
    · exact hm
    · exact hr

end

