-- ==== Sys2Proof/Proofs/SyncArmedAtRest.lean ====
section
/-! PROOFS. Every step keeps SYNC armed only in STANDBY with both lists empty (R58, R59): but for ARM_SYNC, which is refused
elsewhere, nothing arms SYNC, and while it is armed nothing that the part does leaves that rest. -/

namespace Sys2Proof.Machine

/-- STANDBY with both lists empty: where SYNC can be armed (R58). -/
def State.atSyncRest (s : State) : Prop :=
  s.run.state = .standby ∧ s.sched.timeList = [] ∧ s.sched.travelList = []

/-- From `s` to `t` SYNC was not armed anew, and if it is still armed the part has not left the rest in which it was. -/
def SyncRestKept (s t : State) : Prop := t.syncArmed = true → s.syncArmed = true ∧ (s.atSyncRest → t.atSyncRest)

variable {s t u : State}

theorem SyncArmedAtRest.kept (h : SyncArmedAtRest s) (k : SyncRestKept s t) : SyncArmedAtRest t :=
  fun ht => (k ht).2 (h (k ht).1)

/-! ## What keeps the rest -/

theorem syncArmed_of_preset (hp : t.timebase.preset = s.timebase.preset) : t.syncArmed = s.syncArmed :=
  congrArg Option.isSome hp

theorem SyncRestKept.trans (h : SyncRestKept s t) (k : SyncRestKept t u) : SyncRestKept s u := fun hu =>
  ⟨(h (k hu).1).1, fun hr => (k hu).2 ((h (k hu).1).2 hr)⟩

/-- The preset is as it was, and the rest is not left. -/
theorem SyncRestKept.of_rest (hp : t.timebase.preset = s.timebase.preset) (hr : s.atSyncRest → t.atSyncRest) :
    SyncRestKept s t := fun ht => ⟨syncArmed_of_preset hp ▸ ht, hr⟩

/-- Preset, run state and lists are what they were. -/
theorem SyncRestKept.same (hp : t.timebase.preset = s.timebase.preset) (hr : t.run.state = s.run.state)
    (ht : t.sched.timeList = s.sched.timeList) (hv : t.sched.travelList = s.sched.travelList) : SyncRestKept s t :=
  .of_rest hp fun ⟨h1, h2, h3⟩ => ⟨hr.trans h1, ht.trans h2, hv.trans h3⟩

theorem SyncRestKept.refl (s : State) : SyncRestKept s s := .same rfl rfl rfl rfl

theorem SyncRestKept.of_disarmed (h : t.timebase.preset = none) : SyncRestKept s t := fun ht => by
  rw [State.syncArmed, h] at ht
  cases ht

/-- SYNC was not armed, whatever else was done. -/
theorem SyncRestKept.of_unarmed (hs : s.syncArmed = false) (hp : t.timebase.preset = s.timebase.preset) :
    SyncRestKept s t := fun ht => by
  rw [syncArmed_of_preset hp, hs] at ht
  cases ht

/-- The part was not in STANDBY, whatever else was done. -/
theorem SyncRestKept.of_not_standby (hs : s.run.state ≠ .standby) (hp : t.timebase.preset = s.timebase.preset) :
    SyncRestKept s t := .of_rest hp fun h => absurd h.1 hs

/-- Entries leave the lists. -/
theorem SyncRestKept.thinned (w : OnlyWork s t) (hr : s.run.state = .standby → t.run.state = .standby)
    (he : EntriesFrom [] s t) : SyncRestKept s t := by
  refine .of_rest (by rw [w.timebase]) fun ⟨h1, h2, h3⟩ => ⟨hr h1, ?_, ?_⟩
  · refine List.eq_nil_iff_forall_not_mem.mpr fun e hm => ?_
    have := (he.time e hm).resolve_right (by simp)
    rw [h2] at this
    cases this
  · refine List.eq_nil_iff_forall_not_mem.mpr fun e hm => ?_
    have := (he.travel e hm).resolve_right (by simp)
    rw [h3] at this
    cases this

theorem ne_standby_of_sequencing (h : s.run.state.sequencing = true) : s.run.state ≠ .standby := fun c => by
  rw [c] at h
  cases h

theorem enterFaulted_syncRest (h : s.run.state.sequencing = true) : SyncRestKept s (enterFaulted s) :=
  .of_not_standby (ne_standby_of_sequencing h) rfl

theorem Noted.syncRest (n : Noted s t) : SyncRestKept s t := by
  rcases n with n | ⟨hs, n⟩
  · exact .same (by rw [n.timebase]) (by rw [n.run]) (by rw [n.sched]) (by rw [n.sched])
  · exact .of_not_standby (ne_standby_of_sequencing hs) (by rw [n.timebase]; rfl)

theorem OnlyBeside.syncRest (h : OnlyBeside s t) : SyncRestKept s t :=
  .same (by rw [h]) (by rw [h]) (by rw [h]) (by rw [h])

/-- No move leaves STANDBY. -/
theorem Move.standby {k : Prop} {J w} {c d : Config} (m : Move k J w c d) (h : c.2.run.state = .standby) :
    d.2.run.state = .standby := by
  cases m with
  | notes n => exact (congrArg RunControl.state n.run).trans h
  | strike hs => exact absurd h (ne_standby_of_sequencing hs)
  | drained hs => exact nomatch h.symm.trans hs
  | file _ _ => rw [joinStart_run]; exact h
  | _ => exact h

theorem Work.standby {k : Prop} {J w} {c d : Config} (h : Work k J w c d) (hs : c.2.run.state = .standby) :
    d.2.run.state = .standby := by
  induction h with
  | done => exact hs
  | step m _ ih => exact ih (m.standby hs)

/-- A chain of moves in which nothing joins a list. -/
theorem Work.syncRest {k : Prop} {w} {c d : Config} (h : Work k [] w c d) : SyncRestKept c.2 d.2 :=
  .thinned h.onlyWork h.standby h.entriesFrom

/-! ## Lists, rules and edges -/

theorem State.atSyncRest.timeListAhead (h : s.atSyncRest) : s.timeListAhead := fun e he => by
  rw [h.2.1] at he
  cases he

theorem expireTimeList_syncRest (s : State) : SyncRestKept s (expireTimeList s) := by
  refine .of_rest (by rw [expireTimeList, (expireLists_onlyWork _ _ s).timebase]) fun h => ?_
  rwa [expireTimeList, expireLists, runLists_at_rest _ h.timeListAhead (.inl rfl)]

theorem expireTravelList_syncRest (edge : Tick) (s : State) : SyncRestKept s (expireTravelList edge s) := by
  refine .of_rest (by rw [expireTravelList, (expireLists_onlyWork _ _ s).timebase]) fun h => ?_
  rwa [expireTravelList_waits edge h.timeListAhead fun e he => by
    rw [h.2.2] at he
    cases he]

theorem evalRules_timebase (e : EdgeEvent) (rs : List RuleNo) (s : State) : (evalRules e rs s).timebase = s.timebase := by
  induction rs generalizing s with
  | nil => rfl
  | cons r rs ih =>
    unfold evalRules
    split
    · rw [ih, evalRule_timebase]
    · rfl

/-- Outside ARMED no rule is evaluated. -/
theorem evaluateEdge_syncRest (e : EdgeEvent) (s : State) : SyncRestKept s (evaluateEdge e s) := by
  refine .of_rest (by rw [evaluateEdge, evalRules_timebase]) fun h => ?_
  rwa [evaluateEdge, evalRules_unarmed _ _ (by rw [h.1]; simp)]

theorem offerEdge_syncRest (e : EdgeEvent) (s : State) : SyncRestKept s (offerEdge e s) := by
  have hj : ∀ j, SyncRestKept s (s.withJournal j) := fun j => .same rfl rfl rfl rfl
  unfold offerEdge
  split
  · unfold storeEdge
    dsimp only
    split
    · exact (hj _).trans (createReport_noted _ _).syncRest
    · exact hj _
  · exact (hj _).trans (countFault_noted _ _ _).syncRest

theorem advanceTravel_syncRest (l : InLine) (q : Qualification) (s : State) : SyncRestKept s (advanceTravel l q s) := by
  unfold advanceTravel
  split
  · exact .trans (.same rfl rfl rfl rfl) (expireTravelList_syncRest _ _)
  · exact .refl s

theorem passOn_syncRest (e : EdgeEvent) (s : State) : SyncRestKept s (passOn e s) := by
  unfold passOn
  split
  · refine SyncRestKept.trans ?_ (evaluateEdge_syncRest e _)
    split
    · exact offerEdge_syncRest e s
    · exact .refl s
  · exact .refl s

theorem acceptEdge_syncRest (l : InLine) (s : State) : SyncRestKept s (acceptEdge l s) := by
  cases hq : (s.input l).qual with
  | none =>
    unfold acceptEdge
    simp only [hq]
    exact .refl s
  | some q =>
    rw [acceptEdge_eq hq]
    have hsettle : SyncRestKept s (settleInput l q s) := .same rfl rfl rfl rfl
    exact (hsettle.trans (advanceTravel_syncRest l q _)).trans (passOn_syncRest _ _)

theorem sampleInput_syncRest (l : InLine) (v : Level) (s : State) : SyncRestKept s (sampleInput l v s) := by
  have hi : ∀ x, SyncRestKept s (s.putInput l x) := fun x => .same rfl rfl rfl rfl
  unfold sampleInput
  dsimp only
  split
  · split <;> exact hi _
  · split
    · exact hi _
    · split
      · exact (hi _).trans (acceptEdge_syncRest l _)
      · exact hi _

/-! ## SYNC and trains -/

/-- A SYNC edge disarms SYNC, or is timed with SYNC not armed (R57, R60). -/
theorem syncEdge_preset (x : Tick) (s : State) : (syncEdge x s).timebase.preset = none := by
  unfold syncEdge
  split
  · unfold loadTimeline
    rw [(createReport_onlyWork _ _).timebase]
    rfl
  · rename_i hn
    unfold timeSync
    dsimp only
    split
    · rw [State.withTimebase_timebase, (createReport_onlyWork _ _).timebase]
      exact hn
    · exact hn

theorem acceptSync_syncRest (s : State) : SyncRestKept s (acceptSync s) := by
  unfold acceptSync
  split
  · exact .refl s
  · dsimp only
    split
    · exact .same rfl rfl rfl rfl
    · exact .of_disarmed (syncEdge_preset _ _)

theorem sampleSync_syncRest (v : Level) (s : State) : SyncRestKept s (sampleSync v s) := by
  have ht : ∀ x : Timebase, x.preset = s.timebase.preset → SyncRestKept s (s.withTimebase x) :=
    fun x hx => .same hx rfl rfl rfl
  unfold sampleSync
  dsimp only
  split
  · exact ht _ rfl
  · split
    · exact ht _ rfl
    · split
      · refine SyncRestKept.trans (ht _ ?_) (acceptSync_syncRest _)
        rfl
      · exact ht _ rfl

theorem endPeriod_syncRest (l : OutLine) (s : State) : SyncRestKept s (endPeriod l s) := by
  have ho : ∀ x, SyncRestKept s (s.putOutput l x) := fun x => .same rfl rfl rfl rfl
  unfold endPeriod
  dsimp only
  split
  · exact (ho _).trans (createReport_noted _ _).syncRest
  · exact ho _

/-! ## Requests -/

theorem changeRunState_timebase (x : RunState) (silence : Option Nat) (n : Nat) (s : State) :
    (changeRunState x silence n s).timebase = s.timebase :=
  (createReport_onlyWork _ _).timebase

/-- ARM is refused while SYNC is armed (R118). -/
theorem takeArm_syncRest (s : State) : SyncRestKept s (takeArm s).1 := by
  unfold takeArm
  split
  · split
    · exact .refl s
    · rename_i hn
      refine .of_unarmed (by simpa using hn) ?_
      rw [changeRunState_timebase]
      rfl
  · exact .refl s
  · exact .refl s
  · exact .refl s

theorem takeDisarmWait_syncRest (s : State) : SyncRestKept s (takeDisarmWait s).1 := by
  unfold takeDisarmWait
  split
  · rename_i hs
    split <;> exact .of_not_standby (by simp [hs]) (by rw [changeRunState_timebase])
  · exact .refl s
  · exact .refl s
  · exact .refl s

theorem takeDisarmFlush_syncRest (s : State) : SyncRestKept s (takeDisarmFlush s).1 := by
  have hflush : s.run.state ≠ .standby → SyncRestKept s (flushAll s) := fun hs =>
    .of_not_standby hs (by rw [(flushAll_onlyWork s).timebase])
  unfold takeDisarmFlush
  split
  · exact hflush (by simp [*])
  · exact hflush (by simp [*])
  · exact .refl s
  · exact .refl s

theorem takeRecover_syncRest (s : State) : SyncRestKept s (takeRecover s).1 := by
  unfold takeRecover
  split
  · rename_i hs
    exact .of_not_standby (by simp [hs]) (by rw [changeRunState_timebase])
  · exact .refl s

theorem restartAll_syncRest (m : RestartMode) (s : State) : SyncRestKept s (restartAll m s) :=
  .of_disarmed (by cases m <;> rfl)

/-- SCHEDULE_PULSE is refused while SYNC is armed (R17). -/
theorem takeSchedulePulse_syncRest (tag : Tag) (line base mode : Byte) (due : BitVec 48) (width : BitVec 24)
    (repeats : Byte) (interval : BitVec 32) (done : Byte) (s : State) :
    SyncRestKept s (takeSchedulePulse tag line base mode due width repeats interval done s).1 := by
  unfold takeSchedulePulse
  split
  · exact .refl s
  · rename_i hbar
    have hs : s.syncArmed = false := by
      unfold State.scheduleBarred at hbar
      simp only [Bool.or_eq_true, not_or, Bool.not_eq_true] at hbar
      exact hbar.2
    refine .of_unarmed hs ?_
    split
    · rfl
    · split
      · rfl
      · split
        · rfl
        · split
          · rfl
          · split
            · rw [(countFault_onlyWork _ _ _).timebase]
            · rw [(joinAction_onlyWork _ _).timebase]
              rfl

theorem takeCancelAction_syncRest (mode : CancelMode) (slot : Byte) (gen : Gen) (s : State) :
    SyncRestKept s (takeCancelAction mode slot gen s).1 := by
  unfold takeCancelAction
  split
  · exact .refl s
  · split
    · exact .refl s
    · rename_i hl
      obtain ⟨w, hw⟩ := cancelHandle_steps (k := False) (V := []) mode _ hl
      exact hw.syncRest

theorem takeCancelLine_syncRest (mode : CancelMode) (line : Byte) (s : State) :
    SyncRestKept s (takeCancelLine mode line s).1 := by
  unfold takeCancelLine
  split
  · exact .refl s
  · obtain ⟨w, hw⟩ := cancelHandles_steps (k := False) (V := []) mode _ s
    exact hw.syncRest

/-- ARM_SYNC arms in the rest alone (R58). -/
theorem takeArmSync_atRest (h : SyncArmedAtRest s) (preset : Tick) : SyncArmedAtRest (takeArmSync preset s).1 := by
  unfold takeArmSync
  split
  · exact h
  · rename_i hs
    split
    · rename_i hl
      exact fun _ => ⟨not_not.mp hs, List.isEmpty_iff.mp hl.1, List.isEmpty_iff.mp hl.2⟩
    · exact h

/-- Every request but ARM_SYNC keeps the rest: those that sequence or change the run state as above, and the others, in each
of their cases, leave preset, run state and lists as they were. -/
theorem takeCommand_syncRest (i : Instr) (hi : ∀ tag preset, i ≠ .armSync tag preset) (s : State) :
    SyncRestKept s (takeCommand i s).1 := by
  cases i with
  | arm _ => exact takeArm_syncRest s
  | disarmWait _ => exact takeDisarmWait_syncRest s
  | disarmFlush _ => exact takeDisarmFlush_syncRest s
  | recover _ => exact takeRecover_syncRest s
  | restartKeep _ => exact restartAll_syncRest .keep s
  | restartClear _ => exact restartAll_syncRest .clear s
  | schedulePulse tag line base mode due width repeats interval done =>
    exact takeSchedulePulse_syncRest tag line base mode due width repeats interval done s
  | cancelActionAbort _ slot gen => exact takeCancelAction_syncRest .abort slot gen s
  | cancelActionFinish _ slot gen => exact takeCancelAction_syncRest .finish slot gen s
  | cancelLineAbort _ line => exact takeCancelLine_syncRest .abort line s
  | cancelLineFinish _ line => exact takeCancelLine_syncRest .finish line s
  | armSync tag preset => exact absurd rfl (hi tag preset)
  | cancelSync _ => exact .of_disarmed rfl
  | _ =>
    simp only [takeCommand, takePing, takeGetIdentity, takeSetLinkRate, takeGetStatus, takeSetSupervision,
      takeListSchedule, takeSetSchedule, takeSetOutput, takeSetLevel, takeTrainLoad, takeTrainStart, takeTrainStop,
      takeGetOutputs, takeGetTime, takeSetTravelSource, takeSetSync, takeSetInput, takeGetInputs, takeReadJournal,
      takeSetJournal, takeEditRule, takeReadRule, takeReadRuleStats, takeDiscardStaged, takeResetRuleCounts,
      takeCommitRules, takeSetReporting, takeReadFaults, takeClearFaults, takeSetFaultMasks]
    repeat' split
    all_goals exact .same rfl rfl rfl rfl

theorem takeCommand_syncArmedAtRest (i : Instr) (h : SyncArmedAtRest s) : SyncArmedAtRest (takeCommand i s).1 := by
  by_cases hi : ∃ tag preset, i = .armSync tag preset
  · obtain ⟨tag, preset, rfl⟩ := hi
    exact takeArmSync_atRest h preset
  · exact h.kept (takeCommand_syncRest i (fun tag preset e => hi ⟨tag, preset, e⟩) s)

theorem keeps_syncArmedAtRest : Keeps SyncArmedAtRest SyncArmedAtRest where
  weaken h := h
  beside h hp := hp.kept h.syncRest
  faulted hs hp := hp.kept (enterFaulted_syncRest hs)
  besideAfter h hp := hp.kept h.syncRest
  faultedAfter hs hp := hp.kept (enterFaulted_syncRest hs)
  elapse _ hp := hp.kept (.same rfl rfl rfl rfl)
  take i _ hp := takeCommand_syncArmedAtRest i hp
  timeList hp := hp.kept (expireTimeList_syncRest _)
  edge l _ hp := hp.kept (acceptEdge_syncRest l _)
  sample l v _ hp := hp.kept (sampleInput_syncRest l v _)
  raw _ _ _ hp := hp.kept (.same rfl rfl rfl rfl)
  rawSync _ _ hp := hp.kept (.same rfl rfl rfl rfl)
  highEnd _ _ hp := hp.kept (.same rfl rfl rfl rfl)
  periodEnd l _ hp := hp.kept (endPeriod_syncRest l _)
  reset _ _ := fun h => nomatch h

end Sys2Proof.Machine

open Sys2Proof.Machine in
/-- Settles O7: ARM_SYNC arms SYNC in STANDBY with both lists empty alone, nothing else arms it, and while it is armed ARM and
SCHEDULE_PULSE are refused and nothing sequences. -/
theorem syncArmedAtRestKept : Obligations.SyncArmedAtRestKept := by
  unfold Obligations.SyncArmedAtRestKept
  intro s t h ht
  refine keeps_syncArmedAtRest.step (fun rest => ?_) (fun _ _ _ => .inl fun hu => hu) h ht
  have h' : ∀ n, SyncArmedAtRest (elapse n { s with pending := rest }) := fun n => h
  exact ⟨fun n _ => (h' n).kept (acceptSync_syncRest _), fun n v _ => (h' n).kept (sampleSync_syncRest v _)⟩

end

