-- ==== Sys2Proof/Proofs/TimebaseRequests.lean ====
section
/-! PROOFS. The requests of the Timebase: SET_TRAVEL_SOURCE, SET_SYNC, ARM_SYNC and CANCEL_SYNC (R54, R56, R58, R62). -/

namespace Sys2Proof.Machine

variable {s : State} {tag : Tag} {c : Option Byte}

/-! ## A request whose owner block replaces the Timebase -/

theorem taking_withTimebase (tag : Tag) (s : State) (x : Timebase) :
    (taking tag s).withTimebase x = ((restartSilence s).withTimebase x).withLink (taking tag s).link := by
  conv_lhs => rw [taking_eq]
  rfl

theorem answers_withTimebase {i : Instr} {p : List Byte} {r : Reply} {x : Timebase}
    (he : encodeRequest i = some (tag, p)) (hc : p.head? = c) (h : s.admits tag c = true)
    (hu : takeCommand i (taking tag s) = ((taking tag s).withTimebase x, r)) :
    Answers i tag c (responsePayload c r) r.after s ((restartSilence s).withTimebase x) :=
  answers_command he hc h (by rw [hu, taking_withTimebase])

/-! ## SET_TRAVEL_SOURCE (R54) -/

theorem sourceOf_none {b : Byte} (h : 8 < b.toNat) : sourceOf b = none := by
  unfold sourceOf
  rw [if_neg (by rintro rfl; simp at h), inLineOf_none (by omega)]
  rfl

theorem sourceOf_isSome {b : Byte} (h : b.toNat ≤ 8) : ∃ x, sourceOf b = some x := by
  unfold sourceOf
  split
  · exact ⟨none, rfl⟩
  · rename_i hb
    have hlt : b.toNat < 8 := lt_of_le_of_ne h fun e => hb (BitVec.eq_of_toNat_eq e)
    exact ⟨some ⟨b.toNat, hlt⟩, by rw [inLineOf_some (l := ⟨b.toNat, hlt⟩) rfl]; rfl⟩

theorem sourceOf_sourceByte (x : Option InLine) : sourceOf (sourceByte x) = some x := by
  revert x
  decide

theorem takeSetTravelSource_bad {b : Byte} (h : 8 < b.toNat) (t : State) :
    takeSetTravelSource b t = (t, reply .badValue) := by
  unfold takeSetTravelSource
  rw [sourceOf_none h]

theorem takeSetTravelSource_good {b : Byte} {x : Option InLine} (h : sourceOf b = some x) (t : State) :
    takeSetTravelSource b t = if t.sched.travelList.isEmpty then
      (t.withTimebase { t.timebase with source := x }, replyOk (leBytes 4 t.timebase.travelCount.toNat))
    else (t, reply .busy) := by
  unfold takeSetTravelSource
  rw [h]

/-! ## SET_SYNC (R56) -/

theorem takeSetSync_bad {width : BitVec 16} {reporting : Byte} (h : 1023 < width.toNat ∨ 1 < reporting.toNat)
    (t : State) : takeSetSync width reporting t = (t, reply .badValue) := by
  unfold takeSetSync
  split
  · rfl
  · rename_i hr
    refine if_pos (h.resolve_right fun h1 => ?_)
    rw [yesNoOf_bad h1] at hr
    cases hr

theorem yesNoOf_good {b : Byte} (h : b.toNat ≤ 1) : yesNoOf b = some (decide (b = 1)) := by
  rcases byte_two_valued h with rfl | rfl <;> rfl

theorem takeSetSync_good {width : BitVec 16} {reporting : Byte} (hw : width.toNat ≤ 1023) (hr : reporting.toNat ≤ 1)
    (t : State) : takeSetSync width reporting t = (t.withTimebase { t.timebase with
      syncWidth := width.toNat
      syncReporting := decide (reporting = 1)
      syncQual := requalify t.timebase.syncRaw t.timebase.syncFiltered t.now }, replyOk []) := by
  unfold takeSetSync
  rw [yesNoOf_good hr]
  exact if_neg (Nat.not_lt.mpr hw)

/-! ## ARM_SYNC (R58) -/

theorem takeArmSync_standby {t : State} (hs : t.run.state = .standby) (preset : Tick) :
    takeArmSync preset t = if t.sched.timeList.isEmpty ∧ t.sched.travelList.isEmpty then
      (t.withTimebase { t.timebase with preset := some preset }, replyOk [])
    else (t, reply .busy) := if_neg (not_not.mpr hs)

end Sys2Proof.Machine

open Sys2Proof Sys2Proof.Machine in
/-- Settles O38, request by request along the checks of R54, R56 and R58; in STANDBY, where ARM_SYNC is taken, no silence timer
restarts. -/
theorem timebaseRequests : Obligations.TimebaseRequests := by
  unfold Obligations.TimebaseRequests
  intro s tag
  refine ⟨fun source h => ⟨fun hv => ?_, fun hv hl => ?_, fun x hx hl => ?_⟩,
    fun width reporting h => ⟨fun hv => ?_, fun hw hr => ?_⟩,
    fun preset h => ⟨fun hs => ?_, fun hs hl => ?_, fun hs ht hv => ?_⟩, fun h => ?_⟩
  · exact answers_unchanged (r := reply .badValue) rfl rfl h (takeSetTravelSource_bad hv _)
  · obtain ⟨x, hx⟩ := sourceOf_isSome hv
    refine answers_unchanged (r := reply .busy) rfl rfl h ((takeSetTravelSource_good hx _).trans (if_neg ?_))
    rwa [taking_sched, List.isEmpty_iff]
  · subst hx
    refine answers_withTimebase (r := replyOk (leBytes 4 s.timebase.travelCount.toNat)) rfl rfl h
      ((takeSetTravelSource_good (sourceOf_sourceByte x) _).trans ?_)
    rw [taking_sched, taking_timebase, if_pos (List.isEmpty_iff.mpr hl)]
  · exact answers_unchanged (r := reply .badValue) rfl rfl h (takeSetSync_bad hv _)
  · refine answers_withTimebase (r := replyOk []) rfl rfl h ((takeSetSync_good hw hr _).trans ?_)
    rw [taking_timebase, taking_now]
    rfl
  · refine answers_unchanged (r := reply .state) rfl rfl h (if_pos ?_)
    rwa [taking_run, restartSilence_state]
  · have ha := answers_unchanged (i := .armSync tag preset) (r := reply .busy) rfl rfl h
      ((takeArmSync_standby (by rw [taking_run, restartSilence_state, hs]) preset).trans (if_neg ?_))
    · rwa [restartSilence_of_idle (by rw [hs]; rfl)] at ha
    · rw [taking_sched, List.isEmpty_iff, List.isEmpty_iff]
      exact fun he => hl.elim (fun hn => hn he.1) (fun hn => hn he.2)
  · have ha := answers_withTimebase (i := .armSync tag preset) (x := { s.timebase with preset := some preset })
      (r := replyOk []) rfl rfl h
      ((takeArmSync_standby (by rw [taking_run, restartSilence_state, hs]) preset).trans ?_)
    · rwa [restartSilence_of_idle (by rw [hs]; rfl)] at ha
    · rw [taking_sched, taking_timebase, if_pos ⟨List.isEmpty_iff.mpr ht, List.isEmpty_iff.mpr hv⟩]
  · refine answers_withTimebase (r := replyOk [yesNoByte s.syncArmed]) rfl rfl h ?_
    show takeCancelSync (taking tag s) = _
    rw [takeCancelSync, taking_syncArmed, taking_timebase]

end

