-- ==== Sys2Proof/Proofs/SyncEdges.lean ====
section
/-! PROOFS. A SYNC edge is accepted: it is timed against the last one, or loads the timeline (R55, R57, R60, R61). -/

namespace Sys2Proof.Machine

variable {s : State}

/-- Time runs on to the end of the SYNC qualification, and its edge is accepted (R55). -/
theorem exec_syncEdgeAccepted {q : Qualification} {n : Nat} (hh : s.held = false) (hq : s.timebase.syncQual = some q)
    (hn : n = s.timebase.syncWidth - (s.now - q.rawTick).toNat) (hquiet : s.quietFor n) :
    exec .syncEdgeAccepted s = .next (arbitrate (acceptSync (elapse n s))) := by
  subst hn
  refine whenDue_eq (event := acceptSync) hh ?_ hquiet
  unfold syncDue
  rw [hq]
  rfl

/-- The SYNC qualification gone, the filtered level changed (R55). -/
def settleSync (q : Qualification) (s : State) : State :=
  s.withTimebase { s.timebase with syncFiltered := q.level, syncQual := none }

/-- A falling edge changes the filtered level alone (R55). -/
theorem acceptSync_low {q : Qualification} (hq : s.timebase.syncQual = some q) (hl : q.level = .low) :
    acceptSync s = settleSync q s := by
  unfold acceptSync
  simp only [hq, hl, settleSync]

/-- A rising edge is a SYNC edge, its timestamp that of the raw change (R55). -/
theorem acceptSync_high {q : Qualification} (hq : s.timebase.syncQual = some q) (hl : q.level = .high) :
    acceptSync s = syncEdge q.rawTick (settleSync q s) := by
  unfold acceptSync
  simp only [hq, hl, settleSync]

/-- SYNC not armed, reporting off: the timestamp is kept (R57). -/
theorem syncEdge_silent (t : Tick) (hp : s.timebase.preset = none) (hr : s.timebase.syncReporting = false) :
    syncEdge t s = s.withTimebase { s.timebase with lastSync := some t } := by
  simp [syncEdge, timeSync, hp, hr]

/-- SYNC not armed, reporting on: SYNC_SEEN tells the interval since the last edge, and the timestamp is kept (R57). -/
theorem syncEdge_reported (t : Tick) (hp : s.timebase.preset = none) (hr : s.timebase.syncReporting = true) :
    syncEdge t s = (createReport (.syncSeen t (s.timebase.lastSync.map (fun x => t - x)) false) s).withTimebase
      { s.timebase with lastSync := some t } := by
  unfold syncEdge timeSync
  simp only [hp, hr, if_true, (createReport_onlyWork _ s).timebase]

/-- SYNC armed: the timeline is loaded (R60). -/
theorem syncEdge_armed (t : Tick) {p : Tick} (hp : s.timebase.preset = some p) : syncEdge t s = loadTimeline p t s := by
  simp only [syncEdge, hp]

end Sys2Proof.Machine

open Sys2Proof Sys2Proof.Machine in
/-- Settles O57: time runs on to the end of the qualification, and the edge falls, is timed, or loads the timeline. -/
theorem syncEdgesAccepted : Obligations.SyncEdgesAccepted := by
  unfold Obligations.SyncEdgesAccepted
  intro s q n hh hq hn hquiet u
  have hexec := exec_syncEdgeAccepted hh hq hn hquiet
  refine ⟨fun hl => ?_, fun hl hp => ⟨fun hr => ?_, fun hr => ?_⟩, fun p hl hp => ?_⟩
  · rw [hexec, acceptSync_low (s := elapse n s) hq hl]
    rfl
  all_goals rw [hexec, acceptSync_high (s := elapse n s) hq hl]
  · rw [syncEdge_silent (s := settleSync q (elapse n s)) _ hp hr]
    rfl
  · rw [syncEdge_reported (s := settleSync q (elapse n s)) _ hp hr]
    rfl
  · rw [syncEdge_armed (s := settleSync q (elapse n s)) _ hp]
    rfl

end

