-- ==== Sys2Proof/Proofs/RawChanges.lean ====
section
/-! PROOFS. A pin is sampled once a tick, and a raw change begins, keeps or abandons a qualification (R55, R66 to R68, R72). -/

namespace Sys2Proof.Machine

variable {s : State}

/-! ## When a pin is sampled (R66) -/

theorem quietFor_zero (s : State) : s.quietFor 0 := fun _ _ => Nat.zero_le _

/-- What is due at the present tick comes about at once. -/
theorem whenDue_now {event : State → State} (hh : s.held = false) :
    whenDue (some 0) event s = .next (arbitrate (event s)) := by
  rw [whenDue_eq hh rfl (quietFor_zero s), elapse_zero]

/-- An event before which another falls due does not come about. -/
theorem whenDue_not_quiet {event : State → State} {n : Nat} (hh : s.held = false) (hq : ¬ s.quietFor n) :
    whenDue (some n) event s = .next s := by
  unfold whenDue
  rw [if_neg (by simp [hh])]
  refine if_neg fun hall => hq fun p hp => ?_
  simpa using List.all_eq_true.mp hall p hp

section
variable {sampledAt : Option Nat} {clock : Nat}

theorem sampleDue_fresh (h : sampledAt ≠ some clock) : sampleDue sampledAt clock = 0 := if_neg h

theorem sampleDue_sampled (h : sampledAt = some clock) : sampleDue sampledAt clock = 1 := if_pos h

/-- A pin that has been sampled at a tick has not been sampled at the next. -/
theorem not_sampled_next (h : sampledAt = some clock) : sampledAt ≠ some (clock + 1) := by
  rw [h]
  simp

end

theorem exec_inputRawChange (hh : s.held = false) (l : InLine) (v : Level) : exec (.inputRawChange l v) s =
    whenDue (some (sampleDue (s.input l).sampledAt s.clock)) (sampleInput l v) s :=
  if_neg (by simp [hh])

theorem exec_syncRawChange (hh : s.held = false) (v : Level) : exec (.syncRawChange v) s =
    whenDue (some (sampleDue s.timebase.syncSampledAt s.clock)) (sampleSync v) s :=
  if_neg (by simp [hh])

theorem exec_inputRawChange_fresh (hh : s.held = false) {l : InLine} (v : Level)
    (hn : (s.input l).sampledAt ≠ some s.clock) :
    exec (.inputRawChange l v) s = .next (arbitrate (sampleInput l v s)) := by
  rw [exec_inputRawChange hh, sampleDue_fresh hn, whenDue_now hh]

theorem exec_syncRawChange_fresh (hh : s.held = false) (v : Level) (hn : s.timebase.syncSampledAt ≠ some s.clock) :
    exec (.syncRawChange v) s = .next (arbitrate (sampleSync v s)) := by
  rw [exec_syncRawChange hh, sampleDue_fresh hn, whenDue_now hh]

/-! ## An input is sampled (R66 to R68, R72) -/

/-- The record of an input sampled at `v`, before its qualification is looked at. -/
def State.sampledInput (s : State) (l : InLine) (v : Level) : Input :=
  { s.input l with raw := v, sampledAt := some s.clock }

section
variable {l : InLine} {v : Level}

/-- The level changes from the filtered one, none being in progress: a qualification begins (R66). -/
theorem sampleInput_begins (hv : v ≠ (s.input l).filtered) (hq : (s.input l).qual = none) :
    sampleInput l v s = if (s.input l).width = 0 then
      acceptEdge l (s.putInput l { s.sampledInput l v with qual := some ⟨s.now, v⟩ })
    else s.putInput l { s.sampledInput l v with qual := some ⟨s.now, v⟩ } := by
  unfold sampleInput
  dsimp only
  rw [if_neg hv, hq]
  rfl

/-- A qualification in progress goes on (R66). -/
theorem sampleInput_keeps (hv : v ≠ (s.input l).filtered) (hq : (s.input l).qual ≠ none) :
    sampleInput l v s = s.putInput l (s.sampledInput l v) := by
  unfold sampleInput
  dsimp only
  rw [if_neg hv]
  split
  · rfl
  · rename_i hn
    exact absurd hn hq

/-- The level returns: the qualification is abandoned, and a glitch counted where it counts (R67, R68, R72). -/
theorem sampleInput_abandons {q : Qualification} (hv : v = (s.input l).filtered) (hq : (s.input l).qual = some q) :
    sampleInput l v s = s.putInput l { s.sampledInput l v with
      qual := none
      glitches := if (s.input l).width ≠ 0 ∧ q.rawTick ≠ s.now then satInc 65535 (s.input l).glitches
        else (s.input l).glitches } := by
  unfold sampleInput
  dsimp only
  rw [if_pos hv, hq]
  simp only [Input.glitchCounts, Bool.and_eq_true, decide_eq_true_eq]
  rfl

/-- A level already seen is sampled (R66). -/
theorem sampleInput_steady (hv : v = (s.input l).filtered) (hq : (s.input l).qual = none) :
    sampleInput l v s = s.putInput l (s.sampledInput l v) := by
  unfold sampleInput
  dsimp only
  rw [if_pos hv]
  split
  · rfl
  · rename_i q hn
    cases hq.symm.trans hn

end

theorem State.putInput_putInput (s : State) (l : InLine) (x y : Input) :
    (s.putInput l x).putInput l y = s.putInput l y := by
  simp only [State.putInput, State.withInputs, setAt_setAt]

/-- A qualification with a width of 0 is accepted at once (R68). -/
theorem exec_inputEdgeAccepted_width_zero {l : InLine} {x : Input} (q : Qualification) (hh : s.held = false)
    (hw : x.width = 0) : exec (.inputEdgeAccepted l) (s.putInput l { x with qual := some q }) =
      .next (arbitrate (acceptEdge l (s.putInput l { x with qual := some q }))) := by
  have hx := State.input_putInput_self s l { x with qual := some q }
  rw [exec_inputEdgeAccepted (s := s.putInput l { x with qual := some q }) (n := 0) hh (by rw [hx])
    (by rw [hx, hw, Nat.zero_sub]) (quietFor_zero _), elapse_zero]

theorem settleInput_putInput (l : InLine) (q : Qualification) (x : Input) :
    settleInput l q (s.putInput l x) = s.putInput l { x with filtered := q.level, qual := none } := by
  rw [settleInput, State.input_putInput_self, State.putInput_putInput]

/-- An edge that is not selected, off the travel source, changes the filtered level alone (R67, R69). -/
theorem acceptEdge_unselected {l : InLine} {x : Input} (q : Qualification) (hq : x.qual = none)
    (he : x.edgeSelect = .none) (ht : s.timebase.source ≠ some l) :
    acceptEdge l (s.putInput l { x with qual := some q }) = s.putInput l { x with filtered := q.level } := by
  have hsettled : settleInput l q (s.putInput l { x with qual := some q }) =
      s.putInput l { x with filtered := q.level } := by
    rw [settleInput_putInput, ← hq]
  have hx := State.input_putInput_self s l { x with filtered := q.level }
  rw [acceptEdge_eq (q := q) (by rw [State.input_putInput_self]), hsettled,
    advanceTravel_off (s := s.putInput l { x with filtered := q.level }) (.inl ht)]
  refine if_neg ?_
  rw [hx, show ({ x with filtered := q.level } : Input).edgeSelect = .none from he]
  exact Bool.false_ne_true

/-! ## SYNC is sampled (R55) -/

/-- The Timebase with SYNC sampled at `v`, before its qualification is looked at. -/
def State.sampledSync (s : State) (v : Level) : Timebase :=
  { s.timebase with syncRaw := v, syncSampledAt := some s.clock }

section
variable {v : Level}

/-- The level changes from the filtered one, none being in progress: a qualification begins (R55). -/
theorem sampleSync_begins (hv : v ≠ s.timebase.syncFiltered) (hq : s.timebase.syncQual = none) :
    sampleSync v s = if s.timebase.syncWidth = 0 then
      acceptSync (s.withTimebase { s.sampledSync v with syncQual := some ⟨s.now, v⟩ })
    else s.withTimebase { s.sampledSync v with syncQual := some ⟨s.now, v⟩ } := by
  unfold sampleSync
  dsimp only
  rw [if_neg hv, hq]
  rfl

/-- A qualification in progress goes on (R55). -/
theorem sampleSync_keeps (hv : v ≠ s.timebase.syncFiltered) (hq : s.timebase.syncQual ≠ none) :
    sampleSync v s = s.withTimebase (s.sampledSync v) := by
  unfold sampleSync
  dsimp only
  rw [if_neg hv]
  split
  · rfl
  · rename_i hn
    exact absurd hn hq

/-- The filtered level is sampled: no qualification is left (R55). -/
theorem sampleSync_abandons (hv : v = s.timebase.syncFiltered) :
    sampleSync v s = s.withTimebase { s.sampledSync v with syncQual := none } := if_pos hv

end

/-- A SYNC qualification with a width of 0 is accepted at once (R55). -/
theorem exec_syncEdgeAccepted_width_zero {x : Timebase} (q : Qualification) (hh : s.held = false)
    (hw : x.syncWidth = 0) : exec .syncEdgeAccepted (s.withTimebase { x with syncQual := some q }) =
      .next (arbitrate (acceptSync (s.withTimebase { x with syncQual := some q }))) := by
  rw [exec_syncEdgeAccepted (s := s.withTimebase { x with syncQual := some q }) (n := 0) hh rfl
    (by rw [State.withTimebase_timebase, hw, Nat.zero_sub]) (quietFor_zero _), elapse_zero]

/-- A falling SYNC edge changes the filtered level alone (R55). -/
theorem acceptSync_falling {x : Timebase} {q : Qualification} (hq : x.syncQual = none) (hl : q.level = .low) :
    acceptSync (s.withTimebase { x with syncQual := some q }) = s.withTimebase { x with syncFiltered := q.level } := by
  rw [acceptSync_low (q := q) rfl hl, settleSync, ← hq]
  rfl

end Sys2Proof.Machine

open Sys2Proof Sys2Proof.Machine in
/-- Settles O55: a pin not sampled at this tick is sampled now, and one that has been is sampled at the next, or not at all; what
the sampling comes to follows from level, qualification and width. -/
theorem rawChanges : Obligations.RawChanges := by
  unfold Obligations.RawChanges
  intro s v hh
  refine ⟨fun l hn => ?_, fun l hs => ⟨fun hq => ?_, fun hq => ?_⟩, fun hn => ?_, fun hs => ⟨fun hq => ?_, fun hq => ?_⟩⟩
  · have hexec := exec_inputRawChange_fresh hh v hn
    intro x
    refine ⟨fun hv hq hw => ?_, fun hv hq hw => ?_, fun hv hq => ?_, fun q hv hq => ⟨fun hw ht => ?_, fun hw => ?_⟩,
      fun hv hq => ?_⟩
    · rw [hexec, sampleInput_begins hv hq, if_neg hw.ne']
      rfl
    · rw [sampleInput_begins hv hq, if_pos hw] at hexec
      refine ⟨hexec.trans (exec_inputEdgeAccepted_width_zero _ hh hw).symm, fun he ht => ?_⟩
      exact hexec.trans (congrArg _ (congrArg arbitrate (acceptEdge_unselected (x := x) ⟨s.now, v⟩ hq he ht)))
    · rw [hexec, sampleInput_keeps hv hq]
      rfl
    · rw [hexec, sampleInput_abandons hv hq, if_pos ⟨hw.ne', ht⟩]
      rfl
    · rw [hexec, sampleInput_abandons hv hq, if_neg fun h => hw.elim h.1 h.2]
      rfl
    · rw [hexec, sampleInput_steady hv hq]
      rfl
  · rw [exec_inputRawChange hh, sampleDue_sampled hs, whenDue_eq hh rfl hq]
    exact (exec_inputRawChange_fresh (s := elapse 1 s) hh v (not_sampled_next hs)).symm
  · rw [exec_inputRawChange hh, sampleDue_sampled hs, whenDue_not_quiet hh hq]
  · have hexec := exec_syncRawChange_fresh hh v hn
    intro x
    refine ⟨fun hv hq hw => ?_, fun hv hq hw => ?_, fun hv hq => ?_, fun hv => ?_⟩
    · rw [hexec, sampleSync_begins hv hq, if_neg hw.ne']
      rfl
    · rw [sampleSync_begins hv hq, if_pos hw] at hexec
      refine ⟨hexec.trans (exec_syncEdgeAccepted_width_zero _ hh hw).symm, fun hl => ?_⟩
      exact hexec.trans (congrArg _ (congrArg arbitrate (acceptSync_falling (x := x) (q := ⟨s.now, v⟩) hq hl)))
    · rw [hexec, sampleSync_keeps hv hq]
      rfl
    · rw [hexec, sampleSync_abandons hv]
      rfl
  · rw [exec_syncRawChange hh, sampleDue_sampled hs, whenDue_eq hh rfl hq]
    exact (exec_syncRawChange_fresh (s := elapse 1 s) hh v (not_sampled_next hs)).symm
  · rw [exec_syncRawChange hh, sampleDue_sampled hs, whenDue_not_quiet hh hq]

end

