-- ==== Sys2Proof/Proofs/CapacitiesKept.lean ====
section
/-! PROOFS. A state in which the order of the queue does not last: a report in flight without a sequence number, whose retry
is sent. The manual gives every report in flight a number from 1 to 65535 (R159, R160); `QueueOrdered` and `YieldsInOrder` do
not ask for one. -/

namespace Sys2Proof.Machine

/-- A retry of a report that has no sequence number is sent with the number 0. Where another report in flight has that
number, the retry may give way and is taken for a first transmission; its place in the queue is then not in order where its
creation serial has not been given out yet. -/
theorem not_yieldsInOrder_sendRetry {s : State} {r x : Report} (hr : r.seq = none)
    (hx : (sendRetry r s).reports.inFlight 0 = some x) (hc : s.reports.nextCreation ≤ r.creation) :
    ¬ YieldsInOrder (sendRetry r s) := by
  intro h
  have htag : (reportFrame { r with retryCount := r.retryCount + 1, state := .sending } true).tag = 0 := by
    simp [reportFrame, hr]
  have hcreated := (h _ r x rfl rfl hr (by rw [htag]; exact hx)).1
  exact absurd hcreated (Nat.not_lt.mpr hc)

/-- A retry is due of a report that has no sequence number. -/
def unnumberedReport : Report := { newReport (.trainDone 0 1) 0 with state := .retryDue 0, retryLimit := some 3 }

/-- A report in flight with the sequence number 0 awaits its ACK. -/
def numberedZeroReport : Report :=
  { newReport (.trainDone 1 1) 0 with state := .awaiting 0 50, seq := some 0, retryLimit := some 3 }

/-- The transmitter idle, the queue empty, the two reports in flight; CSn, which a UART link ignores, deasserts. -/
def unnumberedInFlight : State := { State.reset with
  link := defaultLink .uart
  reports := { defaultReports with flight := [unnumberedReport, numberedZeroReport] }
  pending := [.csnDeassert] }

theorem unnumberedInFlight_queueOrdered : QueueOrdered unnumberedInFlight.reports :=
  ⟨.nil, fun _ h => nomatch h⟩

theorem unnumberedInFlight_yieldsInOrder : YieldsInOrder unnumberedInFlight :=
  fun _ _ _ h => nomatch h

/-- The deassertion changes nothing, and the arbiter sends the retry. -/
theorem step_unnumberedInFlight :
    step unnumberedInFlight = .next (sendRetry unnumberedReport { unnumberedInFlight with pending := [] }) := rfl

end Sys2Proof.Machine

open Sys2Proof.Machine in
/-- Refutes O6 in its part on the queue's order: the premises leave open that a report in flight has no sequence number, and
the retry of such a report is then in transmission with a creation serial that was never given out. A premise that every report
in flight has a number shuts this state out. -/
theorem not_capacitiesKept : ¬ Obligations.CapacitiesKept := by
  unfold Obligations.CapacitiesKept
  rintro ⟨-, hkept⟩
  obtain ⟨-, hyields⟩ := hkept _ _ unnumberedInFlight_queueOrdered unnumberedInFlight_yieldsInOrder
    step_unnumberedInFlight
  exact not_yieldsInOrder_sendRetry (x := numberedZeroReport) rfl (by decide) (Nat.le_refl 0) hyields

end

