-- ==== Sys2Proof/Proofs/InputRequests.lean ====
section
/-! PROOFS. The requests of the Input Capture Unit and the Capture Journal: SET_INPUT, READ_JOURNAL and SET_JOURNAL (R71, R77,
R79, R80). -/

namespace Sys2Proof.Machine

variable {s : State} {tag : Tag} {c : Option Byte}

/-! ## Requests whose owner block replaces the record of an input line, or the journal -/

theorem taking_putInput (tag : Tag) (s : State) (l : InLine) (x : Input) :
    (taking tag s).putInput l x = ((restartSilence s).putInput l x).withLink (taking tag s).link := by
  conv_lhs => rw [taking_eq]
  rfl

theorem taking_withJournal (tag : Tag) (s : State) (j : Journal) :
    (taking tag s).withJournal j = ((restartSilence s).withJournal j).withLink (taking tag s).link := by
  conv_lhs => rw [taking_eq]
  rfl

theorem answers_putInput {i : Instr} {p : List Byte} {r : Reply} {l : InLine} {x : Input}
    (he : encodeRequest i = some (tag, p)) (hc : p.head? = c) (h : s.admits tag c = true)
    (hu : takeCommand i (taking tag s) = ((taking tag s).putInput l x, r)) :
    Answers i tag c (responsePayload c r) r.after s ((restartSilence s).putInput l x) :=
  answers_command he hc h (by rw [hu, taking_putInput])

theorem answers_withJournal {i : Instr} {p : List Byte} {r : Reply} {j : Journal}
    (he : encodeRequest i = some (tag, p)) (hc : p.head? = c) (h : s.admits tag c = true)
    (hu : takeCommand i (taking tag s) = ((taking tag s).withJournal j, r)) :
    Answers i tag c (responsePayload c r) r.after s ((restartSilence s).withJournal j) :=
  answers_command he hc h (by rw [hu, taking_withJournal])

/-! ## SET_INPUT (R71) -/

theorem edgeSelectOf_none {b : Byte} (h : 3 < b.toNat) : edgeSelectOf b = none := by
  unfold edgeSelectOf
  rw [if_neg, if_neg, if_neg, if_neg] <;> rintro rfl <;> simp at h

theorem edgeSelectOf_edgeSelectByte (e : EdgeSelect) : edgeSelectOf (edgeSelectByte e) = some e := by
  cases e <;> rfl

theorem takeSetInput_bad {line select : Byte} {width : BitVec 16} {enable : Byte}
    (h : 7 < line.toNat ∨ 3 < select.toNat ∨ 1023 < width.toNat ∨ 1 < enable.toNat) (t : State) :
    takeSetInput line select width enable t = (t, reply .badValue) := by
  unfold takeSetInput
  split
  · rename_i hl he hj
    rcases h with h | h | h | h
    · rw [inLineOf_none h] at hl
      cases hl
    · rw [edgeSelectOf_none h] at he
      cases he
    · exact if_pos h
    · rw [yesNoOf_bad h] at hj
      cases hj
  · rfl

theorem takeSetInput_good {line select : Byte} {width : BitVec 16} {enable : Byte} {l : InLine} {e : EdgeSelect}
    (hl : line.toNat = l.val) (he : select = edgeSelectByte e) (hw : width.toNat ≤ 1023) (hj : enable.toNat ≤ 1)
    (t : State) : takeSetInput line select width enable t = (t.putInput l { t.input l with
      edgeSelect := e
      width := width.toNat
      journalEnable := decide (enable = 1)
      qual := requalify (t.input l).raw (t.input l).filtered t.now }, replyOk []) := by
  unfold takeSetInput
  rw [inLineOf_some hl, he, edgeSelectOf_edgeSelectByte, yesNoOf_good hj]
  exact if_neg (Nat.not_lt.mpr hw)

/-! ## READ_JOURNAL (R77, R79) -/

/-- The 18 bytes of a record, field by field (10.7). -/
theorem EdgeRecord.bytes_eq (x : EdgeRecord) : x.bytes = leBytes 4 x.serial.toNat
    ++ [BitVec.ofNat 8 x.line.val, if x.kind = .rising then 1 else 2] ++ leBytes 6 x.timestamp.toNat
    ++ leBytes 4 x.travelCount.toNat ++ match x.lostBefore with
      | none => [0, 0]
      | some n => leBytes 2 n := by
  have hnone : leBytes 2 0 = [0, 0] := rfl
  rcases x with ⟨_, _, kind, _, _, lost⟩
  cases kind <;> cases lost <;> simp [EdgeRecord.bytes, edgeKindByte, tickBytes, hnone]

theorem takeReadJournal_bad {count : Byte} (h : count.toNat < 1 ∨ 8 < count.toNat) (t : State) :
    takeReadJournal count t = (t, reply .badValue) := if_pos h

theorem takeReadJournal_good {count : Byte} (h1 : 1 ≤ count.toNat) (h8 : count.toNat ≤ 8) (t : State) :
    takeReadJournal count t =
      (t.withJournal { t.journal with
        records := t.journal.records.drop count.toNat
        watermarkArmed := t.journal.watermarkArmed
          || decide ((t.journal.records.drop count.toNat).length < t.journal.watermark) },
       replyOk ([BitVec.ofNat 8 (t.journal.records.take count.toNat).length,
           BitVec.ofNat 8 (t.journal.records.drop count.toNat).length]
         ++ leBytes 4 t.journal.nextSerial.toNat ++ leBytes 2 t.journal.lostRun
         ++ (t.journal.records.take count.toNat).flatMap EdgeRecord.bytes)) :=
  if_neg (by omega)

/-! ## SET_JOURNAL (R79, R80) -/

theorem takeSetJournal_bad {watermark empty : Byte}
    (h : watermark.toNat < 1 ∨ 64 < watermark.toNat ∨ 1 < empty.toNat) (t : State) :
    takeSetJournal watermark empty t = (t, reply .badValue) := by
  unfold takeSetJournal
  split
  · rfl
  · rename_i he
    refine if_pos ((or_assoc.mpr h).resolve_right fun h1 => ?_)
    rw [yesNoOf_bad h1] at he
    cases he

/-- The records that SET_JOURNAL leaves. -/
def Journal.keptBy (j : Journal) (empty : Byte) : List EdgeRecord := if empty = 1 then [] else j.records

theorem takeSetJournal_good {watermark empty : Byte} (h1 : 1 ≤ watermark.toNat) (h64 : watermark.toNat ≤ 64)
    (he : empty.toNat ≤ 1) (t : State) :
    takeSetJournal watermark empty t =
      (t.withJournal { t.journal with
        records := t.journal.keptBy empty
        watermark := watermark.toNat
        watermarkArmed := decide ((t.journal.keptBy empty).length < watermark.toNat) },
       replyOk ([BitVec.ofNat 8 (t.journal.records.length - (t.journal.keptBy empty).length),
           BitVec.ofNat 8 (t.journal.keptBy empty).length]
         ++ leBytes 4 t.journal.nextSerial.toNat ++ leBytes 2 t.journal.lostRun)) := by
  unfold takeSetJournal Journal.keptBy
  rw [yesNoOf_good he]
  simp only [decide_eq_true_eq]
  exact if_neg (by omega)

end Sys2Proof.Machine

open Sys2Proof Sys2Proof.Machine in
/-- Settles O39, request by request: values out of range leave the state at the taking, others replace the record of the line,
or the journal, in it. -/
theorem inputAndJournalRequests : Obligations.InputAndJournalRequests := by
  unfold Obligations.InputAndJournalRequests
  refine ⟨fun s tag line select width enable h => ⟨fun hv => ?_, fun l e hl he hw hj => ?_⟩, fun s tag =>
    ⟨fun count h => ⟨fun hv => ?_, fun h1 h8 => ?_⟩, fun watermark empty h => ⟨fun hv => ?_, fun h1 h64 he => ?_⟩⟩⟩
  · exact answers_unchanged (r := reply .badValue) rfl rfl h (takeSetInput_bad hv _)
  · refine answers_putInput (r := replyOk []) rfl rfl h ((takeSetInput_good hl he hw hj _).trans ?_)
    rw [taking_input, taking_now]
    rfl
  · exact answers_unchanged (r := reply .badValue) rfl rfl h (takeReadJournal_bad hv _)
  · have htake := takeReadJournal_good h1 h8 (taking tag s)
    rw [taking_journal, funext EdgeRecord.bytes_eq] at htake
    exact answers_withJournal (i := .readJournal tag count) rfl rfl h htake
  · exact answers_unchanged (r := reply .badValue) rfl rfl h (takeSetJournal_bad hv _)
  · have htake := takeSetJournal_good h1 h64 he (taking tag s)
    rw [taking_journal] at htake
    exact answers_withJournal (i := .setJournal tag watermark empty) rfl rfl h htake

end

