-- ==== Sys2Proof/Proofs/RuleEvaluation.lean ====
section
/-! PROOFS. A rule examined for an edge: what becomes of its record, in the order of R99, and of no other's (R98 to R104, R107,
R108, R110). -/

namespace Sys2Proof.Machine

variable {s t : State} {r : RuleNo} {e : EdgeEvent}

/-! ## Match, gate and holdoff (R100 to R102) -/

theorem matchesEdge_iff (x : RuleRecord) (e : EdgeEvent) : x.matchesEdge e = true ↔
    x.matchSet.getLsbD e.line.val = decide (x.sense = .positive) ∧
      (x.edgeKind = .either ∨ x.edgeKind = .rising ∧ e.kind = .rising ∨ x.edgeKind = .falling ∧ e.kind = .falling) := by
  unfold RuleRecord.matchesEdge
  cases x.sense <;> cases x.edgeKind <;> simp

theorem gateMet_iff (s : State) (x : RuleRecord) : s.gateMet x = true ↔
    ¬ (x.base = .travel ∧ s.timebase.source = none) ∧ ∀ l v, x.gate = some (l, v) → (s.input l).filtered = v := by
  unfold State.gateMet
  rw [Bool.and_eq_true, Bool.not_eq_true', ← Bool.not_eq_true, Bool.and_eq_true, decide_eq_true_eq, decide_eq_true_eq]
  refine and_congr_right' ?_
  cases x.gate with
  | none => simp
  | some g => simp [Prod.ext_iff]

theorem heldOff_iff (x : Rule) (t : Tick) : x.heldOff t = true ↔
    ∃ f, x.lastFiring = some f ∧ (t - f).toNat < x.active.holdoff.toNat := by
  unfold Rule.heldOff
  cases x.lastFiring <;> simp

/-! ## The cases of R99 -/

theorem evalRule_passed_over (h : (s.rule r).state ≠ .listening ∨ (s.rule r).active.matchesEdge e = false) :
    evalRule r e s = s := by
  unfold evalRule
  dsimp only
  rcases h with h | h
  · rw [if_pos h]
  · rw [if_pos h, ite_self]

theorem evalRule_gated (hl : (s.rule r).state = .listening) (hm : (s.rule r).active.matchesEdge e = true)
    (hg : s.gateMet (s.rule r).active = false) :
    evalRule r e s = s.putRule r { s.rule r with gated := satInc Config.countCap (s.rule r).gated } := by
  unfold evalRule
  dsimp only
  rw [if_neg (not_not.mpr hl), if_neg (by simp [hm]), if_pos hg]

theorem evalRule_suppressed (hl : (s.rule r).state = .listening) (hm : (s.rule r).active.matchesEdge e = true)
    (hg : s.gateMet (s.rule r).active = true) (hh : (s.rule r).heldOff e.timestamp = true) :
    evalRule r e s = s.putRule r { s.rule r with suppressed := satInc Config.countCap (s.rule r).suppressed } := by
  unfold evalRule
  dsimp only
  rw [if_neg (not_not.mpr hl), if_neg (by simp [hm]), if_neg (by simp [hg]), if_pos hh]

theorem evalRule_drops (hl : (s.rule r).state = .listening) (hm : (s.rule r).active.matchesEdge e = true)
    (hg : s.gateMet (s.rule r).active = true) (hh : (s.rule r).heldOff e.timestamp = false)
    (hr : s.freeCount < (s.rule r).active.templates.length + s.sched.reserve) :
    evalRule r e s = dropFiring r (s.rule r).active.templates.length s.freeCount e s := by
  unfold evalRule
  dsimp only
  rw [if_neg (not_not.mpr hl), if_neg (by simp [hm]), if_neg (by simp [hg]), if_neg (by simp [hh])]
  exact if_neg (Nat.not_le.mpr hr)

/-! ## What becomes of the rules' records -/

theorem OnlyWork.rule (w : OnlyWork s t) (j : RuleNo) : t.rule j = s.rule j := by
  unfold State.rule
  rw [w.rules]

theorem rule_putRule (s : State) (r j : RuleNo) (x : Rule) :
    (s.putRule r x).rule j = if j = r then x else s.rule j :=
  getAt_setAt s.rules r j x

theorem createReport_rule (b : ReportBody) (s : State) (j : RuleNo) : (createReport b s).rule j = s.rule j :=
  (createReport_onlyWork b s).rule j

/-- A rule that fires with an edge of timestamp `t`: its count and last firing are set, and at its limit it is SPENT (R105,
R107). -/
def Rule.firedAt (x : Rule) (t : Tick) : Rule :=
  { x with
    fired := x.nextFiring
    lastFiring := some t
    state := if x.active.limit = some x.nextFiring then .spent else x.state }

theorem testLimit_rule (r j : RuleNo) (s : State) : (testLimit r s).rule j = if j = r then { s.rule r with
    state := if (s.rule r).active.limit = some (s.rule r).fired then .spent else (s.rule r).state }
    else s.rule j := by
  unfold testLimit
  split
  · rw [createReport_rule, rule_putRule]
  · split
    · rename_i hj
      rw [hj]
    · rfl

/-- Counting a firing and telling of it touch no other rule's record. -/
theorem told_rule_ne {u : State} (w : OnlyWork s u) {j : RuleNo} (hj : j ≠ r) (n : Nat) (t : Tick) (tell : Bool)
    (b : ReportBody) :
    (if tell then createReport b (u.putRule r { u.rule r with fired := n, lastFiring := some t })
      else u.putRule r { u.rule r with fired := n, lastFiring := some t }).rule j = s.rule j := by
  split
  · rw [createReport_rule, State.rule_putRule_ne _ _ _ _ hj, w.rule]
  · rw [State.rule_putRule_ne _ _ _ _ hj, w.rule]

theorem fireRule_rule (r j : RuleNo) (slots : List SlotNo) (e : EdgeEvent) (s : State) :
    (fireRule r slots e s).rule j = if j = r then (s.rule r).firedAt e.timestamp else s.rule j := by
  have hwork (l : List (SlotNo × Action)) (hs : List Handle) : OnlyWork s (joinAll hs (allocateAll l s)) :=
    (allocateAll_onlyWork l s).trans (joinAll_onlyWork hs _)
  unfold fireRule
  dsimp only
  rw [testLimit_rule]
  split
  · rw [told_rule (hwork _ _)]
    rfl
  · rename_i hj
    exact told_rule_ne (hwork _ _) hj _ _ _ _

theorem dropFiring_rule (r j : RuleNo) (asked free : Nat) (e : EdgeEvent) (s : State) :
    (dropFiring r asked free e s).rule j =
      if j = r then { s.rule r with dropped := satInc Config.countCap (s.rule r).dropped } else s.rule j := by
  unfold dropFiring
  dsimp only
  rw [createReport_rule, rule_putRule, (countFault_onlyWork _ _ s).rule, (countFault_onlyWork _ _ s).rule]

/-- The record of a rule that has been examined for an edge (R99). -/
def State.examined (s : State) (r : RuleNo) (e : EdgeEvent) : Rule :=
  let x := s.rule r
  if x.state ≠ .listening ∨ x.active.matchesEdge e = false then x
  else if s.gateMet x.active = false then { x with gated := satInc Config.countCap x.gated }
  else if x.heldOff e.timestamp = true then { x with suppressed := satInc Config.countCap x.suppressed }
  else if s.freeCount < x.active.templates.length + s.sched.reserve then
    { x with dropped := satInc Config.countCap x.dropped }
  else x.firedAt e.timestamp

/-- To examine a rule makes of its record the one of R99, and touches no other rule's. -/
theorem evalRule_rule (r j : RuleNo) (e : EdgeEvent) (s : State) :
    (evalRule r e s).rule j = if j = r then s.examined r e else s.rule j := by
  unfold State.examined
  dsimp only
  by_cases hover : (s.rule r).state ≠ .listening ∨ (s.rule r).active.matchesEdge e = false
  · rw [evalRule_passed_over hover, if_pos hover]
    split
    · rename_i hj
      rw [hj]
    · rfl
  · rw [if_neg hover]
    rw [not_or, not_not, Bool.not_eq_false] at hover
    obtain ⟨hl, hm⟩ := hover
    cases hg : s.gateMet (s.rule r).active with
    | false => rw [evalRule_gated hl hm hg, rule_putRule, if_pos rfl]
    | true =>
      simp only [Bool.true_eq_false, if_false]
      cases hh : (s.rule r).heldOff e.timestamp with
      | true => rw [evalRule_suppressed hl hm hg hh, rule_putRule, if_pos rfl]
      | false =>
        simp only [Bool.false_eq_true, if_false]
        by_cases hr : s.freeCount < (s.rule r).active.templates.length + s.sched.reserve
        · rw [evalRule_drops hl hm hg hh hr, dropFiring_rule, if_pos hr]
        · rw [evalRule_fires hl hm hg hh (Nat.not_lt.mp hr), fireRule_rule, if_neg hr]

/-! ## All the rules (R98, R99, R108) -/

theorem evalRules_eq_foldl (e : EdgeEvent) (rs : List RuleNo) (s : State) :
    evalRules e rs s = rs.foldl (fun u r => if u.run.state = .armed then evalRule r e u else u) s := by
  induction rs generalizing s with
  | nil => rfl
  | cons r rs ih =>
    rw [evalRules, List.foldl_cons, ← ih]
    split
    · rfl
    · rename_i h
      exact (evalRules_unarmed e rs h).symm

end Sys2Proof.Machine

open Sys2Proof Sys2Proof.Machine in
/-- Settles O58, case by case in the order of R99: the record that each leaves is that of `evalRule_rule`. -/
theorem ruleCountsEdgeOnce : Obligations.RuleCountsEdgeOnce := by
  unfold Obligations.RuleCountsEdgeOnce
  refine ⟨fun e s h => evalRules_unarmed e allRules h, fun e s => evalRules_eq_foldl e allRules s, fun r e s => ?_⟩
  dsimp only
  rw [← matchesEdge_iff, ← gateMet_iff, ← heldOff_iff, Bool.not_eq_true, Bool.not_eq_true, Bool.not_eq_true]
  refine ⟨evalRule_passed_over, evalRule_gated, evalRule_suppressed, fun hl hm hg hh hr => ?_,
    fun hl hm hg hh hr => ?_, fun j hj => by rw [evalRule_rule, if_neg hj]⟩
  · rw [evalRule_drops hl hm hg hh hr]
    refine ⟨(dropFiring_rule ..).trans (if_pos rfl), _, ?_, rfl⟩
    unfold dropFiring
    dsimp only
    rw [(countFault_onlyWork _ _ s).rule]
    rfl
  · rw [evalRule_fires hl hm hg hh hr, fireRule_rule, if_pos rfl]
    unfold Rule.firedAt
    rw [hl]
    rfl

end

