-- ==== Sys2Proof/Proofs/CleanCopies.lean ====
section
/-! PROOFS. Every step keeps the staged copy of a rule that is not dirty equal to its active copy (R87): edges, time and the
changes of run state leave both copies and the dirty flag, and the requests of the rule table that replace a copy settle the
flag with it (R91, R93, R95). -/

namespace Sys2Proof.Machine

variable {s t u : State}

/-- From `s` to `t` every rule kept its two copies and its dirty flag. -/
def SameCopies (s t : State) : Prop :=
  ∀ r, (t.rule r).active = (s.rule r).active ∧ (t.rule r).staged = (s.rule r).staged ∧ (t.rule r).dirty = (s.rule r).dirty

theorem CleanCopies.kept (h : CleanCopies s) (k : SameCopies s t) : CleanCopies t := fun r hd => by
  obtain ⟨ha, hs, hdirty⟩ := k r
  rw [ha, hs]
  exact h r (hdirty.symm.trans hd)

theorem SameCopies.of_rules (h : t.rules = s.rules) : SameCopies s t := fun r => by
  unfold State.rule
  rw [h]
  exact ⟨rfl, rfl, rfl⟩

theorem SameCopies.refl (s : State) : SameCopies s s := .of_rules rfl

theorem SameCopies.trans (h : SameCopies s t) (k : SameCopies t u) : SameCopies s u := fun r => by
  obtain ⟨ha, hs, hd⟩ := h r
  obtain ⟨ka, ks, kd⟩ := k r
  exact ⟨ka.trans ha, ks.trans hs, kd.trans hd⟩

theorem OnlyWork.sameCopies (w : OnlyWork s t) : SameCopies s t := .of_rules w.rules

/-! ## Edges (R98 to R108) -/

theorem examined_copies (s : State) (r : RuleNo) (e : EdgeEvent) : (s.examined r e).active = (s.rule r).active
    ∧ (s.examined r e).staged = (s.rule r).staged ∧ (s.examined r e).dirty = (s.rule r).dirty := by
  unfold State.examined Rule.firedAt
  dsimp only
  split_ifs <;> exact ⟨rfl, rfl, rfl⟩

theorem evalRule_sameCopies (r : RuleNo) (e : EdgeEvent) (s : State) : SameCopies s (evalRule r e s) := fun j => by
  rw [evalRule_rule]
  split
  · rename_i hj
    rw [hj]
    exact examined_copies s r e
  · exact ⟨rfl, rfl, rfl⟩

theorem evalRules_sameCopies (e : EdgeEvent) (rs : List RuleNo) (s : State) : SameCopies s (evalRules e rs s) := by
  induction rs generalizing s with
  | nil => exact .refl s
  | cons r rs ih =>
    unfold evalRules
    split
    · exact (evalRule_sameCopies r e s).trans (ih _)
    · exact .refl s

theorem offerEdge_rules (e : EdgeEvent) (s : State) : (offerEdge e s).rules = s.rules := by
  unfold offerEdge
  split
  · unfold storeEdge
    dsimp only
    split
    · exact (createReport_onlyWork _ _).rules
    · rfl
  · exact (countFault_onlyWork _ _ _).rules

theorem advanceTravel_rules (l : InLine) (q : Qualification) (s : State) : (advanceTravel l q s).rules = s.rules := by
  unfold advanceTravel
  split
  · exact (expireLists_onlyWork _ _ _).rules
  · rfl

theorem passOn_sameCopies (e : EdgeEvent) (s : State) : SameCopies s (passOn e s) := by
  unfold passOn
  split
  · refine SameCopies.trans ?_ (evalRules_sameCopies e allRules _)
    split
    · exact .of_rules (offerEdge_rules e s)
    · exact .refl s
  · exact .refl s

theorem acceptEdge_sameCopies (l : InLine) (s : State) : SameCopies s (acceptEdge l s) := by
  cases hq : (s.input l).qual with
  | none =>
    unfold acceptEdge
    rw [hq]
    exact .refl s
  | some q =>
    rw [acceptEdge_eq hq]
    exact (SameCopies.of_rules (advanceTravel_rules l q (settleInput l q s))).trans (passOn_sameCopies _ _)

theorem sampleInput_sameCopies (l : InLine) (v : Level) (s : State) : SameCopies s (sampleInput l v s) := by
  have hput (x : Input) : SameCopies s (s.putInput l x) := .of_rules rfl
  by_cases hv : v = (s.input l).filtered
  · cases hq : (s.input l).qual with
    | none => exact sampleInput_steady hv hq ▸ hput _
    | some q => exact sampleInput_abandons hv hq ▸ hput _
  · cases hq : (s.input l).qual with
    | none =>
      rw [sampleInput_begins hv hq]
      split
      · exact (hput _).trans (acceptEdge_sameCopies l _)
      · exact hput _
    | some q => exact sampleInput_keeps hv (by simp [hq]) ▸ hput _

/-! ## SYNC and trains -/

theorem syncEdge_rules (x : Tick) (s : State) : (syncEdge x s).rules = s.rules := by
  unfold syncEdge
  split
  · exact (createReport_onlyWork _ _).rules
  · unfold timeSync
    dsimp only
    split
    · exact (createReport_onlyWork _ _).rules
    · rfl

theorem acceptSync_rules (s : State) : (acceptSync s).rules = s.rules := by
  cases hq : s.timebase.syncQual with
  | none =>
    unfold acceptSync
    rw [hq]
  | some q =>
    cases hl : q.level with
    | low =>
      rw [acceptSync_low hq hl]
      rfl
    | high =>
      rw [acceptSync_high hq hl]
      exact syncEdge_rules _ _

theorem sampleSync_rules (v : Level) (s : State) : (sampleSync v s).rules = s.rules := by
  by_cases hv : v = s.timebase.syncFiltered
  · rw [sampleSync_abandons hv]
    rfl
  · by_cases hq : s.timebase.syncQual = none
    · rw [sampleSync_begins hv hq]
      split
      · exact acceptSync_rules _
      · rfl
    · rw [sampleSync_keeps hv hq]
      rfl

theorem endPeriod_rules (l : OutLine) (s : State) : (endPeriod l s).rules = s.rules := by
  unfold endPeriod
  dsimp only
  split
  · exact (createReport_onlyWork _ _).rules
  · rfl

/-! ## The rule table (R91, R93, R95, R112, R115) -/

/-- A rule's record is replaced by one that is clean or dirty. -/
theorem CleanCopies.putRule (h : CleanCopies s) (r : RuleNo) {x : Rule} (hx : x.dirty = false → x.staged = x.active) :
    CleanCopies (s.putRule r x) := fun j hd => by
  rw [rule_putRule] at hd ⊢
  split
  · rename_i hj
    rw [if_pos hj] at hd
    exact hx hd
  · rename_i hj
    rw [if_neg hj] at hd
    exact h j hd

/-- A rule that has been edited is dirty (R91). -/
theorem takeEditRule_cleanCopies (h : CleanCopies s) (rule : Byte) (record : RawRule) :
    CleanCopies (takeEditRule rule record s).1 := by
  unfold takeEditRule
  split
  · exact h.putRule _ fun hd => nomatch hd
  · exact h

/-- To discard the staged copies makes them the active ones (R93). -/
theorem takeDiscardStaged_cleanCopies (s : State) : CleanCopies (takeDiscardStaged s).1 := fun r _ => by
  unfold takeDiscardStaged
  rw [State.rule_withRules_tabulate]

theorem takeResetRuleCounts_sameCopies (rules : BitVec 16) (s : State) :
    SameCopies s (takeResetRuleCounts rules s).1 := fun r => by
  unfold takeResetRuleCounts
  dsimp only
  rw [State.rule_withRules_tabulate]
  split <;> exact ⟨rfl, rfl, rfl⟩

/-- A commit makes the staged copies of the dirty rules active (R95). -/
theorem takeCommitRules_cleanCopies (h : CleanCopies s) : CleanCopies (takeCommitRules s).1 := by
  unfold takeCommitRules
  split
  · exact h
  · split
    · exact h
    · intro r hd
      rw [State.rule_withRules_tabulate] at hd ⊢
      split
      · rfl
      · rename_i hr
        rw [if_neg hr] at hd
        exact h r hd

theorem cleanCopies_of_default (h : ∀ r, t.rule r = defaultRule) : CleanCopies t := fun r _ => by
  rw [h]
  rfl

/-- RESTART KEEP keeps both copies and the dirty flag, CLEAR makes every rule the default one (R115). -/
theorem restartAll_cleanCopies (h : CleanCopies s) (m : RestartMode) : CleanCopies (restartAll m s) := by
  cases m with
  | keep => exact h.kept fun r => by rw [restartAll_rule_keep]; exact ⟨rfl, rfl, rfl⟩
  | clear => exact cleanCopies_of_default fun r => by simp [restartAll, restartRules, State.rule, getAt]

/-! ## The other requests -/

theorem takeArm_sameCopies (s : State) : SameCopies s (takeArm s).1 := by
  have hclear : SameCopies s (clearLastFirings s) := fun r => by
    unfold clearLastFirings
    rw [State.rule_withRules_tabulate]
    exact ⟨rfl, rfl, rfl⟩
  unfold takeArm
  split
  · split
    · exact .refl s
    · exact hclear.trans (.of_rules (createReport_onlyWork _ _).rules)
  · exact .refl s
  · exact .refl s
  · exact .refl s

theorem takeDisarmWait_rules (s : State) : (takeDisarmWait s).1.rules = s.rules := by
  unfold takeDisarmWait
  split
  · split <;> exact (createReport_onlyWork _ _).rules
  · rfl
  · rfl
  · rfl

theorem takeDisarmFlush_rules (s : State) : (takeDisarmFlush s).1.rules = s.rules := by
  unfold takeDisarmFlush
  split
  · exact (flushAll_onlyWork s).rules
  · exact (flushAll_onlyWork s).rules
  · rfl
  · rfl

theorem takeRecover_rules (s : State) : (takeRecover s).1.rules = s.rules := by
  unfold takeRecover
  split
  · exact (createReport_onlyWork _ _).rules
  · rfl

theorem takeSchedulePulse_rules (tag : Tag) (line base mode : Byte) (due : BitVec 48) (width : BitVec 24)
    (repeats : Byte) (interval : BitVec 32) (done : Byte) (s : State) :
    (takeSchedulePulse tag line base mode due width repeats interval done s).1.rules = s.rules := by
  unfold takeSchedulePulse
  split
  · rfl
  · split
    · rfl
    · split
      · rfl
      · split
        · rfl
        · split
          · rfl
          · split
            · exact (countFault_onlyWork _ _ _).rules
            · exact (joinAction_onlyWork _ _).rules

theorem takeCancelAction_rules (mode : CancelMode) (slot : Byte) (gen : Gen) (s : State) :
    (takeCancelAction mode slot gen s).1.rules = s.rules := by
  unfold takeCancelAction
  split
  · rfl
  · split
    · rfl
    · exact (cancelHandle_onlyWork _ _ _).rules

theorem takeCancelLine_rules (mode : CancelMode) (line : Byte) (s : State) :
    (takeCancelLine mode line s).1.rules = s.rules := by
  unfold takeCancelLine
  split
  · rfl
  · exact (cancelHandles_onlyWork _ _ _).rules

/-- Every request keeps the clean copies: those of the rule table as above, and the others leave the two copies and the dirty
flag of every rule. -/
theorem takeCommand_cleanCopies (i : Instr) (h : CleanCopies s) : CleanCopies (takeCommand i s).1 := by
  cases i with
  | arm _ => exact h.kept (takeArm_sameCopies s)
  | disarmWait _ => exact h.kept (.of_rules (takeDisarmWait_rules s))
  | disarmFlush _ => exact h.kept (.of_rules (takeDisarmFlush_rules s))
  | recover _ => exact h.kept (.of_rules (takeRecover_rules s))
  | restartKeep _ => exact restartAll_cleanCopies h .keep
  | restartClear _ => exact restartAll_cleanCopies h .clear
  | schedulePulse tag line base mode due width repeats interval done =>
    exact h.kept (.of_rules (takeSchedulePulse_rules tag line base mode due width repeats interval done s))
  | cancelActionAbort _ slot gen => exact h.kept (.of_rules (takeCancelAction_rules .abort slot gen s))
  | cancelActionFinish _ slot gen => exact h.kept (.of_rules (takeCancelAction_rules .finish slot gen s))
  | cancelLineAbort _ line => exact h.kept (.of_rules (takeCancelLine_rules .abort line s))
  | cancelLineFinish _ line => exact h.kept (.of_rules (takeCancelLine_rules .finish line s))
  | editRule _ rule record => exact takeEditRule_cleanCopies h rule record
  | discardStaged _ => exact takeDiscardStaged_cleanCopies s
  | resetRuleCounts _ rules => exact h.kept (takeResetRuleCounts_sameCopies rules s)
  | commitRules _ => exact takeCommitRules_cleanCopies h
  | _ =>
    refine h.kept (.of_rules ?_)
    simp only [takeCommand, takePing, takeGetIdentity, takeSetLinkRate, takeGetStatus, takeSetSupervision,
      takeListSchedule, takeSetSchedule, takeSetOutput, takeSetLevel, takeTrainLoad, takeTrainStart, takeTrainStop,
      takeGetOutputs, takeGetTime, takeSetTravelSource, takeSetSync, takeArmSync, takeCancelSync, takeSetInput,
      takeGetInputs, takeReadJournal, takeSetJournal, takeReadRule, takeReadRuleStats, takeSetReporting, takeReadFaults,
      takeClearFaults, takeSetFaultMasks]
    repeat' split
    all_goals rfl

/-! ## Every step -/

theorem keeps_cleanCopies : Keeps CleanCopies CleanCopies where
  weaken h := h
  beside h hp := hp.kept (.of_rules (by rw [h]))
  faulted _ hp := hp.kept (.of_rules rfl)
  besideAfter h hp := hp.kept (.of_rules (by rw [h]))
  faultedAfter _ hp := hp.kept (.of_rules rfl)
  elapse _ hp := hp.kept (.of_rules rfl)
  take i _ hp := takeCommand_cleanCopies i hp
  timeList hp := hp.kept (expireLists_onlyWork _ _ _).sameCopies
  edge l _ hp := hp.kept (acceptEdge_sameCopies l _)
  sample l v _ hp := hp.kept (sampleInput_sameCopies l v _)
  raw _ _ _ hp := hp.kept (.of_rules rfl)
  rawSync _ _ hp := hp.kept (.of_rules rfl)
  highEnd _ _ hp := hp.kept (.of_rules rfl)
  periodEnd l _ hp := hp.kept (.of_rules (endPeriod_rules l _))
  reset _ _ := cleanCopies_of_default fun r => by simp [resetBlocks, State.rule, getAt]

end Sys2Proof.Machine

open Sys2Proof.Machine in
/-- Settles O10: EDIT_RULE makes its rule dirty, DISCARD_STAGED, COMMIT_RULES and the resets make the copies equal, and nothing
else touches a copy or a dirty flag. -/
theorem cleanCopiesKept : Obligations.CleanCopiesKept := by
  unfold Obligations.CleanCopiesKept
  intro s t h ht
  refine keeps_cleanCopies.step (fun rest => ?_) (fun _ _ _ => .inl fun hu => hu) h ht
  have h' : ∀ n, CleanCopies (elapse n { s with pending := rest }) := fun n => h
  exact ⟨fun n _ => (h' n).kept (.of_rules (acceptSync_rules _)), fun n v _ => (h' n).kept (.of_rules (sampleSync_rules v _))⟩

end

