-- ==== Sys2Proof/Proofs/RuleRecords.lean ====
section
/-! PROOFS. The rule records that EDIT_RULE takes, and that READ_RULE writes them as they were given (R90, R92, R183, R184,
10.6). -/

namespace Sys2Proof.Machine

/-! ## Bytes read as values, and written again (10.4) -/

/-- A byte that names one of two values is 0 or 1. -/
theorem two_values {α : Type} {b : Byte} {x y v : α}
    (h : (if b = 0 then some x else if b = 1 then some y else none) = some v) : b = 0 ∧ v = x ∨ b = 1 ∧ v = y := by
  split_ifs at h with h0 h1 <;> cases h
  · exact .inl ⟨h0, rfl⟩
  · exact .inr ⟨h1, rfl⟩

theorem exists_two_values {α : Type} {b : Byte} {x y : α} :
    (∃ v, (if b = 0 then some x else if b = 1 then some y else none) = some v) ↔ b.toNat ≤ 1 := by
  refine ⟨fun ⟨v, h⟩ => ?_, fun h => ?_⟩
  · rcases two_values h with ⟨rfl, -⟩ | ⟨rfl, -⟩ <;> decide
  · rcases byte_two_valued h with rfl | rfl
    · exact ⟨x, rfl⟩
    · exact ⟨y, rfl⟩

theorem exists_yesNoOf {b : Byte} : (∃ v, yesNoOf b = some v) ↔ b.toNat ≤ 1 := exists_two_values
theorem exists_senseOf {b : Byte} : (∃ v, senseOf b = some v) ↔ b.toNat ≤ 1 := exists_two_values
theorem exists_baseOf {b : Byte} : (∃ v, baseOf b = some v) ↔ b.toNat ≤ 1 := exists_two_values
theorem exists_levelOf {b : Byte} : (∃ v, levelOf b = some v) ↔ b.toNat ≤ 1 := exists_two_values

theorem yesNoByte_of {b : Byte} {v : Bool} (h : yesNoOf b = some v) : yesNoByte v = b := by
  rcases two_values h with ⟨rfl, rfl⟩ | ⟨rfl, rfl⟩ <;> rfl

theorem senseByte_of {b : Byte} {v : Sense} (h : senseOf b = some v) : senseByte v = b := by
  rcases two_values h with ⟨rfl, rfl⟩ | ⟨rfl, rfl⟩ <;> rfl

theorem baseByte_of {b : Byte} {v : Base} (h : baseOf b = some v) : baseByte v = b := by
  rcases two_values h with ⟨rfl, rfl⟩ | ⟨rfl, rfl⟩ <;> rfl

theorem levelByte_of {b : Byte} {v : Level} (h : levelOf b = some v) : levelByte v = b := by
  rcases two_values h with ⟨rfl, rfl⟩ | ⟨rfl, rfl⟩ <;> rfl

theorem ruleEdgeByte_of {b : Byte} {v : RuleEdge} (h : ruleEdgeOf b = some v) : ruleEdgeByte v = b := by
  unfold ruleEdgeOf at h
  split_ifs at h with h1 h2 h3 <;> cases h
  · exact h1.symm
  · exact h2.symm
  · exact h3.symm

theorem exists_ruleEdgeOf {b : Byte} : (∃ v, ruleEdgeOf b = some v) ↔ 1 ≤ b.toNat ∧ b.toNat ≤ 3 := by
  refine ⟨fun ⟨v, h⟩ => ?_, fun h => ?_⟩
  · rw [← ruleEdgeByte_of h]
    cases v <;> decide
  · have hb : b = 1 ∨ b = 2 ∨ b = 3 := by bv_omega
    rcases hb with rfl | rfl | rfl
    · exact ⟨.rising, rfl⟩
    · exact ⟨.falling, rfl⟩
    · exact ⟨.either, rfl⟩

theorem inLineByte_of {b : Byte} {l : InLine} (h : inLineOf b = some l) : BitVec.ofNat 8 l.val = b := by
  unfold inLineOf at h
  split_ifs at h
  cases h
  simp

theorem exists_inLineOf {b : Byte} : (∃ l, inLineOf b = some l) ↔ b.toNat ≤ 7 := by
  refine ⟨fun ⟨l, h⟩ => not_lt.mp fun hb => ?_, fun h => ⟨⟨b.toNat, by omega⟩, inLineOf_some rfl⟩⟩
  rw [inLineOf_none hb] at h
  cases h

theorem outLineByte_of {b : Byte} {l : OutLine} (h : outLineOf b = some l) : BitVec.ofNat 8 l.val = b := by
  unfold outLineOf at h
  split_ifs at h
  cases h
  simp

theorem exists_outLineOf {b : Byte} : (∃ l, outLineOf b = some l) ↔ b.toNat ≤ 11 := by
  refine ⟨fun ⟨l, h⟩ => not_lt.mp fun hb => ?_, fun h => ⟨⟨b.toNat, by omega⟩, outLineOf_some rfl⟩⟩
  rw [outLineOf_none hb] at h
  cases h

/-! ## The gate and the match set (R90 checks 3 and 4, R183, R184) -/

/-- What the two bytes of a gate are read as. -/
theorem gateOf_eq_some {line level : Byte} {g : Option (InLine × Level)} : gateOf line level = some g ↔
    (g = none ∧ line = 0xFF ∧ level = 0) ∨ ∃ l v, g = some (l, v) ∧ inLineOf line = some l ∧ levelOf level = some v := by
  constructor
  · intro h
    unfold gateOf at h
    split_ifs at h with hl hv
    · cases h
      exact .inl ⟨rfl, hl, hv⟩
    · split at h
      · rename_i l v hl hv
        cases h
        exact .inr ⟨l, v, rfl, hl, hv⟩
      · cases h
  · rintro (⟨rfl, rfl, rfl⟩ | ⟨l, v, rfl, hl, hv⟩)
    · rfl
    · have hne : line ≠ 0xFF := by
        rintro rfl
        cases hl
      unfold gateOf
      rw [if_neg hne, hl, hv]

theorem exists_gateOf {line level : Byte} : (∃ g, gateOf line level = some g) ↔
    (line = 0xFF ∧ level = 0) ∨ (line.toNat ≤ 7 ∧ level.toNat ≤ 1) := by
  simp only [gateOf_eq_some]
  rw [← exists_inLineOf, ← exists_levelOf]
  constructor
  · rintro ⟨g, ⟨-, h⟩ | ⟨l, v, -, hl, hv⟩⟩
    · exact .inl h
    · exact .inr ⟨⟨l, hl⟩, ⟨v, hv⟩⟩
  · rintro (h | ⟨⟨l, hl⟩, ⟨v, hv⟩⟩)
    · exact ⟨none, .inl ⟨rfl, h⟩⟩
    · exact ⟨some (l, v), .inr ⟨l, v, rfl, hl, hv⟩⟩

theorem matchSetOk_iff {b : Byte} {sense : Sense} (h : senseOf b = some sense) (set : BitVec 8) :
    matchSetOk sense set = true ↔ (b = 0 → set ≠ 0) ∧ (b = 1 → set ≠ 0xFF) := by
  unfold matchSetOk
  rcases two_values h with ⟨rfl, rfl⟩ | ⟨rfl, rfl⟩ <;> simp

/-! ## Templates (R90 checks 6 to 8, R183) -/

/-- A template place that passes is written as it was given. -/
theorem templateOf_bytes {base : Base} {t : RawTemplate} {x : Template} (h : templateOf base t = some x) :
    x.bytes = t.bytes := by
  unfold templateOf at h
  split at h
  · cases h
  · rename_i l hl
    split_ifs at h with _ hi _ _ h0 <;> cases h
    · have hz : t.interval = 0 := by simpa [h0] using hi
      simp [Template.bytes, RawTemplate.bytes, outLineByte_of hl, hz]
    · simp [Template.bytes, RawTemplate.bytes, outLineByte_of hl]

theorem exists_templateOf {b : Byte} {base : Base} (hb : baseOf b = some base) (t : RawTemplate) :
    (∃ x, templateOf base t = some x) ↔ templatePasses b t := by
  have htravel : base = .travel ↔ b = 1 := by
    rcases two_values hb with ⟨rfl, rfl⟩ | ⟨rfl, rfl⟩ <;> simp
  unfold templatePasses templateOf
  rw [← exists_outLineOf, ← htravel]
  cases outLineOf t.line with
  | none => simp
  | some l =>
    dsimp only
    generalize (if t.repeats = 0 then none else some t.interval) = i
    constructor
    · rintro ⟨x, h⟩
      split_ifs at h with hw hz hn hr
      exact ⟨⟨l, rfl⟩, hw, fun h0 => not_not.mp fun hi => hz ⟨h0, hi⟩, fun h0 hi => hn ⟨h0, hi⟩,
        fun ht => ⟨not_le.mp fun ho => hr ⟨ht, .inl ho⟩, not_le.mp fun hi => hr ⟨ht, .inr hi⟩⟩⟩
    · rintro ⟨-, hw, hz, hn, hr⟩
      rw [if_neg hw, if_neg fun ⟨h0, hi⟩ => hi (hz h0), if_neg fun ⟨h0, hi⟩ => hn h0 hi,
        if_neg fun ⟨ht, ho⟩ => ho.elim (not_le.mpr (hr ht).1) (not_le.mpr (hr ht).2)]
      exact ⟨_, rfl⟩

/-- All of a list of optional values are present exactly when the list is that of the values. -/
theorem allSome_eq_some {α : Type} {l : List (Option α)} {xs : List α} : allSome l = some xs ↔ l = xs.map some := by
  induction l generalizing xs with
  | nil => cases xs <;> simp [allSome]
  | cons o l ih =>
    cases o with
    | none => cases xs <;> simp [allSome]
    | some x => cases xs <;> simp [allSome, ih, and_comm]

theorem exists_allSome {α : Type} {l : List (Option α)} : (∃ xs, allSome l = some xs) ↔ ∀ o ∈ l, ∃ x, o = some x := by
  simp only [allSome_eq_some]
  induction l with
  | nil => simp
  | cons o l ih =>
    rw [List.forall_mem_cons, ← ih]
    constructor
    · rintro ⟨xs, h⟩
      obtain ⟨x, ys, rfl, rfl, rfl⟩ := List.map_eq_cons_iff.mp h.symm
      exact ⟨⟨x, rfl⟩, ys, rfl⟩
    · rintro ⟨⟨x, rfl⟩, xs, rfl⟩
      exact ⟨x :: xs, rfl⟩

/-- The four template places of a record. -/
def rulePlaces (r : RawRule) : List RawTemplate := [r.t0, r.t1, r.t2, r.t3]

/-- The templates of a record: those of as many places as it counts, the others all zeros (R183). -/
theorem templatesOf_eq_some {base : Base} {r : RawRule} {ts : List Template} : templatesOf base r = some ts ↔
    (1 ≤ r.templateCount.toNat ∧ r.templateCount.toNat ≤ 4)
      ∧ (∀ t ∈ (rulePlaces r).drop r.templateCount.toNat, t = rawTemplateZero)
      ∧ ((rulePlaces r).take r.templateCount.toNat).map (templateOf base) = ts.map some := by
  rw [← allSome_eq_some]
  unfold templatesOf
  dsimp only
  split_ifs with hn hz
  · simp only [false_iff]
    omega
  · simp only [false_iff]
    rintro ⟨-, h, -⟩
    obtain ⟨t, ht, hne⟩ := List.any_eq_true.mp hz
    exact of_decide_eq_true hne (h t ht)
  · refine ⟨fun h => ⟨by omega, fun t ht => ?_, h⟩, fun h => h.2.2⟩
    by_contra hne
    exact hz (List.any_eq_true.mpr ⟨t, ht, decide_eq_true hne⟩)

theorem exists_templatesOf {base : Base} {b : Byte} (hb : baseOf b = some base) (r : RawRule) :
    (∃ ts, templatesOf base r = some ts) ↔ (1 ≤ r.templateCount.toNat ∧ r.templateCount.toNat ≤ 4)
      ∧ ∀ p ∈ [(0, r.t0), (1, r.t1), (2, r.t2), (3, r.t3)],
        if p.1 < r.templateCount.toNat then templatePasses b p.2 else p.2 = ⟨0, 0, 0, 0, 0⟩ := by
  simp only [templatesOf_eq_some, exists_and_left, ← allSome_eq_some, exists_allSome, List.forall_mem_map,
    exists_templateOf hb]
  refine and_congr_right fun ⟨h1, h4⟩ => ?_
  generalize r.templateCount.toNat = n at h1 h4 ⊢
  interval_cases n <;> simp [rulePlaces, rawTemplateZero, and_comm, and_assoc]

/-! ## Records (R90, R92) -/

/-- The record `x` is what the bytes of `r` say, field by field, and they pass the checks of EDIT_RULE (R90). -/
structure RecordRead (r : RawRule) (x : RuleRecord) : Prop where
  enabled : yesNoOf r.enabled = some x.enabled
  matchSet : x.matchSet = r.matchSet
  sense : senseOf r.sense = some x.sense
  edgeKind : ruleEdgeOf r.edgeKind = some x.edgeKind
  gate : gateOf r.gateLine r.gateLevel = some x.gate
  holdoff : x.holdoff = r.holdoff
  limit : x.limit = if r.limit = 0 then none else some r.limit.toNat
  base : baseOf r.base = some x.base
  templates : templatesOf x.base r = some x.templates
  reportFired : yesNoOf r.reportFired = some x.reportFired
  reportDone : yesNoOf r.reportDone = some x.reportDone
  lines : matchSetOk x.sense r.matchSet = true

theorem recordOf_eq_some {r : RawRule} {x : RuleRecord} : recordOf r = some x ↔ RecordRead r x := by
  constructor
  · intro h
    unfold recordOf at h
    split at h
    · rename_i enabled sense edge base fired done gate he hs hk hb hf hd hg
      split at h
      · rename_i hm
        split at h
        · cases h
        · rename_i ts hts
          cases h
          exact ⟨he, rfl, hs, hk, hg, rfl, rfl, hb, hts, hf, hd, hm⟩
      · cases h
    · cases h
  · rintro ⟨he, hset, hs, hk, hg, hh, hlim, hb, hts, hf, hd, hm⟩
    unfold recordOf
    simp only [he, hs, hk, hb, hf, hd, hg, hm, hts, if_true]
    rw [← hset, ← hh, ← hlim]

theorem exists_recordOf (r : RawRule) : (∃ x, recordOf r = some x) ↔ RecordPasses r := by
  simp only [recordOf_eq_some]
  constructor
  · rintro ⟨x, h⟩
    obtain ⟨hcount, hplaces⟩ := (exists_templatesOf h.base r).mp ⟨_, h.templates⟩
    exact ⟨⟨exists_yesNoOf.mp ⟨_, h.enabled⟩, exists_senseOf.mp ⟨_, h.sense⟩, exists_baseOf.mp ⟨_, h.base⟩,
        exists_yesNoOf.mp ⟨_, h.reportFired⟩, exists_yesNoOf.mp ⟨_, h.reportDone⟩⟩,
      exists_ruleEdgeOf.mp ⟨_, h.edgeKind⟩, (matchSetOk_iff h.sense _).mp h.lines, exists_gateOf.mp ⟨_, h.gate⟩,
      hcount, hplaces⟩
  · rintro ⟨⟨henabled, hsense, hbase, hfired, hdone⟩, hedge, hlines, hgate, hcount, hplaces⟩
    obtain ⟨enabled, he⟩ := exists_yesNoOf.mpr henabled
    obtain ⟨sense, hs⟩ := exists_senseOf.mpr hsense
    obtain ⟨base, hb⟩ := exists_baseOf.mpr hbase
    obtain ⟨fired, hf⟩ := exists_yesNoOf.mpr hfired
    obtain ⟨done, hd⟩ := exists_yesNoOf.mpr hdone
    obtain ⟨edge, hk⟩ := exists_ruleEdgeOf.mpr hedge
    obtain ⟨gate, hg⟩ := exists_gateOf.mpr hgate
    obtain ⟨ts, hts⟩ := (exists_templatesOf hb r).mpr ⟨hcount, hplaces⟩
    exact ⟨⟨enabled, r.matchSet, sense, edge, gate, r.holdoff, _, base, ts, fired, done⟩,
      he, rfl, hs, hk, hg, rfl, rfl, hb, hts, hf, hd, (matchSetOk_iff hs _).mpr hlines⟩

/-! ## The 68 bytes written again (R92, 10.6) -/

/-- Templates read from places are written as the places were given. -/
theorem templates_bytes {base : Base} {l : List RawTemplate} {ts : List Template}
    (h : l.map (templateOf base) = ts.map some) : ts.flatMap Template.bytes = l.flatMap RawTemplate.bytes := by
  induction l generalizing ts with
  | nil =>
    rw [List.map_eq_nil_iff.mp h.symm]
    rfl
  | cons t l ih =>
    obtain ⟨x, xs, rfl, hx, hxs⟩ := List.map_eq_cons_iff.mp h.symm
    rw [List.flatMap_cons, List.flatMap_cons, ih hxs.symm, templateOf_bytes hx.symm]

theorem rawTemplate_bytes_length (t : RawTemplate) : t.bytes.length = 13 := rfl

theorem places_bytes_length (l : List RawTemplate) : (l.flatMap RawTemplate.bytes).length = 13 * l.length := by
  induction l with
  | nil => rfl
  | cons t l ih =>
    rw [List.flatMap_cons, List.length_append, ih, rawTemplate_bytes_length, List.length_cons]
    omega

/-- Places that are all zeros are written as zeros. -/
theorem zero_places_bytes {l : List RawTemplate} (h : ∀ t ∈ l, t = rawTemplateZero) :
    l.flatMap RawTemplate.bytes = List.replicate (13 * l.length) 0 := by
  refine List.eq_replicate_iff.mpr ⟨places_bytes_length l, fun b hb => ?_⟩
  obtain ⟨t, ht, hbt⟩ := List.mem_flatMap.mp hb
  rw [h t ht] at hbt
  exact List.eq_of_mem_replicate (n := 13) hbt

/-- The templates of a record, filled up with zeros, are written as its four places were given (R183). -/
theorem templatesOf_bytes {base : Base} {r : RawRule} {ts : List Template} (h : templatesOf base r = some ts) :
    (ts.flatMap Template.bytes ++ List.replicate 52 0).take 52 =
      r.t0.bytes ++ r.t1.bytes ++ r.t2.bytes ++ r.t3.bytes := by
  obtain ⟨⟨-, h4⟩, hzero, hts⟩ := templatesOf_eq_some.mp h
  have hplaces : (rulePlaces r).length = 4 := rfl
  have hlen := places_bytes_length ((rulePlaces r).take r.templateCount.toNat)
  rw [List.length_take, hplaces, min_eq_left h4] at hlen
  calc (ts.flatMap Template.bytes ++ List.replicate 52 0).take 52
    _ = ((rulePlaces r).take r.templateCount.toNat).flatMap RawTemplate.bytes
          ++ List.replicate (13 * (4 - r.templateCount.toNat)) 0 := by
        rw [templates_bytes hts, List.take_append, List.take_of_length_le (by omega), hlen, List.take_replicate,
          min_eq_left (by omega)]
        congr 2
        omega
    _ = (rulePlaces r).flatMap RawTemplate.bytes := by
        rw [← hplaces, ← List.length_drop, ← zero_places_bytes hzero, ← List.flatMap_append, List.take_append_drop]
    _ = r.t0.bytes ++ r.t1.bytes ++ r.t2.bytes ++ r.t3.bytes := by simp [rulePlaces]

theorem templatesOf_length {base : Base} {r : RawRule} {ts : List Template} (h : templatesOf base r = some ts) :
    ts.length = r.templateCount.toNat := by
  obtain ⟨⟨-, h4⟩, -, hts⟩ := templatesOf_eq_some.mp h
  have hlen := congrArg List.length hts
  rw [List.length_map, List.length_map, List.length_take] at hlen
  exact hlen.symm.trans (min_eq_left h4)

/-- A record is written as it was given, field by field (10.6). -/
theorem RecordRead.bytes_eq {r : RawRule} {x : RuleRecord} (h : RecordRead r x) : x.bytes = r.bytes := by
  have hlimit : x.limit.getD 0 = r.limit.toNat := by
    rw [h.limit]
    split
    · rename_i h0
      rw [h0]
      rfl
    · rfl
  have hcount : BitVec.ofNat 8 x.templates.length = r.templateCount := by
    rw [templatesOf_length h.templates, BitVec.ofNat_toNat, BitVec.setWidth_eq]
  unfold RuleRecord.bytes
  dsimp only
  rw [templatesOf_bytes h.templates, hlimit, hcount, h.matchSet, h.holdoff, yesNoByte_of h.enabled, senseByte_of h.sense,
    ruleEdgeByte_of h.edgeKind, baseByte_of h.base, yesNoByte_of h.reportFired, yesNoByte_of h.reportDone]
  unfold RawRule.bytes
  rcases gateOf_eq_some.mp h.gate with ⟨hg, hl, hv⟩ | ⟨l, v, hg, hl, hv⟩
  · rw [hg, hl, hv]
    simp
  · rw [hg]
    simp [inLineByte_of hl, levelByte_of hv]

end Sys2Proof.Machine

open Sys2Proof Sys2Proof.Machine in
/-- Settles O41: each field of a record that is read is written as it was, and the places beyond its templates were zeros. -/
theorem editReadsBack : Obligations.EditReadsBack := by
  unfold Obligations.EditReadsBack
  exact fun raw x h => (recordOf_eq_some.mp h).bytes_eq

end

