-- ==== Sys2Proof/Proofs/RuleRequests.lean ====
section
/-! PROOFS. The requests of the rule table: EDIT_RULE, READ_RULE, DISCARD_STAGED, RESET_RULE_COUNTS and COMMIT_RULES (R90 to
R95, R112). -/

namespace Sys2Proof.Machine

variable {s : State} {tag : Tag} {c : Option Byte}

/-! ## A request whose owner block replaces the rule table, or one rule -/

theorem taking_withRules (tag : Tag) (s : State) (x : Vector Rule 16) :
    (taking tag s).withRules x = ((restartSilence s).withRules x).withLink (taking tag s).link := by
  conv_lhs => rw [taking_eq]
  rfl

theorem answers_withRules {i : Instr} {p : List Byte} {r : Reply} {x : Vector Rule 16}
    (he : encodeRequest i = some (tag, p)) (hc : p.head? = c) (h : s.admits tag c = true)
    (hu : takeCommand i (taking tag s) = ((taking tag s).withRules x, r)) :
    Answers i tag c (responsePayload c r) r.after s ((restartSilence s).withRules x) :=
  answers_command he hc h (by rw [hu, taking_withRules])

theorem taking_putRule (tag : Tag) (s : State) (q : RuleNo) (x : Rule) :
    (taking tag s).putRule q x = ((restartSilence s).putRule q x).withLink (taking tag s).link := by
  conv_lhs => rw [taking_eq]
  rfl

theorem answers_putRule {i : Instr} {p : List Byte} {r : Reply} {q : RuleNo} {x : Rule}
    (he : encodeRequest i = some (tag, p)) (hc : p.head? = c) (h : s.admits tag c = true)
    (hu : takeCommand i (taking tag s) = ((taking tag s).putRule q x, r)) :
    Answers i tag c (responsePayload c r) r.after s ((restartSilence s).putRule q x) :=
  answers_command he hc h (by rw [hu, taking_putRule])

/-! ## EDIT_RULE (R90, R91) -/

theorem takeEditRule_bad {rule : Byte} {raw : RawRule} (h : 15 < rule.toNat ∨ ¬ RecordPasses raw) (t : State) :
    takeEditRule rule raw t = (t, reply .badValue) := by
  unfold takeEditRule
  split
  · rename_i r x hr hx
    rcases h with h | h
    · rw [ruleNoOf_none h] at hr
      cases hr
    · exact absurd ((exists_recordOf raw).mp ⟨x, hx⟩) h
  · rfl

theorem takeEditRule_good {rule : Byte} {raw : RawRule} {r : RuleNo} {x : RuleRecord} (hr : rule.toNat = r.val)
    (hx : recordOf raw = some x) (t : State) :
    takeEditRule rule raw t = (t.putRule r { t.rule r with staged := x, dirty := true }, replyOk []) := by
  unfold takeEditRule
  rw [ruleNoOf_some hr, hx]

/-! ## READ_RULE (R92) -/

theorem takeReadRule_bad {rule copy : Byte} (h : 15 < rule.toNat ∨ 1 < copy.toNat) (t : State) :
    takeReadRule rule copy t = (t, reply .badValue) := by
  unfold takeReadRule
  split
  · rename_i r staged hr hs
    rcases h with h | h
    · rw [ruleNoOf_none h] at hr
      cases hr
    · rw [yesNoOf_bad h] at hs
      cases hs
  · rfl

theorem takeReadRule_good {rule copy : Byte} {r : RuleNo} (hr : rule.toNat = r.val) (hc : copy.toNat ≤ 1) (t : State) :
    takeReadRule rule copy t = (t, replyOk ((if (t.rule r).dirty then 1 else 0)
      :: (if copy = 1 then (t.rule r).staged else (t.rule r).active).bytes)) := by
  unfold takeReadRule
  rw [ruleNoOf_some hr, yesNoOf_good hc]
  simp only [decide_eq_true_eq]
  rfl

/-- READ_RULE answers the record of the copy named. -/
theorem answers_readRule {rule copy : Byte} {r : RuleNo} (h : s.admits tag (some 0x61) = true) (hr : rule.toNat = r.val)
    (hc : copy.toNat ≤ 1) : Answers (.readRule tag rule copy) tag (some 0x61)
      (0x61 :: 0x00 :: (if (s.rule r).dirty then 1 else 0)
        :: (if copy = 1 then (s.rule r).staged else (s.rule r).active).bytes) .nothing s (restartSilence s) := by
  have htake := takeReadRule_good hr hc (taking tag s)
  rw [taking_rule] at htake
  exact answers_unchanged (i := .readRule tag rule copy) rfl rfl h htake

/-! ## COMMIT_RULES (R94, R95) -/

/-- Templates before the first fault have none (R94). -/
theorem firstFault_sound {base : Base} {n : Nat} {l : List Template} (h : ∀ x ∈ l, templateFault base x s = none) :
    firstFault base s n l = none := by
  induction l generalizing n with
  | nil => rfl
  | cons x xs ih =>
    obtain ⟨hx, hxs⟩ := List.forall_mem_cons.mp h
    unfold firstFault
    rw [hx]
    exact ih hxs

theorem firstFault_first {base : Base} {n : Nat} {pre post : List Template} {x : Template} {reason : Byte}
    (h : ∀ y ∈ pre, templateFault base y s = none) (hx : templateFault base x s = some reason) :
    firstFault base s n (pre ++ x :: post) = some (n + pre.length, reason) := by
  induction pre generalizing n with
  | nil =>
    rw [List.nil_append, firstFault, hx]
    rfl
  | cons y ys ih =>
    obtain ⟨hy, hys⟩ := List.forall_mem_cons.mp h
    rw [List.cons_append, firstFault, hy]
    dsimp only
    rw [ih hys, List.length_cons, Nat.add_right_comm, Nat.add_assoc]

/-- A rule passes the validation of a commit: it is not dirty, or its staged copy is disabled, or no template of it has a fault
(R94). -/
def State.ruleSound (s : State) (r : RuleNo) : Prop :=
  (s.rule r).dirty = true → (s.rule r).staged.enabled = true →
    ∀ x ∈ (s.rule r).staged.templates, templateFault (s.rule r).staged.base x s = none

theorem firstInvalid_cons_sound {r : RuleNo} (h : s.ruleSound r) (rs : List RuleNo) :
    firstInvalid s (r :: rs) = firstInvalid s rs := by
  rw [firstInvalid]
  split
  · rename_i n reason hf
    split at hf
    · rename_i hde
      obtain ⟨hd, he⟩ := Bool.and_eq_true_iff.mp hde
      rw [firstFault_sound (h hd he)] at hf
      cases hf
    · cases hf
  · rfl

theorem firstInvalid_append_sound {pre : List RuleNo} (h : ∀ q ∈ pre, s.ruleSound q) (rs : List RuleNo) :
    firstInvalid s (pre ++ rs) = firstInvalid s rs := by
  induction pre with
  | nil => rfl
  | cons q qs ih =>
    obtain ⟨hq, hqs⟩ := List.forall_mem_cons.mp h
    rw [List.cons_append, firstInvalid_cons_sound hq, ih hqs]

theorem firstInvalid_cons_fault {r : RuleNo} {pre post : List Template} {x : Template} {reason : Byte}
    (hd : (s.rule r).dirty = true) (he : (s.rule r).staged.enabled = true)
    (ht : (s.rule r).staged.templates = pre ++ x :: post)
    (hpre : ∀ y ∈ pre, templateFault (s.rule r).staged.base y s = none)
    (hx : templateFault (s.rule r).staged.base x s = some reason) (rs : List RuleNo) :
    firstInvalid s (r :: rs) = some [BitVec.ofNat 8 r.val, BitVec.ofNat 8 pre.length, reason] := by
  rw [firstInvalid]
  rw [hd, he, ht, firstFault_first hpre hx, Nat.zero_add]
  rfl

/-- The rules stand in ascending number. -/
theorem allRules_split (r : RuleNo) : ∃ pre post, allRules = pre ++ r :: post ∧ ∀ q ∈ pre, q < r := by
  obtain ⟨pre, post, h⟩ := List.append_of_mem (List.mem_finRange r)
  have hlt := List.pairwise_lt_finRange 16
  rw [h, List.pairwise_append] at hlt
  exact ⟨pre, post, h, fun q hq => hlt.2.2 q hq r List.mem_cons_self⟩

theorem takeCommitRules_faulted {t : State} (h : t.run.state = .faulted) : takeCommitRules t = (t, reply .state) := if_pos h

theorem takeCommitRules_commits {t : State} (hs : t.run.state ≠ .faulted) (h : ∀ r, t.ruleSound r) :
    takeCommitRules t =
      (t.withRules (tabulate (fun r => if (t.rule r).dirty then (t.rule r).committed else t.rule r)),
        replyOk [BitVec.ofNat 8 t.dirtyCount]) := by
  have hvalid : firstInvalid t allRules = none := by
    rw [← List.append_nil allRules, firstInvalid_append_sound (fun r _ => h r)]
    rfl
  unfold takeCommitRules
  rw [if_neg hs, hvalid]

theorem takeCommitRules_invalid {t : State} {r : RuleNo} {pre post : List Template} {x : Template} {reason : Byte}
    (hs : t.run.state ≠ .faulted) (h : ∀ q, q < r → t.ruleSound q)
    (hd : (t.rule r).dirty = true) (he : (t.rule r).staged.enabled = true)
    (ht : (t.rule r).staged.templates = pre ++ x :: post)
    (hpre : ∀ y ∈ pre, templateFault (t.rule r).staged.base y t = none)
    (hx : templateFault (t.rule r).staged.base x t = some reason) :
    takeCommitRules t =
      (t, ⟨.invalidRule, [BitVec.ofNat 8 r.val, BitVec.ofNat 8 pre.length, reason], .nothing⟩) := by
  obtain ⟨before, after, hall, hlt⟩ := allRules_split r
  have hfault := firstInvalid_cons_fault hd he ht hpre hx after
  rw [← firstInvalid_append_sound (fun q hq => h q (hlt q hq)), ← hall] at hfault
  unfold takeCommitRules
  rw [if_neg hs, hfault]

theorem taking_templateFault (tag : Tag) (s : State) (base : Base) (x : Template) :
    templateFault base x (taking tag s) = templateFault base x s := by
  unfold templateFault
  rw [taking_output]

theorem taking_ruleSound (tag : Tag) (s : State) (r : RuleNo) : (taking tag s).ruleSound r ↔ s.ruleSound r := by
  unfold State.ruleSound
  simp only [taking_rule, taking_templateFault]

theorem taking_state (tag : Tag) (s : State) : (taking tag s).run.state = s.run.state := by
  rw [taking_run, restartSilence_state]

/-- COMMIT_RULES that finds a fault answers the first. -/
theorem answers_commit_invalid {r : RuleNo} {pre post : List Template} {x : Template} {reason : Byte}
    (ha : s.admits tag (some 0x65) = true) (hs : s.run.state ≠ .faulted) (h : ∀ q, q < r → s.ruleSound q)
    (hd : (s.rule r).dirty = true) (he : (s.rule r).staged.enabled = true)
    (ht : (s.rule r).staged.templates = pre ++ x :: post)
    (hpre : ∀ y ∈ pre, templateFault (s.rule r).staged.base y s = none)
    (hx : templateFault (s.rule r).staged.base x s = some reason) :
    Answers (.commitRules tag) tag (some 0x65)
      [0x65, 0x0A, BitVec.ofNat 8 r.val, BitVec.ofNat 8 pre.length, reason] .nothing s (restartSilence s) := by
  have htake := takeCommitRules_invalid (t := taking tag s) (r := r) (pre := pre) (post := post) (x := x)
    (reason := reason) (by rwa [taking_state]) (fun q hq => (taking_ruleSound tag s q).mpr (h q hq))
    (by rwa [taking_rule]) (by rwa [taking_rule]) (by rwa [taking_rule])
    (by simpa only [taking_rule, taking_templateFault] using hpre)
    (by rwa [taking_rule, taking_templateFault])
  exact answers_unchanged (i := .commitRules tag) rfl rfl ha htake

end Sys2Proof.Machine

open Sys2Proof Sys2Proof.Machine in
/-- Settles O40: the records that pass are those that are read (`exists_recordOf`), and each request replaces in the state at
the taking what it names. -/
theorem ruleTableRequests : Obligations.RuleTableRequests := by
  unfold Obligations.RuleTableRequests
  intro s tag
  refine ⟨exists_recordOf, fun rule raw h => ⟨fun hv => ?_, fun r x hr hx => ?_⟩, fun h => ?_, fun set h => ?_⟩
  · exact answers_unchanged (r := reply .badValue) rfl rfl h (takeEditRule_bad hv _)
  · have htake := takeEditRule_good hr hx (taking tag s)
    rw [taking_rule] at htake
    exact answers_putRule (r := replyOk []) rfl rfl h htake
  · generalize hn : List.length _ = n
    refine answers_withRules (i := .discardStaged tag) (r := replyOk [BitVec.ofNat 8 n]) rfl rfl h ?_
    show takeDiscardStaged (taking tag s) = _
    unfold takeDiscardStaged State.dirtyCount
    simp only [taking_rule, hn]
  · generalize hn : List.length _ = n
    refine answers_withRules (i := .resetRuleCounts tag set) (r := replyOk [BitVec.ofNat 8 n]) rfl rfl h ?_
    show takeResetRuleCounts set (taking tag s) = _
    unfold takeResetRuleCounts
    simp only [taking_rule, hn]
    rfl

open Sys2Proof Sys2Proof.Machine in
/-- Settles O42, by the two checks of R92; the copies of a rule that is not dirty are the same record. -/
theorem readRule : Obligations.ReadRule := by
  unfold Obligations.ReadRule
  intro s tag rule copy h
  refine ⟨fun hv => ?_, fun r hr => ⟨fun hc => ?_, fun hc => ?_, fun hclean hd hc => ?_⟩⟩
  · exact answers_unchanged (r := reply .badValue) rfl rfl h (takeReadRule_bad hv _)
  · subst hc
    exact answers_readRule h hr (by decide)
  · subst hc
    exact answers_readRule h hr (by decide)
  · have ha := answers_readRule h hr hc
    rwa [hclean r hd, ite_self, hd] at ha

open Sys2Proof Sys2Proof.Machine in
/-- Settles O43: a template without either fault has none (`templateFault`), and the first fault is found rule by rule and
template by template. -/
theorem commitRules : Obligations.CommitRules := by
  unfold Obligations.CommitRules
  intro s tag h lineBad intervalBad
  have hnone {x : RuleRecord} {t : Template} (hb : ¬ lineBad t ∧ ¬ intervalBad x t) : templateFault x.base t s = none :=
    (if_neg hb.1).trans (if_neg hb.2)
  refine ⟨fun hf => ?_, fun hf hall => ?_, fun r pre t post hf hall hd he ht hpre => ⟨fun hl => ?_, fun hl hi => ?_⟩⟩
  · have ha := answers_unchanged (i := .commitRules tag) (r := reply .state) rfl rfl h
      (takeCommitRules_faulted (by rwa [taking_state]))
    rwa [restartSilence_of_idle (by rw [hf]; rfl)] at ha
  · have htake := takeCommitRules_commits (t := taking tag s) (by rwa [taking_state])
      fun r => (taking_ruleSound tag s r).mpr fun hd he x hx => hnone (hall r hd he x hx)
    unfold State.dirtyCount at htake
    simp only [taking_rule] at htake
    generalize List.length _ = n at htake ⊢
    exact answers_withRules (i := .commitRules tag) (r := replyOk [BitVec.ofNat 8 n]) rfl rfl h htake
  · exact answers_commit_invalid h hf (fun q hq hd he x hx => hnone (hall q hq hd he x hx)) hd he ht
      (fun x hx => hnone (hpre x hx)) (if_pos hl)
  · exact answers_commit_invalid h hf (fun q hq hd he x hx => hnone (hall q hq hd he x hx)) hd he ht
      (fun x hx => hnone (hpre x hx)) ((if_neg hl).trans (if_pos hi))

end

