-- ==== Sys2Proof/Proofs/ArmAndDisarm.lean ====
section
/-! PROOFS. ARM and DISARM WAIT (R114, R117 to R119, R125). -/

namespace Sys2Proof.Machine

variable {s : State} {tag : Tag}

/-- A change of run state with room for its report: the report is filed and nothing else changes (R117). -/
theorem changeRunState_room (x : RunState) (silence : Option Nat) (n : Nat) (h : s.hasRoom 1) :
    changeRunState x silence n s =
      (s.withRun { s.run with state := x, silence := silence }).filing (.runState x .request n) :=
  createReport_room _ h

theorem taking_hasRoom (tag : Tag) {n : Nat} (h : s.hasRoom n) : (taking tag s).hasRoom n := by
  unfold State.hasRoom
  rwa [taking_reports]

/-- A request that changes the run control and files a report leaves, of its own taking, the Host Link alone. -/
theorem taking_withRun_filing (tag : Tag) (s : State) (x : RunControl) (b : ReportBody) :
    ((taking tag s).withRun x).filing b = ((s.withRun x).filing b).withLink (taking tag s).link := by
  rw [taking_withRun]
  rfl

/-! ## ARM (R114, R118, R125) -/

theorem takeArm_standby {t : State} (hs : t.run.state = .standby) (hn : t.syncArmed = false) (hr : t.hasRoom 1) :
    takeArm t = (((t.withRules (tabulate (fun r => { t.rule r with lastFiring := none }))).withRun
        ⟨.armed, t.run.silenceLimit, if 0 < t.run.silenceLimit then some t.clock else none⟩).filing
        (.runState .armed .request 0), replyOk [1]) := by
  unfold takeArm
  rw [hs]
  dsimp only
  rw [hn, changeRunState_room _ _ _ (s := clearLastFirings t) hr]
  rfl

theorem takeArm_armed {t : State} (hs : t.run.state = .armed) : takeArm t = (t, replyOk [1]) := by
  unfold takeArm
  rw [hs]
  rfl

theorem takeArm_refused {t : State}
    (h : t.run.state = .draining ∨ t.run.state = .faulted ∨ t.run.state = .standby ∧ t.syncArmed = true) :
    takeArm t = (t, reply .state) := by
  unfold takeArm
  rcases h with hs | hs | ⟨hs, ha⟩
  · rw [hs]
  · rw [hs]
  · rw [hs]
    exact if_pos ha

/-! ## DISARM WAIT (R119) -/

theorem takeDisarmWait_empty {t : State} (hs : t.run.state = .armed) (hf : t.freeCount = 96) (hr : t.hasRoom 1) :
    takeDisarmWait t = ((t.withRun ⟨.standby, t.run.silenceLimit, none⟩).filing
      (.runState .standby .request 0), replyOk [0, 0]) := by
  have hu : t.inUse = 0 := by
    unfold State.inUse
    omega
  unfold takeDisarmWait
  rw [hs]
  dsimp only
  rw [if_pos hu, changeRunState_room _ _ _ hr]
  rfl

theorem takeDisarmWait_drains {t : State} (hs : t.run.state = .armed) (hf : t.freeCount < 96) (hr : t.hasRoom 1) :
    takeDisarmWait t = ((t.withRun { t.run with state := .draining }).filing (.runState .draining .request 0),
      replyOk [2, BitVec.ofNat 8 (96 - t.freeCount)]) := by
  have hu : t.inUse ≠ 0 := by
    unfold State.inUse
    omega
  unfold takeDisarmWait
  rw [hs]
  dsimp only
  rw [if_neg hu, changeRunState_room _ _ _ hr]
  rfl

theorem takeDisarmWait_draining {t : State} (hs : t.run.state = .draining) :
    takeDisarmWait t = (t, replyOk [2, BitVec.ofNat 8 (96 - t.freeCount)]) := by
  unfold takeDisarmWait
  rw [hs]
  rfl

theorem takeDisarmWait_standby {t : State} (hs : t.run.state = .standby) :
    takeDisarmWait t = (t, replyOk [0, BitVec.ofNat 8 (96 - t.freeCount)]) := by
  unfold takeDisarmWait
  rw [hs]
  rfl

theorem takeDisarmWait_faulted {t : State} (hs : t.run.state = .faulted) : takeDisarmWait t = (t, reply .state) := by
  unfold takeDisarmWait
  rw [hs]

end Sys2Proof.Machine

open Sys2Proof Sys2Proof.Machine in
/-- Settles O26, by the tables of R118 and R119 row by row; outside ARMED and DRAINING no silence timer restarts. -/
theorem armAndDisarmWait : Obligations.ArmAndDisarmWait := by
  unfold Obligations.ArmAndDisarmWait
  intro s tag
  refine ⟨fun h => ⟨fun hs hn hr => ?_, fun hs => ?_, fun hs => ?_⟩,
    fun h => ⟨fun hs hf hr => ?_, fun hs hf hr => ?_, fun hs => ?_, fun hs => ?_, fun hs => ?_⟩⟩
  · refine answers_command (i := .arm tag) (r := replyOk [1]) rfl rfl h ?_
    refine (takeArm_standby (t := taking tag s) (by rwa [taking_state]) (by rwa [taking_syncArmed])
      (taking_hasRoom tag hr)).trans ?_
    rw [taking_run, restartSilence_of_idle (by rw [hs]; rfl), taking_clock, taking_withRules,
      restartSilence_of_idle (by rw [hs]; rfl)]
    simp only [taking_rule]
    rfl
  · exact answers_unchanged (i := .arm tag) (r := replyOk [1]) rfl rfl h (takeArm_armed (by rwa [taking_state]))
  · refine answers_unchanged (i := .arm tag) (r := reply .state) rfl rfl h (takeArm_refused ?_)
    rwa [taking_state, taking_syncArmed]
  · refine answers_command (i := .disarmWait tag) (r := replyOk [0, 0]) rfl rfl h ?_
    refine (takeDisarmWait_empty (t := taking tag s) (by rwa [taking_state]) (by rwa [taking_freeCount])
      (taking_hasRoom tag hr)).trans ?_
    rw [taking_withRun_filing, taking_run, restartSilence_silenceLimit]
    rfl
  · refine answers_command (i := .disarmWait tag) (r := replyOk [2, BitVec.ofNat 8 (96 - s.freeCount)]) rfl rfl h ?_
    refine (takeDisarmWait_drains (t := taking tag s) (by rwa [taking_state]) (by rwa [taking_freeCount])
      (taking_hasRoom tag hr)).trans ?_
    rw [taking_withRun_filing, taking_run, taking_freeCount]
    rfl
  · have htake := takeDisarmWait_draining (t := taking tag s) (by rwa [taking_state])
    rw [taking_freeCount] at htake
    exact answers_unchanged (i := .disarmWait tag) rfl rfl h htake
  · have htake := takeDisarmWait_standby (t := taking tag s) (by rwa [taking_state])
    rw [taking_freeCount] at htake
    have ha := answers_unchanged (i := .disarmWait tag) rfl rfl h htake
    rwa [restartSilence_of_idle (by rw [hs]; rfl)] at ha
  · have ha := answers_unchanged (i := .disarmWait tag) rfl rfl h (takeDisarmWait_faulted (by rwa [taking_state]))
    rwa [restartSilence_of_idle (by rw [hs]; rfl)] at ha

end

