-- ==== Sys2Proof/Proofs/Completion.lean ====
section
/-! PROOFS. The completion of a transmission (R131, R132, R140, R142, R148, R161): when it comes about, what it makes of the
response or the report that was sent, and the arbiter's choice after it. -/

namespace Sys2Proof.Machine

variable {s : State} {t : Transmission}

/-! ## The arbiter chooses once (R144) -/

/-- While a frame is in transmission the arbiter chooses none. -/
theorem arbitrate_transmitting (h : s.link.tx = some t) : arbitrate s = s := by
  unfold arbitrate
  rw [h]

/-- Where the arbiter leaves the transmitter idle it had nothing to choose. -/
theorem arbitrate_of_idle (h : (arbitrate s).link.tx = none) : arbitrate s = s := by
  unfold arbitrate at h ⊢
  split
  · rfl
  · rename_i hs
    simp only [hs] at h
    split
    · rename_i hr
      simp only [hr] at h
      cases h
    · rename_i hr
      simp only [hr] at h
      split
      · rename_i hn
        simp only [hn] at h
        cases h
      · rename_i hn
        simp only [hn] at h
        split
        · rfl
        · rename_i hq
          simp only [hq] at h
          split at h
          · cases h
          · rename_i hf
            rw [if_neg hf]

theorem firm_of_idle (h : s.link.tx = none) : s.firm = s := by
  unfold State.firm State.withLink
  rw [h, Option.map_none, ← h]

/-- What the arbiter has chosen at a completion stands when it is asked again. -/
theorem arbitrate_firm (s : State) : arbitrate (arbitrate s).firm = (arbitrate s).firm := by
  cases h : (arbitrate s).link.tx with
  | none => rw [firm_of_idle h, arbitrate_of_idle h, arbitrate_of_idle h]
  | some t => exact arbitrate_transmitting (by rw [firm_tx, h]; rfl)

/-! ## The moment of the completion (R131, R132) -/

theorem transmitDue_spi_begun (hl : s.link.linkType = .spi) (ht : s.link.tx = some t)
    (hb : t.sent < 8 * (7 + t.frame.payload.length)) : transmitDue s = none := by
  have hg : t.gone = false := decide_eq_false (by unfold frameBits; omega)
  simp [transmitDue, hl, ht, hg]

theorem transmitDue_spi_gone (hl : s.link.linkType = .spi) (ht : s.link.tx = some t)
    (hb : 8 * (7 + t.frame.payload.length) ≤ t.sent) : transmitDue s = some 0 := by
  have hg : t.gone = true := decide_eq_true hb
  simp [transmitDue, hl, ht, hg]

theorem transmitDue_uart (hl : s.link.linkType = .uart) (ht : s.link.tx = some t) :
    transmitDue s = some (uartTicks s.link.rate t.frame - (s.clock - t.startedAt)) := by
  simp [transmitDue, hl, ht]

/-- An event of the part's own that is not in prospect does not come about. -/
theorem whenDue_none (event : State → State) (s : State) : whenDue none event s = .next s := by
  unfold whenDue
  split <;> rfl

theorem exec_transmitComplete (s : State) : exec .transmitComplete s =
    whenDue (transmitDue s) (fun u => (arbitrate (completeTransmission u)).firm) s := rfl

/-- A frame whose last bit has not been clocked out on an SPI link does not complete. -/
theorem exec_transmitComplete_begun (hl : s.link.linkType = .spi) (ht : s.link.tx = some t)
    (hb : t.sent < 8 * (7 + t.frame.payload.length)) : exec .transmitComplete s = .next s := by
  rw [exec_transmitComplete, transmitDue_spi_begun hl ht hb, whenDue_none]

/-- A frame whose last bit has gone, or ends in `n` ticks with nothing of the part's own before, completes then. -/
theorem exec_transmitComplete_ended {n : Nat} (hh : s.held = false) (ht : s.link.tx = some t)
    (hn : s.link.linkType = .spi ∧ n = 0 ∧ 8 * (7 + t.frame.payload.length) ≤ t.sent
      ∨ s.link.linkType = .uart ∧ s.quietFor n ∧ n = uartTicks s.link.rate t.frame - (s.clock - t.startedAt)) :
    exec .transmitComplete s = .next (arbitrate (completeTransmission (elapse n s))).firm := by
  rw [← arbitrate_firm, exec_transmitComplete]
  rcases hn with ⟨hl, rfl, hg⟩ | ⟨hl, hq, rfl⟩
  · exact whenDue_eq hh (transmitDue_spi_gone hl ht hg) fun p _ => Nat.zero_le p.1
  · exact whenDue_eq hh (transmitDue_uart hl ht) hq

/-! ## A response (R140, R142, R148) -/

theorem completeTransmission_response (ht : s.link.tx = some t) (hk : t.frame.kind = .response) :
    completeTransmission s = completeResponse s.sent := by
  simp only [completeTransmission, ht, hk]
  rfl

/-- The newest response joins the list in place of one with its tag, the oldest of five leaving (R142). -/
theorem recordRecent_eq (x : RecentEntry) (l : List RecentEntry) :
    recordRecent x l = (if (l.filter (fun y => y.tag ≠ x.tag)).length < 4 then l.filter (fun y => y.tag ≠ x.tag)
      else (l.filter (fun y => y.tag ≠ x.tag)).drop 1) ++ [x] := by
  unfold recordRecent Config.recentCap
  dsimp only
  generalize l.filter (fun y => y.tag ≠ x.tag) = kept
  rw [List.length_append, List.length_singleton]
  split
  · rw [if_neg (by omega), List.drop_append_of_le_length (by omega)]
  · rw [if_pos (by omega)]

/-- The Host Link after the response of the entry `e` has been sent, `rest` being the other entries of the window. -/
def HostLink.answered (l : HostLink) (e : WindowEntry) (rest : List WindowEntry) : HostLink :=
  let kept := l.recent.filter (fun x => x.tag ≠ e.tag)
  { l with
    window := rest
    recent := if e.tag ≠ 0 ∧ e.record = true then
        (if kept.length < 4 then kept else kept.drop 1) ++ [⟨e.tag, e.code, e.response⟩]
      else l.recent }

/-- The one entry in transmission leaves the window, its response being recorded, and what it was to bring about follows. -/
theorem completeResponse_sending {pre post : List WindowEntry} {e : WindowEntry} (hw : s.link.window = pre ++ e :: post)
    (he : e.state = .sending) (hn : ∀ x ∈ pre ++ post, x.state ≠ .sending) :
    completeResponse s = afterResponse e.after (s.withLink (s.link.answered e (pre ++ post))) := by
  have hpre : pre.find? (fun x => x.state = .sending) = none :=
    List.find?_eq_none.mpr fun x hx => by simpa using hn x (List.mem_append_left _ hx)
  have hfind : s.link.window.find? (fun x => x.state = .sending) = some e := by
    rw [hw, List.find?_append, hpre]
    simp [he]
  have hrest : s.link.window.filter (fun x => x.state ≠ .sending) = pre ++ post := by
    rw [hw, List.filter_append, List.filter_cons_of_neg (by simp [he]), ← List.filter_append, List.filter_eq_self]
    intro x hx
    simpa using hn x hx
  have hclose : closeEntry e s.link = s.link.answered e (pre ++ post) := by
    unfold closeEntry HostLink.answered
    rw [hrest, recordRecent_eq]
  unfold completeResponse
  rw [hfind, ← hclose]

/-- To the rate in force nothing changes (R148). -/
theorem changeRate_same (s : State) : changeRate s.link.rate s = s := if_pos rfl

theorem changeRate_hunting {r : LinkRate} (hr : r ≠ s.link.rate) (ha : s.link.assembler = .hunting) :
    changeRate r s = s.withLink { s.link with rate := r, byteStarted := false } := by
  unfold changeRate breakOff
  rw [if_neg hr.symm, if_pos ha]

/-- A frame in reception at the old rate is dropped, and counted, before the rate changes (R137, R148). -/
theorem changeRate_breaksOff {r : LinkRate} (hr : r ≠ s.link.rate) (ha : s.link.assembler ≠ .hunting) :
    changeRate r s = (countFault .frameMalformed none (s.withLink { s.link with assembler := .hunting })).withLink
      { s.link with assembler := .hunting, rate := r, byteStarted := false } := by
  unfold changeRate breakOff dropFrame
  rw [if_neg hr.symm, if_neg ha]
  dsimp only
  rw [(countFault_onlyWork _ _ _).link]
  rfl

/-! ## A report (R161) -/

theorem completeTransmission_report (ht : s.link.tx = some t) (hk : t.frame.kind = .report) :
    completeTransmission s = completeReport t.frame.tag s.sent := by
  simp only [completeTransmission, ht, hk]
  rfl

/-- The one report in flight of a sequence number begins its retry interval. -/
theorem completeReport_sending {q : Seq} {pre post : List Report} {r : Report} (hf : s.reports.flight = pre ++ r :: post)
    (hr : r.seq = some q) (hn : ∀ x ∈ pre ++ post, x.seq ≠ some q) (hs : r.state = .sending) :
    completeReport q s = s.withReports { s.reports with
      flight := pre ++ { r with state := .awaiting s.clock s.reports.retryInterval } :: post } := by
  have hin : s.reports.inFlight q = some r := by
    unfold ReportUnit.inFlight
    rw [hf, find_seq hr hn]
  unfold completeReport
  simp only [hin, hs, if_true]
  rw [hf, replaceReport_seq _ hr hn]

/-- A report that has left the in-flight window starts nothing. -/
theorem completeReport_left {q : Seq} (hn : ∀ x ∈ s.reports.flight, x.seq ≠ some q) : completeReport q s = s := by
  have hin : s.reports.inFlight q = none := List.find?_eq_none.mpr fun x hx => by simpa using hn x hx
  unfold completeReport
  rw [hin]

end Sys2Proof.Machine

open Sys2Proof.Machine in
/-- Settles O51: the completion comes when its moment does (`exec_transmitComplete_ended`), and the cases are those of what the
response was to bring about, and whether the report is still in flight. -/
theorem transmissionCompletes : Obligations.TransmissionCompletes := by
  unfold Obligations.TransmissionCompletes
  intro s t n hh ht
  refine ⟨fun hl hb => exec_transmitComplete_begun hl ht hb, fun hn => ?_⟩
  rw [exec_transmitComplete_ended hh ht hn]
  have ht' : (elapse n s).link.tx = some t := ht
  have hnext : ∀ {v w : State}, v = w → Host.Outcome.next (φ := Fault) (ρ := Refusal) (arbitrate v).firm
      = .next (arbitrate w).firm := fun h => h ▸ rfl
  refine ⟨fun pre e post hk hw he hsend => ?_, fun hk => ⟨fun pre r post hf hr hseq hs => ?_, fun hleft => ?_⟩⟩
  · rw [completeTransmission_response ht' hk, completeResponse_sending (s := (elapse n s).sent) hw he hsend]
    intro kept u
    refine ⟨?_, fun r ha hr hasm => ?_, fun r ha hr hasm => ?_, fun ha => ?_, fun ha => ?_⟩
    · rintro (ha | ha) <;> rw [ha]
      · rfl
      · exact hnext (changeRate_same u)
    · rw [ha]
      exact hnext (changeRate_hunting (s := u) hr hasm)
    · rw [ha]
      exact ⟨_, hnext (changeRate_breaksOff (s := u) hr hasm), rfl, rfl⟩
    · rw [ha]
      rfl
    · rw [ha]
      rfl
  · rw [completeTransmission_report ht' hk]
    exact hnext (completeReport_sending (s := (elapse n s).sent) hf hr hseq hs)
  · rw [completeTransmission_report ht' hk]
    exact hnext (completeReport_left (s := (elapse n s).sent) hleft)

end

