-- ==== Sys2Proof/Proofs/Status.lean ====
section
/-! PROOFS. GET_STATUS: the set of fault kinds counted and the flags, as the bytes of its answer give them (R127, 10.7). -/

namespace Sys2Proof.Machine

/-- A number is the sum of the weights of its bits. -/
theorem sum_testBit (x n : Nat) :
    ((List.range n).map (fun i => if x.testBit i then 2 ^ i else 0)).sum = x % 2 ^ n := by
  induction n with
  | zero => simp [Nat.mod_one]
  | succ n ih =>
    have hbit : (if x.testBit n then 2 ^ n else 0) = 2 ^ n * (x / 2 ^ n % 2) := by
      rw [← Nat.toNat_testBit]
      cases x.testBit n <;> simp
    rw [List.range_succ, List.map_append, List.sum_append, ih, Nat.mod_pow_succ, ← hbit]
    rfl

theorem allFaults_codes : allFaults.map (fun k => k.code.val) = List.range 11 := rfl

/-- The set of the kinds counted, as the number that its member bits make (10.5). -/
theorem faultKinds_eq {s : State} {kinds : BitVec 16} (h : kinds.toNat < 2 ^ 11)
    (hk : ∀ k : FaultKind, kinds.getLsbD k.code.val = decide (0 < (s.faultEntry k).count)) :
    s.faultKinds = kinds.toNat := by
  have hbit : ∀ k : FaultKind, (if 0 < (s.faultEntry k).count then 2 ^ k.code.val else 0)
      = if kinds.toNat.testBit k.code.val then 2 ^ k.code.val else 0 := fun k => by
    rw [BitVec.testBit_toNat, hk]
    simp
  calc s.faultKinds
    _ = ((allFaults.map (fun k => k.code.val)).map (fun i => if kinds.toNat.testBit i then 2 ^ i else 0)).sum := by
      unfold State.faultKinds
      rw [List.map_map]
      exact congrArg List.sum (List.map_congr_left fun k _ => hbit k)
    _ = kinds.toNat := by rw [allFaults_codes, sum_testBit, Nat.mod_eq_of_lt h]

theorem flagsByte_two (b0 b1 : Bool) : flagsByte [b0, b1] = (if b0 then 1 else 0) + (if b1 then 2 else 0) := by
  cases b0 <;> cases b1 <;> rfl

theorem taking_faultKinds (tag : Tag) (s : State) : (taking tag s).faultKinds = s.faultKinds := by
  unfold State.faultKinds
  simp only [taking_faultEntry]

/-- What GET_STATUS is answered with at the taking, the silence timer having restarted (R125, R127). -/
theorem takeGetStatus_taking (tag : Tag) (s : State) : takeGetStatus (taking tag s) = (taking tag s,
    replyOk ([runStateByte s.run.state, BitVec.ofNat 8 s.freeCount, BitVec.ofNat 8 s.sched.timeList.length,
      BitVec.ofNat 8 s.sched.travelList.length, BitVec.ofNat 8 s.journal.records.length,
      BitVec.ofNat 8 (s.reports.queue.length + s.reports.flight.length), BitVec.ofNat 8 s.reports.flight.length]
      ++ leBytes 2 s.faultKinds ++ [(if s.syncArmed then 1 else 0)
        + (if (restartSilence s).run.silence.isSome then 2 else 0)] ++ leBytes 2 s.run.silenceLimit)) := by
  unfold takeGetStatus statusFlags
  rw [flagsByte_two, taking_faultKinds, taking_freeCount, taking_syncArmed, taking_run, taking_sched, taking_journal,
    taking_reports, restartSilence_state, restartSilence_silenceLimit]
  simp only [ReportUnit.outboxCount, List.append_assoc, List.singleton_append]

end Sys2Proof.Machine

open Sys2Proof Sys2Proof.Machine in
/-- Settles O29: the state at the taking is read, which differs from `s` in the Host Link and the silence timer alone. -/
theorem getStatusReads : Obligations.GetStatusReads := by
  unfold Obligations.GetStatusReads
  intro s tag kinds h hlt hk
  have ht := takeGetStatus_taking tag s
  rw [faultKinds_eq hlt hk] at ht
  exact answers_unchanged (i := .getStatus tag) rfl rfl h ht

end

