-- ==== Sys2Proof/Proofs/EveryCommand.lean ====
section
/-! PROOFS. Every command completes, and leaves the queue, the count of choices and the hold in reset alone but for the two
commands that begin and end a reset; held in reset, the part follows its pins and does nothing else (R129, R150). -/

namespace Sys2Proof.Machine

variable {s t : State}

/-! ## What no block of the part touches -/

/-- The model's own queue and count of choices, and the hold in reset. -/
def State.outside (s : State) : List Instr × Nat × Bool := (s.pending, s.choices, s.held)

theorem outside_eq_iff : t.outside = s.outside ↔ t.pending = s.pending ∧ t.choices = s.choices ∧ t.held = s.held := by
  simp only [State.outside, Prod.mk.injEq]

theorem OnlyWork.outside (h : OnlyWork s t) : t.outside = s.outside := by rw [h]; rfl
theorem OnlySends.outside (h : OnlySends s t) : t.outside = s.outside := by rw [h]; rfl
theorem LinkWork.outside (h : LinkWork s t) : t.outside = s.outside := by rw [h]; rfl

theorem createReport_outside (b : ReportBody) (s : State) : (createReport b s).outside = s.outside :=
  (createReport_onlyWork b s).outside

theorem countFault_outside (k : FaultKind) (d : Option FaultDetail) (s : State) : (countFault k d s).outside = s.outside :=
  (countFault_onlyWork k d s).outside

theorem arbitrate_outside (s : State) : (arbitrate s).outside = s.outside := (arbitrate_onlySends s).outside

/-! ## Rules and edges -/

theorem testLimit_outside (r : RuleNo) (s : State) : (testLimit r s).outside = s.outside := by
  unfold testLimit
  split
  · exact createReport_outside _ _
  · rfl

theorem fireRule_outside (r : RuleNo) (slots : List SlotNo) (e : EdgeEvent) (s : State) :
    (fireRule r slots e s).outside = s.outside := by
  have hjoin : ∀ (hs : List Handle) (l : List (SlotNo × Action)), (joinAll hs (allocateAll l s)).outside = s.outside :=
    fun hs l => ((allocateAll_onlyWork l s).trans (joinAll_onlyWork hs _)).outside
  unfold fireRule
  rw [testLimit_outside]
  split
  · exact (createReport_outside _ _).trans (hjoin _ _)
  · exact hjoin _ _

theorem evalRule_outside (r : RuleNo) (e : EdgeEvent) (s : State) : (evalRule r e s).outside = s.outside := by
  unfold evalRule
  dsimp only
  split
  · rfl
  · split
    · rfl
    · split
      · rfl
      · split
        · rfl
        · unfold requestSlots
          dsimp only
          split
          · exact fireRule_outside _ _ _ _
          · exact (createReport_outside _ _).trans (countFault_outside _ _ _)

theorem evalRules_outside (e : EdgeEvent) (rs : List RuleNo) (s : State) : (evalRules e rs s).outside = s.outside := by
  induction rs generalizing s with
  | nil => rfl
  | cons r rs ih =>
    unfold evalRules
    split
    · rw [ih, evalRule_outside]
    · rfl

theorem offerEdge_outside (e : EdgeEvent) (s : State) : (offerEdge e s).outside = s.outside := by
  unfold offerEdge
  split
  · unfold storeEdge
    dsimp only
    split
    · exact createReport_outside _ _
    · rfl
  · exact countFault_outside _ _ _

theorem passOn_outside (e : EdgeEvent) (s : State) : (passOn e s).outside = s.outside := by
  unfold passOn
  split
  · rw [evaluateEdge, evalRules_outside]
    split
    · exact offerEdge_outside e s
    · rfl
  · rfl

theorem advanceTravel_outside (l : InLine) (q : Qualification) (s : State) :
    (advanceTravel l q s).outside = s.outside := by
  unfold advanceTravel
  split
  · exact (expireLists_onlyWork _ _ _).outside
  · rfl

theorem acceptEdge_outside (l : InLine) (s : State) : (acceptEdge l s).outside = s.outside := by
  cases hq : (s.input l).qual with
  | none =>
    unfold acceptEdge
    rw [hq]
  | some q =>
    rw [acceptEdge_eq hq, passOn_outside, advanceTravel_outside]
    rfl

theorem sampleInput_outside (l : InLine) (v : Level) (s : State) : (sampleInput l v s).outside = s.outside := by
  unfold sampleInput
  dsimp only
  split
  · split <;> rfl
  · split
    · rfl
    · split
      · exact acceptEdge_outside l _
      · rfl

/-! ## SYNC and trains -/

theorem syncEdge_outside (x : Tick) (s : State) : (syncEdge x s).outside = s.outside := by
  unfold syncEdge
  split
  · exact createReport_outside _ _
  · unfold timeSync
    dsimp only
    split
    · exact createReport_outside _ s
    · rfl

theorem acceptSync_outside (s : State) : (acceptSync s).outside = s.outside := by
  unfold acceptSync
  split
  · rfl
  · dsimp only
    split
    · rfl
    · exact syncEdge_outside _ _

theorem sampleSync_outside (v : Level) (s : State) : (sampleSync v s).outside = s.outside := by
  unfold sampleSync
  dsimp only
  split
  · rfl
  · split
    · rfl
    · split
      · exact acceptSync_outside _
      · rfl

theorem endPeriod_outside (l : OutLine) (s : State) : (endPeriod l s).outside = s.outside := by
  unfold endPeriod
  dsimp only
  split
  · exact createReport_outside _ _
  · rfl

/-! ## Requests -/

theorem takeArm_outside (s : State) : (takeArm s).1.outside = s.outside := by
  unfold takeArm
  split
  · split
    · rfl
    · exact createReport_outside _ _
  · rfl
  · rfl
  · rfl

theorem takeDisarmWait_outside (s : State) : (takeDisarmWait s).1.outside = s.outside := by
  unfold takeDisarmWait
  split
  · split <;> exact createReport_outside _ _
  · rfl
  · rfl
  · rfl

theorem takeDisarmFlush_outside (s : State) : (takeDisarmFlush s).1.outside = s.outside := by
  unfold takeDisarmFlush
  split
  · exact (flushAll_onlyWork s).outside
  · exact (flushAll_onlyWork s).outside
  · rfl
  · rfl

theorem takeRecover_outside (s : State) : (takeRecover s).1.outside = s.outside := by
  unfold takeRecover
  split
  · exact createReport_outside _ _
  · rfl

theorem takeSchedulePulse_outside (tag : Tag) (line base mode : Byte) (due : BitVec 48) (width : BitVec 24)
    (repeats : Byte) (interval : BitVec 32) (done : Byte) (s : State) :
    (takeSchedulePulse tag line base mode due width repeats interval done s).1.outside = s.outside := by
  unfold takeSchedulePulse
  split
  · rfl
  · split
    · rfl
    · split
      · rfl
      · split
        · rfl
        · split
          · rfl
          · split
            · exact countFault_outside _ _ _
            · exact (joinAction_onlyWork _ _).outside

theorem takeCancelAction_outside (mode : CancelMode) (slot : Byte) (gen : Gen) (s : State) :
    (takeCancelAction mode slot gen s).1.outside = s.outside := by
  unfold takeCancelAction
  split
  · rfl
  · split
    · rfl
    · exact (cancelHandle_onlyWork _ _ _).outside

theorem takeCancelLine_outside (mode : CancelMode) (line : Byte) (s : State) :
    (takeCancelLine mode line s).1.outside = s.outside := by
  unfold takeCancelLine
  split
  · rfl
  · exact (cancelHandles_onlyWork _ _ _).outside

/-- No owner block touches queue, count of choices or hold: those that create reports or treat actions as above, and the
others, in each of their cases, replace a block's state at most. -/
theorem takeCommand_outside (i : Instr) (s : State) : (takeCommand i s).1.outside = s.outside := by
  cases i with
  | arm _ => exact takeArm_outside s
  | disarmWait _ => exact takeDisarmWait_outside s
  | disarmFlush _ => exact takeDisarmFlush_outside s
  | recover _ => exact takeRecover_outside s
  | schedulePulse tag line base mode due width repeats interval done =>
    exact takeSchedulePulse_outside tag line base mode due width repeats interval done s
  | cancelActionAbort _ slot gen => exact takeCancelAction_outside .abort slot gen s
  | cancelActionFinish _ slot gen => exact takeCancelAction_outside .finish slot gen s
  | cancelLineAbort _ line => exact takeCancelLine_outside .abort line s
  | cancelLineFinish _ line => exact takeCancelLine_outside .finish line s
  | _ =>
    simp only [takeCommand, takePing, takeSetLinkRate, takeSetSupervision, takeListSchedule, takeSetSchedule,
      takeSetOutput, takeSetLevel, takeTrainLoad, takeTrainStart, takeTrainStop, takeSetTravelSource, takeSetSync,
      takeArmSync, takeSetInput, takeReadJournal, takeSetJournal, takeEditRule, takeReadRule, takeReadRuleStats,
      takeCommitRules, takeSetReporting, takeClearFaults, takeSetFaultMasks]
    repeat' split
    all_goals rfl

theorem takePayload_outside (tag : Tag) (p : List Byte) (s : State) : (takePayload tag p s).1.outside = s.outside := by
  unfold takePayload
  split
  · rfl
  · rfl
  · rfl
  · exact takeCommand_outside _ s

/-! ## Frames and characters -/

theorem frameArrived_outside (s : State) : (frameArrived s).outside = s.outside := by
  rw [frameArrived_eq, restartSilence_eq]
  rfl

theorem frameBroughtIn_outside (n : Nat) (s : State) : (frameBroughtIn n s).outside = s.outside :=
  (broughtIn_linkWork _ s).outside

theorem putRequest_outside {take : State → State × Reply} (ht : ∀ u, (take u).1.outside = u.outside) (tag : Tag)
    (code : Option Byte) (s : State) : (putRequest tag code take s).outside = s.outside := by
  have hgive : (giveWay s).outside = s.outside := (giveWay_onlySends s).outside
  unfold putRequest
  split
  · rfl
  · split
    · exact countFault_outside _ _ _
    · split
      · exact countFault_outside _ _ _
      · split
        · exact hgive
        · exact (ht _).trans hgive

theorem takeAck_outside (q : Seq) (s : State) : (takeAck q s).outside = s.outside := by
  unfold takeAck
  split
  · rfl
  · exact countFault_outside _ _ _

theorem dropFrame_outside (k : FaultKind) (s : State) : (dropFrame k s).outside = s.outside := countFault_outside _ _ _

theorem handOn_outside (bytes : List Byte) (s : State) : (handOn bytes s).outside = s.outside := by
  unfold handOn
  dsimp only
  split
  · rw [takeAck_outside, frameArrived_outside]
  · rw [putRequest_outside (takePayload_outside _ _), frameArrived_outside]

theorem gatherHeader_outside (bytes : List Byte) (s : State) : (gatherHeader bytes s).outside = s.outside := by
  unfold gatherHeader
  dsimp only
  split
  · exact dropFrame_outside _ s
  · split
    · rfl
    · split
      · exact dropFrame_outside _ s
      · rfl

theorem gatherCrc_outside (bytes : List Byte) (s : State) : (gatherCrc bytes s).outside = s.outside := by
  unfold gatherCrc
  dsimp only
  split
  · rfl
  · split
    · exact handOn_outside bytes s
    · exact dropFrame_outside _ s

theorem receiveChar_outside (c : RxChar) (s : State) : (receiveChar c s).outside = s.outside := by
  unfold receiveChar
  dsimp only
  split
  · split <;> rfl
  · split
    · exact dropFrame_outside _ _
    · exact gatherHeader_outside _ _
  · split
    · exact dropFrame_outside _ _
    · rfl
  · split
    · exact dropFrame_outside _ _
    · exact gatherCrc_outside _ _

theorem clockPeriod_outside (v : Level) (first : Bool) (s : State) : (clockPeriod v first s).outside = s.outside := by
  have hout : (clockOut s).outside = s.outside := (settle_linkWork s).outside
  unfold clockPeriod
  dsimp only
  split
  · rw [receiveChar_outside]
    split
    · exact (settle_linkWork _).outside.trans hout
    · exact hout
  · exact hout

theorem receiveEvent_outside (x : LinkEvent) (s : State) : (receiveEvent x s).outside = s.outside := by
  unfold receiveEvent
  split
  · rw [receiveChar_outside, (broughtIn_linkWork _ s).outside]
  · rfl
  · rfl
  · split
    · exact clockPeriod_outside _ _ s
    · rfl

theorem receiveAll_outside (xs : List LinkEvent) (s : State) : (receiveAll xs s).outside = s.outside := by
  induction xs generalizing s with
  | nil => rfl
  | cons x xs ih => rw [receiveAll_cons, ih, arbitrate_outside, receiveEvent_outside]

theorem deassertCsn_outside (s : State) : (deassertCsn s).outside = s.outside := by
  unfold deassertCsn
  split
  · rfl
  · exact (breakOff_linkWork _).outside

theorem expireInterval_outside (q : Seq) (s : State) : (expireInterval q s).outside = s.outside := by
  unfold expireInterval
  split
  · rfl
  · split
    · rfl
    · exact countFault_outside _ _ _

theorem completion_outside (s : State) : (arbitrate (completeTransmission s)).firm.outside = s.outside :=
  (arbitrate_outside _).trans (completeTransmission_linkWork s).outside

/-! ## Every command -/

/-- The outcome of a command in `s`: a next state, with queue, count of choices and hold as in `s`, which is `s` itself while
the part is held. -/
def Completed (s : State) (o : Host.Outcome State Fault Refusal) : Prop :=
  ∃ t, o = .next t ∧ t.pending = s.pending ∧ t.choices = s.choices ∧ t.held = s.held ∧ (s.held = true → t = s)

theorem completed_unless_held {o : Host.Outcome State Fault Refusal} (ho : o = .next t) (ht : t.outside = s.outside) :
    Completed s (if s.held then .next s else o) := by
  obtain ⟨hp, hc, hh⟩ := outside_eq_iff.mp ht
  split
  · exact ⟨s, rfl, rfl, rfl, rfl, fun _ => rfl⟩
  · rename_i hn
    exact ⟨t, ho, hp, hc, hh, fun h => absurd h hn⟩

theorem requestFrame_completed {take : State → State × Reply} (ht : ∀ u, (take u).1.outside = u.outside) (tag : Tag)
    (n : Nat) (code : Option Byte) (s : State) : Completed s (requestFrame tag n code take s) :=
  completed_unless_held rfl <| by
    rw [arbitrate_outside, putRequest_outside ht, frameArrived_outside, frameBroughtIn_outside]

/-- An event of the part's own comes about at its moment, or not at all. -/
theorem whenDue_completed {event : State → State} (he : ∀ u, (event u).outside = u.outside) (due : Option Nat) (s : State) :
    Completed s (whenDue due event s) := by
  unfold whenDue
  cases due with
  | none => exact completed_unless_held rfl rfl
  | some n =>
    dsimp only
    split
    · exact ⟨s, rfl, rfl, rfl, rfl, fun _ => rfl⟩
    · rename_i hn
      split
      · have := completed_unless_held (s := s) rfl ((arbitrate_outside _).trans (he (elapse n s)))
        rwa [if_neg hn] at this
      · exact ⟨s, rfl, rfl, rfl, rfl, fun _ => rfl⟩

theorem atOnce_completed {event : State → State} (he : (event s).outside = s.outside) : Completed s (atOnce event s) :=
  completed_unless_held rfl ((arbitrate_outside _).trans he)

/-- The raw change of a pin: a held part follows it to `u`, and else it is an event that comes about or not. -/
theorem rawChange_completed {event : State → State} (he : ∀ v, (event v).outside = v.outside) (due : Option Nat) {u : State}
    (hu : u.outside = s.outside) : ∃ t, (if s.held then .next u else whenDue due event s) = .next t
      ∧ t.pending = s.pending ∧ t.choices = s.choices ∧ t.held = s.held ∧ (s.held = true → t = u) := by
  split
  · obtain ⟨hp, hc, hh⟩ := outside_eq_iff.mp hu
    exact ⟨u, rfl, hp, hc, hh, fun _ => rfl⟩
  · rename_i hn
    obtain ⟨t, ht, hp, hc, hh, -⟩ := whenDue_completed he due s
    exact ⟨t, ht, hp, hc, hh, fun h => absurd h hn⟩

/-- A request command completes as its frame does. -/
theorem request_completed {i : Instr} {p : Tag × List Byte} (h : encodeRequest i = some p) (s : State) :
    Completed s (exec i s) := by
  rw [exec_taken h]
  exact requestFrame_completed (takeCommand_outside i) _ _ _ s

end Sys2Proof.Machine

open Sys2Proof.Machine in
/-- Settles O3: a request completes as its frame arrives, an event as it comes about or not at all, and none of them touches
what is outside the part's blocks; a reset begins and ends the hold, and held in reset the part follows its pins alone. -/
theorem everyCommandCompletes : Obligations.EveryCommandCompletes := by
  unfold Obligations.EveryCommandCompletes
  intro i s
  cases i with
  | fullReset cause v =>
    have hout := (arbitrate_outside (createReport (.resetDone (resetCauseOf cause)) (resetBlocks v s))).trans
      (createReport_outside _ _)
    obtain ⟨hp, hc, hh⟩ := outside_eq_iff.mp hout
    exact ⟨_, rfl, hp, hc, hh, fun _ => trivial⟩
  | resetnDrivenLow => exact ⟨_, rfl, rfl, rfl, rfl, fun _ => trivial⟩
  | inputRawChange l v => exact rawChange_completed (sampleInput_outside l v) _ rfl
  | syncRawChange v => exact rawChange_completed (sampleSync_outside v) _ rfl
  | unknownRequest tag p => exact requestFrame_completed (takePayload_outside tag p) _ _ _ s
  | ack q =>
    refine atOnce_completed (event := fun u => takeAck q (frameArrived (frameBroughtIn 0 u))) ?_
    rw [takeAck_outside, frameArrived_outside, frameBroughtIn_outside]
  | badFrame received => exact completed_unless_held rfl (receiveAll_outside received s)
  | gapTimerExpiry => exact whenDue_completed (dropFrame_outside _) _ s
  | csnDeassert => exact atOnce_completed (deassertCsn_outside s)
  | transmitComplete => exact whenDue_completed completion_outside _ s
  | retryIntervalExpiry q => exact whenDue_completed (expireInterval_outside q) _ s
  | silenceTimerExpiry => exact whenDue_completed (event := expireSilence) (fun _ => countFault_outside _ _ _) _ s
  | timeListExpiry => exact whenDue_completed (event := expireTimeList) (fun _ => (expireLists_onlyWork _ _ _).outside) _ s
  | trainHighTimeEnd l => exact whenDue_completed (event := endHigh l) (fun _ => rfl) _ s
  | trainPeriodEnd l => exact whenDue_completed (endPeriod_outside l) _ s
  | inputEdgeAccepted l => exact whenDue_completed (acceptEdge_outside l) _ s
  | syncEdgeAccepted => exact whenDue_completed acceptSync_outside _ s
  | _ => exact request_completed rfl s

end

