-- ==== Sys2Proof/Proofs/LinkRequests.lean ====
section
/-! PROOFS. The requests of the Host Link itself, PING, GET_IDENTITY and SET_LINK_RATE (R146 to R148), and the requests that
are not put into the window as new entries (R139, R143, R149). -/

namespace Sys2Proof.Machine

variable {s : State} {tag : Tag} {code : Option Byte} {rate : BitVec 32}

/-! ## The five rates (R148) -/

theorem linkRateOf_baud {r : LinkRate} (h : rate.toNat = r.baud) : linkRateOf rate = some r := by
  obtain rfl : rate = BitVec.ofNat 32 r.baud := by rw [← h, BitVec.ofNat_toNat, BitVec.setWidth_eq]
  cases r <;> rfl

theorem baud_of_linkRateOf {r : LinkRate} (h : linkRateOf rate = some r) : rate.toNat = r.baud := by
  unfold linkRateOf at h
  split_ifs at h <;> cases h <;> subst rate <;> rfl

theorem linkRateOf_other (h : ∀ r : LinkRate, rate.toNat ≠ r.baud) : linkRateOf rate = none :=
  Option.eq_none_iff_forall_ne_some.mpr fun r hr => h r (baud_of_linkRateOf hr)

theorem takeSetLinkRate_rate {r : LinkRate} (hl : s.link.linkType = .uart) (hr : rate.toNat = r.baud) :
    takeSetLinkRate rate s = (s, ⟨.ok, leBytes 4 rate.toNat, .changeRate r⟩) := by
  unfold takeSetLinkRate
  rw [hl, linkRateOf_baud hr]

theorem takeSetLinkRate_badValue (h : s.link.linkType = .spi ∨ ∀ r : LinkRate, rate.toNat ≠ r.baud) :
    takeSetLinkRate rate s = (s, reply .badValue) := by
  unfold takeSetLinkRate
  rcases h with hl | hr
  · rw [hl]
  · rw [linkRateOf_other hr]
    cases s.link.linkType <;> rfl

/-! ## The checks of R139 in their order -/

/-- A request whose tag is in the window is dropped, and nothing is counted (R139 check 1). -/
theorem putRequest_duplicate (take : State → State × Reply) (ht : tag ≠ 0) (hw : ∃ e ∈ s.link.window, e.tag = tag) :
    putRequest tag code take s = s :=
  if_pos ⟨ht, by simpa using hw⟩

/-- A request of tag 0, or whose tag is not in the window, passes check 1. -/
theorem not_duplicate {l : List WindowEntry} (hw : tag = 0 ∨ ∀ e ∈ l, e.tag ≠ tag) :
    ¬ (tag ≠ 0 ∧ l.any (fun e => e.tag = tag) = true) := by
  rintro ⟨ht, hany⟩
  obtain ⟨e, he, heq⟩ := List.any_eq_true.mp hany
  rcases hw with h | h
  · exact ht h
  · exact h e he (by simpa using heq)

/-- A request that finds the window full, or a RESTART that awaits its response, is dropped and counted (R139 check 2,
R149). -/
theorem putRequest_overflow (take : State → State × Reply) (hw : tag = 0 ∨ ∀ e ∈ s.link.window, e.tag ≠ tag)
    (hf : s.link.restarting = true ∨ 4 ≤ s.link.window.length) :
    putRequest tag code take s = countFault .inboundOverflow none s := by
  unfold putRequest
  rw [if_neg (not_duplicate hw)]
  rcases hf with hf | hf
  · rw [if_pos hf]
  · rw [if_pos (show Config.windowCap ≤ s.link.window.length from hf), ite_self]

/-- A stored response of the request's tag and code, no earlier one having the tag, is the one that it repeats. -/
theorem matchRecent_first {pre post : List RecentEntry} {e : RecentEntry} (ht : tag ≠ 0) (hpre : ∀ x ∈ pre, x.tag ≠ tag)
    (he : e.tag = tag) (hc : e.code = code) (hsome : code ≠ none) :
    matchRecent tag code (pre ++ e :: post) = some e := by
  have hp : pre.find? (fun x => x.tag = tag ∧ x.code = code) = none :=
    List.find?_eq_none.mpr fun x hx => by simp [hpre x hx]
  unfold matchRecent
  rw [if_neg (not_or.mpr ⟨ht, hsome⟩), List.find?_append, hp]
  simp [he, hc]

/-- A request that repeats a stored response puts it into the window again (R139 check 3). -/
theorem putRequest_replay (take : State → State × Reply) {e : RecentEntry} (hw : ∀ x ∈ s.link.window, x.tag ≠ tag)
    (hre : s.link.restarting = false) (hlen : s.link.window.length < 4) (hm : matchRecent tag code s.link.recent = some e) :
    putRequest tag code take s = (giveWay s).withLink { (giveWay s).link with
      window := s.link.window ++ [⟨tag, code, .replayed, e.response, .nothing, true⟩] } := by
  unfold putRequest
  rw [if_neg (not_duplicate (.inr hw)), hre, if_neg Bool.false_ne_true,
    if_neg (show ¬ Config.windowCap ≤ s.link.window.length from Nat.not_le.mpr hlen)]
  simp only [hm]

/-! ## A frame has been heard -/

theorem frameArrived_window (s : State) : (frameArrived s).link.window = s.link.window := by
  rw [frameArrived_eq]
  rfl

theorem frameArrived_recent (s : State) : (frameArrived s).link.recent = s.link.recent := by
  rw [frameArrived_eq]
  rfl

theorem frameArrived_restarting (s : State) : (frameArrived s).link.restarting = s.link.restarting := by
  unfold HostLink.restarting
  rw [frameArrived_window]

theorem giveWay_restarting (s : State) : (giveWay s).link.restarting = s.link.restarting := by
  unfold HostLink.restarting
  rw [giveWay_window]

/-- A request command on a part that is not in reset. -/
theorem exec_request_arrived {i : Instr} {p : List Byte} (h : encodeRequest i = some (tag, p)) (hh : s.held = false) :
    exec i s = .next (arbitrate (putRequest tag p.head? (takeCommand i) (frameArrived (s.atLastBit i)))) := by
  rw [exec_taken h]
  unfold requestFrame State.atLastBit
  rw [if_neg (by simp [hh]), frameLength_request h]

/-- A request names its code. -/
theorem encodeRequest_head {i : Instr} {p : List Byte} (h : encodeRequest i = some (tag, p)) : p.head? ≠ none := by
  cases i <;> simp only [encodeRequest, Option.some.injEq, Prod.mk.injEq, reduceCtorEq] at h <;>
    obtain ⟨rfl, rfl⟩ := h <;> simp

end Sys2Proof.Machine

open Sys2Proof Sys2Proof.Machine in
/-- Settles O22: PING changes nothing, and up to 16 bytes come back. -/
theorem pingEchoes : Obligations.PingEchoes := by
  unfold Obligations.PingEchoes
  intro s tag data h
  exact ⟨fun hd => answers_unchanged (i := .ping tag data) rfl rfl h (if_pos hd),
    fun hd => answers_unchanged (i := .ping tag data) (r := reply .badLength) rfl rfl h (if_neg (Nat.not_le.mpr hd))⟩

open Sys2Proof Sys2Proof.Machine in
/-- Settles O23: GET_IDENTITY changes nothing, and its answer is the same in every state. -/
theorem getIdentityAnswers : Obligations.GetIdentityAnswers := by
  unfold Obligations.GetIdentityAnswers
  intro s tag h
  exact answers_unchanged (i := .getIdentity tag) (r := replyOk identityBytes) rfl rfl h rfl

open Sys2Proof Sys2Proof.Machine in
/-- Settles O24: SET_LINK_RATE changes nothing at the taking; its answer goes by the link type and by the rate. -/
theorem setLinkRateAnswers : Obligations.SetLinkRateAnswers := by
  unfold Obligations.SetLinkRateAnswers
  intro s tag rate h
  refine ⟨fun r hl hr => ?_, fun hbad => ?_⟩
  · exact answers_unchanged (i := .setLinkRate tag rate) rfl rfl h
      (takeSetLinkRate_rate (by rwa [taking_linkType]) hr)
  · exact answers_unchanged (i := .setLinkRate tag rate) (r := reply .badValue) rfl rfl h
      (takeSetLinkRate_badValue (by rwa [taking_linkType]))

open Sys2Proof Sys2Proof.Machine in
/-- Settles O20: the three outcomes are those of the checks of R139 in order, each of the part as the frame's arrival leaves
it. -/
theorem requestsNotAdmitted : Obligations.RequestsNotAdmitted := by
  unfold Obligations.RequestsNotAdmitted
  intro i tag p s he hh
  have hexec : ∀ s0 : State, (s0.atLastBit i).held = false → exec i s0
      = .next (arbitrate (putRequest tag p.head? (takeCommand i) (frameArrived (s0.atLastBit i)))) := fun s0 h0 =>
    exec_request_arrived he (by rwa [State.atLastBit, frameBroughtIn_held] at h0)
  refine ⟨fun ht hw => arrives_of fun s0 hs => ?_, fun hw hf => arrives_of fun s0 hs => ?_,
    fun pre e post ht hw hre hlen hrec hpre htag hcode => completes_of fun s0 hs => ?_⟩
  · obtain rfl : s0.atLastBit i = s := hs
    rw [hexec s0 hh, putRequest_duplicate _ ht (by rwa [frameArrived_window])]
  · obtain rfl : s0.atLastBit i = s := hs
    rw [hexec s0 hh, putRequest_overflow _ (by rwa [frameArrived_window])
      (by rwa [frameArrived_window, frameArrived_restarting])]
  · obtain rfl : giveWay (s0.atLastBit i) = s := hs
    simp only [giveWay_window, giveWay_recent, giveWay_restarting, giveWay_held] at hw hre hlen hrec hh
    have hm : matchRecent tag p.head? (frameArrived (s0.atLastBit i)).link.recent = some e := by
      rw [frameArrived_recent, hrec]
      exact matchRecent_first ht hpre htag hcode (encodeRequest_head he)
    rw [hexec s0 hh, putRequest_replay _ (by rwa [frameArrived_window]) (by rwa [frameArrived_restarting])
      (by rwa [frameArrived_window]) hm, giveWay_frameArrived, frameArrived_window, giveWay_window]

end

