-- ==== Sys2Proof/Proofs/Arbiter.lean ====
section
/-! PROOFS. The transmit arbiter: what it chooses and in which order, that a report which gives way leaves the part as it was
before the choice, and the frame of a report field by field (R134, R144, R153 to R155, R159, R160, R163, 10.2, 10.8). -/

namespace Sys2Proof.Machine

variable {s : State} {l : List Report} {r : Report} {q : Seq} {n clock : Nat}

/-! ## The arbiter's choice (R144) -/

theorem arbitrate_response {e : WindowEntry} {w : List WindowEntry} (ht : s.link.tx = none)
    (hw : takeResponse s.link.window = some (e, w)) :
    arbitrate s = startTx (responseFrame e) none (s.withLink { s.link with window := w }) := by
  unfold arbitrate
  simp only [ht, hw]

theorem arbitrate_retry (ht : s.link.tx = none) (hw : takeResponse s.link.window = none)
    (hr : nextRetry s.clock s.reports.flight = some r) : arbitrate s = sendRetry r s := by
  unfold arbitrate
  simp only [ht, hw, hr]

theorem arbitrate_first {rest : List Report} (ht : s.link.tx = none) (hw : takeResponse s.link.window = none)
    (hr : nextRetry s.clock s.reports.flight = none) (hq : s.reports.queue = r :: rest)
    (hf : s.reports.flight.length < 4) : arbitrate s = sendFirst r rest s := by
  unfold arbitrate
  simp only [ht, hw, hr, hq]
  exact if_pos hf

theorem arbitrate_nothing (ht : s.link.tx = none) (hw : takeResponse s.link.window = none)
    (hr : nextRetry s.clock s.reports.flight = none) (hq : s.reports.queue = [] ∨ 4 ≤ s.reports.flight.length) :
    arbitrate s = s := by
  unfold arbitrate
  simp only [ht, hw, hr]
  cases hs : s.reports.queue with
  | nil => rfl
  | cons r rest =>
    rcases hq with hq | hq
    · rw [hs] at hq
      cases hq
    · exact if_neg (Nat.not_lt.mpr hq)

/-- With every response of the window in transmission, an idle transmitter is given the next retry, or the head of the queue,
or nothing. -/
theorem arbitrate_reports (ht : s.link.tx = none) (hw : takeResponse s.link.window = none) :
    (∃ r, nextRetry s.clock s.reports.flight = some r ∧ arbitrate s = sendRetry r s)
      ∨ (∃ r rest, nextRetry s.clock s.reports.flight = none ∧ s.reports.queue = r :: rest
        ∧ arbitrate s = sendFirst r rest s)
      ∨ arbitrate s = s := by
  cases hr : nextRetry s.clock s.reports.flight with
  | some r => exact .inl ⟨r, rfl, arbitrate_retry ht hw hr⟩
  | none =>
    cases hq : s.reports.queue with
    | nil => exact .inr (.inr (arbitrate_nothing ht hw hr (.inl hq)))
    | cons r rest =>
      by_cases hf : s.reports.flight.length < 4
      · exact .inr (.inl ⟨r, rest, rfl, rfl, arbitrate_first ht hw hr hq hf⟩)
      · exact .inr (.inr (arbitrate_nothing ht hw hr (.inr (Nat.not_lt.mp hf))))

/-- The arbiter has nothing to choose in a part that differs from one where it has nothing in neither the window, nor the
reports, nor the clock, nor in whether it transmits. -/
theorem arbitrate_stays {t : State} (h : arbitrate s = s) (htx : t.link.tx.isSome = s.link.tx.isSome)
    (hw : t.link.window = s.link.window) (hc : t.clock = s.clock) (hr : t.reports = s.reports) : arbitrate t = t := by
  cases hs : s.link.tx with
  | some x =>
    obtain ⟨y, hy⟩ := Option.isSome_iff_exists.mp (htx.trans (by rw [hs]; rfl))
    exact arbitrate_transmitting hy
  | none =>
    have ht : t.link.tx = none := by simpa [hs] using htx
    have hsame : (arbitrate t).link.tx = (arbitrate s).link.tx := by
      unfold arbitrate
      simp only [hs, ht, hw, hc, hr]
      split
      · exact congrArg (fun c => some (⟨_, c, 0, _⟩ : Transmission)) hc
      · split
        · exact congrArg (fun c => some (⟨_, c, 0, _⟩ : Transmission)) hc
        · split
          · rw [hs, ht]
          · split
            · simp only [sendFirst, startTx, State.withLink_link, State.withReports_clock, hc, hr]
            · rw [hs, ht]
    exact arbitrate_of_idle (by rw [hsame, h, hs])

/-! ## The retry that is taken (R162, R163) -/

/-- A retry due before every one ahead of it, and not after any behind it, is the first. -/
theorem firstDueRetry_first {pre post : List Report} (hr : r.dueAt = some n)
    (hpre : ∀ x ∈ pre, ∀ m, x.dueAt = some m → n < m) (hpost : ∀ x ∈ post, ∀ m, x.dueAt = some m → n ≤ m) :
    firstDueRetry (pre ++ r :: post) = some r := by
  induction pre with
  | nil =>
    rw [List.nil_append]
    unfold firstDueRetry
    cases hp : firstDueRetry post with
    | none => simp only [hr]
    | some x =>
      obtain ⟨hx, m, hm⟩ := firstDueRetry_mem hp
      simp only [hr, hm, Option.getD_some]
      exact if_pos (hpost x hx m hm)
  | cons x xs ih =>
    have hxs := ih fun y hy => hpre y (List.mem_cons_of_mem _ hy)
    rw [List.cons_append]
    unfold firstDueRetry
    rw [hxs]
    cases hx : x.dueAt with
    | none => rfl
    | some m =>
      simp only [hr, Option.getD_some]
      exact if_neg (Nat.not_le.mpr (hpre x List.mem_cons_self m hx))

/-- Where one retry is due at `n`, and none before, the first is due at `n`. -/
theorem firstDueRetry_least (h : ∃ x ∈ l, x.dueAt = some n) (hl : ∀ x ∈ l, ∀ m, x.dueAt = some m → n ≤ m) :
    ∃ x, firstDueRetry l = some x ∧ x.dueAt = some n := by
  have hfind : (l.find? (fun x => x.dueAt = some n)).isSome := by simpa using h
  obtain ⟨x, hx⟩ := Option.isSome_iff_exists.mp hfind
  obtain ⟨hdue, pre, post, rfl, hpre⟩ := List.find?_eq_some_iff_append.mp hx
  refine ⟨x, firstDueRetry_first (by simpa using hdue) (fun y hy m hm => ?_) (fun y hy m hm => ?_), by simpa using hdue⟩
  · refine lt_of_le_of_ne (hl y (List.mem_append_left _ hy) m hm) ?_
    rintro rfl
    simpa [hm] using hpre y hy
  · exact hl y (List.mem_append_right _ (List.mem_cons_of_mem _ hy)) m hm

/-- The interval of a report runs out at this instant with a retry left. -/
theorem fallsDue_iff (clock : Nat) (x : Report) : x.fallsDue clock = true ↔ ∃ since ms limit, x.state = .awaiting since ms
    ∧ x.retryLimit = some limit ∧ ms * 50000 ≤ clock - since ∧ x.retryCount < limit := by
  unfold Report.fallsDue Report.intervalLeft msLeft Config.ticksPerMs
  cases hs : x.state with
  | awaiting since ms =>
    cases hl : x.retryLimit with
    | none => simp
    | some limit => simp [Nat.sub_eq_zero_iff_le]
  | _ => simp

theorem not_fallsDue {x : Report} (h : ∀ since ms limit, x.state = .awaiting since ms → x.retryLimit = some limit →
    clock - since < ms * 50000 ∨ limit ≤ x.retryCount) : x.fallsDue clock = false := by
  by_contra hx
  obtain ⟨since, ms, limit, hs, hl, hle, hlt⟩ := (fallsDue_iff clock x).mp (by simpa using hx)
  rcases h since ms limit hs hl with h | h <;> omega

/-- The due retry of the earliest expiry, the oldest of its instant, is taken, where no older report's interval runs out at
this very instant. -/
theorem nextRetry_due {pre post : List Report} (hr : r.dueAt = some n)
    (hd : n = clock → ∀ x ∈ pre, x.fallsDue clock = false) (hpre : ∀ x ∈ pre, ∀ m, x.dueAt = some m → n < m)
    (hpost : ∀ x ∈ post, ∀ m, x.dueAt = some m → n ≤ m) : nextRetry clock (pre ++ r :: post) = some r := by
  have hfirst := firstDueRetry_first hr hpre hpost
  by_cases hn : n = clock
  · subst hn
    exact nextRetry_tied hfirst hr (fun x hx => ⟨fun h => Nat.lt_irrefl _ (hpre x hx _ h), hd rfl x hx⟩) (.inl hr)
  · exact nextRetry_earlier hfirst (by rw [hr]; simpa using hn)

/-- A report whose interval runs out at this instant is taken before the younger ones that are due at it. -/
theorem nextRetry_falling {pre post : List Report} (hr : r.fallsDue clock = true) (hn : r.dueAt = none)
    (hy : ∃ y ∈ post, y.dueAt = some clock) (hd : ∀ x ∈ pre, x.fallsDue clock = false)
    (hpre : ∀ x ∈ pre, ∀ m, x.dueAt = some m → clock < m) (hpost : ∀ x ∈ post, ∀ m, x.dueAt = some m → clock ≤ m) :
    nextRetry clock (pre ++ r :: post) = some r := by
  obtain ⟨y, hy, hdue⟩ := hy
  obtain ⟨x, hfirst, hx⟩ := firstDueRetry_least (l := pre ++ r :: post)
    ⟨y, List.mem_append_right _ (List.mem_cons_of_mem _ hy), hdue⟩ fun z hz m hm => by
      rcases List.mem_append.mp hz with hz | hz
      · exact (hpre z hz m hm).le
      · rcases List.mem_cons.mp hz with rfl | hz
        · rw [hn] at hm
          cases hm
        · exact hpost z hz m hm
  exact nextRetry_tied hfirst hx (fun x hx => ⟨fun h => Nat.lt_irrefl _ (hpre x hx _ h), hd x hx⟩) (.inr hr)

/-- The next retry is one of the window. -/
theorem nextRetry_mem (h : nextRetry clock l = some r) : r ∈ l := by
  unfold nextRetry at h
  obtain ⟨x, hx, rfl⟩ := Option.map_eq_some_iff.mp h
  split
  · cases hf : l.find? (fun x => decide (x.dueAt = some clock) || x.fallsDue clock) with
    | none => exact (firstDueRetry_mem hx).1
    | some y => exact List.mem_of_find?_eq_some hf
  · exact (firstDueRetry_mem hx).1

/-! ## What gives way stands where it stood (R144, log entry 30) -/

theorem fileBy_head {rest : List Report} (h : (r :: rest).Pairwise (fun x y => x.before y = true)) :
    fileBy Report.before r rest = r :: rest :=
  fileBy_first (List.pairwise_cons.mp h).1

/-- A report replaced by one of its number, and put back, where each number stands once. -/
theorem replaceReport_back {x : Report} (hr : r ∈ l) (hl : (l.map Report.seq).Nodup) (hq : r.seq = some q)
    (hx : x.seq = some q) : replaceReport (some q) r (replaceReport (some q) x l) = l := by
  obtain ⟨pre, post, rfl⟩ := List.append_of_mem hr
  rw [List.map_append, List.map_cons, List.nodup_middle, List.nodup_cons, ← List.map_append, hq] at hl
  have hn : ∀ y ∈ pre ++ post, y.seq ≠ some q := fun y hy he => hl.1 (List.mem_map.mpr ⟨y, hy, he⟩)
  rw [replaceReport_seq x hq hn, replaceReport_seq r hx hn]

/-- A retry that was just chosen gives way, and is due again. -/
theorem giveWay_sendRetry (ht : s.link.tx = none) (hr : r ∈ s.reports.flight)
    (hn : (s.reports.flight.map Report.seq).Nodup) (hq : r.seq ≠ none) : giveWay (sendRetry r s) = s := by
  obtain ⟨q, hq⟩ := Option.ne_none_iff_exists'.mp hq
  have htag : r.seq.getD 0 = q := by rw [hq, Option.getD_some]
  have hin : (ReportUnit.inFlight (sendRetry r s).reports q).isSome := by
    refine List.find?_isSome.mpr ⟨{ r with retryCount := r.retryCount + 1, state := .sending }, ?_, by simpa using hq⟩
    exact List.mem_map.mpr ⟨r, hr, if_pos rfl⟩
  have hy : (sendRetry r s).yielding = some (q, r) := yielding_eq_some.mpr ⟨_, rfl, htag, rfl, rfl, rfl, hin⟩
  have hsent : (sendRetry r s).reports.flight = replaceReport (some q)
      { r with retryCount := r.retryCount + 1, state := .sending } s.reports.flight := by
    rw [← hq]
    rfl
  have hback : replaceReport (some q) r (sendRetry r s).reports.flight = s.reports.flight := by
    rw [hsent]
    exact replaceReport_back hr hn hq hq
  rw [giveWay_yielding hy, unchosen_retry _ _ hq, hback]
  show { s with link := { s.link with tx := none } } = s
  rw [← ht]

/-- The head of the queue that was just chosen gives way, and stands at the head again. -/
theorem giveWay_sendFirst {rest : List Report} (ht : s.link.tx = none) (hs : s.reports.queue = r :: rest)
    (ho : QueueOrdered s.reports) (hq : r.seq = none) (hn : ∀ x ∈ s.reports.flight, x.seq ≠ some s.reports.nextSeq) :
    giveWay (sendFirst r rest s) = s := by
  have hin : (ReportUnit.inFlight (sendFirst r rest s).reports s.reports.nextSeq).isSome :=
    List.find?_isSome.mpr ⟨_, List.mem_append_right _ (List.mem_singleton_self _), by simp⟩
  have hy : (sendFirst r rest s).yielding = some (s.reports.nextSeq, r) :=
    yielding_eq_some.mpr ⟨_, rfl, rfl, rfl, rfl, rfl, hin⟩
  have hqueue : fileBy Report.before r rest = s.reports.queue := by
    rw [fileBy_head (hs ▸ ho.inOrder), hs]
  have hflight : (sendFirst r rest s).reports.flight.filter (fun x => x.seq ≠ some s.reports.nextSeq)
      = s.reports.flight := by
    show (s.reports.flight ++ [_]).filter _ = _
    rw [List.filter_append, List.filter_eq_self.mpr fun x hx => by simpa using hn x hx]
    simp
  rw [giveWay_yielding hy, unchosen_first _ _ hq, hflight]
  show { s with link := { s.link with tx := none }, reports := { s.reports with queue := fileBy Report.before r rest } } = s
  rw [hqueue, ← ht]

/-- A report chosen for an idle transmitter leaves, when it gives way, the part as it was before the choice. -/
theorem giveWay_arbitrate (ht : s.link.tx = none) (hw : ∀ e ∈ s.link.window, e.state = .sending)
    (ho : QueueOrdered s.reports) (hn : (s.reports.flight.map Report.seq).Nodup)
    (hf : ∀ x ∈ s.reports.flight, x.seq ≠ none ∧ x.seq ≠ some s.reports.nextSeq)
    (hq : ∀ r ∈ s.reports.queue, r.seq = none) : giveWay (arbitrate s) = s := by
  rcases arbitrate_reports ht (takeResponse_none hw) with ⟨r, hr, h⟩ | ⟨r, rest, -, hs, h⟩ | h
  · have hmem := nextRetry_mem hr
    rw [h, giveWay_sendRetry ht hmem hn (hf r hmem).1]
  · rw [h, giveWay_sendFirst ht hs ho (hq r (hs ▸ List.mem_cons_self)) fun x hx => (hf x hx).2]
  · rw [h, giveWay_idle ht]

/-- Choosing a report leaves of the Host Link all but the transmitter. -/
theorem arbitrate_report_link (ht : s.link.tx = none) (hw : ∀ e ∈ s.link.window, e.state = .sending) :
    (arbitrate s).link = { s.link with tx := (arbitrate s).link.tx } := by
  rcases arbitrate_reports ht (takeResponse_none hw) with ⟨r, -, h⟩ | ⟨r, rest, -, -, h⟩ | h <;> rw [h] <;> rfl

/-- An admitted request comes to the same from two parts that differ in a report that gives way alone. -/
theorem putRequest_congr {t : State} {tag : Tag} {code : Option Byte} (take : State → State × Reply)
    (hw : tag = 0 ∨ ∀ e ∈ s.link.window, e.tag ≠ tag) (hre : s.link.restarting = false) (hlen : s.link.window.length < 4)
    (hl : t.link = { s.link with tx := t.link.tx }) (hg : giveWay t = giveWay s) :
    putRequest tag code take t = putRequest tag code take s := by
  have hwin : t.link.window = s.link.window := by rw [hl]
  have hrec : t.link.recent = s.link.recent := by rw [hl]
  have hret : t.link.restarting = false := by rw [hl]; exact hre
  have hcap : ¬ Config.windowCap ≤ s.link.window.length := Nat.not_le.mpr hlen
  unfold putRequest
  rw [hwin, hrec, hg, hret, hre, if_neg (not_duplicate hw), if_neg (not_duplicate hw), if_neg Bool.false_ne_true,
    if_neg Bool.false_ne_true, if_neg hcap, if_neg hcap]

/-- What a request that enters the window comes to is the same where a report is chosen just before it. -/
theorem exec_request_after_choice {i : Instr} {tag : Tag} {p : List Byte} {s0 s1 : State}
    (he : encodeRequest i = some (tag, p)) (ht : s.link.tx = none) (hwin : ∀ e ∈ s.link.window, e.state = .sending)
    (hg : giveWay (arbitrate s) = s) (hh : s.held = false) (hw : tag = 0 ∨ ∀ e ∈ s.link.window, e.tag ≠ tag)
    (hre : s.link.restarting = false) (hlen : s.link.window.length < 4) (h0 : s0.atLastBit i = s)
    (h1 : s1.atLastBit i = arbitrate s) : exec i s1 = exec i s0 := by
  have hh0 : s0.held = false := by rw [← frameBroughtIn_held (frameLength i) s0, ← hh, ← h0]; rfl
  have hh1 : s1.held = false := by
    rw [← frameBroughtIn_held (frameLength i) s1, ← hh, ← arbitrate_held s, ← h1]; rfl
  have hlink : (frameArrived (arbitrate s)).link
      = { (frameArrived s).link with tx := (frameArrived (arbitrate s)).link.tx } := by
    rw [frameArrived_eq, frameArrived_eq]
    show { (arbitrate s).link with assembler := Assembler.hunting, byteStarted := false } = _
    rw [arbitrate_report_link ht hwin]
    rfl
  have hgive : giveWay (frameArrived (arbitrate s)) = giveWay (frameArrived s) := by
    rw [giveWay_frameArrived, giveWay_frameArrived, hg, giveWay_idle ht]
  rw [exec_request_arrived he hh1, exec_request_arrived he hh0, h0, h1,
    putRequest_congr (s := frameArrived s) _ (by rwa [frameArrived_window]) (by rwa [frameArrived_restarting])
      (by rwa [frameArrived_window]) hlink hgive]

/-! ## The frame of a report (10.2, 10.8) -/

theorem reportFlags_eq (urgent : Bool) (h : n ≤ 15) :
    reportFlags n urgent = BitVec.ofNat 8 (n + if urgent then 128 else 0) := by
  unfold reportFlags
  rw [Nat.mod_eq_of_lt (by omega)]

end Sys2Proof.Machine

open Sys2Proof Sys2Proof.Machine in
/-- Settles O21: the order of the choice is the arbiter's, case by case; a report that gives way leaves the part as it was
(`giveWay_arbitrate`), so that a request finds nothing else; and a report's frame is read off its layout, kind by kind. -/
theorem arbiterOrder : Obligations.ArbiterOrder := by
  unfold Obligations.ArbiterOrder
  refine ⟨fun s => ⟨fun ht => ?_, fun pre e post ht hw hpre he => ?_, fun pre r post n ht hw hf hr hpre hpost => ?_,
    fun r rest ht hw hf hq hlen => ?_, fun ht hw hf hq => ?_, fun ht hw ho hn hf hq => ?_, fun t ht hb => ?_⟩,
    fun r q urgent hq hc => ?_⟩
  · obtain ⟨t, ht⟩ := Option.isSome_iff_exists.mp ht
    exact arbitrate_transmitting ht
  · exact arbitrate_response ht (hw ▸ takeResponse_first hpre he)
  · refine arbitrate_retry (r := r) ht (takeResponse_none hw) ?_
    rw [hf]
    simp only [← Report.dueAt_eq_some] at hr hpre hpost
    rcases hr with ⟨hdue, hd⟩ | ⟨rfl, ⟨since, ms, limit, hs, hl, hle, hlt⟩, ⟨y, hy, hdue⟩, hd⟩
    · exact nextRetry_due hdue (fun hn x hx => not_fallsDue (hd hn x hx)) hpre hpost
    · have hnot : r.dueAt = none := (Report.dueAt_eq_none r).mpr fun m hm => by rw [hs] at hm; cases hm
      exact nextRetry_falling ((fallsDue_iff s.clock r).mpr ⟨since, ms, limit, hs, hl, hle, hlt⟩) hnot ⟨y, hy, hdue⟩
        (fun x hx => not_fallsDue (hd x hx)) hpre hpost
  · exact arbitrate_first ht (takeResponse_none hw) (nextRetry_none hf) hq hlen
  · exact arbitrate_nothing ht (takeResponse_none hw) (nextRetry_none hf) hq
  · have hg := giveWay_arbitrate ht hw ho hn hf hq
    exact ⟨hg, fun i tag p s0 s1 he hh htag hre hlen => exec_request_after_choice he ht hw hg hh htag hre hlen⟩
  · exact giveWay_begun ht hb
  · intro number handle faultCode kindCode
    have hkind : ∀ k : ReportKind, k.byte = kindCode k := fun k => by cases k <;> rfl
    have hfault : ∀ k : FaultKind, BitVec.ofNat 8 k.code.val = faultCode k := fun k => by cases k <;> rfl
    have hframe : reportFrame r urgent = ⟨.report, q, kindCode r.body.kind
        :: number (r.retryCount + if urgent then 128 else 0) :: r.body.bytes⟩ := by
      unfold reportFrame
      rw [hq, Option.getD_some, hkind, reportFlags_eq urgent hc]
    rw [hframe]
    congr 3
    cases r.body with
    | resetDone cause => cases cause <;> rfl
    | runState state cause discarded =>
      cases state <;> cases cause <;> simp only [ReportBody.bytes, hfault] <;> rfl
    | fault k count detail =>
      simp only [ReportBody.bytes, hfault]
      cases detail with
      | none => rfl
      | some d => cases d <;> simp only [detailBytes, hkind] <;> rfl
    | late h base lateness skipped => cases base <;> cases skipped <;> rfl
    | syncSeen timestamp interval loaded => cases interval <;> cases loaded <;> rfl
    | actionDone h origin fired skipped ended => cases origin <;> cases ended <;> rfl
    | _ => rfl

end

