-- ==== Sys2Proof/Proofs/Reception.lean ====
section
/-! PROOFS. Characters received one by one where no transmission completes: what the part sends meanwhile, what the assembler
gathers, and what becomes of a frame that is sound, malformed, or of another CRC (R132, R134 to R139). -/

namespace Sys2Proof.Machine

variable {s : State} {m n : Nat} {b : Byte} {bs bytes : List Byte} {a : Assembler} {c : RxChar}

/-! ## The clocking of an SPI link while no frame completes (R132) -/

/-- A frame in transmission after `n` periods of SCK, `phase` bits into a byte. -/
def Transmission.clockedFor : Nat → Nat → Transmission → Transmission
  | 0, _, t => t
  | n + 1, phase, t => Transmission.clockedFor n ((phase + 1) % 8) (t.clocked phase)

theorem clockedFor_succ (n phase : Nat) (t : Transmission) :
    t.clockedFor (n + 1) phase = (t.clocked phase).clockedFor n ((phase + 1) % 8) := rfl

theorem clockedFor_add (m n phase : Nat) (t : Transmission) (hp : phase < 8) :
    t.clockedFor (m + n) phase = (t.clockedFor m phase).clockedFor n ((phase + m) % 8) := by
  induction m generalizing phase t with
  | zero => rw [Nat.zero_add, Nat.add_zero, Nat.mod_eq_of_lt hp]; rfl
  | succ m ih =>
    rw [Nat.succ_add, clockedFor_succ, clockedFor_succ, ih _ _ (Nat.mod_lt _ (by omega)), Nat.mod_add_mod, Nat.add_assoc,
      Nat.add_comm 1 m]

theorem clocked_frame (phase : Nat) (t : Transmission) : (t.clocked phase).frame = t.frame := by
  unfold Transmission.clocked
  split <;> rfl

theorem clocked_sent_le (phase : Nat) (t : Transmission) : (t.clocked phase).sent ≤ t.sent + 1 := by
  unfold Transmission.clocked
  split
  · exact le_rfl
  · exact Nat.le_succ _

theorem clockedFor_frame (n phase : Nat) (t : Transmission) : (t.clockedFor n phase).frame = t.frame := by
  induction n generalizing phase t with
  | zero => rfl
  | succ n ih => exact (ih _ _).trans (clocked_frame phase t)

theorem clockedFor_sent_le (n phase : Nat) (t : Transmission) : (t.clockedFor n phase).sent ≤ t.sent + n := by
  induction n generalizing phase t with
  | zero => rfl
  | succ n ih =>
    have h1 := clocked_sent_le phase t
    have h2 := ih ((phase + 1) % 8) (t.clocked phase)
    rw [clockedFor_succ]
    omega

/-- No transmission completes within so many periods of SCK (R132). -/
def State.goesOn (s : State) (n : Nat) : Prop :=
  ∀ t, s.link.tx = some t → t.sent + n ≤ 8 * (7 + t.frame.payload.length)

theorem settle_goesOn (h : s.goesOn (n + 1)) : settle s = s := by
  cases ht : s.link.tx with
  | none => exact settle_idle ht
  | some t =>
    have := h t ht
    exact settle_going ht (decide_eq_false (by unfold frameBits; omega))

/-- A period of SCK sends a bit of the frame in transmission that is in step, or of filler. -/
theorem clockOut_settled (hs : settle s = s) : clockOut s = s.withLink { s.link with
    tx := s.link.tx.map (Transmission.clocked s.link.phase), phase := (s.link.phase + 1) % 8 } := by
  unfold clockOut
  rw [hs]

theorem clockPeriods_goesOn (h : s.goesOn n) (hp : s.link.phase < 8) : clockPeriods n s = s.withLink { s.link with
    tx := s.link.tx.map (Transmission.clockedFor n s.link.phase), phase := (s.link.phase + n) % 8 } := by
  induction n generalizing s with
  | zero =>
    have htx : s.link.tx.map (Transmission.clockedFor 0 s.link.phase) = s.link.tx := Option.map_id'
    rw [Nat.add_zero, Nat.mod_eq_of_lt hp, htx]
    rfl
  | succ n ih =>
    unfold clockPeriods
    rw [clockOut_settled (settle_goesOn h), ih]
    · simp only [State.withLink_link, Option.map_map, Nat.mod_add_mod, Nat.add_right_comm]
      rfl
    · intro t ht
      obtain ⟨t0, ht0, rfl⟩ := Option.map_eq_some_iff.mp ht
      have h1 := h t0 ht0
      have h2 := clocked_sent_le s.link.phase t0
      rw [clocked_frame]
      omega
    · exact Nat.mod_lt _ (by omega)

/-- The Host Link when the host has sent so many bytes, a byte being to begin: an SPI link has sent as many. -/
def HostLink.movedOn (n : Nat) (l : HostLink) : HostLink :=
  match l.linkType with
  | .uart => l
  | .spi => { l with csnAsserted := true, phase := 0, sdi := 0, tx := l.tx.map (Transmission.clockedFor (8 * n) 0) }

theorem movedOn_uart {l : HostLink} (h : l.linkType = .uart) : l.movedOn n = l := by
  unfold HostLink.movedOn
  rw [h]

theorem movedOn_spi {l : HostLink} (h : l.linkType = .spi) : l.movedOn n = { l with
    csnAsserted := true, phase := 0, sdi := 0, tx := l.tx.map (Transmission.clockedFor (8 * n) 0) } := by
  unfold HostLink.movedOn
  rw [h]

theorem movedOn_linkType (n : Nat) (l : HostLink) : (l.movedOn n).linkType = l.linkType := by
  unfold HostLink.movedOn
  split <;> rfl

theorem movedOn_assembler (n : Nat) (l : HostLink) : (l.movedOn n).assembler = l.assembler := by
  unfold HostLink.movedOn
  split <;> rfl

theorem broughtIn_spi (n : Nat) (h : s.link.linkType = .spi) :
    broughtIn n s = (clockPeriods n (s.withLink { s.link with csnAsserted := true })).withLink
      { (clockPeriods n (s.withLink { s.link with csnAsserted := true })).link with sdi := 0 } := by
  unfold broughtIn
  rw [h]

theorem broughtIn_bytes (h : s.undisturbed n) : broughtIn (8 * n - s.link.phase) s = s.withLink (s.link.movedOn n) := by
  cases hl : s.link.linkType with
  | uart => rw [broughtIn_uart _ hl, movedOn_uart hl]; rfl
  | spi =>
    obtain ⟨hp, ht⟩ := h hl
    rw [broughtIn_spi _ hl, clockPeriods_goesOn (s := s.withLink { s.link with csnAsserted := true })
      (fun t h => by have := ht t h; omega) (by simp [hp]), movedOn_spi hl]
    simp [hp, State.withLink]

theorem past_eq (h : s.undisturbed n) : s.past n = s.withLink (s.link.movedOn n) := by
  cases hl : s.link.linkType with
  | uart => rw [State.past, broughtIn_uart _ hl, movedOn_uart hl]; rfl
  | spi => rw [← broughtIn_bytes h, (h hl).1]; rfl

theorem undisturbed_mono (h : s.undisturbed n) (hm : m ≤ n) : s.undisturbed m := fun hl =>
  ⟨(h hl).1, fun t ht => by have := (h hl).2 t ht; omega⟩

/-! ## Within a frame (R136) -/

/-- So many characters have come in, and the assembler holds `a`. -/
def State.within (n : Nat) (a : Assembler) (s : State) : State :=
  s.withLink { s.link.movedOn n with assembler := a, lastByteAt := s.clock, byteStarted := false }

/-- The part when so many characters have come in and no frame is in reception. -/
theorem past_heard (h : s.undisturbed n) (ha : s.link.assembler = .hunting) :
    (s.past n).heard = s.within n .hunting := by
  have hm : (s.link.movedOn n).assembler = .hunting := (movedOn_assembler n s.link).trans ha
  rw [past_eq h, State.within, ← hm]
  rfl

theorem gather_within (a' : Assembler) : gather a' (s.within n a) = s.within n a' := rfl

theorem dropFrame_within (k : FaultKind) :
    dropFrame k (s.within n a) = countFault k none (s.within n .hunting) := rfl

theorem undisturbed_within (h : s.undisturbed (n + m)) : (s.within n a).undisturbed m := by
  intro hl
  have hs : s.link.linkType = .spi := (movedOn_linkType n s.link).symm.trans hl
  obtain ⟨-, ht⟩ := h hs
  unfold State.within
  rw [movedOn_spi hs]
  refine ⟨rfl, fun t h1 => ?_⟩
  obtain ⟨t0, ht0, rfl⟩ := Option.map_eq_some_iff.mp h1
  have h2 := ht t0 ht0
  have h3 := clockedFor_sent_le (8 * n) 0 t0
  rw [clockedFor_frame]
  omega

theorem movedOn_within : (s.within n a).withLink ((s.within n a).link.movedOn 1) = s.within (n + 1) a := by
  unfold State.within
  cases hl : s.link.linkType with
  | uart =>
    rw [movedOn_uart hl, movedOn_uart hl, movedOn_uart (by exact hl)]
    rfl
  | spi =>
    have htx : (Transmission.clockedFor (8 * 1) 0) ∘ (Transmission.clockedFor (8 * n) 0)
        = Transmission.clockedFor (8 * (n + 1)) 0 := by
      funext t
      rw [Nat.mul_add, clockedFor_add _ _ _ _ (by omega), Nat.zero_add, Nat.mul_mod_right]
      rfl
    rw [movedOn_spi hl, movedOn_spi hl, movedOn_spi (by exact hl)]
    simp only [State.withLink_link, Option.map_map, htx]
    rfl

/-- Where the arbiter has nothing to choose it has nothing to choose while characters come in. -/
theorem arbitrate_within (hq : arbitrate s = s) : arbitrate (s.within n a) = s.within n a := by
  refine arbitrate_stays hq ?_ ?_ rfl rfl <;>
    · unfold State.within HostLink.movedOn
      cases s.link.linkType <;> simp

/-! ## One character (R136, R137) -/

theorem receive_first (h : s.undisturbed 1) (ha : s.link.assembler = .hunting) :
    receiveEvent (.char c) s = receiveChar c (s.within 1 .hunting) := by
  rw [receiveEvent_char, ← past_heard h ha, past_eq h, show 8 - s.link.phase = 8 * 1 - s.link.phase from rfl,
    broughtIn_bytes h]
  rfl

theorem receive_next (h : s.undisturbed (n + 1)) :
    receiveEvent (.char c) (s.within n a) = receiveChar c (s.within (n + 1) a) := by
  rw [receiveEvent_char, ← movedOn_within, ← broughtIn_bytes (undisturbed_within h)]

theorem broken_sound (s : State) (b : Byte) : s.broken ⟨b, .high⟩ = false := by simp [State.broken]

/-- A character that is broken or not the sync byte begins no frame. -/
theorem receiveChar_noise (h : c.data ≠ 0xA5 ∨ (s.link.linkType = .uart ∧ c.stop = .low)) :
    receiveChar c (s.within n .hunting) = s.within n .hunting := by
  refine if_neg ?_
  rintro ⟨hb, hd⟩
  rcases h with h | ⟨hl, hs⟩
  · exact h hd
  · simp [State.broken, State.within, movedOn_uart hl, hl, hs] at hb

theorem receiveChar_sync : receiveChar ⟨0xA5, .high⟩ (s.within n .hunting) = s.within n (.header []) :=
  if_pos ⟨broken_sound _ _, rfl⟩

theorem receiveChar_header : receiveChar ⟨b, .high⟩ (s.within n (.header bs))
    = gatherHeader (bs ++ [b]) (s.within n (.header bs)) :=
  if_neg (by simp [broken_sound])

theorem receiveChar_payload : receiveChar ⟨b, .high⟩ (s.within n (.payload bs))
    = gatherPayload (bs ++ [b]) (s.within n (.payload bs)) :=
  if_neg (by simp [broken_sound])

theorem receiveChar_crc : receiveChar ⟨b, .high⟩ (s.within n (.crc bs))
    = gatherCrc (bs ++ [b]) (s.within n (.crc bs)) :=
  if_neg (by simp [broken_sound])

/-- A broken byte inside a frame breaks it off. -/
theorem receiveChar_broken (ha : s.link.assembler ≠ .hunting) (hb : s.broken c = true) :
    receiveChar c s = dropFrame .frameMalformed s.heard := by
  unfold receiveChar
  cases hs : s.link.assembler with
  | hunting => exact absurd hs ha
  | _ => exact if_pos hb

/-! ## The bytes of a frame (R134 to R137) -/

/-- A header byte of another kind than REQUEST and ACK breaks the frame off. -/
theorem gatherHeader_kind (hk : byteAt bytes 0 ≠ 0x51 ∧ byteAt bytes 0 ≠ 0x54) :
    gatherHeader bytes s = dropFrame .frameMalformed s := if_pos hk

theorem gatherHeader_more (hk : byteAt bytes 0 = 0x51 ∨ byteAt bytes 0 = 0x54) (hl : bytes.length < 4) :
    gatherHeader bytes s = gather (.header bytes) s := by
  unfold gatherHeader
  dsimp only
  rw [if_neg, if_pos hl]
  rintro ⟨h1, h2⟩
  rcases hk with h | h
  · exact h1 h
  · exact h2 h

/-- A length above 240, or of an ACK above 0, breaks the frame off. -/
theorem gatherHeader_length (hl : bytes.length = 4)
    (hn : (byteAt bytes 0 = 0x51 ∧ 240 < (byteAt bytes 3).toNat) ∨ (byteAt bytes 0 = 0x54 ∧ byteAt bytes 3 ≠ 0)) :
    gatherHeader bytes s = dropFrame .frameMalformed s := by
  unfold gatherHeader
  dsimp only
  rw [if_neg, if_neg (by omega), if_pos]
  · rcases hn with ⟨-, h⟩ | ⟨hk, h⟩
    · exact .inl h
    · exact .inr ⟨hk, fun h0 => h (BitVec.eq_of_toNat_eq h0)⟩
  · rintro ⟨h1, h2⟩
    rcases hn with ⟨h, -⟩ | ⟨h, -⟩
    · exact h1 h
    · exact h2 h

/-- The header of a request with a payload of at most 240 bytes is whole. -/
theorem gatherHeader_request (hl : bytes.length = 4) (hk : byteAt bytes 0 = 0x51) (hn : (byteAt bytes 3).toNat ≤ 240) :
    gatherHeader bytes s = gather (if (byteAt bytes 3).toNat = 0 then .crc bytes else .payload bytes) s := by
  unfold gatherHeader
  dsimp only
  rw [if_neg (fun h => h.1 hk), if_neg (by omega), if_neg]
  rintro (h | ⟨h, -⟩)
  · exact absurd h (Nat.not_lt.mpr hn)
  · rw [hk] at h
    exact absurd h (by decide)

theorem byteAt_append (h : m < bs.length) (cs : List Byte) : byteAt (bs ++ cs) m = byteAt bs m := by
  unfold byteAt
  rw [List.getD_append _ _ _ _ h]

theorem receiveAll_sync (h : s.undisturbed 1) (ha : s.link.assembler = .hunting) (hq : arbitrate s = s) :
    receiveAll (soundly (0xA5 :: bs)) s = receiveAll (soundly bs) (s.within 1 (.header [])) := by
  show receiveAll _ (arbitrate (receiveEvent (.char ⟨0xA5, .high⟩) s)) = _
  rw [receive_first h ha, receiveChar_sync, arbitrate_within hq]
  rfl

theorem receiveAll_next (h : s.undisturbed (n + 1)) : receiveAll (soundly (b :: bs)) (s.within n a)
    = receiveAll (soundly bs) (arbitrate (receiveChar ⟨b, .high⟩ (s.within (n + 1) a))) := by
  show receiveAll _ (arbitrate (receiveEvent (.char ⟨b, .high⟩) (s.within n a))) = _
  rw [receive_next h]
  rfl

theorem receiveAll_header {hs : List Byte} (h : s.undisturbed (n + 1)) (hq : arbitrate s = s)
    (hk : byteAt (hs ++ [b]) 0 = 0x51 ∨ byteAt (hs ++ [b]) 0 = 0x54) (hl : (hs ++ [b]).length < 4) :
    receiveAll (soundly (b :: bs)) (s.within n (.header hs))
      = receiveAll (soundly bs) (s.within (n + 1) (.header (hs ++ [b]))) := by
  rw [receiveAll_next h, receiveChar_header, gatherHeader_more hk hl, gather_within, arbitrate_within hq]

/-- The sync byte and the first bytes of the header of a request or an ACK. -/
theorem receiveAll_begun {k t0 t1 : Byte} (h : s.undisturbed 4) (ha : s.link.assembler = .hunting) (hq : arbitrate s = s)
    (hk : k = 0x51 ∨ k = 0x54) : receiveAll (soundly (0xA5 :: k :: t0 :: t1 :: bs)) s
      = receiveAll (soundly bs) (s.within 4 (.header [k, t0, t1])) := by
  rw [receiveAll_sync (undisturbed_mono h (by omega)) ha hq,
    receiveAll_header (hs := []) (undisturbed_mono h (by omega)) hq hk (by decide : 1 < 4),
    List.nil_append, receiveAll_header (hs := [k]) (undisturbed_mono h (by omega)) hq hk (by decide : 2 < 4),
    List.singleton_append, receiveAll_header (hs := [k, t0]) (undisturbed_mono h (by omega)) hq hk (by decide : 3 < 4)]
  rfl

/-- What is left of a payload comes in. -/
theorem receiveAll_payload {p hs : List Byte} (h : s.undisturbed (n + p.length)) (hq : arbitrate s = s) (hp : p ≠ [])
    (h4 : 3 < hs.length) (hl : hs.length + p.length = 4 + (byteAt hs 3).toNat) :
    receiveAll (soundly (p ++ bs)) (s.within n (.payload hs))
      = receiveAll (soundly bs) (s.within (n + p.length) (.crc (hs ++ p))) := by
  induction p generalizing n hs with
  | nil => exact absurd rfl hp
  | cons b p ih =>
    have hb : byteAt (hs ++ [b]) 3 = byteAt hs 3 := byteAt_append h4 _
    rw [List.length_cons] at hl h
    rw [List.cons_append, receiveAll_next (undisturbed_mono h (by omega)), receiveChar_payload]
    unfold gatherPayload
    rw [gather_within, arbitrate_within hq, hb, List.length_append, List.length_singleton]
    cases p with
    | nil =>
      rw [List.length_nil] at hl
      rw [if_neg (by omega)]
      rfl
    | cons b' p =>
      rw [List.length_cons] at hl
      rw [if_pos (by omega), ih (undisturbed_mono h (by rw [List.length_cons]; omega)) (List.cons_ne_nil _ _)
        (by rw [List.length_append]; omega)
        (by rw [hb, List.length_append, List.length_singleton, List.length_cons]; omega),
        List.append_assoc, List.singleton_append, List.length_cons, List.length_cons, List.length_cons]
      congr 2
      omega

/-- A frame of kind REQUEST comes in whole, and its CRC is checked. -/
theorem receiveAll_request {t0 t1 c0 c1 : Byte} {p : List Byte} (h : s.undisturbed (7 + p.length))
    (ha : s.link.assembler = .hunting) (hq : arbitrate s = s) (hp : p.length ≤ 240)
    (hbytes : bytes = 0x51 :: t0 :: t1 :: BitVec.ofNat 8 p.length :: p) :
    receiveAll (soundly (0xA5 :: bytes ++ [c0, c1])) s
      = arbitrate (gatherCrc (bytes ++ [c0, c1]) (s.within (7 + p.length) (.crc (bytes ++ [c0])))) := by
  have hlen : (BitVec.ofNat 8 p.length).toNat = p.length := by rw [BitVec.toNat_ofNat, Nat.mod_eq_of_lt (by omega)]
  have hcount : bytes.length = 4 + p.length := by rw [hbytes]; simp only [List.length_cons]; omega
  have h3 : byteAt (bytes ++ [c0]) 3 = BitVec.ofNat 8 p.length := by rw [hbytes]; rfl
  have hpayload : receiveAll (soundly (0xA5 :: bytes ++ [c0, c1])) s
      = receiveAll (soundly [c0, c1]) (s.within (5 + p.length) (.crc bytes)) := by
    rw [hbytes]
    show receiveAll (soundly (0xA5 :: 0x51 :: t0 :: t1 :: (BitVec.ofNat 8 p.length :: (p ++ [c0, c1])))) s = _
    rw [receiveAll_begun (undisturbed_mono h (by omega)) ha hq (.inl rfl),
      receiveAll_next (undisturbed_mono h (by omega)), receiveChar_header,
      gatherHeader_request rfl rfl (by exact hlen.trans_le hp), gather_within, arbitrate_within hq]
    show receiveAll _ (s.within 5 (if (BitVec.ofNat 8 p.length).toNat = 0 then _ else _)) = _
    rw [hlen]
    cases p with
    | nil => rfl
    | cons x xs =>
      rw [if_neg (by simp), receiveAll_payload (hs := [0x51, t0, t1] ++ [BitVec.ofNat 8 (x :: xs).length])
        (undisturbed_mono h (by omega)) hq (List.cons_ne_nil _ _) (by decide : 3 < 4) (congrArg (4 + ·) hlen.symm)]
      rfl
  rw [hpayload, receiveAll_next (undisturbed_mono h (by omega)), receiveChar_crc]
  have hmore : gatherCrc (bytes ++ [c0]) (s.within (5 + p.length + 1) (.crc bytes))
      = s.within (5 + p.length + 1) (.crc (bytes ++ [c0])) := by
    unfold gatherCrc
    dsimp only
    rw [h3, hlen, if_pos (by rw [List.length_append, hcount, List.length_singleton]; omega), gather_within]
  rw [hmore, arbitrate_within hq, receiveAll_next (undisturbed_mono h (by omega)), receiveChar_crc, List.append_assoc,
    List.singleton_append, show 5 + p.length + 1 + 1 = 7 + p.length by omega]
  rfl

/-- The CRC of a whole frame is right, and it is handed on, or is not, and it is dropped (R137, R139). -/
theorem gatherCrc_whole {c0 c1 : Byte} (hl : bytes.length = 4 + (byteAt bytes 3).toNat) :
    gatherCrc (bytes ++ [c0, c1]) s = if [c0, c1] = leBytes 2 (crc16 bytes).toNat then handOn (bytes ++ [c0, c1]) s
      else dropFrame .frameCrc s := by
  have h3 : byteAt (bytes ++ [c0, c1]) 3 = byteAt bytes 3 := byteAt_append (by omega) _
  have hiff : (crc16 bytes).toNat = ofLeBytes [c0, c1] ↔ [c0, c1] = leBytes 2 (crc16 bytes).toNat := by
    constructor
    · intro h
      rw [h]
      have h0 := c0.isLt
      have h1 := c1.isLt
      simp only [leBytes, ofLeBytes, List.cons.injEq, and_true]
      constructor <;> apply BitVec.eq_of_toNat_eq <;> rw [BitVec.toNat_ofNat] <;> omega
    · intro h
      rw [h, ofLeBytes_leBytes]
      exact (Nat.mod_eq_of_lt (crc16 bytes).isLt).symm
  unfold gatherCrc
  dsimp only
  rw [h3, ← hl, if_neg (by simp), List.take_left, List.drop_left]
  by_cases hc : (crc16 bytes).toNat = ofLeBytes [c0, c1]
  · rw [if_pos hc, if_pos (hiff.mp hc)]
  · rw [if_neg hc, if_neg (hc ∘ hiff.mpr)]

theorem covered_request (tag : Tag) (p : List Byte) : Frame.covered ⟨.request, tag, p⟩
    = 0x51 :: BitVec.ofNat 8 tag.toNat :: BitVec.ofNat 8 (tag.toNat / 256) :: BitVec.ofNat 8 p.length :: p := rfl

theorem covered_length {tag : Tag} {p : List Byte} (hp : p.length ≤ 240) :
    (Frame.covered ⟨.request, tag, p⟩).length = 4 + (byteAt (Frame.covered ⟨.request, tag, p⟩) 3).toNat := by
  show p.length + 4 = 4 + (BitVec.ofNat 8 p.length).toNat
  rw [BitVec.toNat_ofNat, Nat.mod_eq_of_lt (by omega), Nat.add_comm]

/-! ## A sound request frame is its command (R139 to R141) -/

/-- A whole request frame is handed on with its tag and its payload. -/
theorem handOn_request (tag : Tag) {p : List Byte} (hp : p.length ≤ 240) (cs : List Byte) :
    handOn (Frame.covered ⟨.request, tag, p⟩ ++ cs) s
      = putRequest tag p.head? (takePayload tag p) (frameArrived s) := by
  have htag : BitVec.ofNat 16 (fieldAt (Frame.covered ⟨.request, tag, p⟩ ++ cs) 1 2) = tag := read_leBytes 2 tag rfl
  have hpay : ((Frame.covered ⟨.request, tag, p⟩ ++ cs).drop 4).take
      (byteAt (Frame.covered ⟨.request, tag, p⟩ ++ cs) 3).toNat = p := by
    show (p ++ cs).take (BitVec.ofNat 8 p.length).toNat = p
    rw [BitVec.toNat_ofNat, Nat.mod_eq_of_lt (by omega), List.take_left]
  unfold handOn
  dsimp only
  rw [htag, hpay]
  exact if_neg (by decide : ¬ (0x51 : Byte) = 0x54)

/-- A frame has arrived: what the assembler held does not matter. -/
theorem frameArrived_within : frameArrived (s.within n a) = frameArrived (s.within n .hunting) := rfl

/-- A request command finds the part, a character having just been received, as its last bit leaves it. -/
theorem heard_atLastBit {i : Instr} {tag : Tag} {p : List Byte} (he : encodeRequest i = some (tag, p))
    (ha : s.link.assembler = .hunting) (h : s.undisturbed (7 + p.length)) :
    s.heard.atLastBit i = s.within (7 + p.length) .hunting := by
  have hg : s.heard.link.assembler.gathered = 0 := by
    show s.link.assembler.gathered = 0
    rw [ha]
    rfl
  unfold State.atLastBit frameBroughtIn
  rw [frameLength_request he, hg, Nat.sub_zero, Nat.max_eq_right (by omega), ← past_heard h ha, past_eq h,
    broughtIn_bytes (s := s.heard) h]
  unfold HostLink.movedOn State.heard
  cases hl : s.link.linkType <;> simp [hl, State.withLink]

/-- The payload of a request command is at most 240 bytes long, PING carrying at most 16 (R134, R146). -/
theorem encodeRequest_length {i : Instr} {tag : Tag} {p : List Byte} (he : encodeRequest i = some (tag, p))
    (hp : ∀ t d, i = .ping t d → d.length ≤ 16) : p.length ≤ 240 := by
  cases i <;> simp only [encodeRequest, Option.some.injEq, Prod.mk.injEq, reduceCtorEq] at he <;>
    obtain ⟨rfl, rfl⟩ := he
  case ping t d =>
    have := hp t d rfl
    rw [List.length_cons]
    omega
  all_goals exact of_decide_eq_true rfl

theorem exec_badFrame (hh : s.held = false) (xs : List LinkEvent) : exec (.badFrame xs) s = .next (receiveAll xs s) :=
  if_neg (by simp [hh])

/-- Noise while the assembler hunts. -/
theorem receiveAll_noise {cs : List RxChar} (hq : arbitrate s = s)
    (hc : ∀ c ∈ cs, c.data ≠ 0xA5 ∨ (s.link.linkType = .uart ∧ c.stop = .low)) (h : s.undisturbed (n + cs.length)) :
    receiveAll (cs.map .char) (s.within n .hunting) = s.within (n + cs.length) .hunting := by
  induction cs generalizing n with
  | nil => rfl
  | cons c cs ih =>
    rw [List.length_cons, ← Nat.add_assoc, Nat.add_right_comm] at *
    rw [List.map_cons, receiveAll_cons, receive_next (undisturbed_mono h (by omega)),
      receiveChar_noise (hc c List.mem_cons_self), arbitrate_within hq,
      ih (fun x hx => hc x (List.mem_cons_of_mem _ hx)) h]

end Sys2Proof.Machine

open Sys2Proof Sys2Proof.Machine in
/-- Settles O5: the characters bring the assembler to the whole frame (`receiveAll_request`), whose CRC is right; it is handed
on with the payload of the command, which is read back as that command. -/
theorem requestFrameRunsItsCommand : Obligations.RequestFrameRunsItsCommand := by
  unfold Obligations.RequestFrameRunsItsCommand
  intro i tag p s he hping hh ha hq hu
  have hlen := encodeRequest_length he hping
  have htake : takePayload tag p = takeCommand i := by
    funext t
    unfold takePayload
    rw [decodeRequest_encoded he hping]
  have hbytes : Frame.bytes ⟨.request, tag, p⟩ = 0xA5 :: Frame.covered ⟨.request, tag, p⟩
    ++ leBytes 2 (crc16 (Frame.covered ⟨.request, tag, p⟩)).toNat := rfl
  rw [exec_request_arrived he (show s.heard.held = false from hh), heard_atLastBit he ha hu, exec_badFrame hh, hbytes]
  show Host.Outcome.next (receiveAll (soundly (0xA5 :: Frame.covered ⟨.request, tag, p⟩ ++ [_, _])) s) = _
  rw [receiveAll_request hu ha hq hlen (covered_request tag p), gatherCrc_whole (covered_length hlen),
    if_pos (show [_, _] = leBytes 2 _ from rfl), handOn_request tag hlen, frameArrived_within, htake]

open Sys2Proof Sys2Proof.Machine in
/-- Settles O49: each frame comes in up to the character at which a check of R137 fails. -/
theorem framesDropped : Obligations.FramesDropped := by
  unfold Obligations.FramesDropped
  intro s hh hq
  refine ⟨fun ha => ⟨fun cs hne hc hu => ?_, fun k h51 h54 hu => ?_, fun k t0 t1 n hk hu => ?_,
    fun tag p c0 c1 hp hcrc hu => ?_⟩, fun b ha hl => ?_⟩
  · obtain ⟨c, cs, rfl⟩ := List.exists_cons_of_ne_nil hne
    rw [past_heard hu ha, exec_badFrame hh, List.map_cons, receiveAll_cons,
      receive_first (undisturbed_mono hu (by rw [List.length_cons]; omega)) ha,
      receiveChar_noise (hc c List.mem_cons_self), arbitrate_within hq,
      receiveAll_noise hq (fun x hx => hc x (List.mem_cons_of_mem _ hx))
        (by rwa [List.length_cons, Nat.add_comm] at hu), List.length_cons, Nat.add_comm]
  · rw [past_heard hu ha, exec_badFrame hh, receiveAll_sync (undisturbed_mono hu (by omega)) ha hq, receiveAll_next hu,
      receiveChar_header, List.nil_append, gatherHeader_kind (bytes := [k]) ⟨h51, h54⟩, dropFrame_within]
    rfl
  · rw [past_heard hu ha, exec_badFrame hh, receiveAll_begun (undisturbed_mono hu (by omega)) ha hq
      (hk.imp And.left And.left), receiveAll_next hu, receiveChar_header,
      gatherHeader_length (bytes := [k, t0, t1] ++ [n]) rfl hk, dropFrame_within]
    rfl
  · rw [past_heard hu ha, exec_badFrame hh, receiveAll_request hu ha hq hp (covered_request tag p),
      gatherCrc_whole (covered_length hp), if_neg hcrc, dropFrame_within]
  · rw [exec_badFrame hh, receiveAll_cons, receiveEvent_char, broughtIn_uart _ hl,
      receiveChar_broken ha (by simp [State.broken, hl])]
    rfl

end

