-- ==== Sys2Proof/Proofs/LinkPins.lean ====
section
/-! PROOFS. The gap timer, CSn and SCK, which break a frame off or move its bits, and what SDO and TXD show (R130 to R132,
R137, R138, R144). -/

namespace Sys2Proof.Machine

variable {s : State} {t : Transmission} {v : Level} {first : Bool}

/-! ## The gap timer (R138) -/

theorem exec_gapTimerExpiry (s : State) : exec .gapTimerExpiry s = whenDue (gapDue s) (dropFrame .frameMalformed) s := rfl

theorem gapDue_running (hl : s.link.linkType = .uart) (ha : s.link.assembler ≠ .hunting) (hb : s.link.byteStarted = false) :
    gapDue s = some (100000 - (s.clock - s.link.lastByteAt)) := if_pos ⟨hl, ha, hb⟩

theorem gapDue_stopped (h : s.link.linkType = .spi ∨ s.link.assembler = .hunting ∨ s.link.byteStarted = true) :
    gapDue s = none := by
  refine if_neg ?_
  rintro ⟨hl, ha, hb⟩
  rcases h with h | h | h
  · rw [hl] at h
    cases h
  · exact ha h
  · rw [hb] at h
    cases h

/-! ## The deassertion of CSn (R132, R138) -/

theorem exec_csnDeassert (hh : s.held = false) : exec .csnDeassert s = .next (arbitrate (deassertCsn s)) := atOnce_eq hh

theorem deassertCsn_uart (hl : s.link.linkType = .uart) : deassertCsn s = s := by
  unfold deassertCsn
  rw [hl]

theorem deassertCsn_spi (hl : s.link.linkType = .spi) : deassertCsn s = breakOff (s.withLink { s.link with
    csnAsserted := false, phase := 0, sdi := 0, tx := s.link.tx.map Transmission.cut }) := by
  unfold deassertCsn
  rw [hl]

/-! ## A completion leaves the pins of the link (R144) -/

/-- The link type, CSn, and the frame in transmission. -/
def HostLink.wire (l : HostLink) : LinkType × Bool × Option Transmission := (l.linkType, l.csnAsserted, l.tx)

theorem breakOff_wire (s : State) : (breakOff s).link.wire = s.link.wire := by
  unfold breakOff dropFrame
  split
  · rfl
  · rw [(countFault_onlyWork _ _ _).link]
    rfl

theorem afterResponse_wire (a : AfterSent) (s : State) : (afterResponse a s).link.wire = s.link.wire := by
  cases a with
  | nothing => rfl
  | changeRate r =>
    show (changeRate r s).link.wire = _
    unfold changeRate
    split
    · rfl
    · exact breakOff_wire s
  | restarted m =>
    show (createReport _ s).link.wire = _
    rw [(createReport_onlyWork _ _).link]

theorem completeResponse_wire (s : State) : (completeResponse s).link.wire = s.link.wire := by
  unfold completeResponse
  split
  · rfl
  · exact afterResponse_wire _ _

theorem completeReport_link (q : Seq) (s : State) : (completeReport q s).link = s.link := by
  unfold completeReport
  split
  · rfl
  · split <;> rfl

/-- A transmission that completes leaves the transmitter idle, and CSn as it is. -/
theorem completeTransmission_wire (ht : s.link.tx = some t) :
    (completeTransmission s).link.wire = (s.link.linkType, s.link.csnAsserted, none) := by
  unfold completeTransmission
  simp only [ht]
  split
  · rw [completeReport_link]
    rfl
  · exact completeResponse_wire _

theorem arbitrate_wire (s : State) : (arbitrate s).link.wire
    = (s.link.linkType, s.link.csnAsserted, (arbitrate s).link.tx) := by
  have hl : (arbitrate s).link
      = { s.link with window := (arbitrate s).link.window, tx := (arbitrate s).link.tx } := by
    cases ht : s.link.tx with
    | some t => rw [arbitrate_transmitting ht]
    | none =>
      cases hw : takeResponse s.link.window with
      | some p => rw [arbitrate_response ht hw]; rfl
      | none =>
        rcases arbitrate_reports ht hw with ⟨r, -, h⟩ | ⟨r, rest, -, -, h⟩ | h <;> rw [h] <;> rfl
  rw [hl]
  rfl

/-- Of the frame that an idle transmitter is given no bit has gone. -/
theorem arbitrate_tx_unsent (hs : s.link.tx = none) (ht : (arbitrate s).link.tx = some t) : t.sent = 0 := by
  cases hw : takeResponse s.link.window with
  | some p =>
    rw [arbitrate_response hs hw] at ht
    cases ht
    rfl
  | none =>
    rcases arbitrate_reports hs hw with ⟨r, -, h⟩ | ⟨r, rest, -, -, h⟩ | h <;> rw [h] at ht
    · cases ht
      rfl
    · cases ht
      rfl
    · rw [hs] at ht
      cases ht

/-! ## The completion of a frame on an SPI link (R132) -/

theorem settle_begun (ht : s.link.tx = some t) (hb : t.sent < 8 * (7 + t.frame.payload.length)) : settle s = s :=
  settle_going ht (decide_eq_false (Nat.not_le.mpr hb))

theorem settle_ended (ht : s.link.tx = some t) (hg : 8 * (7 + t.frame.payload.length) ≤ t.sent) :
    settle s = (arbitrate (completeTransmission s)).firm :=
  settle_gone ht (decide_eq_true hg)

/-- A frame whose last bit has gone completes as its command and as the next period of SCK find it. -/
theorem exec_transmitComplete_settle (hh : s.held = false) (hl : s.link.linkType = .spi) (ht : s.link.tx = some t)
    (hg : 8 * (7 + t.frame.payload.length) ≤ t.sent) : exec .transmitComplete s = .next (settle s) := by
  rw [exec_transmitComplete_ended hh ht (.inl ⟨hl, rfl, hg⟩), elapse_zero, settle_ended ht hg]

/-- Once a completion has been settled there is none to settle. -/
theorem settle_settle (s : State) : settle (settle s) = settle s := by
  cases ht : s.link.tx with
  | none => rw [settle_idle ht, settle_idle ht]
  | some t =>
    by_cases hg : 8 * (7 + t.frame.payload.length) ≤ t.sent
    · rw [settle_ended ht hg]
      have hnone : (completeTransmission s).link.tx = none :=
        congrArg (fun w => w.2.2) (completeTransmission_wire ht)
      cases hc : (arbitrate (completeTransmission s)).link.tx with
      | none => exact settle_idle (by rw [firm_tx, hc]; rfl)
      | some x =>
        have hx := arbitrate_tx_unsent hnone hc
        exact settle_begun (t := { x with yields := none }) (by rw [firm_tx, hc]; rfl) (by simp only [hx]; omega)
    · rw [settle_begun ht (Nat.not_le.mp hg), settle_begun ht (Nat.not_le.mp hg)]

theorem settle_linkType_csn (s : State) : (settle s).link.linkType = s.link.linkType
    ∧ (settle s).link.csnAsserted = s.link.csnAsserted := by
  cases ht : s.link.tx with
  | none =>
    rw [settle_idle ht]
    exact ⟨rfl, rfl⟩
  | some t =>
    by_cases hg : 8 * (7 + t.frame.payload.length) ≤ t.sent
    · have hc := completeTransmission_wire ht
      have ha := arbitrate_wire (completeTransmission s)
      simp only [HostLink.wire, Prod.mk.injEq] at hc ha
      rw [settle_ended ht hg, firm_linkType, firm_csnAsserted]
      exact ⟨ha.1.trans hc.1, ha.2.1.trans hc.2.1⟩
    · rw [settle_begun ht (Nat.not_le.mp hg)]
      exact ⟨rfl, rfl⟩

/-! ## A period of SCK (R132, R144) -/

theorem clocked_eq (phase : Nat) (t : Transmission) :
    t.clocked phase = { t with sent := if t.sent % 8 = phase then t.sent + 1 else t.sent } := by
  unfold Transmission.clocked
  split <;> rfl

/-- The part when the last bit of a byte has been clocked, before it acts on the byte. -/
def State.byteEnds (s : State) : State := s.withLink { s.link with
  tx := s.link.tx.map (Transmission.clocked s.link.phase), phase := 0, sdi := 0 }

/-- A bit that is not the last of its byte. -/
theorem clockPeriod_bit (hs : settle s = s) (hp : s.link.phase < 7) : clockPeriod v first s = s.withLink { s.link with
    tx := s.link.tx.map (Transmission.clocked s.link.phase), phase := s.link.phase + 1, sdi := s.link.shiftedIn v } := by
  have hmod : (s.link.phase + 1) % 8 = s.link.phase + 1 := Nat.mod_eq_of_lt (by omega)
  unfold clockPeriod
  rw [clockOut_settled hs, hmod]
  exact if_neg (Nat.succ_ne_zero _)

/-- The last bit of a byte: the byte is received, before or after the completion of a frame that ends with it. -/
theorem clockPeriod_byte (hs : settle s = s) (hp : s.link.phase = 7) : clockPeriod v first s
    = receiveChar ⟨s.link.shiftedIn v, .high⟩ (if first then settle s.byteEnds else s.byteEnds) := by
  have hmod : (s.link.phase + 1) % 8 = 0 := by rw [hp]
  unfold clockPeriod
  rw [clockOut_settled hs, hmod]
  exact if_pos rfl

theorem clockPeriod_settle (v : Level) (first : Bool) (s : State) :
    clockPeriod v first (settle s) = clockPeriod v first s := by
  have hout : clockOut (settle s) = clockOut s := by
    unfold clockOut
    rw [settle_settle]
  unfold clockPeriod
  rw [hout]

theorem receiveEvent_sck (hl : s.link.linkType = .spi) (hc : s.link.csnAsserted = true) :
    receiveEvent (.sck v first) s = clockPeriod v first s := if_pos ⟨hl, hc⟩

/-- A start bit stops the gap timer (R138). -/
theorem receiveEvent_startBit (hl : s.link.linkType = .uart) :
    receiveEvent .startBit s = s.withLink { s.link with byteStarted := true } := by
  simp [receiveEvent, hl]

theorem receiveEvent_select (hl : s.link.linkType = .spi) :
    receiveEvent .select s = s.withLink { s.link with csnAsserted := true } := by
  simp [receiveEvent, hl]

/-- On a UART link, and with CSn deasserted, SCK does nothing. -/
theorem receiveEvent_sck_ignored (h : s.link.linkType = .uart ∨ s.link.csnAsserted = false) :
    receiveEvent (.sck v first) s = s := by
  refine if_neg ?_
  rintro ⟨hl, hc⟩
  rcases h with h | h
  · rw [hl] at h
    cases h
  · rw [hc] at h
    cases h

theorem exec_badFrame_one (hh : s.held = false) (x : LinkEvent) :
    exec (.badFrame [x]) s = .next (arbitrate (receiveEvent x s)) := exec_badFrame hh [x]

/-- With no frame to send, a period of SCK takes a bit and sends one of filler. -/
theorem exec_sck_idle (hh : s.held = false) (hl : s.link.linkType = .spi) (hc : s.link.csnAsserted = true)
    (ht : s.link.tx = none) (hq : arbitrate s = s) :
    (s.link.phase < 7 → exec (.badFrame [.sck v first]) s
        = .next (s.withLink { s.link with phase := s.link.phase + 1, sdi := s.link.shiftedIn v }))
      ∧ (s.link.phase = 7 → exec (.badFrame [.sck v first]) s
        = .next (arbitrate (receiveChar ⟨s.link.shiftedIn v, .high⟩ (s.withLink { s.link with phase := 0, sdi := 0 })))) := by
  have htx : s.link.tx.map (Transmission.clocked s.link.phase) = s.link.tx := by rw [ht]; rfl
  rw [exec_badFrame_one hh, receiveEvent_sck hl hc]
  refine ⟨fun hp => ?_, fun hp => ?_⟩
  · rw [clockPeriod_bit (settle_idle ht) hp, htx]
    exact congrArg _ (arbitrate_stays hq rfl rfl rfl rfl)
  · rw [clockPeriod_byte (settle_idle ht) hp, settle_idle (show s.byteEnds.link.tx = none from htx.trans ht), ite_self]
    unfold State.byteEnds
    rw [htx]

/-- With a frame in transmission whose last bit has not gone, a period of SCK takes a bit and sends one of the frame that is in
step, or of filler. -/
theorem exec_sck_sending (hh : s.held = false) (hl : s.link.linkType = .spi) (hc : s.link.csnAsserted = true)
    (ht : s.link.tx = some t) (hb : t.sent < 8 * (7 + t.frame.payload.length)) :
    (s.link.phase < 7 → exec (.badFrame [.sck v first]) s = .next (s.withLink { s.link with
        tx := some (t.clocked s.link.phase), phase := s.link.phase + 1, sdi := s.link.shiftedIn v }))
      ∧ (s.link.phase = 7 → (t.clocked s.link.phase).sent < 8 * (7 + t.frame.payload.length) ∨ first = false →
        exec (.badFrame [.sck v first]) s = .next (arbitrate (receiveChar ⟨s.link.shiftedIn v, .high⟩ s.byteEnds)))
      ∧ (s.link.phase = 7 → 8 * (7 + t.frame.payload.length) ≤ (t.clocked s.link.phase).sent → first = true →
        ∃ u, exec .transmitComplete s.byteEnds = .next u ∧ exec (.badFrame [.sck v first]) s
          = .next (arbitrate (receiveChar ⟨s.link.shiftedIn v, .high⟩ u))) := by
  have htx : s.link.tx.map (Transmission.clocked s.link.phase) = some (t.clocked s.link.phase) := by rw [ht]; rfl
  have hlen : (t.clocked s.link.phase).frame.payload.length = t.frame.payload.length := by rw [clocked_frame]
  rw [exec_badFrame_one hh, receiveEvent_sck hl hc]
  refine ⟨fun hp => ?_, fun hp hor => ?_, fun hp hg hf => ?_⟩
  · rw [clockPeriod_bit (settle_begun ht hb) hp, htx]
    exact congrArg _ (arbitrate_transmitting rfl)
  · rw [clockPeriod_byte (settle_begun ht hb) hp]
    rcases hor with hlt | rfl
    · rw [settle_begun (s := s.byteEnds) htx (by rwa [hlen]), ite_self]
    · rfl
  · refine ⟨settle s.byteEnds, exec_transmitComplete_settle hh hl htx (by rwa [hlen]), ?_⟩
    rw [clockPeriod_byte (settle_begun ht hb) hp, hf]
    rfl

/-- A frame that has gone completes before the next period of SCK. -/
theorem exec_sck_gone (hh : s.held = false) (hl : s.link.linkType = .spi) (hc : s.link.csnAsserted = true)
    (ht : s.link.tx = some t) (hg : 8 * (7 + t.frame.payload.length) ≤ t.sent) :
    ∃ u, exec .transmitComplete s = .next u
      ∧ exec (.badFrame [.sck v first]) s = exec (.badFrame [.sck v first]) u := by
  obtain ⟨hl', hc'⟩ := settle_linkType_csn s
  refine ⟨settle s, exec_transmitComplete_settle hh hl ht hg, ?_⟩
  rw [exec_badFrame_one hh, exec_badFrame_one ((settle_linkWork s).held.trans hh), receiveEvent_sck hl hc,
    receiveEvent_sck (hl'.trans hl) (hc'.trans hc), clockPeriod_settle]

/-! ## Eight periods of SCK are a byte (R132) -/

/-- A byte in reception with one more bit taken. -/
def shiftIn (x : Byte) (v : Level) : Byte := x <<< 1 ||| (if v = .high then 1 else 0)

theorem shiftedIn_eq (l : HostLink) (v : Level) : l.shiftedIn v = shiftIn l.sdi v := rfl

/-- The part when bits that do not end a byte have been taken. -/
def State.bitsTaken (vs : List Level) (s : State) : State := s.withLink { s.link with
  tx := s.link.tx.map (Transmission.clockedFor vs.length s.link.phase)
  phase := s.link.phase + vs.length
  sdi := vs.foldl shiftIn s.link.sdi }

theorem bitsTaken_nil (s : State) : s.bitsTaken [] = s := by
  have htx : s.link.tx.map (Transmission.clockedFor 0 s.link.phase) = s.link.tx := Option.map_id'
  unfold State.bitsTaken
  rw [List.length_nil, htx]
  rfl

theorem bitsTaken_cons (v : Level) (vs : List Level) (hp : s.link.phase < 7) :
    (s.bitsTaken [v]).bitsTaken vs = s.bitsTaken (v :: vs) := by
  have hmod : (s.link.phase + 1) % 8 = s.link.phase + 1 := Nat.mod_eq_of_lt (by omega)
  have htx : (s.link.tx.map (Transmission.clockedFor 1 s.link.phase)).map
      (Transmission.clockedFor vs.length (s.link.phase + 1))
      = s.link.tx.map (Transmission.clockedFor (vs.length + 1) s.link.phase) := by
    rw [Option.map_map]
    congr 1
    funext t
    rw [clockedFor_succ, hmod]
    rfl
  show s.withLink { s.link with
      tx := (s.link.tx.map (Transmission.clockedFor 1 s.link.phase)).map
        (Transmission.clockedFor vs.length (s.link.phase + 1))
      phase := s.link.phase + 1 + vs.length
      sdi := vs.foldl shiftIn (shiftIn s.link.sdi v) } = _
  rw [htx, Nat.add_assoc, Nat.add_comm 1]
  rfl

theorem bitsTaken_goesOn {n : Nat} (vs : List Level) (h : s.goesOn (vs.length + n)) : (s.bitsTaken vs).goesOn n := by
  intro t ht
  obtain ⟨t0, ht0, rfl⟩ := Option.map_eq_some_iff.mp ht
  have h1 := h t0 ht0
  have h2 := clockedFor_sent_le vs.length s.link.phase t0
  rw [clockedFor_frame]
  omega

theorem arbitrate_bitsTaken (vs : List Level) (hq : arbitrate s = s) :
    arbitrate (s.bitsTaken vs) = s.bitsTaken vs :=
  arbitrate_stays hq (by simp [State.bitsTaken]) rfl rfl rfl

/-- Bits that do not end a byte are taken one after another. -/
theorem receiveAll_bits {xs : List LinkEvent} (vs : List Level) (hl : s.link.linkType = .spi)
    (hc : s.link.csnAsserted = true) (hq : arbitrate s = s) (hg : s.goesOn vs.length)
    (hp : s.link.phase + vs.length ≤ 7) :
    receiveAll (vs.map (.sck · false) ++ xs) s = receiveAll xs (s.bitsTaken vs) := by
  induction vs generalizing s with
  | nil => rw [bitsTaken_nil]; rfl
  | cons v vs ih =>
    rw [List.length_cons] at hg hp
    have hbit : clockPeriod v false s = s.bitsTaken [v] := clockPeriod_bit (settle_goesOn hg) (by omega)
    have hphase : (s.bitsTaken [v]).link.phase = s.link.phase + 1 := rfl
    rw [List.map_cons, List.cons_append, receiveAll_cons, receiveEvent_sck hl hc, hbit, arbitrate_bitsTaken _ hq,
      ih (s := s.bitsTaken [v]) hl hc (arbitrate_bitsTaken _ hq)
        (bitsTaken_goesOn [v] (by rwa [List.length_singleton, Nat.add_comm])) (by omega), bitsTaken_cons v vs (by omega)]

/-- The level of a bit. -/
def bitLevel (x : Bool) : Level := if x then .high else .low

theorem shiftIn_zero (x : Byte) (c : Bool) : (shiftIn x (bitLevel c)).getLsbD 0 = c := by
  cases c <;> simp [shiftIn, bitLevel]

theorem shiftIn_succ (x : Byte) (v : Level) {i : Nat} (h : i < 7) : (shiftIn x v).getLsbD (i + 1) = x.getLsbD i := by
  cases v <;> simp [shiftIn] <;> omega

/-- The bits of a byte, taken one after another from bit 7 on, make the byte, whatever was there before. -/
theorem shiftIn_byte (x b : Byte) : ([7, 6, 5, 4, 3, 2, 1, 0].map (fun i => bitLevel (b.getLsbD i))).foldl shiftIn x = b := by
  apply BitVec.eq_of_getLsbD_eq
  intro i hi
  simp only [List.map_cons, List.map_nil, List.foldl_cons, List.foldl_nil]
  interval_cases i <;> simp only [shiftIn_succ, shiftIn_zero, Nat.reduceLT]

/-- The levels of the bits of a byte but the last, from bit 7 on. -/
def upperBits (b : Byte) : List Level := [7, 6, 5, 4, 3, 2, 1].map (fun i => bitLevel (b.getLsbD i))

theorem upperBits_phase (b : Byte) (hp : s.link.phase = 0) : (s.bitsTaken (upperBits b)).link.phase = 7 := by
  show s.link.phase + 7 = 7
  rw [hp]

theorem upperBits_shiftedIn (b : Byte) :
    (s.bitsTaken (upperBits b)).link.shiftedIn (bitLevel (b.getLsbD 0)) = b := by
  rw [shiftedIn_eq]
  exact shiftIn_byte s.link.sdi b

/-- The eight bits of a byte move the part as the byte does. -/
theorem upperBits_byteEnds (b : Byte) (hl : s.link.linkType = .spi) (hc : s.link.csnAsserted = true)
    (hp : s.link.phase = 0) : (s.bitsTaken (upperBits b)).byteEnds = s.withLink (s.link.movedOn 1) := by
  have htx : ((s.bitsTaken (upperBits b)).link.tx).map (Transmission.clocked 7)
      = s.link.tx.map (Transmission.clockedFor (8 * 1) 0) := by
    show (s.link.tx.map (Transmission.clockedFor 7 s.link.phase)).map (Transmission.clocked 7) = _
    rw [hp, Option.map_map]
    rfl
  unfold State.byteEnds
  rw [upperBits_phase b hp, htx, movedOn_spi hl, ← hc]
  rfl

/-- A character on an SPI link is its eight periods of SCK. -/
theorem exec_char_bits (b : Byte) (hh : s.held = false) (hl : s.link.linkType = .spi) (hc : s.link.csnAsserted = true)
    (hq : arbitrate s = s) (hu : s.undisturbed 1) : exec (.badFrame [.char ⟨b, .high⟩]) s = exec (.badFrame
      ([7, 6, 5, 4, 3, 2, 1, 0].map (fun i => .sck (if b.getLsbD i then .high else .low) false))) s := by
  obtain ⟨hp, hgo⟩ := hu hl
  have hbits : [7, 6, 5, 4, 3, 2, 1, 0].map (fun i => LinkEvent.sck (if b.getLsbD i then .high else .low) false)
      = (upperBits b).map (.sck · false) ++ [.sck (bitLevel (b.getLsbD 0)) false] := rfl
  have hlast : settle (s.bitsTaken (upperBits b)) = s.bitsTaken (upperBits b) :=
    settle_goesOn (n := 0) (bitsTaken_goesOn (upperBits b) hgo)
  rw [exec_badFrame_one hh, receiveEvent_char, show 8 - s.link.phase = 8 * 1 - s.link.phase from rfl, broughtIn_bytes hu,
    exec_badFrame hh, hbits, receiveAll_bits (upperBits b) hl hc hq (fun t ht => Nat.le_of_succ_le (hgo t ht))
      (by rw [hp]; exact Nat.le_refl 7), receiveAll_cons, receiveEvent_sck (s := s.bitsTaken (upperBits b)) hl hc,
    clockPeriod_byte hlast (upperBits_phase b hp), upperBits_shiftedIn, upperBits_byteEnds b hl hc hp]
  rfl

/-! ## SDO and TXD (R131, R132, R144) -/

theorem sdoDriven_eq (hh : s.held = false) (hl : s.link.linkType = .spi) (hc : s.link.csnAsserted = true) :
    s.sdoDriven = true := by
  simp [State.sdoDriven, hh, hl, hc]

theorem sdoDriven_not (h : s.link.linkType = .uart ∨ s.link.csnAsserted = false) : s.sdoDriven = false := by
  rcases h with h | h <;> simp [State.sdoDriven, h]

theorem sdoBits_driven (hd : s.sdoDriven = true) : s.sdoBits = (spiBits s.sdoByte).drop s.link.phase := if_pos hd

theorem sdoBits_not (hd : s.sdoDriven = false) : s.sdoBits = [] := if_neg (by simp [hd])

theorem sdoByte_filler (h : s.link.tx = none ∨ ∃ t, s.link.tx = some t ∧ t.sent % 8 ≠ s.link.phase) :
    s.sdoByte = 0 := by
  unfold State.sdoByte
  rcases h with h | ⟨t, ht, hn⟩
  · simp only [h]
    rfl
  · simp only [ht]
    exact if_neg hn

theorem sdoByte_frame {b : Byte} {i j : Nat} (ht : s.link.tx = some t) (hs : t.sent = 8 * i + j) (hp : j = s.link.phase)
    (hj : j < 8) (hb : t.frame.bytes[i]? = some b) : s.sdoByte = b := by
  have hin : t.sent % 8 = s.link.phase := by omega
  have hi : t.sent / 8 = i := by omega
  unfold State.sdoByte
  simp only [ht]
  rw [if_pos hin, hi, byteAt, List.getD_eq_getElem?_getD, hb, Option.getD_some]

/-- Of pieces of one length, one is found by its place. -/
theorem getD_flatMap {α β : Type} {f : α → List β} {n i j : Nat} {x : α} (d : β) (hf : ∀ x, (f x).length = n) (hj : j < n)
    {l : List α} (hx : l[i]? = some x) : (l.flatMap f).getD (n * i + j) d = (f x).getD j d := by
  induction l generalizing i with
  | nil => cases hx
  | cons y ys ih =>
    rw [List.flatMap_cons]
    cases i with
    | zero =>
      cases hx
      rw [Nat.mul_zero, Nat.zero_add, List.getD_append _ _ _ _ (by rw [hf]; exact hj)]
    | succ i =>
      rw [List.getD_append_right _ _ _ _ (by rw [hf, Nat.mul_succ]; omega), hf,
        show n * (i + 1) + j - n = n * i + j by rw [Nat.mul_succ]; omega, ih hx]

/-- The bits of a byte on TXD. -/
theorem uartBits_getD (b : Byte) {j : Nat} (hj : j < 10) : (uartBits b).getD j .high
    = if j = 0 then .low else if j = 9 then .high else if b.getLsbD (j - 1) then .high else .low := by
  interval_cases j <;> rfl

theorem txd_rests (h : s.link.linkType = .spi ∨ s.link.tx = none) : s.txd = .high := by
  refine if_pos ?_
  rcases h with h | h <;> simp [State.txdRests, h]

theorem txd_frame {b : Byte} {i j : Nat} (hh : s.held = false) (hl : s.link.linkType = .uart) (ht : s.link.tx = some t)
    (hb : t.frame.bytes[i]? = some b) (hj : j < 10)
    (hpos : (s.clock - t.startedAt) * s.link.rate.baud / 50000000 = 10 * i + j) :
    s.txd = (uartBits b).getD j .high := by
  have hbit : s.txBit t = 10 * i + j := hpos
  unfold State.txd
  rw [if_neg (by simp [State.txdRests, hh, hl, ht])]
  simp only [ht]
  rw [hbit, getD_flatMap (n := 10) _ (fun _ => rfl) hj hb]

end Sys2Proof.Machine

open Sys2Proof Sys2Proof.Machine in
/-- Settles O50: each event of the pins by the lemma that says what it does, and each pin by the lemma that says what it
shows. -/
theorem framesBrokenOff : Obligations.FramesBrokenOff := by
  unfold Obligations.FramesBrokenOff
  intro s hh
  refine ⟨fun n hl ha hb hn hq => ?_, fun h => ?_, fun hl => ?_, fun hl => ?_, fun v first h => ?_,
    fun v first hl hc => ⟨fun ht hq => exec_sck_idle hh hl hc ht hq, fun t ht => ⟨fun hb => ?_,
      fun hg => exec_sck_gone hh hl hc ht hg⟩⟩,
    fun b hl hc hq hu => exec_char_bits b hh hl hc hq hu, fun hl => ?_, fun hl => ⟨fun ha => ?_, fun ha => ?_⟩,
    fun h => ⟨sdoDriven_not h, sdoBits_not (sdoDriven_not h)⟩,
    fun hl hc => ⟨sdoDriven_eq hh hl hc, fun h => ?_, fun t b i j ht hs hp hj hb => ?_⟩, txd_rests,
    fun t b i j hl ht hb hj hpos => ?_⟩
  · subst hn
    rw [exec_gapTimerExpiry, whenDue_eq hh (gapDue_running hl ha hb) hq]
    rfl
  · rw [exec_gapTimerExpiry, gapDue_stopped h, whenDue_none]
  · rw [exec_badFrame_one hh, receiveEvent_startBit hl]
  · rw [exec_badFrame_one hh, receiveEvent_select hl]
  · rw [exec_badFrame_one hh, receiveEvent_sck_ignored h]
  · have hsend := exec_sck_sending (v := v) (first := first) hh hl hc ht hb
    have hends : s.byteEnds = s.withLink { s.link with
        tx := some (t.clocked s.link.phase), phase := 0, sdi := 0 } := by
      unfold State.byteEnds
      rw [ht]
      rfl
    rw [hends, clocked_eq] at hsend
    exact hsend
  · rw [exec_csnDeassert hh, deassertCsn_uart hl]
  · rw [exec_csnDeassert hh, deassertCsn_spi hl]
    exact congrArg (fun u => Host.Outcome.next (arbitrate u)) (if_pos ha)
  · rw [exec_csnDeassert hh, deassertCsn_spi hl]
    exact congrArg (fun u => Host.Outcome.next (arbitrate u)) (if_neg ha)
  · rw [sdoBits_driven (sdoDriven_eq hh hl hc), sdoByte_filler h, ← List.drop_replicate]
    rfl
  · rw [sdoBits_driven (sdoDriven_eq hh hl hc), sdoByte_frame ht hs hp hj hb, ← hp]
    exact List.map_drop.symm
  · rw [txd_frame hh hl ht hb hj hpos, uartBits_getD b hj]

end

