-- ==== Sys2Proof/Proofs/Outbox.lean ====
section
/-! PROOFS. Reports that join the outbox, and what one that finds it full does to the queue and to REPORT_OVERFLOW (R156, R157,
R172). -/

namespace Sys2Proof.Machine

variable {s : State} {b : ReportBody} {u : ReportUnit}

/-! ## With room (R156) -/

theorem filed_disabled (h : u.enables b.kind = false) : u.filed b = u := if_neg (by simp [h])

theorem filed_enabled (h : u.enables b.kind = true) : u.filed b = { u with
    queue := fileBy Report.before (newReport b u.nextCreation) u.queue
    nextCreation := u.nextCreation + 1 } := if_pos h

/-- A report that is filed has its place in the queue's order, being the newest of its class. -/
theorem filed_queueOrdered (b : ReportBody) (h : QueueOrdered u) : QueueOrdered (u.filed b) := by
  cases he : u.enables b.kind with
  | false => rwa [filed_disabled he]
  | true =>
    rw [filed_enabled he]
    refine ⟨fileBy_ordered h.inOrder h.created, fun r hr => ?_⟩
    rcases (mem_fileBy _ _ _ _).mp hr with rfl | hr
    · exact Nat.lt_succ_self _
    · exact Nat.lt_succ_of_lt (h.created r hr)

/-! ## With the outbox full (R157) -/

/-- A class C report that finds the outbox full is dropped. -/
theorem placeReport_classC (hf : Config.outboxCap ≤ u.outboxCount) (hb : b.kind.cls = .c) :
    placeReport b u = ({ u with nextCreation := u.nextCreation + 1 }, .lost b.kind false) := by
  have hc : (newReport b u.nextCreation).cls = .c := hb
  unfold placeReport
  rw [if_neg hf.not_gt, if_pos hc]

/-- A class A or B report that finds the outbox full, and no class C report queued, is dropped. -/
theorem placeReport_dropped (hf : Config.outboxCap ≤ u.outboxCount) (hb : b.kind.cls ≠ .c)
    (hq : ∀ r ∈ u.queue, r.cls ≠ .c) :
    placeReport b u = ({ u with nextCreation := u.nextCreation + 1 }, .lost b.kind (b.kind = .fault)) := by
  have hc : (newReport b u.nextCreation).cls ≠ .c := hb
  unfold placeReport
  rw [if_neg hf.not_gt, if_neg hc, takeOldestC_none hq]

/-- A class A or B report that finds the outbox full evicts the first class C report queued. -/
theorem placeReport_evicts {pre post : List Report} {old : Report} (hf : Config.outboxCap ≤ u.outboxCount)
    (hb : b.kind.cls ≠ .c) (hq : u.queue = pre ++ old :: post) (hpre : ∀ r ∈ pre, r.cls ≠ .c) (ho : old.cls = .c) :
    placeReport b u = ({ u with
      queue := fileBy Report.before (newReport b u.nextCreation) (pre ++ post)
      nextCreation := u.nextCreation + 1 }, .lost old.body.kind false) := by
  have hc : (newReport b u.nextCreation).cls ≠ .c := hb
  unfold placeReport
  rw [if_neg hf.not_gt, if_neg hc, hq, takeOldestC_first hpre ho]

/-- A kind counted before is counted again in its entry alone where its notice is not acted on, however its report would be
created and FAULTED entered (R172, R174). -/
theorem countWith_again {create : ReportBody → State → State} {fatal : FaultKind → State → State} {k : FaultKind} (q : Bool)
    (d : Option FaultDetail) (hc : 0 < (s.faultEntry k).count)
    (hn : s.run.state.sequencing = false ∨ s.isFatal k = false) :
    countWith create fatal q k d s = recordFault k d s := by
  have hquiet : ¬((recordFault k d s).isFatal k = true ∧ (recordFault k d s).run.state.sequencing = true) := by
    rintro ⟨hfatal, hseq⟩
    rcases hn with hn | hn
    · exact absurd (hn.symm.trans hseq) (by decide)
    · exact absurd (hn.symm.trans hfatal) (by decide)
  unfold countWith
  simp only [hc.ne', false_and, if_false, if_neg hquiet]

/-- A report whose placing loses one of kind `k`, with REPORT_OVERFLOW counted before, leaves the outbox as the placing leaves
it and counts REPORT_OVERFLOW with that kind. -/
theorem createReport_lost {k : ReportKind} {q : Bool} (he : s.reports.enables b.kind = true)
    (hp : placeReport b s.reports = (u, .lost k q)) (hc : 0 < (s.faultEntry .reportOverflow).count) (hs : s.calm) :
    createReport b s = recordFault .reportOverflow (some (.report k)) (s.withReports u) := by
  have hcount : createReport b s = countOverflow k q (s.withReports u) := by
    unfold createReport createWith
    rw [if_pos he, hp]
  rw [hcount]
  exact countWith_again q _ hc hs

end Sys2Proof.Machine

open Sys2Proof.Machine in
/-- Settles O14: with room in the outbox a report is filed (`createReport_room`). -/
theorem reportCreated : Obligations.ReportCreated := by
  unfold Obligations.ReportCreated
  intro b s hr
  rw [createReport_room b hr]
  refine ⟨fun he => ?_, fun he => ⟨fileBy Report.before (newReport b s.reports.nextCreation) s.reports.queue, ?_,
    fileBy_perm _ _ _, filed_queueOrdered b⟩, rfl⟩
  · unfold State.filing
    rw [filed_disabled he]
    rfl
  · unfold State.filing
    rw [filed_enabled he]

open Sys2Proof.Machine in
/-- Settles O15: by what the placing does to the queue, a report being lost in each case (`createReport_lost`). -/
theorem reportOverflow : Obligations.ReportOverflow := by
  unfold Obligations.ReportOverflow
  intro b s he hf hc hs
  exact ⟨fun hb => createReport_lost he (placeReport_classC hf hb) hc hs,
    fun hb hq => createReport_lost he (placeReport_dropped hf hb hq) hc hs,
    fun pre old post hb hq hpre ho => createReport_lost he (placeReport_evicts hf hb hq hpre ho) hc hs⟩

end

