-- ==== Sys2Proof/Proofs/Acknowledgement.lean ====
section
/-! PROOFS. An ACK and the expiry of a retry interval: the in-flight report of a sequence number that stands once, or none
(R162, R164). -/

namespace Sys2Proof.Machine

variable {s : State} {q : Seq} {pre post : List Report} {r : Report}

/-! ## The in-flight report of a sequence number -/

theorem inFlight_none (h : ∀ x ∈ s.reports.flight, x.seq ≠ some q) : s.reports.inFlight q = none :=
  List.find?_eq_none.mpr fun x hx => by simpa using h x hx

theorem inFlight_some (hf : s.reports.flight = pre ++ r :: post) (hr : r.seq = some q)
    (hn : ∀ x ∈ pre ++ post, x.seq ≠ some q) : s.reports.inFlight q = some r := by
  unfold ReportUnit.inFlight
  rw [hf, find_seq hr hn]

/-- Without the report of a sequence number the others stay in flight. -/
theorem without_eq (hf : s.reports.flight = pre ++ r :: post) (hr : r.seq = some q)
    (hn : ∀ x ∈ pre ++ post, x.seq ≠ some q) : s.reports.without q = { s.reports with flight := pre ++ post } := by
  unfold ReportUnit.without
  rw [hf, filter_seq hr hn]

/-! ## An ACK (R164) -/

theorem takeAck_unknown (h : ∀ x ∈ s.reports.flight, x.seq ≠ some q) :
    takeAck q s = countFault .ackUnknown (some (.sequence q)) s := by
  unfold takeAck
  rw [inFlight_none h]

theorem takeAck_known (hf : s.reports.flight = pre ++ r :: post) (hr : r.seq = some q)
    (hn : ∀ x ∈ pre ++ post, x.seq ≠ some q) : takeAck q s = s.withReports { s.reports with flight := pre ++ post } := by
  unfold takeAck
  rw [inFlight_some hf hr hn, without_eq hf hr hn]

theorem frameArrived_reports (s : State) : (frameArrived s).reports = s.reports := by
  rw [frameArrived_eq]
  simp

/-- An ACK that comes in is taken by the Report Unit, its frame having been heard. -/
theorem arrives_ack (hh : s.held = false) : Arrives (.ack q) s (arbitrate (takeAck q (frameArrived s))) :=
  arrives_of fun s0 h0 => by
    have hheld : s0.held = false := by rw [← frameBroughtIn_held (frameLength (.ack q)) s0, h0, hh]
    rw [← h0]
    exact atOnce_eq (event := fun u => takeAck q (frameArrived (frameBroughtIn 0 u))) hheld

/-! ## A retry interval (R162) -/

theorem retryDue_awaiting {since ms : Nat} (hi : s.reports.inFlight q = some r) (hs : r.state = .awaiting since ms) :
    retryDue q s = some (ms * 50000 - (s.clock - since)) := by
  unfold retryDue Report.intervalLeft
  rw [hi, Option.bind_some, hs]
  rfl

/-- With a retry left the report becomes RETRY_DUE. -/
theorem expireInterval_retried {limit : Nat} (hf : s.reports.flight = pre ++ r :: post) (hr : r.seq = some q)
    (hn : ∀ x ∈ pre ++ post, x.seq ≠ some q) (hl : r.retryLimit = some limit) (hc : r.retryCount < limit) :
    expireInterval q s = s.withReports { s.reports with
      flight := pre ++ { r with state := .retryDue s.clock } :: post } := by
  have hleft : r.retryCount < r.retryLimit.getD 0 := by rwa [hl]
  simp only [expireInterval, inFlight_some hf hr hn, if_pos hleft]
  rw [hf, replaceReport_seq _ hr hn]

/-- With no retry left the report leaves the outbox, and REPORT_EXPIRED is counted. -/
theorem expireInterval_expired {limit : Nat} (hf : s.reports.flight = pre ++ r :: post) (hr : r.seq = some q)
    (hn : ∀ x ∈ pre ++ post, x.seq ≠ some q) (hl : r.retryLimit = some limit) (hc : limit ≤ r.retryCount) :
    expireInterval q s = countFault .reportExpired (some (.expired q r.body.kind))
      (s.withReports { s.reports with flight := pre ++ post }) := by
  have hnone : ¬ r.retryCount < r.retryLimit.getD 0 := by
    rw [hl]
    exact hc.not_gt
  simp only [expireInterval, inFlight_some hf hr hn, if_neg hnone]
  rw [without_eq hf hr hn]

/-- The retry interval of a report in flight, nothing falling due before its end, ends at its length (R161). -/
theorem exec_retryIntervalExpiry {since ms : Nat} (hh : s.held = false) (hi : s.reports.inFlight q = some r)
    (hs : r.state = .awaiting since ms) (hq : s.quietFor (ms * 50000 - (s.clock - since))) :
    exec (.retryIntervalExpiry q) s =
      .next (arbitrate (expireInterval q (elapse (ms * 50000 - (s.clock - since)) s))) :=
  whenDue_eq hh (retryDue_awaiting hi hs) hq

end Sys2Proof.Machine

open Sys2Proof.Machine in
/-- Settles O48: an ACK by whether its sequence number is in flight (`takeAck_unknown`, `takeAck_known`), an interval by
whether a retry is left (`expireInterval_retried`, `expireInterval_expired`). -/
theorem ackAndRetry : Obligations.AckAndRetry := by
  unfold Obligations.AckAndRetry
  intro s q hh
  have hreports := frameArrived_reports s
  refine ⟨fun hn => ?_, fun pre r post hf hr hn => ⟨?_, fun since ms n limit hs hms hq hl => ?_⟩⟩
  · rw [← takeAck_unknown (by rwa [hreports])]
    exact arrives_ack hh
  · rw [← hreports, ← takeAck_known (by rwa [hreports]) hr hn]
    exact arrives_ack hh
  · subst hms
    rw [exec_retryIntervalExpiry hh (inFlight_some hf hr hn) hs hq]
    refine ⟨fun hc => ?_, fun hc => ?_⟩
    · rw [expireInterval_retried (s := elapse _ s) hf hr hn hl hc]
      rfl
    · rw [expireInterval_expired (s := elapse _ s) hf hr hn hl hc]
      rfl

end

