-- ==== Sys2Proof/Proofs/FaultTable.lean ====
section
/-! PROOFS. The Fault Table: a counting that enters no FAULTED, with room for its report, and the requests READ_FAULTS,
CLEAR_FAULTS and SET_FAULT_MASKS (R172, R173, R176 to R178). -/

namespace Sys2Proof.Machine

variable {s : State} {tag : Tag} {c : Option Byte}

/-! ## A counting with room for its report (R172, R173) -/

/-- A counting whose notice is not acted on, with room for its report, is recorded and told, and nothing follows (R172 to
R174). -/
theorem countFault_told {k : FaultKind} (d : Option FaultDetail) (hr : s.hasRoom 1)
    (hn : s.run.state.sequencing = false ∨ s.isFatal k = false) :
    countFault k d s = { s with faults := (recordFault k d s).faults, reports := ReportUnit.toldFault s k d } := by
  have hquiet : ¬(s.isFatal k = true ∧ s.run.state.sequencing = true) := by
    rintro ⟨hfatal, hseq⟩
    rcases hn with hn | hn
    · exact absurd (hn.symm.trans hseq) (by decide)
    · exact absurd (hn.symm.trans hfatal) (by decide)
  have hc : createReport (.fault k 1 d) (recordFault k d s) = (recordFault k d s).filing (.fault k 1 d) :=
    createReport_room _ hr
  have hrep : (recordFault k d s).isReported k = s.isReported k := rfl
  unfold countFault countWith ReportUnit.toldFault
  simp only [and_true, hc, hrep]
  by_cases hf : (s.faultEntry k).count = 0 ∧ s.isReported k = true
  · rw [if_pos hf, if_pos hf]
    exact if_neg hquiet
  · rw [if_neg hf, if_neg hf]
    exact if_neg hquiet

/-! ## Requests whose owner block replaces the Fault Table -/

theorem taking_withFaults (tag : Tag) (s : State) (x : FaultTable) :
    (taking tag s).withFaults x = ((restartSilence s).withFaults x).withLink (taking tag s).link := by
  conv_lhs => rw [taking_eq]
  rfl

theorem answers_withFaults {i : Instr} {p : List Byte} {r : Reply} {x : FaultTable}
    (he : encodeRequest i = some (tag, p)) (hc : p.head? = c) (h : s.admits tag c = true)
    (hu : takeCommand i (taking tag s) = ((taking tag s).withFaults x, r)) :
    Answers i tag c (responsePayload c r) r.after s ((restartSilence s).withFaults x) :=
  answers_command he hc h (by rw [hu, taking_withFaults])

/-- A set names no kind outside the eleven (R183). -/
theorem faultSetOk_iff (kinds : BitVec 16) : faultSetOk kinds = true ↔ kinds.toNat < 2 ^ 11 := decide_eq_true_iff

/-! ## READ_FAULTS (R176) -/

/-- What READ_FAULTS is answered with at the taking is what the table holds when the request comes in. -/
theorem takeReadFaults_taking (tag : Tag) (s : State) : takeReadFaults (taking tag s) = (taking tag s,
    replyOk (leBytes 2 s.faults.fatal.toNat ++ leBytes 2 s.faults.report.toNat
      ++ allFaults.flatMap (fun k => (s.faultEntry k).bytes k))) := by
  unfold takeReadFaults
  simp only [taking_faults, taking_faultEntry]

/-! ## CLEAR_FAULTS (R177) -/

/-- The table with the entries of a set zeroed. -/
def FaultTable.cleared (x : FaultTable) (kinds : BitVec 16) : FaultTable := { x with
  entries := tabulate (fun i => if kinds.getLsbD i.val then defaultFaultEntry else getAt x.entries i) }

/-- The kinds of a set whose count is above 0. -/
def State.countedIn (s : State) (kinds : BitVec 16) : List FaultKind :=
  allFaults.filter (fun k => kinds.getLsbD k.code.val && 0 < (s.faultEntry k).count)

theorem takeClearFaults_bad {kinds : BitVec 16} (h : 2 ^ 11 ≤ kinds.toNat) (t : State) :
    takeClearFaults kinds t = (t, reply .badValue) :=
  if_neg fun hk => h.not_gt ((faultSetOk_iff kinds).mp hk)

theorem takeClearFaults_good {kinds : BitVec 16} (h : kinds.toNat < 2 ^ 11) (t : State) :
    takeClearFaults kinds t =
      (t.withFaults (t.faults.cleared kinds), replyOk [BitVec.ofNat 8 (t.countedIn kinds).length]) :=
  if_pos ((faultSetOk_iff kinds).mpr h)

theorem faultEntry_cleared {t : State} {kinds : BitVec 16} (h : t.faults = s.faults.cleared kinds) (k : FaultKind) :
    t.faultEntry k = if kinds.getLsbD k.code.val then defaultFaultEntry else s.faultEntry k := by
  unfold State.faultEntry
  rw [h]
  exact getAt_tabulate _ _

theorem FaultTable.cleared_zero (x : FaultTable) : x.cleared 0 = x := by
  have hentries : (x.cleared 0).entries = x.entries := table_ext fun i => by simp [FaultTable.cleared]
  exact congrArg (fun e => { x with entries := e }) hentries

theorem State.countedIn_zero (s : State) : s.countedIn 0 = [] := by
  simp [State.countedIn]

/-- An admitted CLEAR_FAULTS whose set names no kind outside the eleven is answered with the number of kinds that it found
counted. -/
theorem answers_clearFaults {kinds : BitVec 16} (h : s.admits tag (some 0x79) = true) (hk : kinds.toNat < 2 ^ 11) :
    Answers (.clearFaults tag kinds) tag (some 0x79) [0x79, 0x00, BitVec.ofNat 8 (s.countedIn kinds).length] .nothing s
      ((restartSilence s).withFaults (s.faults.cleared kinds)) := by
  have htake := takeClearFaults_good hk (taking tag s)
  have hcounted : (taking tag s).countedIn kinds = s.countedIn kinds := by
    unfold State.countedIn
    simp only [taking_faultEntry]
  rw [taking_faults, hcounted] at htake
  exact answers_withFaults (i := .clearFaults tag kinds) rfl rfl h htake

/-! ## SET_FAULT_MASKS (R178) -/

theorem takeSetFaultMasks_bad {fatal report : BitVec 16} (h : 2 ^ 11 ≤ fatal.toNat ∨ 2 ^ 11 ≤ report.toNat) (t : State) :
    takeSetFaultMasks fatal report t = (t, reply .badValue) := by
  refine if_neg fun ⟨hf, hr⟩ => ?_
  rw [faultSetOk_iff] at hf hr
  omega

theorem takeSetFaultMasks_good {fatal report : BitVec 16} (hf : fatal.toNat < 2 ^ 11) (hr : report.toNat < 2 ^ 11)
    (t : State) : takeSetFaultMasks fatal report t =
      (t.withFaults { t.faults with fatal := fatal.setWidth 11, report := report.setWidth 11 },
       replyOk (leBytes 2 fatal.toNat ++ leBytes 2 report.toNat)) :=
  if_pos ⟨(faultSetOk_iff fatal).mpr hf, (faultSetOk_iff report).mpr hr⟩

end Sys2Proof.Machine

open Sys2Proof.Machine in
/-- Settles O16: the counting is recorded and told (`countFault_told`), and its entry is the one recorded. -/
theorem faultCounted : Obligations.FaultCounted := by
  unfold Obligations.FaultCounted
  intro k d s hr hn
  rw [countFault_told d hr hn]
  refine ⟨?_, fun j hj => ?_, rfl, rfl, rfl⟩
  · exact (faultEntry_recordFault k k d s).trans (if_pos rfl)
  · exact (faultEntry_recordFault k j d s).trans (if_neg hj)

open Sys2Proof Sys2Proof.Machine in
/-- Settles O46: a set within the eleven zeroes its entries in the state at the taking (`answers_clearFaults`), the empty one
none (`FaultTable.cleared_zero`). -/
theorem clearFaults : Obligations.ClearFaults := by
  unfold Obligations.ClearFaults
  intro s tag set h
  refine ⟨fun hv => answers_unchanged (r := reply .badValue) rfl rfl h (takeClearFaults_bad hv _), fun hzero => ?_,
    fun hv => ?_⟩
  · subst hzero
    have hanswer := answers_clearFaults (kinds := 0) h (by decide)
    rw [FaultTable.cleared_zero, State.countedIn_zero, ← restartSilence_faults s] at hanswer
    exact hanswer
  · obtain ⟨t, hcompletes, hanswered, hsame⟩ := answers_clearFaults h hv
    have hfaults : t.faults = s.faults.cleared set := hsame.faults
    have hentry := faultEntry_cleared hfaults
    refine ⟨t, hcompletes, hanswered, ?_, ?_, ?_, fun k hk => ?_, fun k hk => ?_⟩
    · rw [hfaults]
      exact hsame
    · rw [hfaults]
      rfl
    · rw [hfaults]
      rfl
    · rw [hentry, if_pos hk]
      rfl
    · rw [hentry, if_neg (by simp [hk])]

open Sys2Proof Sys2Proof.Machine in
/-- Settles O47: a set that names a kind outside the eleven leaves the state at the taking, others replace both sets in it. -/
theorem setFaultMasks : Obligations.SetFaultMasks := by
  unfold Obligations.SetFaultMasks
  intro s tag fatal report h
  refine ⟨fun hv => answers_unchanged (r := reply .badValue) rfl rfl h (takeSetFaultMasks_bad hv _), fun hf hr => ?_⟩
  have htake := takeSetFaultMasks_good hf hr (taking tag s)
  rw [taking_faults] at htake
  exact answers_withFaults (i := .setFaultMasks tag fatal report) rfl rfl h htake

open Sys2Proof Sys2Proof.Machine in
/-- Settles O45: the table is read at the taking (`takeReadFaults_taking`), where it is as the request found it. -/
theorem readFaults : Obligations.ReadFaults := by
  unfold Obligations.ReadFaults
  intro s tag h
  exact answers_unchanged (i := .readFaults tag) rfl rfl h (takeReadFaults_taking tag s)

end

section
/-! PROOFS. The request codec (R181, R182, 10.3, 10.6): what `encodeRequest` writes, `decodeRequest` reads back. The reading
of a field of whole bytes, of the rule record and of each request row stands in Answers.lean. -/

/-- Settles O4: every request row is read as it was written (`decodeRequest_encoded`, by cases of the command), a PING of at
most 16 bytes having a length that its code takes. -/
theorem decodeReadsWhatEncodeWrites : Obligations.DecodeReadsWhatEncodeWrites := by
  unfold Obligations.DecodeReadsWhatEncodeWrites
  intro i tag p hencoded hping
  exact Sys2Proof.Machine.decodeRequest_encoded hencoded hping

end

section
/-! PROOFS. The step on a queue that holds a command: what ties the machine to its dispatcher. -/

open Sys2Proof.Machine in
/-- Settles O1: of the two branches of `step`, the queue's front selects the one that dispatches (O2 is the other). -/
theorem stepTakesFrontCommand : Obligations.StepTakesFrontCommand := by
  unfold Obligations.StepTakesFrontCommand
  intro c rest s hqueue
  rw [step, hqueue]

end
